-- ==== Sys2Proof/Word.lean ====
section
/-! DEFINITION. The word types of the machine (R4: bit 0 is the least significant). -/

namespace Sys2Proof

/-- A byte of memory. -/
abbrev Byte := BitVec 8
/-- An x register's contents. -/
abbrev Word := BitVec 64
/-- A v register's contents. -/
abbrev V128 := BitVec 128

end Sys2Proof
end

