-- ==== Sys2Proof/Syntax.lean ====
section
/-! DEFINITION. The Helog instructions and the device's steps as data: one constructor of `Instr` per row of
spec/opcode_table.json. Rows 0-220 are 32-bit instruction words; rows 221-309 are steps of the device that have no
word, and carry as operands which part takes the step and what reaches it from outside. -/

namespace Sys2Proof

/-- An x register number (R129). -/
abbrev XReg := BitVec 5
/-- A v register number (R129). -/
abbrev VReg := BitVec 5
/-- A p register number (R129). -/
abbrev PReg := BitVec 3
/-- A d/n register number (R129). -/
abbrev DReg := BitVec 4
/-- An engine descriptor register number (R129). -/
abbrev EReg := BitVec 5
/-- A group of four v registers, named by its first register divided by 4 (R300, R343). -/
abbrev VGroup := BitVec 3
/-- A gang descriptor, named by its first ed register divided by 4 (R278). -/
abbrev EGroup := BitVec 3
/-- An accumulator tile (R129). -/
abbrev AccReg := BitVec 3
/-- A completion counter (R129). -/
abbrev CReg := BitVec 3
/-- A mailbox (R129). -/
abbrev MBox := BitVec 2
/-- A barrier point, 0-23 when well formed (R129). -/
abbrev BPoint := BitVec 5

/-- Precision of a scalar floating-point form, F[5] (R131). -/
inductive Prec | single | double
deriving DecidableEq, Repr
/-- Variants of `fsgn` (R132, R160). -/
inductive SgnVariant | take | inv | xor | abs
deriving DecidableEq, Repr
/-- Integer types of `fcvti` and `fcvtf` (R132, R161). -/
inductive IntVariant | sl | ul | sw | uw
deriving DecidableEq, Repr
/-- Variants of `fcvtp` (R132, R161). -/
inductive FmtVariant | other | fromh | toh
deriving DecidableEq, Repr
/-- The five scopes (R19). -/
inductive Scope | strand | core | sheaf | field | system
deriving DecidableEq, Repr
/-- Ordering kind of an AMO or `cas` (R131). -/
inductive OrdKind | none | acq | rel | acqrel
deriving DecidableEq, Repr
/-- Kind of a `fence` (R131, R321). -/
inductive FenceKind | rel | acq | full
deriving DecidableEq, Repr
/-- Load widths, code W (R130). -/
inductive LdWidth | b | h | w | d | bz | hz | wz
deriving DecidableEq, Repr
/-- Store widths, code W (R130). -/
inductive StWidth | b | h | w | d
deriving DecidableEq, Repr
/-- Widths of an AMO or `cas` (R131). -/
inductive AmoWidth | w | d
deriving DecidableEq, Repr
/-- Vector element types, field T (R134). -/
inductive VType | ib | ih | iw | zb | zh | zw | f16 | f32
deriving DecidableEq, Repr
/-- Conditions of `vcmp` (R131). -/
inductive Cond | eq | ne | lt | le
deriving DecidableEq, Repr
/-- Narrow formats (R133). -/
inductive NFmt | t8 | t6 | t4
deriving DecidableEq, Repr
/-- Float side of `vqdec` and `vqenc` (R133). -/
inductive FFmt | f16 | f32
deriving DecidableEq, Repr

/-- A message that reaches the device over an Apgauno link (R33, R340): an input from a peer. -/
structure PeerMsg where
  dev : BitVec 4
  src : BitVec 16
  ctx : BitVec 4
  core : BitVec 14
  mbox : BitVec 2
  len : Nat
  data : List Byte
deriving DecidableEq, Repr

/-- Where a delivered message comes from: entry `idx` of core `core`'s send queue, or a peer. -/
inductive MsgFrom
  | queue (core idx : Nat)
  | peer (port : Nat) (m : PeerMsg)
deriving DecidableEq, Repr

/-- What the bring-up steps of R38 meet in the silicon: which cores fail core test (R43), whether the two firmware
checks pass (steps 1 and 2), and the page the firmware chooses for the ownership map (R45). -/
structure BringUp where
  fw1 : Bool
  fw2 : Bool
  failed : List Nat
  page : Nat
deriving DecidableEq, Repr

/-- The rows of the opcode table. -/
inductive Instr
  /-- TRAP (R375). -/
  | trap (a : XReg)
  /-- SYSC (R375). -/
  | sysc
  /-- KRET (R376). -/
  | kret
  /-- BRK (R375). -/
  | brk (n : BitVec 10)
  /-- NAP (R166). -/
  | nap (a : XReg)
  /-- DONE (R401). -/
  | done
  /-- YIELD (R168). -/
  | yield
  /-- FENCEI (R169). -/
  | fencei
  /-- TLBINV (R266). -/
  | tlbinv (a : XReg) (b : XReg) (s : Scope)
  /-- SETHUE (R320). -/
  | sethue (h : BitVec 3)
  /-- HALT (R377). -/
  | halt (a : XReg)
  /-- PWRH (R170). -/
  | pwrh (a : XReg)
  /-- ADD (R146). -/
  | add (d : XReg) (a : XReg) (b : XReg)
  /-- SUB (R146). -/
  | sub (d : XReg) (a : XReg) (b : XReg)
  /-- AND (R146). -/
  | and (d : XReg) (a : XReg) (b : XReg)
  /-- OR (R146). -/
  | or (d : XReg) (a : XReg) (b : XReg)
  /-- XOR (R146). -/
  | xor (d : XReg) (a : XReg) (b : XReg)
  /-- ANDN (R146). -/
  | andn (d : XReg) (a : XReg) (b : XReg)
  /-- SLL (R146). -/
  | sll (d : XReg) (a : XReg) (b : XReg)
  /-- SRL (R146). -/
  | srl (d : XReg) (a : XReg) (b : XReg)
  /-- SRA (R146). -/
  | sra (d : XReg) (a : XReg) (b : XReg)
  /-- ROL (R146). -/
  | rol (d : XReg) (a : XReg) (b : XReg)
  /-- SLT (R146). -/
  | slt (d : XReg) (a : XReg) (b : XReg)
  /-- SLTU (R146). -/
  | sltu (d : XReg) (a : XReg) (b : XReg)
  /-- MIN (R146). -/
  | min (d : XReg) (a : XReg) (b : XReg)
  /-- MAX (R146). -/
  | max (d : XReg) (a : XReg) (b : XReg)
  /-- MINU (R146). -/
  | minu (d : XReg) (a : XReg) (b : XReg)
  /-- MAXU (R146). -/
  | maxu (d : XReg) (a : XReg) (b : XReg)
  /-- CLZ (R146). -/
  | clz (d : XReg) (a : XReg)
  /-- CTZ (R146). -/
  | ctz (d : XReg) (a : XReg)
  /-- POPC (R146). -/
  | popc (d : XReg) (a : XReg)
  /-- BREV (R146). -/
  | brev (d : XReg) (a : XReg)
  /-- BSWAP (R146). -/
  | bswap (d : XReg) (a : XReg)
  /-- ILV (R146). -/
  | ilv (d : XReg) (a : XReg) (b : XReg)
  /-- ILV3 (R146). -/
  | ilv3 (d : XReg) (a : XReg) (b : XReg) (c : XReg)
  /-- DILV (R146). -/
  | dilv (d : XReg) (a : XReg)
  /-- DILV3 (R146). -/
  | dilv3 (d : XReg) (a : XReg)
  /-- SEL (R146). -/
  | sel (d : XReg) (a : XReg) (b : XReg) (c : XReg)
  /-- ADDW (R146). -/
  | addw (d : XReg) (a : XReg) (b : XReg)
  /-- SUBW (R146). -/
  | subw (d : XReg) (a : XReg) (b : XReg)
  /-- MUL (R148). -/
  | mul (d : XReg) (a : XReg) (b : XReg)
  /-- MULH (R148). -/
  | mulh (d : XReg) (a : XReg) (b : XReg)
  /-- MULHU (R148). -/
  | mulhu (d : XReg) (a : XReg) (b : XReg)
  /-- MULW (R148). -/
  | mulw (d : XReg) (a : XReg) (b : XReg)
  /-- DIV (R149). -/
  | div (d : XReg) (a : XReg) (b : XReg)
  /-- DIVU (R149). -/
  | divu (d : XReg) (a : XReg) (b : XReg)
  /-- REM (R149). -/
  | rem (d : XReg) (a : XReg) (b : XReg)
  /-- REMU (R149). -/
  | remu (d : XReg) (a : XReg) (b : XReg)
  /-- MADD (R148). -/
  | madd (d : XReg) (a : XReg) (b : XReg) (c : XReg)
  /-- EXTR (R147). -/
  | extr (d : XReg) (a : XReg) (p : BitVec 6) (l : BitVec 6) (s : Bool)
  /-- INSF (R147). -/
  | insf (d : XReg) (a : XReg) (p : BitVec 6) (l : BitVec 6)
  /-- CSRR (R145). -/
  | csrr (d : XReg) (c : BitVec 12)
  /-- CSRW (R145). -/
  | csrw (d : XReg) (a : XReg) (c : BitVec 12)
  /-- CSRS (R145). -/
  | csrs (d : XReg) (a : XReg) (c : BitVec 12)
  /-- CSRC (R145). -/
  | csrc (d : XReg) (a : XReg) (c : BitVec 12)
  /-- ADDI (R151). -/
  | addi (d : XReg) (a : XReg) (i : BitVec 16)
  /-- ANDI (R151). -/
  | andi (d : XReg) (a : XReg) (i : BitVec 16)
  /-- ORI (R151). -/
  | ori (d : XReg) (a : XReg) (i : BitVec 16)
  /-- XORI (R151). -/
  | xori (d : XReg) (a : XReg) (i : BitVec 16)
  /-- SLLI (R151). -/
  | slli (d : XReg) (a : XReg) (n : BitVec 6)
  /-- SRLI (R151). -/
  | srli (d : XReg) (a : XReg) (n : BitVec 6)
  /-- SRAI (R151). -/
  | srai (d : XReg) (a : XReg) (n : BitVec 6)
  /-- ROLI (R151). -/
  | roli (d : XReg) (a : XReg) (n : BitVec 6)
  /-- SLTI (R151). -/
  | slti (d : XReg) (a : XReg) (i : BitVec 16)
  /-- SLTIU (R151). -/
  | sltiu (d : XReg) (a : XReg) (i : BitVec 16)
  /-- LHI (R151). -/
  | lhi (d : XReg) (i : BitVec 16)
  /-- ADDPC (R151). -/
  | addpc (d : XReg) (o : BitVec 16)
  /-- BEQ (R152). -/
  | beq (b : XReg) (a : XReg) (o : BitVec 16)
  /-- BNE (R152). -/
  | bne (b : XReg) (a : XReg) (o : BitVec 16)
  /-- BLT (R152). -/
  | blt (b : XReg) (a : XReg) (o : BitVec 16)
  /-- BGE (R152). -/
  | bge (b : XReg) (a : XReg) (o : BitVec 16)
  /-- BLTU (R152). -/
  | bltu (b : XReg) (a : XReg) (o : BitVec 16)
  /-- BGEU (R152). -/
  | bgeu (b : XReg) (a : XReg) (o : BitVec 16)
  /-- JMP (R153). -/
  | jmp (o : BitVec 26)
  /-- JAL (R153). -/
  | jal (o : BitVec 26)
  /-- JALR (R153). -/
  | jalr (d : XReg) (a : XReg) (i : BitVec 16)
  /-- LOOP (R154). -/
  | loop (a : XReg) (l : BitVec 5)
  /-- XRD (R156). -/
  | xrd (d : XReg) (a : XReg)
  /-- XWR (R156). -/
  | xwr (a : XReg) (b : XReg)
  /-- FADD (R159). -/
  | fadd (d : XReg) (a : XReg) (b : XReg) (p : Prec)
  /-- FSUB (R159). -/
  | fsub (d : XReg) (a : XReg) (b : XReg) (p : Prec)
  /-- FMUL (R159). -/
  | fmul (d : XReg) (a : XReg) (b : XReg) (p : Prec)
  /-- FDIV (R159). -/
  | fdiv (d : XReg) (a : XReg) (b : XReg) (p : Prec)
  /-- FSQRT (R159). -/
  | fsqrt (d : XReg) (a : XReg) (p : Prec)
  /-- FMIN (R159). -/
  | fmin (d : XReg) (a : XReg) (b : XReg) (p : Prec)
  /-- FMAX (R159). -/
  | fmax (d : XReg) (a : XReg) (b : XReg) (p : Prec)
  /-- FEQ (R159). -/
  | feq (d : XReg) (a : XReg) (b : XReg) (p : Prec)
  /-- FLT (R159). -/
  | flt (d : XReg) (a : XReg) (b : XReg) (p : Prec)
  /-- FLE (R159). -/
  | fle (d : XReg) (a : XReg) (b : XReg) (p : Prec)
  /-- FCLASS (R159). -/
  | fclass (d : XReg) (a : XReg) (p : Prec)
  /-- FSGN (R160). -/
  | fsgn (d : XReg) (a : XReg) (b : XReg) (v : SgnVariant) (p : Prec)
  /-- FCVTI (R161). -/
  | fcvti (d : XReg) (a : XReg) (v : IntVariant) (p : Prec)
  /-- FCVTF (R161). -/
  | fcvtf (d : XReg) (a : XReg) (v : IntVariant) (p : Prec)
  /-- FCVTP (R161). -/
  | fcvtp (d : XReg) (a : XReg) (v : FmtVariant) (p : Prec)
  /-- FMA (R162). -/
  | fma (d : XReg) (a : XReg) (b : XReg) (c : XReg) (p : Prec)
  /-- FMS (R162). -/
  | fms (d : XReg) (a : XReg) (b : XReg) (c : XReg) (p : Prec)
  /-- FNMA (R162). -/
  | fnma (d : XReg) (a : XReg) (b : XReg) (c : XReg) (p : Prec)
  /-- FNMS (R162). -/
  | fnms (d : XReg) (a : XReg) (b : XReg) (c : XReg) (p : Prec)
  /-- LD (R259). -/
  | ld (d : XReg) (a : XReg) (wd : LdWidth) (i : Bool) (o : BitVec 12)
  /-- ST (R259). -/
  | st (s : XReg) (a : XReg) (wd : StWidth) (i : Bool) (o : BitVec 12)
  /-- LDX (R259). -/
  | ldx (d : XReg) (a : XReg) (b : XReg) (wd : LdWidth)
  /-- STX (R259). -/
  | stx (s : XReg) (a : XReg) (b : XReg) (wd : StWidth)
  /-- VLD (R260). -/
  | vld (d : VReg) (a : XReg) (i : Bool) (o : BitVec 12)
  /-- VST (R260). -/
  | vst (s : VReg) (a : XReg) (i : Bool) (o : BitVec 12)
  /-- VLDS (R261). -/
  | vlds (d : VReg) (a : XReg) (b : XReg)
  /-- VSTS (R261). -/
  | vsts (s : VReg) (a : XReg) (b : XReg)
  /-- VLDG (R261). -/
  | vldg (d : VReg) (a : XReg) (b : VReg)
  /-- VSTG (R261). -/
  | vstg (s : VReg) (a : XReg) (b : VReg)
  /-- DLD (R262). -/
  | dld (d : DReg) (a : XReg) (i : Bool) (o : BitVec 12)
  /-- DST (R262). -/
  | dst (d : DReg) (a : XReg) (i : Bool) (o : BitVec 12)
  /-- AMOADD (R263). -/
  | amoadd (d : XReg) (a : XReg) (b : XReg) (k : OrdKind) (s : Scope) (wd : AmoWidth)
  /-- AMOAND (R263). -/
  | amoand (d : XReg) (a : XReg) (b : XReg) (k : OrdKind) (s : Scope) (wd : AmoWidth)
  /-- AMOOR (R263). -/
  | amoor (d : XReg) (a : XReg) (b : XReg) (k : OrdKind) (s : Scope) (wd : AmoWidth)
  /-- AMOXOR (R263). -/
  | amoxor (d : XReg) (a : XReg) (b : XReg) (k : OrdKind) (s : Scope) (wd : AmoWidth)
  /-- AMOMIN (R263). -/
  | amomin (d : XReg) (a : XReg) (b : XReg) (k : OrdKind) (s : Scope) (wd : AmoWidth)
  /-- AMOMAX (R263). -/
  | amomax (d : XReg) (a : XReg) (b : XReg) (k : OrdKind) (s : Scope) (wd : AmoWidth)
  /-- AMOMINU (R263). -/
  | amominu (d : XReg) (a : XReg) (b : XReg) (k : OrdKind) (s : Scope) (wd : AmoWidth)
  /-- AMOMAXU (R263). -/
  | amomaxu (d : XReg) (a : XReg) (b : XReg) (k : OrdKind) (s : Scope) (wd : AmoWidth)
  /-- AMOSWAP (R263). -/
  | amoswap (d : XReg) (a : XReg) (b : XReg) (k : OrdKind) (s : Scope) (wd : AmoWidth)
  /-- AMOFADD (R263). -/
  | amofadd (d : XReg) (a : XReg) (b : XReg) (k : OrdKind) (s : Scope) (wd : AmoWidth)
  /-- CAS (R264). -/
  | cas (d : XReg) (a : XReg) (b : XReg) (c : XReg) (wd : AmoWidth) (k : OrdKind) (s : Scope)
  /-- FENCE (R321). -/
  | fence (k : FenceKind) (s : Scope) (m : BitVec 8)
  /-- WAITW (R271). -/
  | waitw (a : XReg) (b : XReg)
  /-- WAITC (R288). -/
  | waitc (c : CReg) (t : BitVec 8)
  /-- VADD (R195). -/
  | vadd (d : VReg) (a : VReg) (b : VReg) (p : PReg) (t : VType)
  /-- VSUB (R195). -/
  | vsub (d : VReg) (a : VReg) (b : VReg) (p : PReg) (t : VType)
  /-- VMUL (R195). -/
  | vmul (d : VReg) (a : VReg) (b : VReg) (p : PReg) (t : VType)
  /-- VMA (R195). -/
  | vma (d : VReg) (a : VReg) (b : VReg) (p : PReg) (t : VType)
  /-- VMIN (R195). -/
  | vmin (d : VReg) (a : VReg) (b : VReg) (p : PReg) (t : VType)
  /-- VMAX (R195). -/
  | vmax (d : VReg) (a : VReg) (b : VReg) (p : PReg) (t : VType)
  /-- VAND (R195). -/
  | vand (d : VReg) (a : VReg) (b : VReg) (p : PReg) (t : VType)
  /-- VOR (R195). -/
  | vor (d : VReg) (a : VReg) (b : VReg) (p : PReg) (t : VType)
  /-- VXOR (R195). -/
  | vxor (d : VReg) (a : VReg) (b : VReg) (p : PReg) (t : VType)
  /-- VANDN (R195). -/
  | vandn (d : VReg) (a : VReg) (b : VReg) (p : PReg) (t : VType)
  /-- VSHL (R195). -/
  | vshl (d : VReg) (a : VReg) (b : VReg) (p : PReg) (t : VType)
  /-- VSHR (R195). -/
  | vshr (d : VReg) (a : VReg) (b : VReg) (p : PReg) (t : VType)
  /-- VABS (R195). -/
  | vabs (d : VReg) (a : VReg) (p : PReg) (t : VType)
  /-- VNEG (R195). -/
  | vneg (d : VReg) (a : VReg) (p : PReg) (t : VType)
  /-- VSEL (R196). -/
  | vsel (d : VReg) (a : VReg) (b : VReg) (p : PReg) (t : VType)
  /-- VADDSAT (R195). -/
  | vaddsat (d : VReg) (a : VReg) (b : VReg) (p : PReg) (t : VType)
  /-- VSUBSAT (R195). -/
  | vsubsat (d : VReg) (a : VReg) (b : VReg) (p : PReg) (t : VType)
  /-- VMULH (R195). -/
  | vmulh (d : VReg) (a : VReg) (b : VReg) (p : PReg) (t : VType)
  /-- VDOT4 (R197). -/
  | vdot4 (d : VReg) (a : VReg) (b : VReg) (p : PReg) (t : VType)
  /-- VDOT2 (R197). -/
  | vdot2 (d : VReg) (a : VReg) (b : VReg) (p : PReg) (t : VType)
  /-- VBCAST (R199). -/
  | vbcast (d : VReg) (a : XReg) (p : PReg) (t : VType)
  /-- VMOVX (R199). -/
  | vmovx (d : VReg) (a : XReg) (b : XReg) (t : VType)
  /-- VEXTX (R199). -/
  | vextx (d : XReg) (a : VReg) (b : XReg) (t : VType)
  /-- VPERM (R199). -/
  | vperm (d : VReg) (a : VReg) (b : VReg) (p : PReg) (t : VType)
  /-- VROT (R199). -/
  | vrot (d : VReg) (a : VReg) (b : XReg) (p : PReg) (t : VType)
  /-- VREDADD (R200). -/
  | vredadd (d : XReg) (a : VReg) (p : PReg) (t : VType)
  /-- VREDMIN (R200). -/
  | vredmin (d : XReg) (a : VReg) (p : PReg) (t : VType)
  /-- VREDMAX (R200). -/
  | vredmax (d : XReg) (a : VReg) (p : PReg) (t : VType)
  /-- VCVT (R201). -/
  | vcvt (d : VReg) (a : VReg) (f : Bool) (s : BitVec 4) (p : PReg) (t : VType)
  /-- VRCP (R202). -/
  | vrcp (d : VReg) (a : VReg) (p : PReg) (t : VType)
  /-- VRSQ (R202). -/
  | vrsq (d : VReg) (a : VReg) (p : PReg) (t : VType)
  /-- VEXP2 (R202). -/
  | vexp2 (d : VReg) (a : VReg) (p : PReg) (t : VType)
  /-- VLOG2 (R202). -/
  | vlog2 (d : VReg) (a : VReg) (p : PReg) (t : VType)
  /-- VSIN (R202). -/
  | vsin (d : VReg) (a : VReg) (p : PReg) (t : VType)
  /-- VCOS (R202). -/
  | vcos (d : VReg) (a : VReg) (p : PReg) (t : VType)
  /-- VENC12 (R204). -/
  | venc12 (d : VReg) (a : VReg) (b : VReg) (p : PReg)
  /-- VPACK (R203). -/
  | vpack (d : VReg) (a : VReg) (b : VReg) (t : VType)
  /-- VUNPACK (R203). -/
  | vunpack (d : VReg) (a : VReg) (h : BitVec 1) (t : VType)
  /-- VCMP (R205). -/
  | vcmp (d : PReg) (a : VReg) (b : VReg) (p : PReg) (t : VType) (c : Cond)
  /-- PAND (R206). -/
  | pand (d : PReg) (a : PReg) (b : PReg)
  /-- POR (R206). -/
  | por (d : PReg) (a : PReg) (b : PReg)
  /-- PXOR (R206). -/
  | pxor (d : PReg) (a : PReg) (b : PReg)
  /-- PNOT (R206). -/
  | pnot (d : PReg) (a : PReg)
  /-- PMOV (R206). -/
  | pmov (d : PReg) (a : XReg)
  /-- PGET (R206). -/
  | pget (d : XReg) (a : PReg)
  /-- PCNT (R206). -/
  | pcnt (d : XReg) (a : PReg)
  /-- VQMA (R208). -/
  | vqma (d : VReg) (a : VReg) (b : VReg) (c : XReg) (na : NFmt) (nb : NFmt)
  /-- VQDEC (R209). -/
  | vqdec (d : VReg) (a : VReg) (n : BitVec 5) (c : XReg) (nf : NFmt) (ff : FFmt)
  /-- VQENC (R210). -/
  | vqenc (d : VReg) (a : VReg) (n : BitVec 5) (c : XReg) (ff : FFmt) (nf : NFmt)
  /-- DNORM (R220). -/
  | dnorm (d : DReg) (a : DReg)
  /-- DVEC (R221). -/
  | dvec (d : DReg) (a : VReg)
  /-- DDOT (R223). -/
  | ddot (d : XReg) (a : DReg) (b : DReg)
  /-- DADD (R219). -/
  | dadd (d : DReg) (a : DReg) (b : DReg)
  /-- DSUB (R219). -/
  | dsub (d : DReg) (a : DReg) (b : DReg)
  /-- DSCL (R224). -/
  | dscl (d : DReg) (a : DReg) (b : XReg)
  /-- DNEG (R224). -/
  | dneg (d : DReg) (a : DReg)
  /-- DREFL (R219). -/
  | drefl (d : DReg) (a : DReg) (b : DReg)
  /-- DCROSS (R219). -/
  | dcross (d : DReg) (a : DReg) (b : DReg)
  /-- DMIX (R219). -/
  | dmix (d : DReg) (a : DReg) (b : DReg) (c : XReg)
  /-- DMOVN (R225). -/
  | dmovn (d : XReg) (a : DReg)
  /-- DSETN (R224). -/
  | dsetn (d : DReg) (a : DReg) (b : XReg)
  /-- DTST (R226). -/
  | dtst (d : XReg) (a : DReg)
  /-- DMOV (R222). -/
  | dmov (d : VReg) (a : DReg)
  /-- DPROJ (R219). -/
  | dproj (d : DReg) (a : DReg) (b : DReg)
  /-- RBOX (R236). -/
  | rbox (d : XReg) (a : VReg) (b : DReg) (c : XReg)
  /-- RTRI (R237). -/
  | rtri (d : XReg) (a : VReg) (b : DReg) (c : XReg)
  /-- TSETUP (R302). -/
  | tsetup (d : VGroup) (a : XReg) (b : XReg)
  /-- TCOVER (R303). -/
  | tcover (d : XReg) (a : VGroup) (b : XReg)
  /-- TINTERP (R304). -/
  | tinterp (d : VReg) (a : XReg) (b : XReg)
  /-- TEXLD (R306). -/
  | texld (d : VReg) (a : VReg) (b : XReg)
  /-- EMIT (R406). -/
  | emit (a : XReg) (b : XReg) (c : XReg)
  /-- EMITQ (R407). -/
  | emitq (d : XReg) (a : XReg)
  /-- SEND (R344). -/
  | send (d : XReg) (a : XReg) (b : XReg) (m : MBox) (n : Bool)
  /-- SENDV (R344). -/
  | sendv (d : XReg) (a : XReg) (b : VGroup) (m : MBox) (n : Bool)
  /-- RECV (R345). -/
  | recv (d : XReg) (b : VGroup) (m : MBox) (n : Bool)
  /-- RECVN (R346). -/
  | recvn (d : XReg) (a : XReg) (b : VGroup) (c : XReg)
  /-- MPOLL (R347). -/
  | mpoll (d : XReg) (m : MBox)
  /-- BINIT (R336). -/
  | binit (a : XReg) (c : BPoint)
  /-- BARR (R337). -/
  | barr (d : XReg) (c : BPoint)
  /-- BWAIT (R338). -/
  | bwait (a : XReg) (c : BPoint)
  /-- KINIT (R357). -/
  | kinit (a : XReg) (b : XReg)
  /-- KENTER (R357). -/
  | kenter (d : XReg) (a : XReg) (b : XReg)
  /-- KLEAVE (R357). -/
  | kleave (a : XReg)
  /-- KSKIP (R357). -/
  | kskip (a : XReg) (b : XReg)
  /-- KFREE (R357). -/
  | kfree (a : XReg)
  /-- QPOP (R352). -/
  | qpop (d : XReg) (a : XReg) (n : Bool)
  /-- QPUSH (R351). -/
  | qpush (d : XReg) (a : XReg) (b : XReg) (n : Bool)
  /-- SPAWN (R354). -/
  | spawn (d : XReg) (a : XReg) (b : XReg)
  /-- QCLOSE (R353). -/
  | qclose (a : XReg)
  /-- EWR (R274). -/
  | ewr (d : EReg) (a : XReg)
  /-- ERD (R274). -/
  | erd (d : XReg) (a : EReg)
  /-- COPY (R268). -/
  | copy (d : XReg) (a : XReg) (b : XReg) (c : CReg)
  /-- MGANG (R279). -/
  | mgang (t : AccReg) (k : EGroup) (c : CReg)
  /-- MLUT (R279). -/
  | mlut (t : AccReg) (k : EGroup) (c : CReg)
  /-- ACL (R284). -/
  | acl (t : AccReg)
  /-- AST (R285). -/
  | ast (d : XReg) (t : AccReg) (b : XReg) (c : CReg)
  /-- ALD (R285). -/
  | ald (t : AccReg) (a : XReg) (b : XReg) (c : CReg)
  /-- BOUNDARY_TRAP_TAKE. R369: strand `sid` takes its lowest pending boundary cause. -/
  | boundaryTrapTake (sid : Nat)
  /-- CONTROL_RESUME. R379: a well-formed RESUME from a strand of context `ctx` reaches slot `sid`. -/
  | controlResume (sid : Nat) (ctx : BitVec 4)
  /-- CONTROL_SKIP. R379: a well-formed SKIP. -/
  | controlSkip (sid : Nat) (ctx : BitVec 4)
  /-- CONTROL_KILL. R379: a well-formed KILL. -/
  | controlKill (sid : Nat) (ctx : BitVec 4)
  /-- STORE_DRAIN. R315: the entry with program-order number `seq` of strand `sid` is performed. -/
  | storeDrain (sid seq : Nat)
  /-- L1_LINE_REMOVE. R316: core `core` loses its copy of physical line `line`. -/
  | l1LineRemove (core line : Nat)
  /-- ICACHE_FILL. R123: the line strand `sid` waits for arrives in its core's instruction cache. -/
  | icacheFill (sid : Nat)
  /-- ENGINE_PAYLOAD_WRITE. R323: engine thread `op` performs its payload write number `unit`; `fresh` is how many of the writes of others to its source since the fork it reads, where R269 allows the old and the new value. -/
  | enginePayloadWrite (op unit fresh : Nat)
  /-- COPY_COMPLETE. R269: copy `op` writes its flag word and decrements its counter. -/
  | copyComplete (op : Nat)
  /-- GANG_FORM. R280, R281: the oldest committed group of sheaf `sheaf` forms. -/
  | gangForm (sheaf : Nat)
  /-- GANG_COMPLETE. R281, R282: gang operation `op` completes; digit i of `freshWords`, to a base of one more than the number of writes of others since the fork, is how many of them the aligned word at scratchpad offset 4i of the leader's sheaf is read after, and digit 65,536 + i that of the neighbour that SRCB names (R277). -/
  | gangComplete (op freshWords : Nat)
  /-- GANGTO. R280: a waiting member's `gangto` count expires. -/
  | gangto (sid : Nat)
  /-- AST_COMPLETE. R285: `ast` operation `op` finishes. -/
  | astComplete (op : Nat)
  /-- ALD_COMPLETE. R285: `ald` operation `op` reads its 64 elements and writes its tile; digit i of `freshWords`, to a base of one more than the number of writes of others since the fork, is how many of them its i-th aligned 4 bytes are read after (R323). -/
  | aldComplete (op freshWords : Nat)
  /-- MESSAGE_DELIVER. R340: a message is delivered to a ring, consumed as a control message, or refused. -/
  | messageDeliver (src : MsgFrom)
  /-- SEND_RETRY. R341: a refused send-queue entry may be tried again. -/
  | sendRetry (core idx : Nat)
  /-- EDGE_DELIVER. R342: an m3 message enters the neighbour's edge mailbox. -/
  | edgeDeliver (core idx : Nat)
  /-- BARRIER_ARRIVAL_COUNT. R337: an entered arrival counts once its release has completed. -/
  | barrierArrivalCount (launch point sheaf sid : Nat)
  /-- KEY_LEAVE_EFFECT. R357: the effect of a `kleave` whose release has completed. -/
  | keyLeaveEffect (sid : Nat) (key : Word)
  /-- KEY_SKIP_EFFECT. R357: the effect of a `kskip` whose release has completed. -/
  | keySkipEffect (sid : Nat) (key : Word) (num : BitVec 32)
  /-- KEY_PROBE. R359: the probe of waiter `sid`. -/
  | keyProbe (sid : Nat)
  /-- STALL. R332: a watched wait of `sid` has reached `stallto`. -/
  | stall (sid : Nat)
  /-- RECVN_TIMEOUT. R346: the time-out of a waiting `recvn`. -/
  | recvnTimeout (sid : Nat)
  /-- NAP_WAKE. R166: field time has reached the wake time of `sid`. -/
  | napWake (sid : Nat)
  /-- QUEUE_DOORBELL. R27: the host writes `tag` to DOORBELL of queue port `port`. -/
  | queueDoorbell (port : Nat) (tag : BitVec 32)
  /-- REGISTER_WRITE. R25: the host writes `val` at BAR0 offset `off`. -/
  | registerWrite (off : Nat) (val : Word)
  /-- HOST_BAR2_READ. R26: the host reads `len` bytes through BAR2. -/
  | hostBar2Read (addr len : Nat)
  /-- HOST_BAR2_WRITE. R26: the host writes bytes through BAR2. -/
  | hostBar2Write (addr : Nat) (bytes : List Byte)
  /-- PCIE_CONFIG_REQUEST. R38: a configuration request; `some b` sets the MSI-X enable of the function to `b`. -/
  | pcieConfigRequest (msix : Option Bool)
  /-- COLD_RESET. R37, R38: main power is applied. -/
  | coldReset (b : BringUp)
  /-- WARM_RESET. R37, R38: PCIe fundamental reset. -/
  | warmReset (b : BringUp)
  /-- FIELD_RESET. R37, R38: the field reset that FRESET bit 0 starts. -/
  | fieldReset (b : BringUp)
  /-- CALLOAD_WAIT_TIMEOUT. R38 step 6: 2 s pass without a calibration load. -/
  | calloadWaitTimeout
  /-- ATTEST. R41: the host writes 0x01 to MBCMD. -/
  | attest
  /-- FWSTAGE. R39, R40: the host writes 0x02 to MBCMD. -/
  | fwstage
  /-- CALLOAD. R42: the host writes 0x03 to MBCMD. -/
  | calload
  /-- GRANSET. R248: the host writes 0x04 to MBCMD. -/
  | granset
  /-- VTLOG. R246: the host writes 0x05 to MBCMD. -/
  | vtlog
  /-- ENDCTX. R381: the host writes 0x06 to MBCMD. -/
  | endctx
  /-- KVEC. R396: the host writes 0x07 to MBCMD. -/
  | kvec
  /-- MB_UNKNOWN_COMMAND. R40: the host writes an unassigned code to MBCMD. -/
  | mbUnknownCommand (code : Byte)
  /-- MB_COMMAND_END. R40: the running mailbox command ends. -/
  | mbCommandEnd
  /-- FTCFG_WRITE. R47: the host writes FTCFG. -/
  | ftcfgWrite (val : Word)
  /-- FTSYNC_EDGE. R47: a rising edge of the FTSYNC input. -/
  | ftsyncEdge
  /-- FTIME_LOAD. R47: a scheduled load falls due. -/
  | ftimeLoad
  /-- OC_CAUSE_CLEAR. R114: the host writes OC_CAUSE. -/
  | ocCauseClear (val : Word)
  /-- LINK_ENABLE. R35: PCTL.EN is written 1. -/
  | linkEnable (port : Nat)
  /-- LINK_DISABLE. R35: PCTL.EN is written 0. -/
  | linkDisable (port : Nat)
  /-- LINK_HOLD. R35: PCTL.HOLD is written 1. -/
  | linkHold (port : Nat)
  /-- LINK_HOLD_RELEASE. R35: PCTL.HOLD is written 0. -/
  | linkHoldRelease (port : Nat)
  /-- LINK_TRAINED. R35: training ends on `lanes` lanes with the peer's id. -/
  | linkTrained (port : Nat) (peer : BitVec 4) (lanes : Nat)
  /-- LINK_LANE_FAIL. R32: a lane fails training. -/
  | linkLaneFail (port : Nat)
  /-- LINK_DOWN. R34: the link goes down. -/
  | linkDown (port : Nat)
  /-- FLIT_CRC_FAIL. R32: a received flit fails CRC-32. -/
  | flitCrcFail (port : Nat)
  /-- FREEZE_ASSERT. R48: FREEZE is asserted. -/
  | freezeAssert
  /-- FREEZE_RELEASE. R49: FREEZE is released. -/
  | freezeRelease
  /-- DEBUG_FRZ. R50: update of FRZ. -/
  | debugFrz (v : Bool)
  /-- DEBUG_SHSEL. R50: update of SHSEL. -/
  | debugShsel (v : BitVec 32)
  /-- DEBUG_SHDATA. R50: capture of SHDATA. -/
  | debugShdata
  /-- DEBUG_ARSEL. R50: update of ARSEL. -/
  | debugArsel (v : Word)
  /-- DEBUG_ARDATA. R50: capture and update of ARDATA. -/
  | debugArdata
  /-- OC_N_ASSERT. R114: the OC_N input is asserted. -/
  | ocNAssert
  /-- SENSOR_READING. R115: sensor `j` reads `raw` sixteenths of a degree. -/
  | sensorReading (j : Nat) (raw : Int)
  /-- DROOP_DETECT. R113: the rail of a sheaf falls by more than 5%. -/
  | droopDetect (sheaf : Nat)
  /-- DROOP_RECOVER. R113: the clock period is restored. -/
  | droopRecover (sheaf : Nat)
  /-- GOVERNOR_TICK. R102: a tick boundary; bit r of `rails` is set when rail r read above 1.25 times its limit over the tick (R114). -/
  | governorTick (rails : BitVec 6)
  /-- VF_TRANSITION_DONE. R111: a change of V/F point completes. -/
  | vfTransitionDone (sheaf : Nat)
  /-- TOKEN_STARVE. R100: a core whose store cannot cover its next charge gates itself. -/
  | tokenStarve (core : Nat)
  /-- CORE_POWER_GATE. R98: an idle core is power-gated. -/
  | corePowerGate (core : Nat)
  /-- CORE_POWER_OFF. R98: a power-gated core turns fully off. -/
  | corePowerOff (core : Nat)
  /-- CORE_WAKE_DONE. R98: a waking core completes its wake. -/
  | coreWakeDone (core : Nat)
  /-- LAUNCH_ACCEPT. R86: the oldest record of a launch queue reaches the launch table. -/
  | launchAccept (queue : Nat)
  /-- LAUNCH_CHOOSE. R90: the next READY launch is chosen. -/
  | launchChoose
  /-- STRAND_HANDOUT. R90: the next strand is handed to a slot. -/
  | strandHandout
  /-- STRAND_START. R83: a handed-out strand starts. -/
  | strandStart (sid : Nat)
  /-- LAUNCH_COMPLETE. R92: a launch completes. -/
  | launchComplete (launch : Nat)
  /-- PREEMPT_REQUEST. R384: the Thresher asks a strand to pause, for a waiting pinned or packable strand. -/
  | preemptRequest (pinned : Bool)
  /-- HUSK_SAVE. R387: a stopped strand is saved. -/
  | huskSave (sid : Nat)
  /-- HUSK_RESUME. R389: the next waiting husk resumes. -/
  | huskResume
  /-- MESH_SLOT_RESERVE. R292: a mesh ring slot is reserved for the next strand of a launch. -/
  | meshSlotReserve (launch : Nat)
  /-- SLOT_ASSEMBLE. R294: the assembler processes the next slot of a ring. -/
  | slotAssemble (ctx : Nat)
  /-- TRAY_RECORD_DELIVER. R298: the delivery unit of a core handles its next record. -/
  | trayRecordDeliver (core : Nat)
  /-- PAGE_FETCH_COMPLETE. R307: a page request ends with the bytes PCIe returned, or with a completion error. -/
  | pageFetchComplete (req : Nat) (resp : Option (List Byte))
  /-- EMIT_TRANSFER_START. R406: the emission unit of a core begins its next transfer with the beats that the step names; bit i of `freshWords` chooses the new value of aligned word i of the buffer. -/
  | emitTransferStart (core : Nat) (freshWords : Nat)
  /-- EMIT_ARRIVAL. R406: the last beat of the transfer arrives. -/
  | emitArrival (core : Nat)
  /-- EMIT_SWAP. R406: the emission that `group` of `tile` is pending for swaps. -/
  | emitSwap (tile : Nat) (group : Nat)
  /-- SCRUB_PASS. R252: the scrubber corrects the words at the locations `corrected` and finds those at `bad` uncorrectable. -/
  | scrubPass (corrected : List Nat) (bad : List Nat)
  /-- VERTICAL_TEST_VISIT. R245: a visit of the vertical tester. -/
  | verticalTestVisit (core : Nat) (aborted : Bool) (mismatches : Nat)
  /-- ALWAYS_ON_POWER_LOSS. R6: loss of the always-on power clears every sticky field. -/
  | alwaysOnPowerLoss
deriving DecidableEq, Repr, Inhabited

/-- The rows that are 32-bit instruction words: a strand fetches and issues them (06_instruction_word.md). -/
def Instr.isWord : Instr → Bool
  | .boundaryTrapTake _ => false
  | .controlResume _ _ => false
  | .controlSkip _ _ => false
  | .controlKill _ _ => false
  | .storeDrain _ _ => false
  | .l1LineRemove _ _ => false
  | .icacheFill _ => false
  | .enginePayloadWrite _ _ _ => false
  | .copyComplete _ => false
  | .gangForm _ => false
  | .gangComplete _ _ => false
  | .gangto _ => false
  | .astComplete _ => false
  | .aldComplete _ _ => false
  | .messageDeliver _ => false
  | .sendRetry _ _ => false
  | .edgeDeliver _ _ => false
  | .barrierArrivalCount _ _ _ _ => false
  | .keyLeaveEffect _ _ => false
  | .keySkipEffect _ _ _ => false
  | .keyProbe _ => false
  | .stall _ => false
  | .recvnTimeout _ => false
  | .napWake _ => false
  | .queueDoorbell _ _ => false
  | .registerWrite _ _ => false
  | .hostBar2Read _ _ => false
  | .hostBar2Write _ _ => false
  | .pcieConfigRequest _ => false
  | .coldReset _ => false
  | .warmReset _ => false
  | .fieldReset _ => false
  | .calloadWaitTimeout => false
  | .attest => false
  | .fwstage => false
  | .calload => false
  | .granset => false
  | .vtlog => false
  | .endctx => false
  | .kvec => false
  | .mbUnknownCommand _ => false
  | .mbCommandEnd => false
  | .ftcfgWrite _ => false
  | .ftsyncEdge => false
  | .ftimeLoad => false
  | .ocCauseClear _ => false
  | .linkEnable _ => false
  | .linkDisable _ => false
  | .linkHold _ => false
  | .linkHoldRelease _ => false
  | .linkTrained _ _ _ => false
  | .linkLaneFail _ => false
  | .linkDown _ => false
  | .flitCrcFail _ => false
  | .freezeAssert => false
  | .freezeRelease => false
  | .debugFrz _ => false
  | .debugShsel _ => false
  | .debugShdata => false
  | .debugArsel _ => false
  | .debugArdata => false
  | .ocNAssert => false
  | .sensorReading _ _ => false
  | .droopDetect _ => false
  | .droopRecover _ => false
  | .governorTick _ => false
  | .vfTransitionDone _ => false
  | .tokenStarve _ => false
  | .corePowerGate _ => false
  | .corePowerOff _ => false
  | .coreWakeDone _ => false
  | .launchAccept _ => false
  | .launchChoose => false
  | .strandHandout => false
  | .strandStart _ => false
  | .launchComplete _ => false
  | .preemptRequest _ => false
  | .huskSave _ => false
  | .huskResume => false
  | .meshSlotReserve _ => false
  | .slotAssemble _ => false
  | .trayRecordDeliver _ => false
  | .pageFetchComplete _ _ => false
  | .emitTransferStart _ _ => false
  | .emitArrival _ => false
  | .emitSwap _ _ => false
  | .scrubPass _ _ => false
  | .verticalTestVisit _ _ _ => false
  | .alwaysOnPowerLoss => false
  | _ => true

end Sys2Proof
end

