-- ==== Sys2Proof/WellFormed.lean ====
section
/-! DEFINITION. Which instructions are words of the opcode map: the field values R128-R134, R195-R211, R321 and R335
leave legal. A reserved field that must be zero has no place in `Instr`, so decoding and encoding see to it. -/

namespace Sys2Proof

/-- Integer element types (R134). -/
def VType.isInt : VType → Bool
  | .f16 | .f32 => false
  | _ => true

/-- Float element types (R134). -/
def VType.isFloat : VType → Bool
  | .f16 | .f32 => true
  | _ => false

/-- Bytes of an element (R191). -/
def VType.width : VType → Nat
  | .ib | .zb => 1
  | .ih | .zh | .f16 => 2
  | .iw | .zw | .f32 => 4

/-- The CSR addresses of the map (R139). -/
def csrMapped (c : BitVec 12) : Bool :=
  let n := c.toNat
  n == 0x001 || n == 0x002 || n == 0x003 || n == 0x008 || n == 0x009 || n == 0x00A || n == 0x00C ||
  n == 0x010 || n == 0x011 || n == 0x012 || n == 0x013 || n == 0x020 || n == 0x021 ||
  (0x040 ≤ n && n ≤ 0x044) || (0x0C0 ≤ n && n ≤ 0x0C4) || (0x100 ≤ n && n ≤ 0x105) ||
  (0x108 ≤ n && n ≤ 0x10A) || n == 0x200 || n == 0x201 || (0x204 ≤ n && n ≤ 0x206) ||
  (0x300 ≤ n && n ≤ 0x3FF)

/-- Elements of a narrow format in a v register (R177). -/
def NFmt.elems : NFmt → Nat
  | .t8 | .t6 => 16
  | .t4 => 32

/-- Elements of a float type in a v register (R209). -/
def FFmt.elems : FFmt → Nat
  | .f16 => 8
  | .f32 => 4

/-- An instruction whose field values are legal in decode (R135, order 2). Steps of the device have no word. -/
def Instr.wellFormed : Instr → Bool
  | .trap _ => true
  | .sysc => true
  | .kret => true
  | .brk _ => true
  | .nap _ => true
  | .done => true
  | .yield => true
  | .fencei => true
  | .tlbinv _ _ _ => true
  | .sethue _ => true
  | .halt _ => true
  | .pwrh _ => true
  | .add _ _ _ => true
  | .sub _ _ _ => true
  | .and _ _ _ => true
  | .or _ _ _ => true
  | .xor _ _ _ => true
  | .andn _ _ _ => true
  | .sll _ _ _ => true
  | .srl _ _ _ => true
  | .sra _ _ _ => true
  | .rol _ _ _ => true
  | .slt _ _ _ => true
  | .sltu _ _ _ => true
  | .min _ _ _ => true
  | .max _ _ _ => true
  | .minu _ _ _ => true
  | .maxu _ _ _ => true
  | .clz _ _ => true
  | .ctz _ _ => true
  | .popc _ _ => true
  | .brev _ _ => true
  | .bswap _ _ => true
  | .ilv _ _ _ => true
  | .ilv3 _ _ _ _ => true
  | .dilv _ _ => true
  | .dilv3 _ _ => true
  | .sel _ _ _ _ => true
  | .addw _ _ _ => true
  | .subw _ _ _ => true
  | .mul _ _ _ => true
  | .mulh _ _ _ => true
  | .mulhu _ _ _ => true
  | .mulw _ _ _ => true
  | .div _ _ _ => true
  | .divu _ _ _ => true
  | .rem _ _ _ => true
  | .remu _ _ _ => true
  | .madd _ _ _ _ => true
  | .extr _ _ p l _ => p.toNat + l.toNat + 1 ≤ 64
  | .insf _ _ p l => p.toNat + l.toNat + 1 ≤ 64
  | .csrr _ c => csrMapped c
  | .csrw _ _ c => csrMapped c
  | .csrs _ _ c => csrMapped c
  | .csrc _ _ c => csrMapped c
  | .addi _ _ _ => true
  | .andi _ _ _ => true
  | .ori _ _ _ => true
  | .xori _ _ _ => true
  | .slli _ _ _ => true
  | .srli _ _ _ => true
  | .srai _ _ _ => true
  | .roli _ _ _ => true
  | .slti _ _ _ => true
  | .sltiu _ _ _ => true
  | .lhi _ _ => true
  | .addpc _ _ => true
  | .beq _ _ _ => true
  | .bne _ _ _ => true
  | .blt _ _ _ => true
  | .bge _ _ _ => true
  | .bltu _ _ _ => true
  | .bgeu _ _ _ => true
  | .jmp _ => true
  | .jal _ => true
  | .jalr _ _ _ => true
  | .loop _ l => 1 ≤ l.toNat && l.toNat ≤ 16
  | .xrd _ _ => true
  | .xwr _ _ => true
  | .fadd _ _ _ _ => true
  | .fsub _ _ _ _ => true
  | .fmul _ _ _ _ => true
  | .fdiv _ _ _ _ => true
  | .fsqrt _ _ _ => true
  | .fmin _ _ _ _ => true
  | .fmax _ _ _ _ => true
  | .feq _ _ _ _ => true
  | .flt _ _ _ _ => true
  | .fle _ _ _ _ => true
  | .fclass _ _ _ => true
  | .fsgn _ _ b v _ => !(decide (v = .abs)) || b == 0
  | .fcvti _ _ _ _ => true
  | .fcvtf _ _ _ _ => true
  | .fcvtp _ _ _ _ => true
  | .fma _ _ _ _ _ => true
  | .fms _ _ _ _ _ => true
  | .fnma _ _ _ _ _ => true
  | .fnms _ _ _ _ _ => true
  | .ld _ _ _ _ _ => true
  | .st _ _ _ _ _ => true
  | .ldx _ _ _ _ => true
  | .stx _ _ _ _ => true
  | .vld _ _ _ _ => true
  | .vst _ _ _ _ => true
  | .vlds _ _ _ => true
  | .vsts _ _ _ => true
  | .vldg _ _ _ => true
  | .vstg _ _ _ => true
  | .dld _ _ _ _ => true
  | .dst _ _ _ _ => true
  | .amoadd _ _ _ _ _ _ => true
  | .amoand _ _ _ _ _ _ => true
  | .amoor _ _ _ _ _ _ => true
  | .amoxor _ _ _ _ _ _ => true
  | .amomin _ _ _ _ _ _ => true
  | .amomax _ _ _ _ _ _ => true
  | .amominu _ _ _ _ _ _ => true
  | .amomaxu _ _ _ _ _ _ => true
  | .amoswap _ _ _ _ _ _ => true
  | .amofadd _ _ _ _ _ _ => true
  | .cas _ _ _ _ _ _ _ => true
  | .fence k _ m => !(decide (k = .acq)) || m == 0
  | .waitw _ _ => true
  | .waitc _ _ => true
  | .vadd _ _ _ _ _ => true
  | .vsub _ _ _ _ _ => true
  | .vmul _ _ _ _ _ => true
  | .vma _ _ _ _ _ => true
  | .vmin _ _ _ _ _ => true
  | .vmax _ _ _ _ _ => true
  | .vand _ _ _ _ t => t.isInt
  | .vor _ _ _ _ t => t.isInt
  | .vxor _ _ _ _ t => t.isInt
  | .vandn _ _ _ _ t => t.isInt
  | .vshl _ _ _ _ t => t.isInt
  | .vshr _ _ _ _ t => t.isInt
  | .vabs _ _ _ t => t == .ib || t == .ih || t == .iw || t.isFloat
  | .vneg _ _ _ t => t == .ib || t == .ih || t == .iw || t.isFloat
  | .vsel _ _ _ _ _ => true
  | .vaddsat _ _ _ _ t => t.isInt
  | .vsubsat _ _ _ _ t => t.isInt
  | .vmulh _ _ _ _ t => t.isInt
  | .vdot4 _ _ _ _ t => t == .ib || t == .zb
  | .vdot2 _ _ _ _ t => t == .ih || t == .zh || t == .f16
  | .vbcast _ _ _ _ => true
  | .vmovx _ _ _ _ => true
  | .vextx _ _ _ _ => true
  | .vperm _ _ _ _ _ => true
  | .vrot _ _ _ _ _ => true
  | .vredadd _ _ _ _ => true
  | .vredmin _ _ _ _ => true
  | .vredmax _ _ _ _ => true
  | .vcvt _ _ f s _ t => s.toNat ≤ 8 && (!f || t == .f16)
  | .vrcp _ _ _ t => t.isFloat
  | .vrsq _ _ _ t => t.isFloat
  | .vexp2 _ _ _ t => t.isFloat
  | .vlog2 _ _ _ t => t.isFloat
  | .vsin _ _ _ t => t.isFloat
  | .vcos _ _ _ t => t.isFloat
  | .venc12 _ _ _ _ => true
  | .vpack _ _ _ t => t.isInt
  | .vunpack _ _ _ t => t.isInt
  | .vcmp d _ _ _ _ _ => d != 0
  | .pand d _ _ => d != 0
  | .por d _ _ => d != 0
  | .pxor d _ _ => d != 0
  | .pnot d _ => d != 0
  | .pmov d _ => d != 0
  | .pget _ _ => true
  | .pcnt _ _ => true
  | .vqma _ _ _ _ _ _ => true
  | .vqdec _ _ n _ nf ff => n.toNat + ff.elems ≤ nf.elems
  | .vqenc _ _ n _ ff nf => n.toNat + ff.elems ≤ nf.elems
  | .dnorm _ _ => true
  | .dvec _ _ => true
  | .ddot _ _ _ => true
  | .dadd _ _ _ => true
  | .dsub _ _ _ => true
  | .dscl _ _ _ => true
  | .dneg _ _ => true
  | .drefl _ _ _ => true
  | .dcross _ _ _ => true
  | .dmix _ _ _ _ => true
  | .dmovn _ _ => true
  | .dsetn _ _ _ => true
  | .dtst _ _ => true
  | .dmov _ _ => true
  | .dproj _ _ _ => true
  | .rbox _ _ _ _ => true
  | .rtri _ _ _ _ => true
  | .tsetup _ _ _ => true
  | .tcover _ _ _ => true
  | .tinterp _ _ _ => true
  | .texld _ _ _ => true
  | .emit _ _ _ => true
  | .emitq _ _ => true
  | .send _ _ _ _ _ => true
  | .sendv _ _ _ _ _ => true
  | .recv _ _ _ _ => true
  | .recvn _ _ _ _ => true
  | .mpoll _ _ => true
  | .binit _ c => c.toNat < 24
  | .barr _ c => c.toNat < 24
  | .bwait _ c => c.toNat < 24
  | .kinit _ _ => true
  | .kenter _ _ _ => true
  | .kleave _ => true
  | .kskip _ _ => true
  | .kfree _ => true
  | .qpop _ _ _ => true
  | .qpush _ _ _ _ => true
  | .spawn _ _ _ => true
  | .qclose _ => true
  | .ewr _ _ => true
  | .erd _ _ => true
  | .copy _ _ _ _ => true
  | .mgang _ _ _ => true
  | .mlut _ _ _ => true
  | .acl _ => true
  | .ast _ _ _ _ => true
  | .ald _ _ _ _ => true
  | .boundaryTrapTake _ => true
  | .controlResume _ _ => true
  | .controlSkip _ _ => true
  | .controlKill _ _ => true
  | .storeDrain _ _ => true
  | .l1LineRemove _ _ => true
  | .icacheFill _ => true
  | .enginePayloadWrite _ _ _ => true
  | .copyComplete _ => true
  | .gangForm _ => true
  | .gangComplete _ _ => true
  | .gangto _ => true
  | .astComplete _ => true
  | .aldComplete _ _ => true
  | .messageDeliver _ => true
  | .sendRetry _ _ => true
  | .edgeDeliver _ _ => true
  | .barrierArrivalCount _ _ _ _ => true
  | .keyLeaveEffect _ _ => true
  | .keySkipEffect _ _ _ => true
  | .keyProbe _ => true
  | .stall _ => true
  | .recvnTimeout _ => true
  | .napWake _ => true
  | .queueDoorbell _ _ => true
  | .registerWrite _ _ => true
  | .hostBar2Read _ _ => true
  | .hostBar2Write _ _ => true
  | .pcieConfigRequest _ => true
  | .coldReset _ => true
  | .warmReset _ => true
  | .fieldReset _ => true
  | .calloadWaitTimeout => true
  | .attest => true
  | .fwstage => true
  | .calload => true
  | .granset => true
  | .vtlog => true
  | .endctx => true
  | .kvec => true
  | .mbUnknownCommand _ => true
  | .mbCommandEnd => true
  | .ftcfgWrite _ => true
  | .ftsyncEdge => true
  | .ftimeLoad => true
  | .ocCauseClear _ => true
  | .linkEnable _ => true
  | .linkDisable _ => true
  | .linkHold _ => true
  | .linkHoldRelease _ => true
  | .linkTrained _ _ _ => true
  | .linkLaneFail _ => true
  | .linkDown _ => true
  | .flitCrcFail _ => true
  | .freezeAssert => true
  | .freezeRelease => true
  | .debugFrz _ => true
  | .debugShsel _ => true
  | .debugShdata => true
  | .debugArsel _ => true
  | .debugArdata => true
  | .ocNAssert => true
  | .sensorReading _ _ => true
  | .droopDetect _ => true
  | .droopRecover _ => true
  | .governorTick _ => true
  | .vfTransitionDone _ => true
  | .tokenStarve _ => true
  | .corePowerGate _ => true
  | .corePowerOff _ => true
  | .coreWakeDone _ => true
  | .launchAccept _ => true
  | .launchChoose => true
  | .strandHandout => true
  | .strandStart _ => true
  | .launchComplete _ => true
  | .preemptRequest _ => true
  | .huskSave _ => true
  | .huskResume => true
  | .meshSlotReserve _ => true
  | .slotAssemble _ => true
  | .trayRecordDeliver _ => true
  | .pageFetchComplete _ _ => true
  | .emitTransferStart _ _ => true
  | .emitArrival _ => true
  | .emitSwap _ _ => true
  | .scrubPass _ _ => true
  | .verticalTestVisit _ _ _ => true
  | .alwaysOnPowerLoss => true

end Sys2Proof
end

