-- ==== Sys2Proof/Decode.lean ====
section
/-! DEFINITION. Decoding and encoding of instruction words (06_instruction_word.md, R127-R136). The formats are
written once as the packing of their fields from bit 31 down; the decoder takes the same fields out again. -/

namespace Sys2Proof

/-- Why a word is no instruction. A strand that reaches such a word raises ILLEGAL (R135, order 2). -/
inductive DecodeError
  /-- fewer than four bytes -/
  | truncated
  /-- majors 0x05, 0x06, 0x1E, 0x1F, 0x3E, 0x3F -/
  | reservedMajor
  /-- a selector value the opcode map does not list -/
  | unassignedSelector
  /-- a reserved field or bit is nonzero -/
  | reservedField
  /-- a width, type, format, scope, kind or variant code is not legal -/
  | badCode
  /-- a register out of range or an illegal combination of fields (R128-R134, R211) -/
  | illFormed
deriving DecidableEq, Repr

/-! ### Field codes -/

def boolBit (b : Bool) : BitVec 1 := if b then 1 else 0
def bitBool (b : BitVec 1) : Bool := b == 1

def Prec.bits : Prec → BitVec 1
  | .single => 0
  | .double => 1

def Prec.ofBits (b : BitVec 1) : Option Prec :=
  match b.toNat with
  | 0 => some .single
  | 1 => some .double
  | _ => none

def SgnVariant.bits : SgnVariant → BitVec 2
  | .take => 0
  | .inv => 1
  | .xor => 2
  | .abs => 3

def SgnVariant.ofBits (b : BitVec 2) : Option SgnVariant :=
  match b.toNat with
  | 0 => some .take
  | 1 => some .inv
  | 2 => some .xor
  | 3 => some .abs
  | _ => none

def IntVariant.bits : IntVariant → BitVec 2
  | .sl => 0
  | .ul => 1
  | .sw => 2
  | .uw => 3

def IntVariant.ofBits (b : BitVec 2) : Option IntVariant :=
  match b.toNat with
  | 0 => some .sl
  | 1 => some .ul
  | 2 => some .sw
  | 3 => some .uw
  | _ => none

def FmtVariant.bits : FmtVariant → BitVec 2
  | .other => 0
  | .fromh => 1
  | .toh => 2

def FmtVariant.ofBits (b : BitVec 2) : Option FmtVariant :=
  match b.toNat with
  | 0 => some .other
  | 1 => some .fromh
  | 2 => some .toh
  | _ => none

def Scope.bits : Scope → BitVec 3
  | .strand => 0
  | .core => 1
  | .sheaf => 2
  | .field => 3
  | .system => 4

def Scope.ofBits (b : BitVec 3) : Option Scope :=
  match b.toNat with
  | 0 => some .strand
  | 1 => some .core
  | 2 => some .sheaf
  | 3 => some .field
  | 4 => some .system
  | _ => none

def OrdKind.bits : OrdKind → BitVec 2
  | .none => 0
  | .acq => 1
  | .rel => 2
  | .acqrel => 3

def OrdKind.ofBits (b : BitVec 2) : Option OrdKind :=
  match b.toNat with
  | 0 => some .none
  | 1 => some .acq
  | 2 => some .rel
  | 3 => some .acqrel
  | _ => none

def FenceKind.bits : FenceKind → BitVec 2
  | .rel => 1
  | .acq => 2
  | .full => 3

def FenceKind.ofBits (b : BitVec 2) : Option FenceKind :=
  match b.toNat with
  | 1 => some .rel
  | 2 => some .acq
  | 3 => some .full
  | _ => none

def LdWidth.bits : LdWidth → BitVec 3
  | .b => 0
  | .h => 1
  | .w => 2
  | .d => 3
  | .bz => 4
  | .hz => 5
  | .wz => 6

def LdWidth.ofBits (b : BitVec 3) : Option LdWidth :=
  match b.toNat with
  | 0 => some .b
  | 1 => some .h
  | 2 => some .w
  | 3 => some .d
  | 4 => some .bz
  | 5 => some .hz
  | 6 => some .wz
  | _ => none

def StWidth.bits : StWidth → BitVec 3
  | .b => 0
  | .h => 1
  | .w => 2
  | .d => 3

def StWidth.ofBits (b : BitVec 3) : Option StWidth :=
  match b.toNat with
  | 0 => some .b
  | 1 => some .h
  | 2 => some .w
  | 3 => some .d
  | _ => none

def AmoWidth.bits : AmoWidth → BitVec 1
  | .w => 0
  | .d => 1

def AmoWidth.ofBits (b : BitVec 1) : Option AmoWidth :=
  match b.toNat with
  | 0 => some .w
  | 1 => some .d
  | _ => none

def VType.bits : VType → BitVec 3
  | .ib => 0
  | .ih => 1
  | .iw => 2
  | .zb => 3
  | .zh => 4
  | .zw => 5
  | .f16 => 6
  | .f32 => 7

def VType.ofBits (b : BitVec 3) : Option VType :=
  match b.toNat with
  | 0 => some .ib
  | 1 => some .ih
  | 2 => some .iw
  | 3 => some .zb
  | 4 => some .zh
  | 5 => some .zw
  | 6 => some .f16
  | 7 => some .f32
  | _ => none

def Cond.bits : Cond → BitVec 2
  | .eq => 0
  | .ne => 1
  | .lt => 2
  | .le => 3

def Cond.ofBits (b : BitVec 2) : Option Cond :=
  match b.toNat with
  | 0 => some .eq
  | 1 => some .ne
  | 2 => some .lt
  | 3 => some .le
  | _ => none

def NFmt.bits : NFmt → BitVec 3
  | .t8 => 0
  | .t6 => 1
  | .t4 => 2

def NFmt.ofBits (b : BitVec 3) : Option NFmt :=
  match b.toNat with
  | 0 => some .t8
  | 1 => some .t6
  | 2 => some .t4
  | _ => none

def FFmt.bits : FFmt → BitVec 3
  | .f16 => 6
  | .f32 => 7

def FFmt.ofBits (b : BitVec 3) : Option FFmt :=
  match b.toNat with
  | 6 => some .f16
  | 7 => some .f32
  | _ => none

/-! ### Formats (R127) -/

/-- R: major, D, A, B, C, F. -/
def packR (m : BitVec 6) (d a b c : BitVec 5) (f : BitVec 6) : BitVec 32 := m ++ d ++ a ++ b ++ c ++ f
/-- I and S: major, D (or B), A, 16 bits. -/
def packI (m : BitVec 6) (d a : BitVec 5) (i : BitVec 16) : BitVec 32 := m ++ d ++ a ++ i
/-- J: major, 26 bits. -/
def packJ (m : BitVec 6) (o : BitVec 26) : BitVec 32 := m ++ o
/-- M: major, D, A, W, PI, offset. -/
def packM (m : BitVec 6) (d a : BitVec 5) (w : BitVec 3) (pi : BitVec 1) (o : BitVec 12) : BitVec 32 :=
  m ++ d ++ a ++ w ++ pi ++ o
/-- V: major, VD, VA, VB, predicate, T, F. -/
def packV (m : BitVec 6) (d a b : BitVec 5) (p t : BitVec 3) (f : BitVec 5) : BitVec 32 := m ++ d ++ a ++ b ++ p ++ t ++ f
/-- E: major, D, A, B, counter, zero, F. -/
def packE (m : BitVec 6) (d a b : BitVec 5) (c : BitVec 3) (z : BitVec 2) (f : BitVec 6) : BitVec 32 :=
  m ++ d ++ a ++ b ++ c ++ z ++ f

def fMajor (w : BitVec 32) : BitVec 6 := w.extractLsb' 26 6
def fD (w : BitVec 32) : BitVec 5 := w.extractLsb' 21 5
def fA (w : BitVec 32) : BitVec 5 := w.extractLsb' 16 5
def fB (w : BitVec 32) : BitVec 5 := w.extractLsb' 11 5
def fC (w : BitVec 32) : BitVec 5 := w.extractLsb' 6 5
def fF (w : BitVec 32) : BitVec 6 := w.extractLsb' 0 6
def fI (w : BitVec 32) : BitVec 16 := w.extractLsb' 0 16
def fO (w : BitVec 32) : BitVec 26 := w.extractLsb' 0 26
def fW (w : BitVec 32) : BitVec 3 := w.extractLsb' 13 3
def fPI (w : BitVec 32) : BitVec 1 := w.extractLsb' 12 1
def fI12 (w : BitVec 32) : BitVec 12 := w.extractLsb' 0 12
def fP (w : BitVec 32) : BitVec 3 := w.extractLsb' 8 3
def fT (w : BitVec 32) : BitVec 3 := w.extractLsb' 5 3
def fF5 (w : BitVec 32) : BitVec 5 := w.extractLsb' 0 5
def fZ (w : BitVec 32) : BitVec 2 := w.extractLsb' 6 2

/-- The word of an instruction (R127-R134). A step of the device has no word; its value here is the word 0, which no
instruction encodes to (R135). -/
def encode : Instr → BitVec 32
  | .trap a => packR 0x00#6 0#5 a 0#5 0#5 1#6
  | .sysc => packR 0x00#6 0#5 0#5 0#5 0#5 2#6
  | .kret => packR 0x00#6 0#5 0#5 0#5 0#5 3#6
  | .brk n => packR 0x00#6 0#5 0#5 ((n.extractLsb' 5 5)) ((n.extractLsb' 0 5)) 4#6
  | .nap a => packR 0x00#6 0#5 a 0#5 0#5 5#6
  | .done => packR 0x00#6 0#5 0#5 0#5 0#5 6#6
  | .yield => packR 0x00#6 0#5 0#5 0#5 0#5 7#6
  | .fencei => packR 0x00#6 0#5 0#5 0#5 0#5 8#6
  | .tlbinv a b s => packR 0x00#6 0#5 a b (0#2 ++ s.bits) 9#6
  | .sethue h => packR 0x00#6 0#5 0#5 (0#2 ++ h) 0#5 10#6
  | .halt a => packR 0x00#6 0#5 a 0#5 0#5 11#6
  | .pwrh a => packR 0x00#6 0#5 a 0#5 0#5 12#6
  | .add d a b => packR 0x01#6 d a b 0#5 0#6
  | .sub d a b => packR 0x01#6 d a b 0#5 1#6
  | .and d a b => packR 0x01#6 d a b 0#5 2#6
  | .or d a b => packR 0x01#6 d a b 0#5 3#6
  | .xor d a b => packR 0x01#6 d a b 0#5 4#6
  | .andn d a b => packR 0x01#6 d a b 0#5 5#6
  | .sll d a b => packR 0x01#6 d a b 0#5 6#6
  | .srl d a b => packR 0x01#6 d a b 0#5 7#6
  | .sra d a b => packR 0x01#6 d a b 0#5 8#6
  | .rol d a b => packR 0x01#6 d a b 0#5 9#6
  | .slt d a b => packR 0x01#6 d a b 0#5 10#6
  | .sltu d a b => packR 0x01#6 d a b 0#5 11#6
  | .min d a b => packR 0x01#6 d a b 0#5 12#6
  | .max d a b => packR 0x01#6 d a b 0#5 13#6
  | .minu d a b => packR 0x01#6 d a b 0#5 14#6
  | .maxu d a b => packR 0x01#6 d a b 0#5 15#6
  | .clz d a => packR 0x01#6 d a 0#5 0#5 16#6
  | .ctz d a => packR 0x01#6 d a 0#5 0#5 17#6
  | .popc d a => packR 0x01#6 d a 0#5 0#5 18#6
  | .brev d a => packR 0x01#6 d a 0#5 0#5 19#6
  | .bswap d a => packR 0x01#6 d a 0#5 0#5 20#6
  | .ilv d a b => packR 0x01#6 d a b 0#5 21#6
  | .ilv3 d a b c => packR 0x01#6 d a b c 22#6
  | .dilv d a => packR 0x01#6 d a 0#5 0#5 23#6
  | .dilv3 d a => packR 0x01#6 d a 0#5 0#5 24#6
  | .sel d a b c => packR 0x01#6 d a b c 25#6
  | .addw d a b => packR 0x01#6 d a b 0#5 26#6
  | .subw d a b => packR 0x01#6 d a b 0#5 27#6
  | .mul d a b => packR 0x02#6 d a b 0#5 0#6
  | .mulh d a b => packR 0x02#6 d a b 0#5 1#6
  | .mulhu d a b => packR 0x02#6 d a b 0#5 2#6
  | .mulw d a b => packR 0x02#6 d a b 0#5 3#6
  | .div d a b => packR 0x02#6 d a b 0#5 4#6
  | .divu d a b => packR 0x02#6 d a b 0#5 5#6
  | .rem d a b => packR 0x02#6 d a b 0#5 6#6
  | .remu d a b => packR 0x02#6 d a b 0#5 7#6
  | .madd d a b c => packR 0x02#6 d a b c 8#6
  | .extr d a p l s => packI 0x03#6 d a (p ++ l ++ 0#3 ++ boolBit s)
  | .insf d a p l => packI 0x04#6 d a (p ++ l ++ 0#4)
  | .csrr d c => packI 0x07#6 d 0#5 (0#4 ++ c)
  | .csrw d a c => packI 0x07#6 d a (1#4 ++ c)
  | .csrs d a c => packI 0x07#6 d a (2#4 ++ c)
  | .csrc d a c => packI 0x07#6 d a (3#4 ++ c)
  | .addi d a i => packI 0x08#6 d a i
  | .andi d a i => packI 0x09#6 d a i
  | .ori d a i => packI 0x0a#6 d a i
  | .xori d a i => packI 0x0b#6 d a i
  | .slli d a n => packI 0x0c#6 d a (0#10 ++ n)
  | .srli d a n => packI 0x0c#6 d a (1#10 ++ n)
  | .srai d a n => packI 0x0c#6 d a (2#10 ++ n)
  | .roli d a n => packI 0x0c#6 d a (3#10 ++ n)
  | .slti d a i => packI 0x0d#6 d a i
  | .sltiu d a i => packI 0x0e#6 d a i
  | .lhi d i => packI 0x0f#6 d 0#5 i
  | .addpc d o => packI 0x10#6 d 0#5 o
  | .beq b a o => packI 0x11#6 b a o
  | .bne b a o => packI 0x12#6 b a o
  | .blt b a o => packI 0x13#6 b a o
  | .bge b a o => packI 0x14#6 b a o
  | .bltu b a o => packI 0x15#6 b a o
  | .bgeu b a o => packI 0x16#6 b a o
  | .jmp o => packJ 0x17#6 o
  | .jal o => packJ 0x18#6 o
  | .jalr d a i => packI 0x19#6 d a i
  | .loop a l => packI 0x1a#6 0#5 a (0#11 ++ l)
  | .xrd d a => packR 0x1b#6 d a 0#5 0#5 0#6
  | .xwr a b => packR 0x1b#6 0#5 a b 0#5 1#6
  | .fadd d a b p => packR 0x1c#6 d a b 0#5 (p.bits ++ 0#5)
  | .fsub d a b p => packR 0x1c#6 d a b 0#5 (p.bits ++ 1#5)
  | .fmul d a b p => packR 0x1c#6 d a b 0#5 (p.bits ++ 2#5)
  | .fdiv d a b p => packR 0x1c#6 d a b 0#5 (p.bits ++ 3#5)
  | .fsqrt d a p => packR 0x1c#6 d a 0#5 0#5 (p.bits ++ 4#5)
  | .fmin d a b p => packR 0x1c#6 d a b 0#5 (p.bits ++ 5#5)
  | .fmax d a b p => packR 0x1c#6 d a b 0#5 (p.bits ++ 6#5)
  | .feq d a b p => packR 0x1c#6 d a b 0#5 (p.bits ++ 7#5)
  | .flt d a b p => packR 0x1c#6 d a b 0#5 (p.bits ++ 8#5)
  | .fle d a b p => packR 0x1c#6 d a b 0#5 (p.bits ++ 9#5)
  | .fclass d a p => packR 0x1c#6 d a 0#5 0#5 (p.bits ++ 10#5)
  | .fsgn d a b v p => packR 0x1c#6 d a b (0#3 ++ v.bits) (p.bits ++ 11#5)
  | .fcvti d a v p => packR 0x1c#6 d a 0#5 (0#3 ++ v.bits) (p.bits ++ 12#5)
  | .fcvtf d a v p => packR 0x1c#6 d a 0#5 (0#3 ++ v.bits) (p.bits ++ 13#5)
  | .fcvtp d a v p => packR 0x1c#6 d a 0#5 (0#3 ++ v.bits) (p.bits ++ 14#5)
  | .fma d a b c p => packR 0x1d#6 d a b c (p.bits ++ 0#5)
  | .fms d a b c p => packR 0x1d#6 d a b c (p.bits ++ 1#5)
  | .fnma d a b c p => packR 0x1d#6 d a b c (p.bits ++ 2#5)
  | .fnms d a b c p => packR 0x1d#6 d a b c (p.bits ++ 3#5)
  | .ld d a wd i o => packM 0x20#6 d a wd.bits (boolBit i) o
  | .st s a wd i o => packM 0x21#6 s a wd.bits (boolBit i) o
  | .ldx d a b wd => packR 0x22#6 d a b (0#2 ++ wd.bits) 0#6
  | .stx s a b wd => packR 0x23#6 s a b (0#2 ++ wd.bits) 0#6
  | .vld d a i o => packM 0x24#6 d a 0#3 (boolBit i) o
  | .vst s a i o => packM 0x25#6 s a 0#3 (boolBit i) o
  | .vlds d a b => packR 0x26#6 d a b 0#5 0#6
  | .vsts s a b => packR 0x27#6 s a b 0#5 0#6
  | .vldg d a b => packR 0x28#6 d a b 0#5 0#6
  | .vstg s a b => packR 0x29#6 s a b 0#5 0#6
  | .dld d a i o => packM 0x2a#6 (0#1 ++ d) a 0#3 (boolBit i) o
  | .dst d a i o => packM 0x2b#6 (0#1 ++ d) a 0#3 (boolBit i) o
  | .amoadd d a b k s wd => packR 0x2c#6 d a b (k.bits ++ s.bits) (0#1 ++ wd.bits ++ 0#4)
  | .amoand d a b k s wd => packR 0x2c#6 d a b (k.bits ++ s.bits) (0#1 ++ wd.bits ++ 1#4)
  | .amoor d a b k s wd => packR 0x2c#6 d a b (k.bits ++ s.bits) (0#1 ++ wd.bits ++ 2#4)
  | .amoxor d a b k s wd => packR 0x2c#6 d a b (k.bits ++ s.bits) (0#1 ++ wd.bits ++ 3#4)
  | .amomin d a b k s wd => packR 0x2c#6 d a b (k.bits ++ s.bits) (0#1 ++ wd.bits ++ 4#4)
  | .amomax d a b k s wd => packR 0x2c#6 d a b (k.bits ++ s.bits) (0#1 ++ wd.bits ++ 5#4)
  | .amominu d a b k s wd => packR 0x2c#6 d a b (k.bits ++ s.bits) (0#1 ++ wd.bits ++ 6#4)
  | .amomaxu d a b k s wd => packR 0x2c#6 d a b (k.bits ++ s.bits) (0#1 ++ wd.bits ++ 7#4)
  | .amoswap d a b k s wd => packR 0x2c#6 d a b (k.bits ++ s.bits) (0#1 ++ wd.bits ++ 8#4)
  | .amofadd d a b k s wd => packR 0x2c#6 d a b (k.bits ++ s.bits) (0#1 ++ wd.bits ++ 9#4)
  | .cas d a b c wd k s => packR 0x2d#6 d a b c (wd.bits ++ k.bits ++ s.bits)
  | .fence k s m => packI 0x2e#6 0#5 0#5 (0#3 ++ k.bits ++ s.bits ++ m)
  | .waitw a b => packR 0x2f#6 0#5 a b 0#5 0#6
  | .waitc c t => packE 0x2f#6 (0#2 ++ c) 0#5 ((t.extractLsb' 3 5)) ((t.extractLsb' 0 3)) 0#2 1#6
  | .vadd d a b p t => packV 0x30#6 d a b p t.bits 0#5
  | .vsub d a b p t => packV 0x30#6 d a b p t.bits 1#5
  | .vmul d a b p t => packV 0x30#6 d a b p t.bits 2#5
  | .vma d a b p t => packV 0x30#6 d a b p t.bits 3#5
  | .vmin d a b p t => packV 0x30#6 d a b p t.bits 4#5
  | .vmax d a b p t => packV 0x30#6 d a b p t.bits 5#5
  | .vand d a b p t => packV 0x30#6 d a b p t.bits 6#5
  | .vor d a b p t => packV 0x30#6 d a b p t.bits 7#5
  | .vxor d a b p t => packV 0x30#6 d a b p t.bits 8#5
  | .vandn d a b p t => packV 0x30#6 d a b p t.bits 9#5
  | .vshl d a b p t => packV 0x30#6 d a b p t.bits 10#5
  | .vshr d a b p t => packV 0x30#6 d a b p t.bits 11#5
  | .vabs d a p t => packV 0x30#6 d a 0#5 p t.bits 12#5
  | .vneg d a p t => packV 0x30#6 d a 0#5 p t.bits 13#5
  | .vsel d a b p t => packV 0x30#6 d a b p t.bits 14#5
  | .vaddsat d a b p t => packV 0x30#6 d a b p t.bits 15#5
  | .vsubsat d a b p t => packV 0x30#6 d a b p t.bits 16#5
  | .vmulh d a b p t => packV 0x30#6 d a b p t.bits 17#5
  | .vdot4 d a b p t => packV 0x30#6 d a b p t.bits 18#5
  | .vdot2 d a b p t => packV 0x30#6 d a b p t.bits 19#5
  | .vbcast d a p t => packV 0x31#6 d a 0#5 p t.bits 0#5
  | .vmovx d a b t => packV 0x31#6 d a b 0#3 t.bits 1#5
  | .vextx d a b t => packV 0x31#6 d a b 0#3 t.bits 2#5
  | .vperm d a b p t => packV 0x31#6 d a b p t.bits 3#5
  | .vrot d a b p t => packV 0x31#6 d a b p t.bits 4#5
  | .vredadd d a p t => packV 0x31#6 d a 0#5 p t.bits 5#5
  | .vredmin d a p t => packV 0x31#6 d a 0#5 p t.bits 6#5
  | .vredmax d a p t => packV 0x31#6 d a 0#5 p t.bits 7#5
  | .vcvt d a f s p t => packV 0x31#6 d a (boolBit f ++ s) p t.bits 8#5
  | .vrcp d a p t => packV 0x31#6 d a 0#5 p t.bits 9#5
  | .vrsq d a p t => packV 0x31#6 d a 0#5 p t.bits 10#5
  | .vexp2 d a p t => packV 0x31#6 d a 0#5 p t.bits 11#5
  | .vlog2 d a p t => packV 0x31#6 d a 0#5 p t.bits 12#5
  | .vsin d a p t => packV 0x31#6 d a 0#5 p t.bits 13#5
  | .vcos d a p t => packV 0x31#6 d a 0#5 p t.bits 14#5
  | .venc12 d a b p => packV 0x31#6 d a b p 6#3 15#5
  | .vpack d a b t => packV 0x31#6 d a b 0#3 t.bits 16#5
  | .vunpack d a h t => packV 0x31#6 d a (0#4 ++ h) 0#3 t.bits 17#5
  | .vcmp d a b p t c => packV 0x32#6 (0#2 ++ d) a b p t.bits (0#3 ++ c.bits)
  | .pand d a b => packR 0x33#6 (0#2 ++ d) (0#2 ++ a) (0#2 ++ b) 0#5 0#6
  | .por d a b => packR 0x33#6 (0#2 ++ d) (0#2 ++ a) (0#2 ++ b) 0#5 1#6
  | .pxor d a b => packR 0x33#6 (0#2 ++ d) (0#2 ++ a) (0#2 ++ b) 0#5 2#6
  | .pnot d a => packR 0x33#6 (0#2 ++ d) (0#2 ++ a) 0#5 0#5 3#6
  | .pmov d a => packR 0x33#6 (0#2 ++ d) a 0#5 0#5 4#6
  | .pget d a => packR 0x33#6 d (0#2 ++ a) 0#5 0#5 5#6
  | .pcnt d a => packR 0x33#6 d (0#2 ++ a) 0#5 0#5 6#6
  | .vqma d a b c na nb => packR 0x34#6 d a b c (na.bits ++ nb.bits)
  | .vqdec d a n c nf ff => packR 0x35#6 d a n c (nf.bits ++ ff.bits)
  | .vqenc d a n c ff nf => packR 0x36#6 d a n c (ff.bits ++ nf.bits)
  | .dnorm d a => packR 0x37#6 (0#1 ++ d) (0#1 ++ a) 0#5 0#5 0#6
  | .dvec d a => packR 0x37#6 (0#1 ++ d) a 0#5 0#5 1#6
  | .ddot d a b => packR 0x37#6 d (0#1 ++ a) (0#1 ++ b) 0#5 2#6
  | .dadd d a b => packR 0x37#6 (0#1 ++ d) (0#1 ++ a) (0#1 ++ b) 0#5 3#6
  | .dsub d a b => packR 0x37#6 (0#1 ++ d) (0#1 ++ a) (0#1 ++ b) 0#5 4#6
  | .dscl d a b => packR 0x37#6 (0#1 ++ d) (0#1 ++ a) b 0#5 5#6
  | .dneg d a => packR 0x37#6 (0#1 ++ d) (0#1 ++ a) 0#5 0#5 6#6
  | .drefl d a b => packR 0x37#6 (0#1 ++ d) (0#1 ++ a) (0#1 ++ b) 0#5 7#6
  | .dcross d a b => packR 0x37#6 (0#1 ++ d) (0#1 ++ a) (0#1 ++ b) 0#5 8#6
  | .dmix d a b c => packR 0x37#6 (0#1 ++ d) (0#1 ++ a) (0#1 ++ b) c 9#6
  | .dmovn d a => packR 0x37#6 d (0#1 ++ a) 0#5 0#5 10#6
  | .dsetn d a b => packR 0x37#6 (0#1 ++ d) (0#1 ++ a) b 0#5 11#6
  | .dtst d a => packR 0x37#6 d (0#1 ++ a) 0#5 0#5 12#6
  | .dmov d a => packR 0x37#6 d (0#1 ++ a) 0#5 0#5 13#6
  | .dproj d a b => packR 0x37#6 (0#1 ++ d) (0#1 ++ a) (0#1 ++ b) 0#5 14#6
  | .rbox d a b c => packR 0x38#6 d a (0#1 ++ b) c 0#6
  | .rtri d a b c => packR 0x38#6 d a (0#1 ++ b) c 1#6
  | .tsetup d a b => packR 0x39#6 (d ++ 0#2) a b 0#5 0#6
  | .tcover d a b => packR 0x39#6 d (a ++ 0#2) b 0#5 1#6
  | .tinterp d a b => packR 0x39#6 d a b 0#5 2#6
  | .texld d a b => packR 0x39#6 d a b 0#5 3#6
  | .emit a b c => packR 0x39#6 0#5 a b c 4#6
  | .emitq d a => packR 0x39#6 d a 0#5 0#5 5#6
  | .send d a b m n => packR 0x3a#6 d a b (0#3 ++ m) (boolBit n ++ 0#5)
  | .sendv d a b m n => packR 0x3a#6 d a (b ++ 0#2) (0#3 ++ m) (boolBit n ++ 1#5)
  | .recv d b m n => packR 0x3a#6 d 0#5 (b ++ 0#2) (0#3 ++ m) (boolBit n ++ 2#5)
  | .recvn d a b c => packR 0x3a#6 d a (b ++ 0#2) c 3#6
  | .mpoll d m => packR 0x3a#6 d 0#5 0#5 (0#3 ++ m) 4#6
  | .binit a c => packR 0x3b#6 0#5 a 0#5 c 0#6
  | .barr d c => packR 0x3b#6 d 0#5 0#5 c 1#6
  | .bwait a c => packR 0x3b#6 0#5 a 0#5 c 2#6
  | .kinit a b => packR 0x3b#6 0#5 a b 0#5 3#6
  | .kenter d a b => packR 0x3b#6 d a b 0#5 4#6
  | .kleave a => packR 0x3b#6 0#5 a 0#5 0#5 5#6
  | .kskip a b => packR 0x3b#6 0#5 a b 0#5 6#6
  | .kfree a => packR 0x3b#6 0#5 a 0#5 0#5 7#6
  | .qpop d a n => packR 0x3c#6 d a 0#5 0#5 (boolBit n ++ 0#5)
  | .qpush d a b n => packR 0x3c#6 d a b 0#5 (boolBit n ++ 1#5)
  | .spawn d a b => packR 0x3c#6 d a b 0#5 2#6
  | .qclose a => packR 0x3c#6 0#5 a 0#5 0#5 3#6
  | .ewr d a => packE 0x3d#6 d a 0#5 0#3 0#2 0#6
  | .erd d a => packE 0x3d#6 d a 0#5 0#3 0#2 1#6
  | .copy d a b c => packE 0x3d#6 d a b c 0#2 2#6
  | .mgang t k c => packE 0x3d#6 (0#2 ++ t) (k ++ 0#2) 0#5 c 0#2 3#6
  | .mlut t k c => packE 0x3d#6 (0#2 ++ t) (k ++ 0#2) 0#5 c 0#2 4#6
  | .acl t => packE 0x3d#6 (0#2 ++ t) 0#5 0#5 0#3 0#2 5#6
  | .ast d t b c => packE 0x3d#6 d (0#2 ++ t) b c 0#2 6#6
  | .ald t a b c => packE 0x3d#6 (0#2 ++ t) a b c 0#2 7#6
  | _ => 0

/-! ### Decoding, major by major (R131) -/

/-- The code `o` of a field, or `badCode`. -/
def code {α : Type} (o : Option α) : Except DecodeError α :=
  match o with
  | some x => .ok x
  | none => .error .badCode

/-- `i` when the fields of `zero` are all zero, else `reservedField`. -/
def zeros (zero : Bool) (i : Instr) : Except DecodeError Instr :=
  if zero then .ok i else .error .reservedField

/-- Major 0x00: trap, sysc, kret, brk, nap, done, yield, fencei, tlbinv, sethue, halt, pwrh (R131). -/
def dec00 (w : BitVec 32) : Except DecodeError Instr :=
  match (fF w).toNat with
  | 0x01 => zeros ((fD w) == 0 && (fB w) == 0 && (fC w) == 0) (.trap (fA w))
  | 0x02 => zeros ((fD w) == 0 && (fA w) == 0 && (fB w) == 0 && (fC w) == 0) .sysc
  | 0x03 => zeros ((fD w) == 0 && (fA w) == 0 && (fB w) == 0 && (fC w) == 0) .kret
  | 0x04 => zeros ((fD w) == 0 && (fA w) == 0) (.brk ((fB w) ++ (fC w)))
  | 0x05 => zeros ((fD w) == 0 && (fB w) == 0 && (fC w) == 0) (.nap (fA w))
  | 0x06 => zeros ((fD w) == 0 && (fA w) == 0 && (fB w) == 0 && (fC w) == 0) .done
  | 0x07 => zeros ((fD w) == 0 && (fA w) == 0 && (fB w) == 0 && (fC w) == 0) .yield
  | 0x08 => zeros ((fD w) == 0 && (fA w) == 0 && (fB w) == 0 && (fC w) == 0) .fencei
  | 0x09 => (code (Scope.ofBits ((fC w).extractLsb' 0 3))).bind fun s => zeros ((fD w) == 0 && ((fC w).extractLsb' 3 2) == 0) (.tlbinv (fA w) (fB w) s)
  | 0x0a => zeros ((fD w) == 0 && (fA w) == 0 && ((fB w).extractLsb' 3 2) == 0 && (fC w) == 0) (.sethue ((fB w).extractLsb' 0 3))
  | 0x0b => zeros ((fD w) == 0 && (fB w) == 0 && (fC w) == 0) (.halt (fA w))
  | 0x0c => zeros ((fD w) == 0 && (fB w) == 0 && (fC w) == 0) (.pwrh (fA w))
  | _ => .error .unassignedSelector

/-- Major 0x01: add, sub, and, or, xor, andn, sll, srl, sra, rol, slt, sltu, min, max, minu, maxu, clz, ctz, popc, brev, bswap, ilv, ilv3, dilv, dilv3, sel, addw, subw (R131). -/
def dec01 (w : BitVec 32) : Except DecodeError Instr :=
  match (fF w).toNat with
  | 0x00 => zeros ((fC w) == 0) (.add (fD w) (fA w) (fB w))
  | 0x01 => zeros ((fC w) == 0) (.sub (fD w) (fA w) (fB w))
  | 0x02 => zeros ((fC w) == 0) (.and (fD w) (fA w) (fB w))
  | 0x03 => zeros ((fC w) == 0) (.or (fD w) (fA w) (fB w))
  | 0x04 => zeros ((fC w) == 0) (.xor (fD w) (fA w) (fB w))
  | 0x05 => zeros ((fC w) == 0) (.andn (fD w) (fA w) (fB w))
  | 0x06 => zeros ((fC w) == 0) (.sll (fD w) (fA w) (fB w))
  | 0x07 => zeros ((fC w) == 0) (.srl (fD w) (fA w) (fB w))
  | 0x08 => zeros ((fC w) == 0) (.sra (fD w) (fA w) (fB w))
  | 0x09 => zeros ((fC w) == 0) (.rol (fD w) (fA w) (fB w))
  | 0x0a => zeros ((fC w) == 0) (.slt (fD w) (fA w) (fB w))
  | 0x0b => zeros ((fC w) == 0) (.sltu (fD w) (fA w) (fB w))
  | 0x0c => zeros ((fC w) == 0) (.min (fD w) (fA w) (fB w))
  | 0x0d => zeros ((fC w) == 0) (.max (fD w) (fA w) (fB w))
  | 0x0e => zeros ((fC w) == 0) (.minu (fD w) (fA w) (fB w))
  | 0x0f => zeros ((fC w) == 0) (.maxu (fD w) (fA w) (fB w))
  | 0x10 => zeros ((fB w) == 0 && (fC w) == 0) (.clz (fD w) (fA w))
  | 0x11 => zeros ((fB w) == 0 && (fC w) == 0) (.ctz (fD w) (fA w))
  | 0x12 => zeros ((fB w) == 0 && (fC w) == 0) (.popc (fD w) (fA w))
  | 0x13 => zeros ((fB w) == 0 && (fC w) == 0) (.brev (fD w) (fA w))
  | 0x14 => zeros ((fB w) == 0 && (fC w) == 0) (.bswap (fD w) (fA w))
  | 0x15 => zeros ((fC w) == 0) (.ilv (fD w) (fA w) (fB w))
  | 0x16 => .ok (.ilv3 (fD w) (fA w) (fB w) (fC w))
  | 0x17 => zeros ((fB w) == 0 && (fC w) == 0) (.dilv (fD w) (fA w))
  | 0x18 => zeros ((fB w) == 0 && (fC w) == 0) (.dilv3 (fD w) (fA w))
  | 0x19 => .ok (.sel (fD w) (fA w) (fB w) (fC w))
  | 0x1a => zeros ((fC w) == 0) (.addw (fD w) (fA w) (fB w))
  | 0x1b => zeros ((fC w) == 0) (.subw (fD w) (fA w) (fB w))
  | _ => .error .unassignedSelector

/-- Major 0x02: mul, mulh, mulhu, mulw, div, divu, rem, remu, madd (R131). -/
def dec02 (w : BitVec 32) : Except DecodeError Instr :=
  match (fF w).toNat with
  | 0x00 => zeros ((fC w) == 0) (.mul (fD w) (fA w) (fB w))
  | 0x01 => zeros ((fC w) == 0) (.mulh (fD w) (fA w) (fB w))
  | 0x02 => zeros ((fC w) == 0) (.mulhu (fD w) (fA w) (fB w))
  | 0x03 => zeros ((fC w) == 0) (.mulw (fD w) (fA w) (fB w))
  | 0x04 => zeros ((fC w) == 0) (.div (fD w) (fA w) (fB w))
  | 0x05 => zeros ((fC w) == 0) (.divu (fD w) (fA w) (fB w))
  | 0x06 => zeros ((fC w) == 0) (.rem (fD w) (fA w) (fB w))
  | 0x07 => zeros ((fC w) == 0) (.remu (fD w) (fA w) (fB w))
  | 0x08 => .ok (.madd (fD w) (fA w) (fB w) (fC w))
  | _ => .error .unassignedSelector

/-- Major 0x03: extr (R131). -/
def dec03 (w : BitVec 32) : Except DecodeError Instr :=
  zeros (((fI w).extractLsb' 1 3) == 0) (.extr (fD w) (fA w) ((fI w).extractLsb' 10 6) ((fI w).extractLsb' 4 6) (bitBool ((fI w).extractLsb' 0 1)))

/-- Major 0x04: insf (R131). -/
def dec04 (w : BitVec 32) : Except DecodeError Instr :=
  zeros (((fI w).extractLsb' 0 4) == 0) (.insf (fD w) (fA w) ((fI w).extractLsb' 10 6) ((fI w).extractLsb' 4 6))

/-- Major 0x07: csrr, csrw, csrs, csrc (R131). -/
def dec07 (w : BitVec 32) : Except DecodeError Instr :=
  match ((fI w).extractLsb' 12 2).toNat with
  | 0x00 => zeros ((fA w) == 0 && ((fI w).extractLsb' 14 2) == 0) (.csrr (fD w) ((fI w).extractLsb' 0 12))
  | 0x01 => zeros (((fI w).extractLsb' 14 2) == 0) (.csrw (fD w) (fA w) ((fI w).extractLsb' 0 12))
  | 0x02 => zeros (((fI w).extractLsb' 14 2) == 0) (.csrs (fD w) (fA w) ((fI w).extractLsb' 0 12))
  | 0x03 => zeros (((fI w).extractLsb' 14 2) == 0) (.csrc (fD w) (fA w) ((fI w).extractLsb' 0 12))
  | _ => .error .unassignedSelector

/-- Major 0x08: addi (R131). -/
def dec08 (w : BitVec 32) : Except DecodeError Instr :=
  .ok (.addi (fD w) (fA w) (fI w))

/-- Major 0x09: andi (R131). -/
def dec09 (w : BitVec 32) : Except DecodeError Instr :=
  .ok (.andi (fD w) (fA w) (fI w))

/-- Major 0x0a: ori (R131). -/
def dec0A (w : BitVec 32) : Except DecodeError Instr :=
  .ok (.ori (fD w) (fA w) (fI w))

/-- Major 0x0b: xori (R131). -/
def dec0B (w : BitVec 32) : Except DecodeError Instr :=
  .ok (.xori (fD w) (fA w) (fI w))

/-- Major 0x0c: slli, srli, srai, roli (R131). -/
def dec0C (w : BitVec 32) : Except DecodeError Instr :=
  match (fZ w).toNat with
  | 0x00 => zeros (((fI w).extractLsb' 8 8) == 0) (.slli (fD w) (fA w) ((fI w).extractLsb' 0 6))
  | 0x01 => zeros (((fI w).extractLsb' 8 8) == 0) (.srli (fD w) (fA w) ((fI w).extractLsb' 0 6))
  | 0x02 => zeros (((fI w).extractLsb' 8 8) == 0) (.srai (fD w) (fA w) ((fI w).extractLsb' 0 6))
  | 0x03 => zeros (((fI w).extractLsb' 8 8) == 0) (.roli (fD w) (fA w) ((fI w).extractLsb' 0 6))
  | _ => .error .unassignedSelector

/-- Major 0x0d: slti (R131). -/
def dec0D (w : BitVec 32) : Except DecodeError Instr :=
  .ok (.slti (fD w) (fA w) (fI w))

/-- Major 0x0e: sltiu (R131). -/
def dec0E (w : BitVec 32) : Except DecodeError Instr :=
  .ok (.sltiu (fD w) (fA w) (fI w))

/-- Major 0x0f: lhi (R131). -/
def dec0F (w : BitVec 32) : Except DecodeError Instr :=
  zeros ((fA w) == 0) (.lhi (fD w) (fI w))

/-- Major 0x10: addpc (R131). -/
def dec10 (w : BitVec 32) : Except DecodeError Instr :=
  zeros ((fA w) == 0) (.addpc (fD w) (fI w))

/-- Major 0x11: beq (R131). -/
def dec11 (w : BitVec 32) : Except DecodeError Instr :=
  .ok (.beq (fD w) (fA w) (fI w))

/-- Major 0x12: bne (R131). -/
def dec12 (w : BitVec 32) : Except DecodeError Instr :=
  .ok (.bne (fD w) (fA w) (fI w))

/-- Major 0x13: blt (R131). -/
def dec13 (w : BitVec 32) : Except DecodeError Instr :=
  .ok (.blt (fD w) (fA w) (fI w))

/-- Major 0x14: bge (R131). -/
def dec14 (w : BitVec 32) : Except DecodeError Instr :=
  .ok (.bge (fD w) (fA w) (fI w))

/-- Major 0x15: bltu (R131). -/
def dec15 (w : BitVec 32) : Except DecodeError Instr :=
  .ok (.bltu (fD w) (fA w) (fI w))

/-- Major 0x16: bgeu (R131). -/
def dec16 (w : BitVec 32) : Except DecodeError Instr :=
  .ok (.bgeu (fD w) (fA w) (fI w))

/-- Major 0x17: jmp (R131). -/
def dec17 (w : BitVec 32) : Except DecodeError Instr :=
  .ok (.jmp (fO w))

/-- Major 0x18: jal (R131). -/
def dec18 (w : BitVec 32) : Except DecodeError Instr :=
  .ok (.jal (fO w))

/-- Major 0x19: jalr (R131). -/
def dec19 (w : BitVec 32) : Except DecodeError Instr :=
  .ok (.jalr (fD w) (fA w) (fI w))

/-- Major 0x1a: loop (R131). -/
def dec1A (w : BitVec 32) : Except DecodeError Instr :=
  zeros ((fD w) == 0 && ((fI w).extractLsb' 5 11) == 0) (.loop (fA w) ((fI w).extractLsb' 0 5))

/-- Major 0x1b: xrd, xwr (R131). -/
def dec1B (w : BitVec 32) : Except DecodeError Instr :=
  match (fF w).toNat with
  | 0x00 => zeros ((fB w) == 0 && (fC w) == 0) (.xrd (fD w) (fA w))
  | 0x01 => zeros ((fD w) == 0 && (fC w) == 0) (.xwr (fA w) (fB w))
  | _ => .error .unassignedSelector

/-- Major 0x1c: fadd, fsub, fmul, fdiv, fsqrt, fmin, fmax, feq, flt, fle, fclass, fsgn, fcvti, fcvtf, fcvtp (R131). -/
def dec1C (w : BitVec 32) : Except DecodeError Instr :=
  match (fF5 w).toNat with
  | 0x00 => (code (Prec.ofBits ((fF w).extractLsb' 5 1))).bind fun p => zeros ((fC w) == 0) (.fadd (fD w) (fA w) (fB w) p)
  | 0x01 => (code (Prec.ofBits ((fF w).extractLsb' 5 1))).bind fun p => zeros ((fC w) == 0) (.fsub (fD w) (fA w) (fB w) p)
  | 0x02 => (code (Prec.ofBits ((fF w).extractLsb' 5 1))).bind fun p => zeros ((fC w) == 0) (.fmul (fD w) (fA w) (fB w) p)
  | 0x03 => (code (Prec.ofBits ((fF w).extractLsb' 5 1))).bind fun p => zeros ((fC w) == 0) (.fdiv (fD w) (fA w) (fB w) p)
  | 0x04 => (code (Prec.ofBits ((fF w).extractLsb' 5 1))).bind fun p => zeros ((fB w) == 0 && (fC w) == 0) (.fsqrt (fD w) (fA w) p)
  | 0x05 => (code (Prec.ofBits ((fF w).extractLsb' 5 1))).bind fun p => zeros ((fC w) == 0) (.fmin (fD w) (fA w) (fB w) p)
  | 0x06 => (code (Prec.ofBits ((fF w).extractLsb' 5 1))).bind fun p => zeros ((fC w) == 0) (.fmax (fD w) (fA w) (fB w) p)
  | 0x07 => (code (Prec.ofBits ((fF w).extractLsb' 5 1))).bind fun p => zeros ((fC w) == 0) (.feq (fD w) (fA w) (fB w) p)
  | 0x08 => (code (Prec.ofBits ((fF w).extractLsb' 5 1))).bind fun p => zeros ((fC w) == 0) (.flt (fD w) (fA w) (fB w) p)
  | 0x09 => (code (Prec.ofBits ((fF w).extractLsb' 5 1))).bind fun p => zeros ((fC w) == 0) (.fle (fD w) (fA w) (fB w) p)
  | 0x0a => (code (Prec.ofBits ((fF w).extractLsb' 5 1))).bind fun p => zeros ((fB w) == 0 && (fC w) == 0) (.fclass (fD w) (fA w) p)
  | 0x0b => (code (SgnVariant.ofBits ((fC w).extractLsb' 0 2))).bind fun v => (code (Prec.ofBits ((fF w).extractLsb' 5 1))).bind fun p => zeros (((fC w).extractLsb' 2 3) == 0) (.fsgn (fD w) (fA w) (fB w) v p)
  | 0x0c => (code (IntVariant.ofBits ((fC w).extractLsb' 0 2))).bind fun v => (code (Prec.ofBits ((fF w).extractLsb' 5 1))).bind fun p => zeros ((fB w) == 0 && ((fC w).extractLsb' 2 3) == 0) (.fcvti (fD w) (fA w) v p)
  | 0x0d => (code (IntVariant.ofBits ((fC w).extractLsb' 0 2))).bind fun v => (code (Prec.ofBits ((fF w).extractLsb' 5 1))).bind fun p => zeros ((fB w) == 0 && ((fC w).extractLsb' 2 3) == 0) (.fcvtf (fD w) (fA w) v p)
  | 0x0e => (code (FmtVariant.ofBits ((fC w).extractLsb' 0 2))).bind fun v => (code (Prec.ofBits ((fF w).extractLsb' 5 1))).bind fun p => zeros ((fB w) == 0 && ((fC w).extractLsb' 2 3) == 0) (.fcvtp (fD w) (fA w) v p)
  | _ => .error .unassignedSelector

/-- Major 0x1d: fma, fms, fnma, fnms (R131). -/
def dec1D (w : BitVec 32) : Except DecodeError Instr :=
  match (fF5 w).toNat with
  | 0x00 => (code (Prec.ofBits ((fF w).extractLsb' 5 1))).bind fun p => .ok (.fma (fD w) (fA w) (fB w) (fC w) p)
  | 0x01 => (code (Prec.ofBits ((fF w).extractLsb' 5 1))).bind fun p => .ok (.fms (fD w) (fA w) (fB w) (fC w) p)
  | 0x02 => (code (Prec.ofBits ((fF w).extractLsb' 5 1))).bind fun p => .ok (.fnma (fD w) (fA w) (fB w) (fC w) p)
  | 0x03 => (code (Prec.ofBits ((fF w).extractLsb' 5 1))).bind fun p => .ok (.fnms (fD w) (fA w) (fB w) (fC w) p)
  | _ => .error .unassignedSelector

/-- Major 0x20: ld (R131). -/
def dec20 (w : BitVec 32) : Except DecodeError Instr :=
  (code (LdWidth.ofBits (fW w))).bind fun wd => .ok (.ld (fD w) (fA w) wd (bitBool (fPI w)) (fI12 w))

/-- Major 0x21: st (R131). -/
def dec21 (w : BitVec 32) : Except DecodeError Instr :=
  (code (StWidth.ofBits (fW w))).bind fun wd => .ok (.st (fD w) (fA w) wd (bitBool (fPI w)) (fI12 w))

/-- Major 0x22: ldx (R131). -/
def dec22 (w : BitVec 32) : Except DecodeError Instr :=
  (code (LdWidth.ofBits ((fC w).extractLsb' 0 3))).bind fun wd => zeros (((fC w).extractLsb' 3 2) == 0 && (fF w) == 0) (.ldx (fD w) (fA w) (fB w) wd)

/-- Major 0x23: stx (R131). -/
def dec23 (w : BitVec 32) : Except DecodeError Instr :=
  (code (StWidth.ofBits ((fC w).extractLsb' 0 3))).bind fun wd => zeros (((fC w).extractLsb' 3 2) == 0 && (fF w) == 0) (.stx (fD w) (fA w) (fB w) wd)

/-- Major 0x24: vld (R131). -/
def dec24 (w : BitVec 32) : Except DecodeError Instr :=
  zeros ((fW w) == 0) (.vld (fD w) (fA w) (bitBool (fPI w)) (fI12 w))

/-- Major 0x25: vst (R131). -/
def dec25 (w : BitVec 32) : Except DecodeError Instr :=
  zeros ((fW w) == 0) (.vst (fD w) (fA w) (bitBool (fPI w)) (fI12 w))

/-- Major 0x26: vlds (R131). -/
def dec26 (w : BitVec 32) : Except DecodeError Instr :=
  zeros ((fC w) == 0 && (fF w) == 0) (.vlds (fD w) (fA w) (fB w))

/-- Major 0x27: vsts (R131). -/
def dec27 (w : BitVec 32) : Except DecodeError Instr :=
  zeros ((fC w) == 0 && (fF w) == 0) (.vsts (fD w) (fA w) (fB w))

/-- Major 0x28: vldg (R131). -/
def dec28 (w : BitVec 32) : Except DecodeError Instr :=
  zeros ((fC w) == 0 && (fF w) == 0) (.vldg (fD w) (fA w) (fB w))

/-- Major 0x29: vstg (R131). -/
def dec29 (w : BitVec 32) : Except DecodeError Instr :=
  zeros ((fC w) == 0 && (fF w) == 0) (.vstg (fD w) (fA w) (fB w))

/-- Major 0x2a: dld (R131). -/
def dec2A (w : BitVec 32) : Except DecodeError Instr :=
  zeros (((fD w).extractLsb' 4 1) == 0 && (fW w) == 0) (.dld ((fD w).extractLsb' 0 4) (fA w) (bitBool (fPI w)) (fI12 w))

/-- Major 0x2b: dst (R131). -/
def dec2B (w : BitVec 32) : Except DecodeError Instr :=
  zeros (((fD w).extractLsb' 4 1) == 0 && (fW w) == 0) (.dst ((fD w).extractLsb' 0 4) (fA w) (bitBool (fPI w)) (fI12 w))

/-- Major 0x2c: amoadd, amoand, amoor, amoxor, amomin, amomax, amominu, amomaxu, amoswap, amofadd (R131). -/
def dec2C (w : BitVec 32) : Except DecodeError Instr :=
  match ((fF w).extractLsb' 0 4).toNat with
  | 0x00 => (code (OrdKind.ofBits ((fC w).extractLsb' 3 2))).bind fun k => (code (Scope.ofBits ((fC w).extractLsb' 0 3))).bind fun s => (code (AmoWidth.ofBits ((fF w).extractLsb' 4 1))).bind fun wd => zeros (((fF w).extractLsb' 5 1) == 0) (.amoadd (fD w) (fA w) (fB w) k s wd)
  | 0x01 => (code (OrdKind.ofBits ((fC w).extractLsb' 3 2))).bind fun k => (code (Scope.ofBits ((fC w).extractLsb' 0 3))).bind fun s => (code (AmoWidth.ofBits ((fF w).extractLsb' 4 1))).bind fun wd => zeros (((fF w).extractLsb' 5 1) == 0) (.amoand (fD w) (fA w) (fB w) k s wd)
  | 0x02 => (code (OrdKind.ofBits ((fC w).extractLsb' 3 2))).bind fun k => (code (Scope.ofBits ((fC w).extractLsb' 0 3))).bind fun s => (code (AmoWidth.ofBits ((fF w).extractLsb' 4 1))).bind fun wd => zeros (((fF w).extractLsb' 5 1) == 0) (.amoor (fD w) (fA w) (fB w) k s wd)
  | 0x03 => (code (OrdKind.ofBits ((fC w).extractLsb' 3 2))).bind fun k => (code (Scope.ofBits ((fC w).extractLsb' 0 3))).bind fun s => (code (AmoWidth.ofBits ((fF w).extractLsb' 4 1))).bind fun wd => zeros (((fF w).extractLsb' 5 1) == 0) (.amoxor (fD w) (fA w) (fB w) k s wd)
  | 0x04 => (code (OrdKind.ofBits ((fC w).extractLsb' 3 2))).bind fun k => (code (Scope.ofBits ((fC w).extractLsb' 0 3))).bind fun s => (code (AmoWidth.ofBits ((fF w).extractLsb' 4 1))).bind fun wd => zeros (((fF w).extractLsb' 5 1) == 0) (.amomin (fD w) (fA w) (fB w) k s wd)
  | 0x05 => (code (OrdKind.ofBits ((fC w).extractLsb' 3 2))).bind fun k => (code (Scope.ofBits ((fC w).extractLsb' 0 3))).bind fun s => (code (AmoWidth.ofBits ((fF w).extractLsb' 4 1))).bind fun wd => zeros (((fF w).extractLsb' 5 1) == 0) (.amomax (fD w) (fA w) (fB w) k s wd)
  | 0x06 => (code (OrdKind.ofBits ((fC w).extractLsb' 3 2))).bind fun k => (code (Scope.ofBits ((fC w).extractLsb' 0 3))).bind fun s => (code (AmoWidth.ofBits ((fF w).extractLsb' 4 1))).bind fun wd => zeros (((fF w).extractLsb' 5 1) == 0) (.amominu (fD w) (fA w) (fB w) k s wd)
  | 0x07 => (code (OrdKind.ofBits ((fC w).extractLsb' 3 2))).bind fun k => (code (Scope.ofBits ((fC w).extractLsb' 0 3))).bind fun s => (code (AmoWidth.ofBits ((fF w).extractLsb' 4 1))).bind fun wd => zeros (((fF w).extractLsb' 5 1) == 0) (.amomaxu (fD w) (fA w) (fB w) k s wd)
  | 0x08 => (code (OrdKind.ofBits ((fC w).extractLsb' 3 2))).bind fun k => (code (Scope.ofBits ((fC w).extractLsb' 0 3))).bind fun s => (code (AmoWidth.ofBits ((fF w).extractLsb' 4 1))).bind fun wd => zeros (((fF w).extractLsb' 5 1) == 0) (.amoswap (fD w) (fA w) (fB w) k s wd)
  | 0x09 => (code (OrdKind.ofBits ((fC w).extractLsb' 3 2))).bind fun k => (code (Scope.ofBits ((fC w).extractLsb' 0 3))).bind fun s => (code (AmoWidth.ofBits ((fF w).extractLsb' 4 1))).bind fun wd => zeros (((fF w).extractLsb' 5 1) == 0) (.amofadd (fD w) (fA w) (fB w) k s wd)
  | _ => .error .unassignedSelector

/-- Major 0x2d: cas (R131). -/
def dec2D (w : BitVec 32) : Except DecodeError Instr :=
  (code (AmoWidth.ofBits ((fF w).extractLsb' 5 1))).bind fun wd => (code (OrdKind.ofBits ((fF w).extractLsb' 3 2))).bind fun k => (code (Scope.ofBits ((fF w).extractLsb' 0 3))).bind fun s => .ok (.cas (fD w) (fA w) (fB w) (fC w) wd k s)

/-- Major 0x2e: fence (R131). -/
def dec2E (w : BitVec 32) : Except DecodeError Instr :=
  (code (FenceKind.ofBits ((fI w).extractLsb' 11 2))).bind fun k => (code (Scope.ofBits ((fI w).extractLsb' 8 3))).bind fun s => zeros ((fD w) == 0 && (fA w) == 0 && ((fI w).extractLsb' 13 3) == 0) (.fence k s ((fI w).extractLsb' 0 8))

/-- Major 0x2f: waitw, waitc (R131). -/
def dec2F (w : BitVec 32) : Except DecodeError Instr :=
  match (fF w).toNat with
  | 0x00 => zeros ((fD w) == 0 && (fC w) == 0) (.waitw (fA w) (fB w))
  | 0x01 => zeros (((fD w).extractLsb' 3 2) == 0 && (fA w) == 0 && (fZ w) == 0) (.waitc ((fD w).extractLsb' 0 3) ((fB w) ++ (fP w)))
  | _ => .error .unassignedSelector

/-- Major 0x30: vadd, vsub, vmul, vma, vmin, vmax, vand, vor, vxor, vandn, vshl, vshr, vabs, vneg, vsel, vaddsat, vsubsat, vmulh, vdot4, vdot2 (R131). -/
def dec30 (w : BitVec 32) : Except DecodeError Instr :=
  match (fF5 w).toNat with
  | 0x00 => (code (VType.ofBits (fT w))).bind fun t => .ok (.vadd (fD w) (fA w) (fB w) (fP w) t)
  | 0x01 => (code (VType.ofBits (fT w))).bind fun t => .ok (.vsub (fD w) (fA w) (fB w) (fP w) t)
  | 0x02 => (code (VType.ofBits (fT w))).bind fun t => .ok (.vmul (fD w) (fA w) (fB w) (fP w) t)
  | 0x03 => (code (VType.ofBits (fT w))).bind fun t => .ok (.vma (fD w) (fA w) (fB w) (fP w) t)
  | 0x04 => (code (VType.ofBits (fT w))).bind fun t => .ok (.vmin (fD w) (fA w) (fB w) (fP w) t)
  | 0x05 => (code (VType.ofBits (fT w))).bind fun t => .ok (.vmax (fD w) (fA w) (fB w) (fP w) t)
  | 0x06 => (code (VType.ofBits (fT w))).bind fun t => .ok (.vand (fD w) (fA w) (fB w) (fP w) t)
  | 0x07 => (code (VType.ofBits (fT w))).bind fun t => .ok (.vor (fD w) (fA w) (fB w) (fP w) t)
  | 0x08 => (code (VType.ofBits (fT w))).bind fun t => .ok (.vxor (fD w) (fA w) (fB w) (fP w) t)
  | 0x09 => (code (VType.ofBits (fT w))).bind fun t => .ok (.vandn (fD w) (fA w) (fB w) (fP w) t)
  | 0x0a => (code (VType.ofBits (fT w))).bind fun t => .ok (.vshl (fD w) (fA w) (fB w) (fP w) t)
  | 0x0b => (code (VType.ofBits (fT w))).bind fun t => .ok (.vshr (fD w) (fA w) (fB w) (fP w) t)
  | 0x0c => (code (VType.ofBits (fT w))).bind fun t => zeros ((fB w) == 0) (.vabs (fD w) (fA w) (fP w) t)
  | 0x0d => (code (VType.ofBits (fT w))).bind fun t => zeros ((fB w) == 0) (.vneg (fD w) (fA w) (fP w) t)
  | 0x0e => (code (VType.ofBits (fT w))).bind fun t => .ok (.vsel (fD w) (fA w) (fB w) (fP w) t)
  | 0x0f => (code (VType.ofBits (fT w))).bind fun t => .ok (.vaddsat (fD w) (fA w) (fB w) (fP w) t)
  | 0x10 => (code (VType.ofBits (fT w))).bind fun t => .ok (.vsubsat (fD w) (fA w) (fB w) (fP w) t)
  | 0x11 => (code (VType.ofBits (fT w))).bind fun t => .ok (.vmulh (fD w) (fA w) (fB w) (fP w) t)
  | 0x12 => (code (VType.ofBits (fT w))).bind fun t => .ok (.vdot4 (fD w) (fA w) (fB w) (fP w) t)
  | 0x13 => (code (VType.ofBits (fT w))).bind fun t => .ok (.vdot2 (fD w) (fA w) (fB w) (fP w) t)
  | _ => .error .unassignedSelector

/-- Major 0x31: vbcast, vmovx, vextx, vperm, vrot, vredadd, vredmin, vredmax, vcvt, vrcp, vrsq, vexp2, vlog2, vsin, vcos, venc12, vpack, vunpack (R131). -/
def dec31 (w : BitVec 32) : Except DecodeError Instr :=
  match (fF5 w).toNat with
  | 0x00 => (code (VType.ofBits (fT w))).bind fun t => zeros ((fB w) == 0) (.vbcast (fD w) (fA w) (fP w) t)
  | 0x01 => (code (VType.ofBits (fT w))).bind fun t => zeros ((fP w) == 0) (.vmovx (fD w) (fA w) (fB w) t)
  | 0x02 => (code (VType.ofBits (fT w))).bind fun t => zeros ((fP w) == 0) (.vextx (fD w) (fA w) (fB w) t)
  | 0x03 => (code (VType.ofBits (fT w))).bind fun t => .ok (.vperm (fD w) (fA w) (fB w) (fP w) t)
  | 0x04 => (code (VType.ofBits (fT w))).bind fun t => .ok (.vrot (fD w) (fA w) (fB w) (fP w) t)
  | 0x05 => (code (VType.ofBits (fT w))).bind fun t => zeros ((fB w) == 0) (.vredadd (fD w) (fA w) (fP w) t)
  | 0x06 => (code (VType.ofBits (fT w))).bind fun t => zeros ((fB w) == 0) (.vredmin (fD w) (fA w) (fP w) t)
  | 0x07 => (code (VType.ofBits (fT w))).bind fun t => zeros ((fB w) == 0) (.vredmax (fD w) (fA w) (fP w) t)
  | 0x08 => (code (VType.ofBits (fT w))).bind fun t => .ok (.vcvt (fD w) (fA w) (bitBool ((fB w).extractLsb' 4 1)) ((fB w).extractLsb' 0 4) (fP w) t)
  | 0x09 => (code (VType.ofBits (fT w))).bind fun t => zeros ((fB w) == 0) (.vrcp (fD w) (fA w) (fP w) t)
  | 0x0a => (code (VType.ofBits (fT w))).bind fun t => zeros ((fB w) == 0) (.vrsq (fD w) (fA w) (fP w) t)
  | 0x0b => (code (VType.ofBits (fT w))).bind fun t => zeros ((fB w) == 0) (.vexp2 (fD w) (fA w) (fP w) t)
  | 0x0c => (code (VType.ofBits (fT w))).bind fun t => zeros ((fB w) == 0) (.vlog2 (fD w) (fA w) (fP w) t)
  | 0x0d => (code (VType.ofBits (fT w))).bind fun t => zeros ((fB w) == 0) (.vsin (fD w) (fA w) (fP w) t)
  | 0x0e => (code (VType.ofBits (fT w))).bind fun t => zeros ((fB w) == 0) (.vcos (fD w) (fA w) (fP w) t)
  | 0x0f => zeros ((fT w) == 6) (.venc12 (fD w) (fA w) (fB w) (fP w))
  | 0x10 => (code (VType.ofBits (fT w))).bind fun t => zeros ((fP w) == 0) (.vpack (fD w) (fA w) (fB w) t)
  | 0x11 => (code (VType.ofBits (fT w))).bind fun t => zeros (((fB w).extractLsb' 1 4) == 0 && (fP w) == 0) (.vunpack (fD w) (fA w) ((fB w).extractLsb' 0 1) t)
  | _ => .error .unassignedSelector

/-- Major 0x32: vcmp (R131). -/
def dec32 (w : BitVec 32) : Except DecodeError Instr :=
  (code (VType.ofBits (fT w))).bind fun t => (code (Cond.ofBits ((fF5 w).extractLsb' 0 2))).bind fun c => zeros (((fD w).extractLsb' 3 2) == 0 && ((fF5 w).extractLsb' 2 3) == 0) (.vcmp ((fD w).extractLsb' 0 3) (fA w) (fB w) (fP w) t c)

/-- Major 0x33: pand, por, pxor, pnot, pmov, pget, pcnt (R131). -/
def dec33 (w : BitVec 32) : Except DecodeError Instr :=
  match (fF w).toNat with
  | 0x00 => zeros (((fD w).extractLsb' 3 2) == 0 && ((fA w).extractLsb' 3 2) == 0 && ((fB w).extractLsb' 3 2) == 0 && (fC w) == 0) (.pand ((fD w).extractLsb' 0 3) ((fA w).extractLsb' 0 3) ((fB w).extractLsb' 0 3))
  | 0x01 => zeros (((fD w).extractLsb' 3 2) == 0 && ((fA w).extractLsb' 3 2) == 0 && ((fB w).extractLsb' 3 2) == 0 && (fC w) == 0) (.por ((fD w).extractLsb' 0 3) ((fA w).extractLsb' 0 3) ((fB w).extractLsb' 0 3))
  | 0x02 => zeros (((fD w).extractLsb' 3 2) == 0 && ((fA w).extractLsb' 3 2) == 0 && ((fB w).extractLsb' 3 2) == 0 && (fC w) == 0) (.pxor ((fD w).extractLsb' 0 3) ((fA w).extractLsb' 0 3) ((fB w).extractLsb' 0 3))
  | 0x03 => zeros (((fD w).extractLsb' 3 2) == 0 && ((fA w).extractLsb' 3 2) == 0 && (fB w) == 0 && (fC w) == 0) (.pnot ((fD w).extractLsb' 0 3) ((fA w).extractLsb' 0 3))
  | 0x04 => zeros (((fD w).extractLsb' 3 2) == 0 && (fB w) == 0 && (fC w) == 0) (.pmov ((fD w).extractLsb' 0 3) (fA w))
  | 0x05 => zeros (((fA w).extractLsb' 3 2) == 0 && (fB w) == 0 && (fC w) == 0) (.pget (fD w) ((fA w).extractLsb' 0 3))
  | 0x06 => zeros (((fA w).extractLsb' 3 2) == 0 && (fB w) == 0 && (fC w) == 0) (.pcnt (fD w) ((fA w).extractLsb' 0 3))
  | _ => .error .unassignedSelector

/-- Major 0x34: vqma (R131). -/
def dec34 (w : BitVec 32) : Except DecodeError Instr :=
  (code (NFmt.ofBits ((fF w).extractLsb' 3 3))).bind fun na => (code (NFmt.ofBits ((fF w).extractLsb' 0 3))).bind fun nb => .ok (.vqma (fD w) (fA w) (fB w) (fC w) na nb)

/-- Major 0x35: vqdec (R131). -/
def dec35 (w : BitVec 32) : Except DecodeError Instr :=
  (code (NFmt.ofBits ((fF w).extractLsb' 3 3))).bind fun nf => (code (FFmt.ofBits ((fF w).extractLsb' 0 3))).bind fun ff => .ok (.vqdec (fD w) (fA w) (fB w) (fC w) nf ff)

/-- Major 0x36: vqenc (R131). -/
def dec36 (w : BitVec 32) : Except DecodeError Instr :=
  (code (FFmt.ofBits ((fF w).extractLsb' 3 3))).bind fun ff => (code (NFmt.ofBits ((fF w).extractLsb' 0 3))).bind fun nf => .ok (.vqenc (fD w) (fA w) (fB w) (fC w) ff nf)

/-- Major 0x37: dnorm, dvec, ddot, dadd, dsub, dscl, dneg, drefl, dcross, dmix, dmovn, dsetn, dtst, dmov, dproj (R131). -/
def dec37 (w : BitVec 32) : Except DecodeError Instr :=
  match (fF w).toNat with
  | 0x00 => zeros (((fD w).extractLsb' 4 1) == 0 && ((fA w).extractLsb' 4 1) == 0 && (fB w) == 0 && (fC w) == 0) (.dnorm ((fD w).extractLsb' 0 4) ((fA w).extractLsb' 0 4))
  | 0x01 => zeros (((fD w).extractLsb' 4 1) == 0 && (fB w) == 0 && (fC w) == 0) (.dvec ((fD w).extractLsb' 0 4) (fA w))
  | 0x02 => zeros (((fA w).extractLsb' 4 1) == 0 && ((fB w).extractLsb' 4 1) == 0 && (fC w) == 0) (.ddot (fD w) ((fA w).extractLsb' 0 4) ((fB w).extractLsb' 0 4))
  | 0x03 => zeros (((fD w).extractLsb' 4 1) == 0 && ((fA w).extractLsb' 4 1) == 0 && ((fB w).extractLsb' 4 1) == 0 && (fC w) == 0) (.dadd ((fD w).extractLsb' 0 4) ((fA w).extractLsb' 0 4) ((fB w).extractLsb' 0 4))
  | 0x04 => zeros (((fD w).extractLsb' 4 1) == 0 && ((fA w).extractLsb' 4 1) == 0 && ((fB w).extractLsb' 4 1) == 0 && (fC w) == 0) (.dsub ((fD w).extractLsb' 0 4) ((fA w).extractLsb' 0 4) ((fB w).extractLsb' 0 4))
  | 0x05 => zeros (((fD w).extractLsb' 4 1) == 0 && ((fA w).extractLsb' 4 1) == 0 && (fC w) == 0) (.dscl ((fD w).extractLsb' 0 4) ((fA w).extractLsb' 0 4) (fB w))
  | 0x06 => zeros (((fD w).extractLsb' 4 1) == 0 && ((fA w).extractLsb' 4 1) == 0 && (fB w) == 0 && (fC w) == 0) (.dneg ((fD w).extractLsb' 0 4) ((fA w).extractLsb' 0 4))
  | 0x07 => zeros (((fD w).extractLsb' 4 1) == 0 && ((fA w).extractLsb' 4 1) == 0 && ((fB w).extractLsb' 4 1) == 0 && (fC w) == 0) (.drefl ((fD w).extractLsb' 0 4) ((fA w).extractLsb' 0 4) ((fB w).extractLsb' 0 4))
  | 0x08 => zeros (((fD w).extractLsb' 4 1) == 0 && ((fA w).extractLsb' 4 1) == 0 && ((fB w).extractLsb' 4 1) == 0 && (fC w) == 0) (.dcross ((fD w).extractLsb' 0 4) ((fA w).extractLsb' 0 4) ((fB w).extractLsb' 0 4))
  | 0x09 => zeros (((fD w).extractLsb' 4 1) == 0 && ((fA w).extractLsb' 4 1) == 0 && ((fB w).extractLsb' 4 1) == 0) (.dmix ((fD w).extractLsb' 0 4) ((fA w).extractLsb' 0 4) ((fB w).extractLsb' 0 4) (fC w))
  | 0x0a => zeros (((fA w).extractLsb' 4 1) == 0 && (fB w) == 0 && (fC w) == 0) (.dmovn (fD w) ((fA w).extractLsb' 0 4))
  | 0x0b => zeros (((fD w).extractLsb' 4 1) == 0 && ((fA w).extractLsb' 4 1) == 0 && (fC w) == 0) (.dsetn ((fD w).extractLsb' 0 4) ((fA w).extractLsb' 0 4) (fB w))
  | 0x0c => zeros (((fA w).extractLsb' 4 1) == 0 && (fB w) == 0 && (fC w) == 0) (.dtst (fD w) ((fA w).extractLsb' 0 4))
  | 0x0d => zeros (((fA w).extractLsb' 4 1) == 0 && (fB w) == 0 && (fC w) == 0) (.dmov (fD w) ((fA w).extractLsb' 0 4))
  | 0x0e => zeros (((fD w).extractLsb' 4 1) == 0 && ((fA w).extractLsb' 4 1) == 0 && ((fB w).extractLsb' 4 1) == 0 && (fC w) == 0) (.dproj ((fD w).extractLsb' 0 4) ((fA w).extractLsb' 0 4) ((fB w).extractLsb' 0 4))
  | _ => .error .unassignedSelector

/-- Major 0x38: rbox, rtri (R131). -/
def dec38 (w : BitVec 32) : Except DecodeError Instr :=
  match (fF w).toNat with
  | 0x00 => zeros (((fB w).extractLsb' 4 1) == 0) (.rbox (fD w) (fA w) ((fB w).extractLsb' 0 4) (fC w))
  | 0x01 => zeros (((fB w).extractLsb' 4 1) == 0) (.rtri (fD w) (fA w) ((fB w).extractLsb' 0 4) (fC w))
  | _ => .error .unassignedSelector

/-- Major 0x39: tsetup, tcover, tinterp, texld, emit, emitq (R131). -/
def dec39 (w : BitVec 32) : Except DecodeError Instr :=
  match (fF w).toNat with
  | 0x00 => zeros (((fD w).extractLsb' 0 2) == 0 && (fC w) == 0) (.tsetup ((fD w).extractLsb' 2 3) (fA w) (fB w))
  | 0x01 => zeros (((fA w).extractLsb' 0 2) == 0 && (fC w) == 0) (.tcover (fD w) ((fA w).extractLsb' 2 3) (fB w))
  | 0x02 => zeros ((fC w) == 0) (.tinterp (fD w) (fA w) (fB w))
  | 0x03 => zeros ((fC w) == 0) (.texld (fD w) (fA w) (fB w))
  | 0x04 => zeros ((fD w) == 0) (.emit (fA w) (fB w) (fC w))
  | 0x05 => zeros ((fB w) == 0 && (fC w) == 0) (.emitq (fD w) (fA w))
  | _ => .error .unassignedSelector

/-- Major 0x3a: send, sendv, recv, recvn, mpoll (R131). -/
def dec3A (w : BitVec 32) : Except DecodeError Instr :=
  match (fF5 w).toNat with
  | 0x00 => zeros (((fC w).extractLsb' 2 3) == 0) (.send (fD w) (fA w) (fB w) ((fC w).extractLsb' 0 2) (bitBool ((fF w).extractLsb' 5 1)))
  | 0x01 => zeros (((fB w).extractLsb' 0 2) == 0 && ((fC w).extractLsb' 2 3) == 0) (.sendv (fD w) (fA w) ((fB w).extractLsb' 2 3) ((fC w).extractLsb' 0 2) (bitBool ((fF w).extractLsb' 5 1)))
  | 0x02 => zeros ((fA w) == 0 && ((fB w).extractLsb' 0 2) == 0 && ((fC w).extractLsb' 2 3) == 0) (.recv (fD w) ((fB w).extractLsb' 2 3) ((fC w).extractLsb' 0 2) (bitBool ((fF w).extractLsb' 5 1)))
  | 0x03 => zeros (((fB w).extractLsb' 0 2) == 0 && ((fF w).extractLsb' 5 1) == 0) (.recvn (fD w) (fA w) ((fB w).extractLsb' 2 3) (fC w))
  | 0x04 => zeros ((fA w) == 0 && (fB w) == 0 && ((fC w).extractLsb' 2 3) == 0 && ((fF w).extractLsb' 5 1) == 0) (.mpoll (fD w) ((fC w).extractLsb' 0 2))
  | _ => .error .unassignedSelector

/-- Major 0x3b: binit, barr, bwait, kinit, kenter, kleave, kskip, kfree (R131). -/
def dec3B (w : BitVec 32) : Except DecodeError Instr :=
  match (fF w).toNat with
  | 0x00 => zeros ((fD w) == 0 && (fB w) == 0) (.binit (fA w) (fC w))
  | 0x01 => zeros ((fA w) == 0 && (fB w) == 0) (.barr (fD w) (fC w))
  | 0x02 => zeros ((fD w) == 0 && (fB w) == 0) (.bwait (fA w) (fC w))
  | 0x03 => zeros ((fD w) == 0 && (fC w) == 0) (.kinit (fA w) (fB w))
  | 0x04 => zeros ((fC w) == 0) (.kenter (fD w) (fA w) (fB w))
  | 0x05 => zeros ((fD w) == 0 && (fB w) == 0 && (fC w) == 0) (.kleave (fA w))
  | 0x06 => zeros ((fD w) == 0 && (fC w) == 0) (.kskip (fA w) (fB w))
  | 0x07 => zeros ((fD w) == 0 && (fB w) == 0 && (fC w) == 0) (.kfree (fA w))
  | _ => .error .unassignedSelector

/-- Major 0x3c: qpop, qpush, spawn, qclose (R131). -/
def dec3C (w : BitVec 32) : Except DecodeError Instr :=
  match (fF5 w).toNat with
  | 0x00 => zeros ((fB w) == 0 && (fC w) == 0) (.qpop (fD w) (fA w) (bitBool ((fF w).extractLsb' 5 1)))
  | 0x01 => zeros ((fC w) == 0) (.qpush (fD w) (fA w) (fB w) (bitBool ((fF w).extractLsb' 5 1)))
  | 0x02 => zeros ((fC w) == 0 && ((fF w).extractLsb' 5 1) == 0) (.spawn (fD w) (fA w) (fB w))
  | 0x03 => zeros ((fD w) == 0 && (fB w) == 0 && (fC w) == 0 && ((fF w).extractLsb' 5 1) == 0) (.qclose (fA w))
  | _ => .error .unassignedSelector

/-- Major 0x3d: ewr, erd, copy, mgang, mlut, acl, ast, ald (R131). -/
def dec3D (w : BitVec 32) : Except DecodeError Instr :=
  match (fF w).toNat with
  | 0x00 => zeros ((fB w) == 0 && (fP w) == 0 && (fZ w) == 0) (.ewr (fD w) (fA w))
  | 0x01 => zeros ((fB w) == 0 && (fP w) == 0 && (fZ w) == 0) (.erd (fD w) (fA w))
  | 0x02 => zeros ((fZ w) == 0) (.copy (fD w) (fA w) (fB w) (fP w))
  | 0x03 => zeros (((fD w).extractLsb' 3 2) == 0 && ((fA w).extractLsb' 0 2) == 0 && (fB w) == 0 && (fZ w) == 0) (.mgang ((fD w).extractLsb' 0 3) ((fA w).extractLsb' 2 3) (fP w))
  | 0x04 => zeros (((fD w).extractLsb' 3 2) == 0 && ((fA w).extractLsb' 0 2) == 0 && (fB w) == 0 && (fZ w) == 0) (.mlut ((fD w).extractLsb' 0 3) ((fA w).extractLsb' 2 3) (fP w))
  | 0x05 => zeros (((fD w).extractLsb' 3 2) == 0 && (fA w) == 0 && (fB w) == 0 && (fP w) == 0 && (fZ w) == 0) (.acl ((fD w).extractLsb' 0 3))
  | 0x06 => zeros (((fA w).extractLsb' 3 2) == 0 && (fZ w) == 0) (.ast (fD w) ((fA w).extractLsb' 0 3) (fB w) (fP w))
  | 0x07 => zeros (((fD w).extractLsb' 3 2) == 0 && (fZ w) == 0) (.ald ((fD w).extractLsb' 0 3) (fA w) (fB w) (fP w))
  | _ => .error .unassignedSelector

/-- The instruction whose fields a word holds, before the checks of `Instr.wellFormed`. -/
def decodeFields (w : BitVec 32) : Except DecodeError Instr :=
  match (fMajor w).toNat with
  | 0x00 => dec00 w
  | 0x01 => dec01 w
  | 0x02 => dec02 w
  | 0x03 => dec03 w
  | 0x04 => dec04 w
  | 0x07 => dec07 w
  | 0x08 => dec08 w
  | 0x09 => dec09 w
  | 0x0a => dec0A w
  | 0x0b => dec0B w
  | 0x0c => dec0C w
  | 0x0d => dec0D w
  | 0x0e => dec0E w
  | 0x0f => dec0F w
  | 0x10 => dec10 w
  | 0x11 => dec11 w
  | 0x12 => dec12 w
  | 0x13 => dec13 w
  | 0x14 => dec14 w
  | 0x15 => dec15 w
  | 0x16 => dec16 w
  | 0x17 => dec17 w
  | 0x18 => dec18 w
  | 0x19 => dec19 w
  | 0x1a => dec1A w
  | 0x1b => dec1B w
  | 0x1c => dec1C w
  | 0x1d => dec1D w
  | 0x20 => dec20 w
  | 0x21 => dec21 w
  | 0x22 => dec22 w
  | 0x23 => dec23 w
  | 0x24 => dec24 w
  | 0x25 => dec25 w
  | 0x26 => dec26 w
  | 0x27 => dec27 w
  | 0x28 => dec28 w
  | 0x29 => dec29 w
  | 0x2a => dec2A w
  | 0x2b => dec2B w
  | 0x2c => dec2C w
  | 0x2d => dec2D w
  | 0x2e => dec2E w
  | 0x2f => dec2F w
  | 0x30 => dec30 w
  | 0x31 => dec31 w
  | 0x32 => dec32 w
  | 0x33 => dec33 w
  | 0x34 => dec34 w
  | 0x35 => dec35 w
  | 0x36 => dec36 w
  | 0x37 => dec37 w
  | 0x38 => dec38 w
  | 0x39 => dec39 w
  | 0x3a => dec3A w
  | 0x3b => dec3B w
  | 0x3c => dec3C w
  | 0x3d => dec3D w
  | _ => .error .reservedMajor

/-- The instruction of a word (R135, order 2). -/
def decodeWord (w : BitVec 32) : Except DecodeError Instr :=
  match decodeFields w with
  | .error e => .error e
  | .ok i => if i.wellFormed then .ok i else .error .illFormed

/-- A little-endian word of four bytes (R4, R127). -/
def wordOfBytes (b0 b1 b2 b3 : Byte) : BitVec 32 := b3 ++ b2 ++ b1 ++ b0

/-- The bytes of a word, the lowest address first (R4). -/
def bytesOfWord (w : BitVec 32) : List Byte :=
  [w.extractLsb' 0 8, w.extractLsb' 8 8, w.extractLsb' 16 8, w.extractLsb' 24 8]

/-- Decoding of any bytes: the first instruction and the bytes after it. -/
def decode : List Byte → Except DecodeError (Instr × List Byte)
  | b0 :: b1 :: b2 :: b3 :: rest =>
    match decodeWord (wordOfBytes b0 b1 b2 b3) with
    | .ok i => .ok (i, rest)
    | .error e => .error e
  | _ => .error .truncated

/-- The instruction the decoder reads from a word given as the opcode table numbers its bits. -/
def decodeTableWord (nbits w : Nat) : Option Instr :=
  if nbits = 32 then
    match decode (bytesOfWord (BitVec.ofNat 32 w)) with
    | .ok (i, _) => some i
    | .error _ => none
  else none

end Sys2Proof
end

