-- ==== Sys2Proof/Config.lean ====
section
/-! DEFINITION. What an implementation fixes and what the manual leaves open. A constant declared `opaque` has no body:
no proof can know its value, so a statement holds for every value it may have. -/

namespace Sys2Proof

/-- Who moves next (15_ordering_machine.md, R313: "At each step the machine chooses one enabled step of one part and
performs it"). `issue c` is one core cycle of core `c` (R125), `part sid` reads on with a load of strand `sid` of which a
single-copy atomic part is still to be taken (R314), `beats c` beats of the transfer of core `c`'s emission unit (R406), `act i` a step of the device (a row of the opcode table that has no
word), `pass n` lets `n` nanoseconds of field time go by (R47). The others are events that the manual describes and the
table has no row for (log 59): a host read of a register (R48), a parity error of an instruction-cache line (R122), the
field firmware's writes to a V/F point and to THERMTRIP (R110, R115), the four IEEE 1149.1 instructions of the debug
port (R50), and a parity error of an entry of a micro-TLB (`kind` 0), of a sheaf TLB (1) or of a walk cache, at place
`entry` of unit `unit` (R256). -/
inductive Turn
  | issue (core : Nat)
  | part (sid : Nat)
  | beats (core fresh : Nat)
  | act (i : Instr)
  | pass (ns : Nat)
  | read (off : Nat)
  | parity (core : Nat) (ctx : BitVec 4) (line : Nat)
  | tlbParity (kind unit entry : Nat)
  | vfPoint (point mhz mv : Nat)
  | tripClear
  | scan (ir : BitVec 8) (data : List Byte)
deriving DecidableEq, Repr, Inhabited

/-- What a transfer of this step meets: of any memory, a word corrected or found uncorrectable (R252, R391); of HBM4, a
parity error of write data or of a command, a retry, a read or a write whose four retries have failed (R117, R118). -/
inductive Flaw
  | corrected
  | uncorrectable
  | wrpar
  | capar
  | retry
  | readFailed
  | writeFailed
deriving DecidableEq, Repr, Inhabited

/-- What the manual leaves to the step itself (log 59). `cut`: which single-copy atomic parts of a read are taken, 0 for all
that are left, and how many beats an emission unit reads: of a read whose parts are ordered so many of the first, of any other
those whose bit is set (R235, R239, R261, R314, R406). `toward`: an entry that drains does so, for now, toward the scope of this
number alone, 0 for all parties (R319; log 18). `flaws`: what the transfers of the step meet, by a location of the word or line.
`stalls`: bit i is 1 when slot i of the core that issues has a result pending that its next instruction reads, or needs a unit that
cannot accept it in this cycle (R124; log 5). -/
structure Choice where
  cut : Nat
  toward : Nat
  flaws : List (Nat × Flaw)
  stalls : Nat
deriving DecidableEq, Repr, Inhabited

/-- Every part at once, every write toward all parties, no flaw, no result pending. -/
def Choice.plain : Choice := { cut := 0, toward := 0, flaws := [], stalls := 0 }

namespace Config

/-- The schedule when nothing is on the agenda: any turn at all, a fresh one for every number (log 1). -/
opaque nextTurn : Nat → Choice × Turn

/-! ### The field (R14) -/

def cores : Nat := 9216
def sheaves : Nat := 576
def columns : Nat := 128
def rows : Nat := 72
def slots : Nat := 4

/-! ### Location numbers (log 13): every byte of memory has one number -/

/-- Physical addresses are 48 bits and number themselves (R247). -/
def tcmBase : Nat := 2 ^ 48
def localBase : Nat := 2 ^ 49
def padBase : Nat := 2 ^ 50

def tcmBytes : Nat := 0x8000
def localBytes : Nat := 0x20000
def padBytes : Nat := 0x40000

/-- End of HBM4 (R247: 72 GiB). -/
def hbmEnd : Nat := 0x12_0000_0000
/-- Base of the Granary plain portion (R247). -/
def granaryBase : Nat := 0x8000_0000_0000


/-! ### Values fused into the part (R39, R41, R414; log 10) -/

opaque fwVersion : BitVec 32
/-- IDENT.FORM: 0 or 1 (R414). -/
opaque form : BitVec 1
opaque stepping : BitVec 4
opaque fusedKeyHash : List Byte
opaque identityKey : List Byte
opaque rollback : BitVec 32
opaque fieldFwDigest : List Byte

/-! ### Algorithms the manual names and does not give (log 10) -/

/-- SM3 digest, 32 bytes (R39, R41, R42). -/
opaque sm3 : List Byte → List Byte
/-- SM2 verification: public key, message digest, signature (R39). -/
opaque sm2Verify : List Byte → List Byte → List Byte → Bool
/-- SM2 signature by the device identity key over a digest, 64 bytes (R41). -/
opaque sm2Sign : List Byte → List Byte

/-! ### Values the manual leaves open -/

/-- Whether an HBM4 line lies in its Granary cache at a turn (R248, R251; log 14): the line, the turn's number. -/
opaque hbmCached : Nat → Nat → Bool
/-- The bits in which the second read of a critical leaf differs from the first (R257; log 6): the turn's number, the
walks still to be made, the virtual address. -/
opaque critFlips : Nat → Nat → Nat → BitVec 64
/-- The HBM4 channel, 0-63, that holds a line (R117 numbers the channels and gives no map; log 28). -/
opaque hbmChannel : Nat → Fin 64
/-- The primitive index field of an END record (R295 gives it no meaning there; log 28): the turn's number. -/
opaque endIndex : Nat → BitVec 32
/-- What a byte of TCM holds after its core was fully off (R98: "TCM lost"): the turn's number, the location (log 32). -/
opaque lostByte : Nat → Nat → BitVec 8
/-- What is copied of an image page that translated at the check of R79 and does no more (R66 is silent; log 84): the turn's number,
the virtual address. -/
opaque goneByte : Nat → Nat → BitVec 8
/-- A byte that a member of a gang operation reads past the end of its scratchpad (R281 checks each member's own descriptor
alone; log 83): the operation, the sheaf, the offset. -/
opaque pastPad : Nat → Nat → Nat → BitVec 8
/-- What a gang operation writes for a member whose descriptor registers, as they stand when the group forms, no longer keep what R279
checked at the arrival (log 83): the operation, the core, the element. -/
opaque gangFree : Nat → Nat → Nat → BitVec 56
/-- What a core CSR and an accumulator element hold after the core was power-gated or fully off (R98 keeps TCM, the local
store and the scratchpad share only): the turn's number, the core, the CSR or element (log 38). -/
opaque lostCsr : Nat → Nat → Nat → Word
opaque lostAcc : Nat → Nat → Nat → BitVec 56
/-- The factor by which the drive die lowers every emitter's current in a tick, in 65,536ths less one (R114; log 52). -/
opaque driveFactor : Nat → BitVec 16
/-- Mesh flits of one access to global memory (R100 charges each and no rule counts them; log 35): the turn's number. -/
opaque accessFlits : Nat → Nat
/-- The pins of the boundary register, what they hold at a turn (R50 names IEEE 1149.1; log 64). -/
opaque boundaryPins : Nat → List Byte
/-- The code IDCODE shifts out: bit 0 is 1, as IEEE 1149.1 has it. -/
opaque idcodeHigh : BitVec 31
def idcode : BitVec 32 := idcodeHigh ++ 1#1
/-- Instruction code number `n` of the 249 that are not EXTEST (0x00), an instruction of R50 (0x20-0x24) or the all-ones BYPASS. -/
def freeCode (n : Nat) : BitVec 8 := BitVec.ofNat 8 (if n < 31 then n + 1 else n + 6)
/-- The codes of SAMPLE/PRELOAD and IDCODE: two of those (log 64). -/
opaque sampleNo : Fin 249
opaque idcodeNo : Fin 248
def irSample : BitVec 8 := freeCode sampleNo.val
def irIdcode : BitVec 8 := freeCode (if idcodeNo.val < sampleNo.val then idcodeNo.val else idcodeNo.val + 1)
/-- How the governor's remainder is placed when no core had an excess (R108 names the sheaves of lowest ids and gives
neither how many nor in which parts): the turn's number, the core (log 31). -/
opaque chaffSheaves : Nat → Nat
opaque chaffWeight : Nat → Nat → Nat
/-- Whether the running mailbox command reads an aligned word of MBBUF as it stands or as it stood when the command began
(R40): the turn's number, the word. -/
opaque mbFresh : Nat → Nat → Bool
/-- The field-firmware digest of an attestation made in recovery, where none runs (R41; log 10). -/
opaque recoveryDigest : List Byte
/-- Which of its own lines of HBM4 (R249) a home slice holds in a line of the part of its Granary that serves as cache (the
slice, the line of that part), and the SECDED check bits of 8 bytes (R50 reads both out; the manual gives neither which lines
are cached nor the code; log 33). -/
opaque cachedLine : Nat → Nat → Nat
opaque secded : BitVec 64 → BitVec 8
/-- Records of one launch queue (R85). -/
def queueDepth : Nat := 256

/-! ### The V/F table at reset (R110): MHz, mV, SCALE -/

def vfPoints : List (Nat × Nat × Nat) :=
  [(400, 560, 119), (600, 590, 133), (800, 620, 146), (1000, 650, 161),
   (1100, 670, 171), (1200, 690, 181), (1300, 710, 192), (1400, 730, 203),
   (1500, 750, 214), (1600, 770, 226), (1750, 795, 241), (1900, 820, 256),
   (2100, 860, 282), (2300, 900, 308), (2450, 935, 333), (2600, 970, 358)]

end Config
end Sys2Proof
end

