-- ==== Sys2Proof/Machine/Table.lean ====
section
/-! DEFINITION. Sparse tables with rising keys, and memory as a canonical list of cells. -/

namespace Sys2Proof.Machine

/-- A sparse table: keys strictly rising, at most one entry a key. -/
abbrev Table (α : Type) := List (Nat × α)

/-- The entry of key `k`. -/
def Table.get? {α : Type} : Table α → Nat → Option α
  | [], _ => none
  | (j, a) :: t, k => if j = k then some a else if k < j then none else Table.get? t k

/-- The entry of key `k`, or `dflt`. -/
def Table.getD {α : Type} (t : Table α) (k : Nat) (dflt : α) : α := (Table.get? t k).getD dflt

/-- `t` with entry `a` at key `k`. -/
def Table.set {α : Type} : Table α → Nat → α → Table α
  | [], k, a => [(k, a)]
  | (j, b) :: t, k, a =>
    if k < j then (k, a) :: (j, b) :: t
    else if j = k then (k, a) :: t
    else (j, b) :: Table.set t k a

/-- `t` without key `k`. -/
def Table.erase {α : Type} : Table α → Nat → Table α
  | [], _ => []
  | (j, b) :: t, k => if k < j then (j, b) :: t else if j = k then t else (j, b) :: Table.erase t k

/-- `t` with every entry mapped by `f`. -/
def Table.mapVals {α : Type} (f : Nat → α → α) (t : Table α) : Table α := t.map fun e => (e.1, f e.1 e.2)

/-- What a byte that nothing has written reads as (log 2). -/
def blankByte : Byte := 0

/-- Memory: the bytes that differ from `blankByte`, by location number (Config, log 13), locations strictly rising. -/
abbrev Memory := List Host.Cell

/-- The canonical form. -/
def Memory.wf : Memory → Bool
  | [] => true
  | [(_, b)] => b != blankByte
  | (a, b) :: (a', b') :: t => b != blankByte && decide (a < a') && Memory.wf ((a', b') :: t)

/-- The byte at location `l`. -/
def Memory.byte (m : Memory) (l : Nat) : Byte := Table.getD m l blankByte

/-- `m` with byte `b` at location `l`. -/
def Memory.put (m : Memory) (l : Nat) (b : Byte) : Memory :=
  if b = blankByte then Table.erase m l else Table.set m l b

/-- `m` with every cell of `cells` written, in order. -/
def Memory.putAll (m : Memory) : List Host.Cell → Memory
  | [] => m
  | (l, b) :: t => Memory.putAll (m.put l b) t

/-- The cells of `m` with location in [lo, hi). -/
def Memory.within (m : Memory) (lo hi : Nat) : Memory := m.filter fun e => decide (lo ≤ e.1 ∧ e.1 < hi)

/-- Consecutive bytes from location `l`. -/
def Memory.bytes (m : Memory) (l : Nat) : Nat → List Byte
  | 0 => []
  | n + 1 => m.byte l :: Memory.bytes m (l + 1) n

end Sys2Proof.Machine
end

