-- ==== Sys2Proof/Machine/State.lean ====
section
/-! DEFINITION. The state of the OX-8K: every strand slot, core, sheaf, home-slice unit, the Thresher, the governor,
the Tchimen, the links and the host interface, as plain data; and its value right after reset. -/

namespace Sys2Proof.Machine

/-! ### Stops -/

/-- Why a step stops the machine. No rule of the manual stops the device: a trap, a context end and a dropped access
are next states, so no step of this model raises one. -/
inductive Fault
  /-- Raised by nothing: the type must have a constructor. Safe. -/
  | unraised
deriving DecidableEq, Repr, Inhabited

/-- Why an instruction has no meaning. -/
inductive Refusal
  /-- Raised by an arm of `exec` whose instruction has no meaning yet. Safe: a run stops there. -/
  | notModelled (mnemonic : String)
deriving DecidableEq, Repr, Inhabited

/-! ### Causes (19, R373) -/

inductive Cause
  | illegal | priv | align | access | page | prot | xlate | window | loopbody | fpxLocal | stall | keydl | keyfull
  | keyorder | barstate | gangto | engstate | engaddr | meshbound | trayfull | rampv | uncorr | sysc | brk | trap
  | msgaddr | engformat
deriving DecidableEq, Repr, Inhabited

/-! ### Parts of a strand -/

/-- A directional register: seven Q1.14 lanes and a Q7.8 norm (10, R212). The class is derived from the norm. -/
structure DirReg where
  lanes : Vector (BitVec 16) 7
  norm : BitVec 16
deriving DecidableEq, Repr

/-- ZERO (R212). -/
def DirReg.zero : DirReg := { lanes := Vector.replicate 7 0, norm := 0x8000 }

/-- An entry of a strand's store buffers (15, R313-R315). `seq` is unique and rises in program order; `vas` are the
virtual addresses it was translated from. `owed`: the greatest number of a scope at which a release that covers it has been
taken, 0 for none (R318). -/
structure BufEntry where
  seq : Nat
  hue : BitVec 3
  vas : List Nat
  cells : List Host.Cell
  owed : Nat
deriving DecidableEq, Repr

/-- What a fetch gives: a word, an error of translation, or the location of a word that cannot be corrected. -/
inductive FetchRes
  | word (w : BitVec 32)
  | fault (c : Cause)
  | bad (loc : Nat)
deriving DecidableEq, Repr

/-- An entry of a fetch buffer, with the error recorded for it (R121), or of a loop buffer (R154). -/
structure FetchWord where
  addr : Word
  res : FetchRes
deriving DecidableEq, Repr

/-- Where an access lands: its byte locations, and whether a load goes past the L1 view (near, or NC). -/
structure Place where
  locs : List Nat
  direct : Bool
deriving DecidableEq, Repr

/-- A single-copy atomic part of a read (R235, R239, R261): its virtual address, where it lands, its bytes once taken. `home`:
it is read past the strand's buffers and the L1 view (13, R306). -/
structure Part where
  va : Nat
  place : Place
  home : Bool
  got : Option (List Byte)
deriving DecidableEq, Repr

/-- A read of which some parts have been taken (R314). `no` names it; `done`: what the instruction's earlier batches of reads
gave; `parts`: the parts of the batch it is at; `ordered`: they are taken in order (R261). `bits`: the residency bits that it rests
on, by location and number; `until'`: field time by which it has read its pages, once one of them has been cleared (13, R308). -/
structure Underway where
  no : Nat
  done : List (List Byte)
  parts : List Part
  ordered : Bool
  bits : List (Nat × Nat)
  until' : Option Int
deriving DecidableEq, Repr

/-- A message (16, R340; 19, R378): destination, header fields, the slot's 64 bytes, and the entries its release
still waits for (R325). -/
structure Msg where
  dest : BitVec 14
  ext : Option (BitVec 4)
  mbox : BitVec 2
  ctx : BitVec 4
  dev : BitVec 4
  src : BitVec 16
  len : Nat
  data : List Byte
  rel : List Nat
  launch : Nat
deriving DecidableEq, Repr

/-- What a strand waits for (R331). `drain` re-issues its instruction once the entries have drained; `again`, `keyRoom`,
`push`, `tlb` and `emit` re-issue it once it would do something else than wait; the other waits are ended by the event that they
name. -/
inductive Wait
  | drain (set : List Nat)
  | fence (set : List Nat) (acq : Option Scope)
  | again
  | word (locs : List Nat) (value : Word)
  | counter (c : BitVec 3) (thr : BitVec 8)
  | phase (launch key : Nat) (old : BitVec 32)
  | superstep (launch key : Nat) (old : BitVec 32) (d : BitVec 5)
  | recv (mbox : BitVec 2) (d : BitVec 5) (b : BitVec 3)
  | recvn (dir limit : Nat) (d : BitVec 5) (b : BitVec 3)
  | send (m : Msg) (d : BitVec 5)
  | key (key : Word) (num : BitVec 32) (d : BitVec 5)
  | keyRoom (key : Word)
  | pop (q : Nat) (d : BitVec 5)
  | push (q : Nat) (record : List Byte) (src : Word) (set : List Nat)
  | nap (wake : Nat)
  | gang (mask : BitVec 16) (committed : Bool)
  | tlb (set ops reads : List Nat)
  | emit
deriving DecidableEq, Repr

/-- Whether a strand slot is free, bound to a strand that has been handed out and not started (R83, R90), live, or
holds a retired strand whose entries are draining (R401). -/
inductive SlotStat | free | bound | live | draining
deriving DecidableEq, Repr, Inhabited

/-- A strand slot. -/
structure Strand where
  stat : SlotStat
  /-- Names the strand for as long as it exists, through a husk too. -/
  uid : Nat
  ctx : BitVec 4
  launch : Nat
  ordinal : Nat
  stage : Nat
  index : Nat
  tile : Option Nat
  prio : Nat
  spawned : Bool
  pc : Word
  x : Vector Word 32
  v : Vector V128 32
  p : Vector (BitVec 16) 8
  d : Vector DirReg 16
  c : Vector (BitVec 8) 8
  ed : Vector Word 32
  fflags : BitVec 5
  fen : BitVec 5
  frm : BitVec 3
  lpc : Word
  lpstart : Word
  lpend : Word
  xwin : BitVec 11
  ddim : BitVec 3
  skew : Word
  bvhlo : BitVec 48
  bvhhi : BitVec 48
  hue : BitVec 3
  pwrreq : BitVec 4
  stallto : Word
  pausemax : Word
  kprobe : Word
  gangto : Word
  fpxsup : Word
  instret : Word
  mode : BitVec 2
  pmode : BitVec 2
  tvec : Word
  epc : Word
  cause : BitVec 9
  tval : Word
  kscratch : Word
  elpc : Word
  elpstart : Word
  elpend : Word
  /-- ENTRY (R370). -/
  entry : Bool
  /-- All eight store buffers, oldest entry first. -/
  buf : List BufEntry
  /-- The read under way. -/
  mid : Option Underway
  wait : Option Wait
  /-- Order in which waits began, core cycles waited (R332), cycles since the last probe (R359), ftime of the begin. -/
  waitNo : Nat
  waited : Nat
  probed : Nat
  waitAt : Int
  /-- R125. -/
  eff : Nat
  waitCnt : Nat
  /-- The strand's last issue was `yield` (R168). -/
  yielded : Bool
  /-- The fetch buffer and the loop buffer (R121, R154). -/
  fbuf : List FetchWord
  loopBuf : List FetchWord
  /-- Virtual line number an instruction-cache miss waits for (R123). -/
  fetchWait : Option Nat
  /-- Pending boundary causes: code and tval (R369). -/
  pend : List (Nat × Word)
  /-- FPX parking (R164): the event set. -/
  parked : Option (BitVec 5)
  /-- Events masked for the next issue (R379). -/
  fenMask : BitVec 5
  /-- Instructions completed since a pre-emption request (R385); step 3 reached; stopped at a pause point with these
  masks (R78). -/
  preempt : Option Nat
  saving : Bool
  pauseMasks : Option (List Byte)
  /-- Entries of the spawner that its release waits for before the first instruction (R354), and that acquire. -/
  startRel : List Nat
  startAcq : Bool
  /-- A field-point arrival of an SSTEP launch whose `barr` has not returned: point key and phase (R392; log 21). -/
  arrived : Option (Nat × BitVec 32)
  /-- Handed out and not yet started (R83), not a husk that waits for its core to wake. -/
  fresh : Bool
  /-- The word last issued (R332: the `tval` of a time-out). -/
  word : BitVec 32
deriving DecidableEq, Repr

/-- An empty slot. -/
def Strand.blank : Strand :=
  { stat := .free, uid := 0, ctx := 0, launch := 0, ordinal := 0, stage := 0, index := 0, tile := none, prio := 0,
    spawned := false, pc := 0, x := Vector.replicate 32 0, v := Vector.replicate 32 0,
    p := (Vector.replicate 8 0).set 0 0xFFFF, d := Vector.replicate 16 DirReg.zero, c := Vector.replicate 8 0,
    ed := Vector.replicate 32 0, fflags := 0, fen := 0, frm := 0, lpc := 0, lpstart := 0, lpend := 0, xwin := 0,
    ddim := 3, skew := 0, bvhlo := 0, bvhhi := 0, hue := 0, pwrreq := 15, stallto := 0x04000000, pausemax := 4096,
    kprobe := 65536, gangto := 16384, fpxsup := 0, instret := 0, mode := 0, pmode := 0, tvec := 0, epc := 0,
    cause := 0, tval := 0, kscratch := 0, elpc := 0, elpstart := 0, elpend := 0, entry := false, buf := [],
    mid := none, wait := none, waitNo := 0, waited := 0, probed := 0, waitAt := 0, eff := 0, waitCnt := 0, yielded := false,
    fbuf := [], loopBuf := [], fetchWait := none, pend := [], parked := none, fenMask := 0, preempt := none,
    saving := false, pauseMasks := none, startRel := [], startAcq := false,
    arrived := none, fresh := false, word := 0 }

/-! ### Parts of a core -/

/-- Power state (05, R98). -/
inductive Power | awake | clockGated | powerGated | off
deriving DecidableEq, Repr, Inhabited

/-- A translation held by a micro-TLB or a sheaf TLB (R256). `vpn` counts pages of the entry's own size. -/
structure TlbEntry where
  ctx : BitVec 4
  big : Bool
  vpn : Nat
  pte : Word
deriving DecidableEq, Repr

/-- A walk-cache pointer (R256): level 1 or 2, its index path, the pointer entry. -/
structure WalkEntry where
  ctx : BitVec 4
  level : Nat
  path : Nat
  pte : Word
deriving DecidableEq, Repr

/-- A header and where the message came from (R340): `scope` is the scope of the release it carried (R325). -/
structure Header where
  ctx : BitVec 4
  dev : BitVec 4
  src : BitVec 16
  len : Nat
  scope : Scope
deriving DecidableEq, Repr

/-- A send-queue entry (R341): its message has been refused and waits to be retried, or is on a link to a peer. -/
structure SendEntry where
  msg : Msg
  refused : Bool
  onLink : Bool
deriving DecidableEq, Repr

/-- An `emit` from its issue to its swap (21, R406). `stage`: 0 waiting for its release or the unit, 1 transferring,
2 arrived. `read`: the bytes of the beats it has read, `dark`: the offsets in the buffer of the words among them that could not be
read. `snap`, `snapBad`: the buffer as it stood when the release completed, and the poisoned words in it. `since`: field time at
which the release completed; `behind`: that at which a transfer ahead of it arrived (R23). -/
structure Emission where
  tile : Nat
  mask : BitVec 8
  base : Nat
  time : Nat
  pol : Bool
  rel : List Nat
  uid : Nat
  launch : Nat
  ctx : BitVec 4
  ready : Option Nat
  snap : Memory
  snapBad : List Nat
  since : Int
  behind : Option Int
  stage : Nat
  read : List Byte
  dark : List Nat
  swapAt : Nat
deriving DecidableEq, Repr

/-- A tray record on its way (13, R295). -/
structure TrayRecord where
  ctx : BitVec 4
  bytes : List Byte
deriving DecidableEq, Repr

/-- A line of a core's L1 view (R250): physical line number and its 64 bytes. -/
structure L1Line where
  line : Nat
  bytes : List Byte
deriving DecidableEq, Repr

/-- A line of an instruction cache (R122): context, virtual line number, its 64 bytes, its physical address, and the offsets
of the words of 8 bytes that could not be corrected. -/
structure ILine where
  ctx : BitVec 4
  line : Nat
  bytes : List Byte
  phys : Nat
  bad : List Nat
deriving DecidableEq, Repr

/-- A core. -/
structure Core where
  cycle : Word
  tokres : Nat
  lates : BitVec 32
  late : Bool
  latePol : Bool
  qbase6 : BitVec 8
  qbase4 : BitVec 8
  qnan4 : BitVec 4
  qnan6 : BitVec 6
  qnan8 : BitVec 8
  /-- `qtab` entries that are not 0. -/
  qtab : Table (BitVec 19)
  /-- Elements of the accumulator tiles that are not 0: key 64 t + 8 r + j. -/
  acc : Table (BitVec 56)
  last : Nat
  /-- Token store (R100), chaff left to burn (R108) and the charge of a cycle the store could not cover, in 1/256 token. -/
  tokens : Nat
  chaff : Nat
  owed : Nat
  /-- Charges at SCALE 256 and cycles since the last tick (R111). -/
  tickTok : Nat
  tickCyc : Nat
  power : Power
  starved : Bool
  waking : Bool
  admitted : Bool
  /-- It has received an injection since it was last woken (R99). -/
  injected : Bool
  idleSince : Int
  gatedSince : Int
  /-- L1 lines, most recently used first. -/
  l1 : List L1Line
  /-- Instruction-cache lines, latest fill first. -/
  icache : List ILine
  utlb : List TlbEntry
  sendQ : List SendEntry
  /-- FPX messages that wait for a send-queue entry, with the order in which their strands parked (R378). -/
  fpx : List (Nat × Msg)
  /-- Header files: key 64 m + slot (R340). -/
  hdr : Table Header
  /-- Edge mailboxes by direction (R342). -/
  edge : Table (List (Header × List Byte))
  emits : List Emission
  /-- The input queue of 16 tray records (R296), and the delivery unit's own HEAD and PARTIALS (R297, R298). -/
  trayQ : List TrayRecord
  trayHead : Nat
  trayPartials : Nat
  visits : BitVec 32
  aborts : BitVec 32
  mismatches : BitVec 32
  /-- Field time from which the vertical tester may visit the path (R245). -/
  visitFrom : Int
  /-- Context and CODE of the near object in TCM (R77). -/
  near : Option (BitVec 4 × Word)
  /-- Failed core test (R43). -/
  failed : Bool
deriving DecidableEq, Repr

/-- A core after core test (R139, R404). -/
def Core.blank : Core :=
  { cycle := 0, tokres := 16384, lates := 0, late := false, latePol := false, qbase6 := 0, qbase4 := 0, qnan4 := 0,
    qnan6 := 0, qnan8 := 0, qtab := [], acc := [], last := 3, tokens := 0, chaff := 0, owed := 0, tickTok := 0, tickCyc := 0, power := .clockGated,
    starved := false, waking := false, admitted := false, injected := false, idleSince := 0, gatedSince := 0, l1 := [],
    icache := [], utlb := [], sendQ := [], fpx := [], hdr := [], edge := [], emits := [], trayQ := [], trayHead := 0, trayPartials := 0, visits := 0,
    aborts := 0, mismatches := 0, visitFrom := 0, near := none, failed := false }

/-! ### Parts of a sheaf -/

/-- A gang descriptor (12, R275). -/
structure GangDesc where
  shape : Word
  a : Word
  b : Word
  x : Word
deriving DecidableEq, Repr

/-- An arrival at the wired barrier (R280); `grp` names the descriptor registers, which are latched when the group forms (R274,
R281). -/
structure GangArrival where
  sid : Nat
  uid : Nat
  tile : Nat
  cn : BitVec 3
  lut : Bool
  grp : EGroup
deriving DecidableEq, Repr

/-- A group of the wired barrier. -/
structure GangGroup where
  mask : BitVec 16
  arrivals : List GangArrival
deriving DecidableEq, Repr

/-- A sheaf. -/
structure Sheaf where
  tlb : List TlbEntry
  waiting : List GangGroup
  committed : List GangGroup
  /-- V/F point, and the point a transition under way leads to (R111). -/
  point : Nat
  target : Option Nat
  /-- Chaff burned since the last unit of 65,536 tokens, in 1/256 token, and CHAFF, DROOP (R112). -/
  chaffTok : Nat
  chaff : BitVec 32
  droop : BitVec 16
  stretched : Bool
deriving DecidableEq, Repr

def Sheaf.blank : Sheaf :=
  { tlb := [], waiting := [], committed := [], point := 0, target := none, chaffTok := 0, chaff := 0, droop := 0,
    stretched := false }

/-! ### Engine operations (11, 12, 15 R323) -/

/-- One member of a formed gang (R281): what it latched. -/
structure GangMember where
  arr : GangArrival
  desc : GangDesc
  ctx : BitVec 4
  launch : Nat
  core : Nat
  qtab : Table (BitVec 19)
  qbase6 : BitVec 8
  qbase4 : BitVec 8
deriving DecidableEq, Repr

/-- What an engine operation does. `copy`: source and destination locations. `ast`, `ald`: element locations, format,
tile, `frm`. -/
inductive OpWork
  | copy (src dst : List Nat)
  | gang (mask : BitVec 16) (members : List GangMember)
  | ast (tile fmt : Nat) (frm : BitVec 3) (elems : List (List Nat))
  | ald (tile fmt : Nat) (elems : List (List Nat))
deriving DecidableEq, Repr

/-- A write of another party to source bytes of an operation: its cells among them, which source units are poisoned after it, and
the store entry, when parties outside a scope do not read the write yet (R319). -/
structure SrcWrite where
  cells : List Host.Cell
  bad : List Nat
  seq : Option Nat
deriving DecidableEq, Repr

/-- An engine thread. `snap`: memory as it stood at the fork, with the entries of the release it carries; `snapBad`: the
units that were poisoned then; `seen`: the writes of other parties to its source since, oldest first (R269, R277, R323);
`tileOld`: the tile an `ast` stores; `written`: payload writes made; `stop`: the thread has ended; counters still to be
decremented are those in `counters` (uid, cn). -/
structure EngOp where
  id : Nat
  work : OpWork
  uid : Nat
  core : Nat
  launch : Nat
  ctx : BitVec 4
  rel : List Nat
  started : Bool
  vas : List Nat
  flag : Option (List Nat × BitVec 32)
  snap : Memory
  snapBad : List Nat
  seen : List SrcWrite
  tileOld : Table (BitVec 56)
  written : List Nat
  stop : Bool
  counters : List (Nat × BitVec 3)
deriving DecidableEq, Repr

/-! ### Rendezvous (16) -/

/-- An arrival entered at a barrier point (R337). -/
structure Arrival where
  uid : Nat
  phase : BitVec 32
  rel : List Nat
  counted : Bool
deriving DecidableEq, Repr

/-- A barrier point: `init` false is UNINIT; `count` none is AUTO (R334). -/
structure Point where
  init : Bool
  count : Option Nat
  phase : BitVec 32
  arrivals : List Arrival
deriving DecidableEq, Repr

def Point.blank : Point := { init := false, count := none, phase := 0, arrivals := [] }

/-- A key entry (R355). `core` is the core whose table holds it, none for a home slice's. `leaving`: the holder's
`kleave` waits for these entries; `skipping`: `kskip`s that wait. `made`: it stands there only for `kenter`s that still wait
(R9, R332). -/
structure KeyEntry where
  core : Option Nat
  key : Word
  next : BitVec 32
  holder : Option (Nat × BitVec 32)
  abandoned : Bool
  skips : List (BitVec 32)
  ctxSkips : List (BitVec 32)
  waiters : List (Nat × BitVec 32)
  leaving : Option (List Nat)
  skipping : List (Nat × BitVec 32 × List Nat)
  made : Bool
deriving DecidableEq, Repr

/-- A work-queue slot that is not FREE (R348): FULL with the number of its push, or TAKEN by a strand. -/
inductive QSlot
  | full (n : Nat)
  | taken (uid : Nat)
deriving DecidableEq, Repr

/-! ### Launches (04) -/

/-- States of a launch (R89). REFUSED records hold no entry. -/
inductive LState | waiting | ready | running | drainingOut | complete
deriving DecidableEq, Repr, Inhabited

/-- Who submitted a record (R85, R88). -/
inductive Origin
  | port (q : Nat) (tag : BitVec 32)
  | strand (sid uid : Nat) (ctx : BitVec 4) (mode : BitVec 2) (addr : Word)
deriving DecidableEq, Repr

/-- A record in a launch queue. -/
structure Submitted where
  bytes : List Byte
  origin : Origin
  ctx : BitVec 4
deriving DecidableEq, Repr

/-- Checkpoint kept beside the checkpoint block in memory: who it belongs to and where it runs (R392); `kept`: what the block
held when that of another strand of the same slot took its place (log 65). -/
structure Checkpoint where
  sid : Nat
  strand : Strand
  kept : Option (List Byte)
deriving DecidableEq, Repr

/-- What the units of a core held when a superstep began: headers of the mailbox rings, edge mailboxes, the delivery unit's
counts (R394). -/
structure UnitMark where
  hdr : Table Header
  edge : Table (List (Header × List Byte))
  trayHead : Nat
  trayPartials : Nat
deriving DecidableEq, Repr

/-- Superstep bookkeeping of an SSTEP launch (R392-R394). `logs`: bytes used of each core's shadow log; `marks`: dirty
near lines (location / 64); `points`, `retired`, `total`: the barrier points and the counts of strands as they were when it
began; `units`: the units of the launch's cores as they were then, or when it first used the core. -/
structure Superstep where
  cks : List Checkpoint
  logs : Table Nat
  marks : List Nat
  points : Table Point
  lost : Bool
  rolls : Nat
  retired : Nat
  total : Nat
  units : Table UnitMark
deriving DecidableEq, Repr

/-- A launch-table entry. `deps`: the dependences not yet satisfied, by number and
physical address; `handed`: every strand of lower ordinal has been handed out, `ahead`: strands handed out beyond it;
`total`, `retired`, `skips`: strands of the launch, those retired, and those skipped for a dark tile; `chosenAt`: k0 (R106), `runTick`: the tick it
becomes RUNNING, `rampFrom`, `rampTicks`: its pre-ramp, `runAt`, `runNo`: time and order of becoming RUNNING; `imaged`, `imagedLocal`,
`imagedNear`: the sheaves, local stores and TCMs that hold its images (R66). -/
structure Launch where
  bytes : List Byte
  origin : Origin
  state : LState
  accNo : Nat
  deps : List (Nat × Nat)
  handed : Nat
  ahead : List Nat
  total : Nat
  retired : Nat
  skips : Nat
  lateStart : Bool
  darkSkip : Bool
  ended : Option Byte
  wordDone : Bool
  chosenAt : Option Nat
  runTick : Option Nat
  rampFrom : Nat
  rampTicks : Nat
  runAt : Int
  runNo : Nat
  points : Table Point
  sets : List Nat
  imaged : List Nat
  imagedLocal : List Nat
  imagedNear : List Nat
  meshSlots : Nat
  meshFirst : Nat
  ss : Superstep
deriving DecidableEq, Repr

/-- A strand saved in a husk (R387): the bytes lie in memory at HUSKBASE + 4096 `sid`; `since`:
field time of the save; `kept`: what the block held when the husk of another strand of the same slot took its place (log
65). -/
structure Husk where
  sid : Nat
  uid : Nat
  strand : Strand
  since : Int
  kept : Option (List Byte)
deriving DecidableEq, Repr

/-- A reserved mesh ring slot (R292): its strand's ordinal and launch, whether the strand has retired, and whether it
ended early. -/
structure MeshSlot where
  slot : Nat
  launch : Nat
  ordinal : Nat
  retired : Bool
  empty : Bool
deriving DecidableEq, Repr

/-- The mesh ring of a context: next slot to reserve; reserved slots, oldest first. -/
structure MeshRing where
  next : Nat
  slots : List MeshSlot
deriving DecidableEq, Repr

/-- The slot the primitive assembler is at work on (R294): context, PRIMNO, DISC and CULL after it, and the tray records that
the tree holds for full queues, in the order they were sent, each with its core (R296). -/
structure Assembly where
  ctx : BitVec 4
  prim : BitVec 32
  disc : BitVec 32
  cull : BitVec 32
  left : List (Nat × TrayRecord)
deriving DecidableEq, Repr

/-- A page request (R307). -/
structure PageReq where
  id : Nat
  ctx : BitVec 4
  entryLoc : Nat
  pageLoc : Nat
  resLoc : Nat
  resBit : Nat
  host : Word
  clen : Nat
  dict : Option (Nat × List Byte)
deriving DecidableEq, Repr

/-! ### Host, Tchimen, links, power -/

/-- A queue port (02, R27-R30). -/
structure Port where
  staging : List Byte
  tag : BitVec 32
  why : Byte
  refused : Bool
  note : Bool
  vec : BitVec 6
  en : Bool
  ctx : BitVec 4
deriving DecidableEq, Repr

def Port.blank : Port :=
  { staging := List.replicate 128 0, tag := 0, why := 0, refused := false, note := false, vec := 2, en := false, ctx := 0 }

/-- An Apgauno port (R35). -/
structure Link where
  up : Bool
  deg : Bool
  lanes : Nat
  peerv : Bool
  peer : BitVec 4
  hold : Bool
  en : Bool
  lost : BitVec 32
  replay : BitVec 32
  crc : BitVec 32
  badLanes : Bool
  /-- Training has been started since the reset (log 41). -/
  begun : Bool
deriving DecidableEq, Repr

/-- A port right after reset: EN 1, and no training in progress (R35). -/
def Link.blank : Link :=
  { up := false, deg := false, lanes := 0, peerv := false, peer := 0, hold := false, en := true,
    lost := 0, replay := 0, crc := 0, badLanes := false, begun := false }

/-- A temperature sensor (05, R115, R116): its last sixteen raw readings in sixteenths of a degree, latest first, and
whether it is marked failed. -/
structure Sensor where
  readings : List Int
  failed : Bool
deriving DecidableEq, Repr

def Sensor.blank : Sensor := { readings := [], failed := false }

/-- A staged firmware image (R39): its bytes. -/
structure Staged where
  field : Bool
  bytes : List Byte
deriving DecidableEq, Repr

/-- A row group of a tile (21, R403, R404): pending and active codes, FRAME, STEPM1, the trims and the drive rail's common
factor in force, the factor in 65,536ths less one (R114). -/
structure RowGroup where
  pending : List Nat
  active : List Nat
  frame : Nat
  stepm1 : Nat
  trims : List Byte
  factor : BitVec 16
  periodAt : Int
deriving DecidableEq, Repr

/-- After core test. -/
def RowGroup.blank : RowGroup :=
  { pending := [], active := [], frame := 208333, stepm1 := 4, trims := [], factor := 0xFFFF, periodAt := 0 }

/-- A tile's record (R407): groups by number, LATEG, SWAPT. -/
structure Tile where
  groups : Table RowGroup
  lateg : BitVec 8
  swapT : BitVec 32
deriving DecidableEq, Repr

def Tile.blank : Tile := { groups := [], lateg := 0, swapT := 0 }

/-- The governor and its registers (05, R102-R117). `alloc`, `demand`: A and T of the last tick in qW, exact; `writes`: what
the host wrote to the block since the last tick boundary, offset and value, oldest first (R109); `tick`: the last tick. -/
structure Governor where
  alloc : Rat
  demand : Rat
  plim : Nat
  rampUp : Nat
  rampDn : Nat
  offDly : Nat
  gateDly : Nat
  boostEn : Bool
  pmax : Nat
  pbase : Nat
  writes : List (Nat × Word)
  tick : Nat
  spillTok : Nat
  spill : BitVec 32
  refTag : BitVec 32
  refCount : BitVec 16
  refCtx : BitVec 4
  vf : List (Nat × Nat × Nat)
  /-- What each core was granted in the last tick, chaff included, in 1/256 token (R108). -/
  grants : Table Nat
  tboost : Nat
  tthr : Nat
  tshut : Nat
  sensors : Table Sensor
  hbmerr : Table Word
  /-- Over-current and thermal records: sticky (R114, R115). -/
  ocCount : BitVec 16
  ocTime : BitVec 32
  ocBits : BitVec 6
  thermTrip : Bool
  /-- The factor the drive rail's control last gave (R114). -/
  factor : BitVec 16
deriving DecidableEq, Repr

def Governor.blank : Governor :=
  { alloc := 0, demand := 0, plim := 1040, rampUp := 32, rampDn := 32, offDly := 10000, gateDly := 20,
    boostEn := true, pmax := 15, pbase := 11, writes := [], tick := 0,
    spillTok := 0, spill := 0, refTag := 0, refCount := 0, refCtx := 0, vf := Config.vfPoints, grants := [],
    tboost := 95, tthr := 105, tshut := 125, sensors := [], hbmerr := [], ocCount := 0, ocTime := 0,
    ocBits := 0, thermTrip := false, factor := 0xFFFF }

/-- The Tchimen: mailbox, staged images, calibration, bring-up (02). -/
structure Tchimen where
  code : Byte
  result : Byte
  busy : Bool
  rlen : Nat
  /-- MBBUF, and as it stood when the running command began. -/
  buf : Memory
  args : Memory
  running : Option Byte
  staged : List Staged
  chunks : List Byte
  calDigest : List Byte
  /-- The calibration image in force, none when it is neutral. -/
  trims : Option Memory
  /-- The running field firmware image, none for the one shipped with the part. -/
  fieldFw : Option (List Byte)
  gransetNext : Nat
  granC : Nat
  kvec : Table Word
  stage : Nat
  adopted : Nat
  calfail : Bool
  fwrecov : Bool
  dark : Bool
  ready : Bool
  /-- PCIe configuration requests are answered (R38). -/
  pcieUp : Bool
deriving DecidableEq, Repr

def Tchimen.blank : Tchimen :=
  { code := 0, result := 0, busy := false, rlen := 0, buf := [], args := [], running := none, staged := [], chunks := [],
    calDigest := List.replicate 32 0, trims := none, fieldFw := none, gransetNext := 0, granC := 0, kvec := [], stage := 0, adopted := 0,
    calfail := false, fwrecov := false, dark := false, ready := false, pcieUp := false }

/-- BAR0 registers of the identity block that hold a value of their own, field time, and MSI-X. -/
structure HostRegs where
  freset : Bool
  devNext : BitVec 4
  devId : BitVec 4
  bar2drop : BitVec 32
  frzdrop : BitVec 32
  donedropCtx : BitVec 4
  donedrop : BitVec 32
  /-- Base of the ownership map page, once step 5 of a bring-up has run; it reads 0 before (log 39). -/
  ownmap : Option Nat
  ctxtab : Word
  meshtab : Word
  wqtab : Word
  qrefuse : Word
  ce : BitVec 32
  ue : BitVec 16
  rback : BitVec 8
  lastCtx : BitVec 4
  ctxend : BitVec 16
  huskbase : Word
  frame : Nat
  stepm1 : Nat
  ftload : Word
  ftLoaded : Bool
  ftSrc : Bool
  ftArm : Bool
  /-- A scheduled load: when it falls due, and the SRC it was scheduled under (R47). -/
  ftDue : Option (Nat × Bool)
  msixEn : Bool
  msixMask : List Nat
  msixPend : List Nat
  msixTable : Table (BitVec 32)
  /-- Vectors signalled to the host, latest first. -/
  msixSent : List Nat
  /-- What the last host read returned, and whether it was refused or poisoned. -/
  hostData : List Byte
  hostBad : Bool
deriving DecidableEq, Repr

def HostRegs.blank : HostRegs :=
  { freset := false, devNext := 0, devId := 0, bar2drop := 0, frzdrop := 0, donedropCtx := 0, donedrop := 0, ownmap := none, ctxtab := 0,
    meshtab := 0, wqtab := 0, qrefuse := 0, ce := 0, ue := 0, rback := 0, lastCtx := 0, ctxend := 0, huskbase := 0,
    frame := 208333, stepm1 := 4, ftload := 0, ftLoaded := false, ftSrc := false, ftArm := false, ftDue := none,
    msixEn := false, msixMask := List.range 64, msixPend := [], msixTable := [], msixSent := [], hostData := [],
    hostBad := false }

/-- Freeze and the debug port (R48-R50): `ir` is the instruction register, IDCODE after reset as IEEE 1149.1 has it (log 64); `pins` what
the boundary register holds for the pins. -/
structure Debug where
  frozen : Bool
  arrayRead : Bool
  ir : BitVec 8
  pins : List Byte
  shsel : BitVec 32
  arsel : Word
  out : List Byte
deriving DecidableEq, Repr

def Debug.blank : Debug := { frozen := false, arrayRead := false, ir := Config.irIdcode, pins := [], shsel := 0, arsel := 0, out := [] }

/-! ### The machine -/

/-- A byte that entry `seq` of strand `uid`, of hue `hue`, has written toward the scope of number `scope` of core `core` alone:
parties outside that scope still read `old` (15, R319; log 18). `vas`: the addresses of the entry. `ticket`: the name under which releases at wider scopes, taken
since, wait for it. -/
structure Early where
  loc : Nat
  old : Byte
  scope : Nat
  core : Nat
  uid : Nat
  seq : Nat
  hue : BitVec 3
  vas : List Nat
  ticket : Option Nat
deriving DecidableEq, Repr

/-- A word that could not be read, met by a unit on the way: the owner tag, and the accessing context and launch (19, R390). It
is handled before the step ends. -/
structure Met where
  tag : BitVec 4
  ctx : BitVec 4
  launch : Nat
deriving DecidableEq, Repr

/-- The whole state. `cur` is the slot whose word `exec` runs; `agenda` and `turnNo` are the schedule (log 1), `choice` what
it left to this step (log 59). -/
structure State where
  cur : Nat
  agenda : List (Choice × Turn)
  choice : Choice
  turnNo : Nat
  seqNo : Nat
  uidNo : Nat
  opNo : Nat
  waitNo : Nat
  accNo : Nat
  reqNo : Nat
  ftime : Nat
  mem : Memory
  /-- Owner tags that are not 0, by unit (location / 64) (R251). -/
  tags : Table (BitVec 4)
  /-- First locations of the poisoned words and lines (R252), rising. -/
  poison : List Nat
  /-- Oldest first. -/
  early : List Early
  met : List Met
  strands : Table Strand
  cores : Table Core
  sheafs : Table Sheaf
  walks : Table (List WalkEntry)
  ops : List EngOp
  keys : List KeyEntry
  wq : Table (Table QSlot)
  /-- `qclose`s that wait for their release: queue, strand, entries (R353). -/
  closes : List (Nat × Nat × List Nat)
  queues : Table (List Submitted)
  launches : Table Launch
  checked : List (BitVec 4 × Word × List Nat)
  husks : List Husk
  rings : Table MeshRing
  tree : Option Assembly
  pages : List PageReq
  tiles : Table Tile
  ports : Table Port
  links : Table Link
  routes : Table (BitVec 3)
  gov : Governor
  tch : Tchimen
  host : HostRegs
  dbg : Debug
deriving DecidableEq, Repr

/-- The machine right after reset (R37, R38): the release of a cold reset, before the first step of bring-up. No line has an owner tag
and no word is poisoned, for which the spec gives no reset value (R251, R252; log 82). -/
def State.reset : State :=
  { cur := 0, agenda := [], choice := Choice.plain, turnNo := 0, seqNo := 0, uidNo := 1, opNo := 0, waitNo := 0, accNo := 0, reqNo := 0,
    ftime := 0, mem := [], tags := [], poison := [], early := [], met := [], strands := [], cores := [], sheafs := [], walks := [], ops := [],
    keys := [], wq := [], closes := [], queues := [], launches := [], checked := [], husks := [], rings := [], tree := none, pages := [],
    tiles := [], ports := [], links := [], routes := [], gov := Governor.blank, tch := Tchimen.blank,
    host := HostRegs.blank, dbg := Debug.blank }

/-! ### The parts of a state by number -/

/-- Strand slot `sid` (R14). -/
def State.strand (s : State) (sid : Nat) : Strand := Table.getD s.strands sid Strand.blank
def State.setStrand (s : State) (sid : Nat) (t : Strand) : State := { s with strands := Table.set s.strands sid t }
def State.core (s : State) (c : Nat) : Core := Table.getD s.cores c Core.blank
def State.setCore (s : State) (c : Nat) (k : Core) : State := { s with cores := Table.set s.cores c k }
def State.sheaf (s : State) (h : Nat) : Sheaf := Table.getD s.sheafs h Sheaf.blank
def State.setSheaf (s : State) (h : Nat) (k : Sheaf) : State := { s with sheafs := Table.set s.sheafs h k }

/-- The strand whose word is executed. -/
def State.me (s : State) : Strand := s.strand s.cur
def State.setMe (s : State) (t : Strand) : State := s.setStrand s.cur t
/-- Its core and sheaf (R14). -/
def State.myCore (s : State) : Nat := s.cur / 4
def coreOf (sid : Nat) : Nat := sid / 4
def sheafOf (core : Nat) : Nat := core / 128 * 8 + core % 128 / 16
def memberOf (core : Nat) : Nat := core % 16

end Sys2Proof.Machine
end

