-- ==== Sys2Proof/Machine/Basic.lean ====
section
/-! DEFINITION. Registers, the completion of an instruction, waits, releases and acquires. -/

namespace Sys2Proof.Machine

/-- How a meaning ends. -/
abbrev Out := Host.Outcome State Fault Refusal

/-! ### Registers (06, R129) -/

/-- x[r]: x0 reads 0. -/
def Strand.xr (t : Strand) (r : XReg) : Word := if r = 0 then 0 else t.x[r.toNat]'(r.isLt)
/-- Write x[r]: a write to x0 is discarded. -/
def Strand.setX (t : Strand) (r : XReg) (w : Word) : Strand :=
  if r = 0 then t else { t with x := t.x.set r.toNat w r.isLt }
def Strand.vr (t : Strand) (r : VReg) : V128 := t.v[r.toNat]'(r.isLt)
def Strand.setV (t : Strand) (r : VReg) (w : V128) : Strand := { t with v := t.v.set r.toNat w r.isLt }
/-- p[r]: p0 reads 0xFFFF. -/
def Strand.pr (t : Strand) (r : PReg) : BitVec 16 := if r = 0 then 0xFFFF else t.p[r.toNat]'(r.isLt)
def Strand.setP (t : Strand) (r : PReg) (w : BitVec 16) : Strand :=
  if r = 0 then t else { t with p := t.p.set r.toNat w r.isLt }
def Strand.dr (t : Strand) (r : DReg) : DirReg := t.d[r.toNat]'(r.isLt)
def Strand.setD (t : Strand) (r : DReg) (w : DirReg) : Strand := { t with d := t.d.set r.toNat w r.isLt }
def Strand.cr (t : Strand) (r : CReg) : BitVec 8 := t.c[r.toNat]'(r.isLt)
def Strand.setC (t : Strand) (r : CReg) (w : BitVec 8) : Strand := { t with c := t.c.set r.toNat w r.isLt }
def Strand.edr (t : Strand) (r : EReg) : Word := t.ed[r.toNat]'(r.isLt)
def Strand.setEd (t : Strand) (r : EReg) (w : Word) : Strand := { t with ed := t.ed.set r.toNat w r.isLt }

/-- Register `i` of the group of four v registers that `g` names (R300, R343). -/
def groupReg (g : VGroup) (i : Nat) : VReg := BitVec.ofNat 5 (4 * g.toNat + i)

/-! ### Completion of an instruction -/

/-- The strand is inside a loop body (07, R154). -/
def Strand.inLoop (t : Strand) : Bool := t.lpc != 0 && decide (t.lpstart.toNat ≤ t.pc.toNat ∧ t.pc.toNat < t.lpend.toNat)

/-- The pc moves to `pc`: the fetch buffer keeps the words at pc to pc + 12 in line, and nothing after a jump (R121). -/
def Strand.goTo (t : Strand) (pc : Word) : Strand :=
  { t with pc := pc,
           fbuf := if pc = t.pc + 4 then t.fbuf.filter (fun f => decide ((f.addr - pc).toNat ≤ 12)) else [] }

/-- The next pc in line, with the loop step of R154; the pc stays a multiple of 4 whatever a handler has left in `lpstart` (R120;
log 74). -/
def Strand.advance (t : Strand) : Strand :=
  if t.lpc != 0 && t.pc == t.lpend - 4 then
    if t.lpc = 1 then { t with lpc := 0, loopBuf := [] }.goTo t.lpend
    else { t with lpc := t.lpc - 1 }.goTo (t.lpstart &&& ~~~3)
  else t.goTo (t.pc + 4)

/-- Counts of a completed instruction: `instret` (R144), ENTRY (R370), the pre-emption count (R385), the wait it may have
stood in and the events masked for it (R379). -/
def Strand.count (t : Strand) : Strand :=
  { t with instret := t.instret + 1, entry := false, preempt := t.preempt.map (· + 1), wait := none, waited := 0,
           probed := 0, fenMask := 0, yielded := false, mid := none }

/-- The strand with its instruction complete, going on in line. -/
def Strand.done (t : Strand) : Strand := t.advance.count
/-- The strand with its instruction complete, going on at `pc`. -/
def Strand.doneTo (t : Strand) (pc : Word) : Strand := (t.goTo pc).count

/-- The instruction of strand `sid` completes. -/
def State.finishAt (s : State) (sid : Nat) : State := s.setStrand sid (s.strand sid).done
/-- The current strand completes with registers as in `t`. -/
def State.finish (s : State) (t : Strand) : Out := .next (s.setMe t.done)
/-- The current strand completes with registers as in `t` and goes on at `pc`. -/
def State.finishTo (s : State) (t : Strand) (pc : Word) : Out := .next (s.setMe (t.doneTo pc))

/-! ### Strands by name -/

/-- The slot of the strand named `uid`, while it is in a slot. -/
def State.slotOf (s : State) (uid : Nat) : Option Nat :=
  (s.strands.find? fun e => e.2.uid == uid && (e.2.stat == .live || e.2.stat == .bound)).map (·.1)

/-- Slots whose strand has started and not retired (R334). -/
def State.liveSlots (s : State) : List (Nat × Strand) := s.strands.filter fun e => e.2.stat == .live

/-- Acceptance number of the launch in table entry `k`; numbers start at 1 (R87). -/
def State.accOf (s : State) (k : Nat) : Nat := ((Table.get? s.launches k).map (·.accNo)).getD 0
/-- Table entry of the launch with acceptance number `n`. -/
def State.launchOf (s : State) (n : Nat) : Option Nat := (s.launches.find? fun e => e.2.accNo == n).map (·.1)

/-! ### Waits (16, R331, R332) -/

/-- The kind of a wait: one of another kind is another wait. -/
def Wait.kind : Wait → Nat
  | .drain _ => 0 | .fence _ _ => 1 | .again => 2 | .word _ _ => 3 | .counter _ _ => 4 | .phase _ _ _ => 5
  | .superstep _ _ _ _ => 6 | .recv _ _ _ => 7 | .recvn _ _ _ _ => 8 | .send _ _ => 9 | .key _ _ _ => 10
  | .keyRoom _ => 11 | .pop _ _ => 12 | .push _ _ _ _ => 13 | .nap _ => 14 | .gang _ _ => 15 | .tlb _ _ _ => 16
  | .emit => 17

/-- Strand `sid` waits: a wait that begins is numbered and counted from this cycle; one that goes on keeps its counts. -/
def State.waitAt (s : State) (sid : Nat) (w : Wait) : State :=
  let t := s.strand sid
  if t.wait.any (fun v => v.kind == w.kind) then s.setStrand sid { t with wait := some w }
  else { s with waitNo := s.waitNo + 1 }.setStrand sid
    { t with wait := some w, waitNo := s.waitNo, waited := 0, probed := 0, waitAt := s.ftime }

/-- The current strand waits at its instruction. -/
def State.wait (s : State) (w : Wait) : Out := .next (s.waitAt s.cur w)

/-- The waiting strand whose wait `f` accepts that began first. -/
def State.firstWaiter {α : Type} (s : State) (f : Nat → Wait → Option α) : Option (Nat × α) :=
  (s.strands.foldl (fun best e =>
    if e.2.stat == .live then
      match e.2.wait.bind (f e.1) with
      | none => best
      | some a =>
        match best with
        | none => some (e.2.waitNo, e.1, a)
        | some (n, _, _) => if e.2.waitNo < n then some (e.2.waitNo, e.1, a) else best
    else best) (none : Option (Nat × Nat × α))).map fun r => r.2

/-! ### Releases and acquires (15, R318) -/

/-- Every entry that has not drained, or not toward all parties that a release owes it to. -/
def State.undrained (s : State) : List Nat :=
  (s.strands.map fun e => e.2.buf.map (·.seq)).flatten ++ s.early.filterMap (·.ticket)

/-- Every entry of `set` has drained. -/
def State.drained (s : State) (set : List Nat) : Bool := set.all fun q => !(s.undrained.contains q)

/-- All eight hues. -/
def allHues : BitVec 8 := 0xFF

/-- The number of a scope (01, R19). -/
def scopeNo : Scope → Nat
  | .strand => 0 | .core => 1 | .sheaf => 2 | .field => 3 | .system => 4

/-- A release of the hues of `mask` at the scope of number `n` covers the written record `e` of strand `uid`: parties of that scope do
not read it yet, or an earlier release still waits for it (R326: the later one does not complete before what is tied to the earlier). -/
def Early.due (e : Early) (uid : Nat) (mask : BitVec 8) (n : Nat) : Bool :=
  e.uid == uid && mask.getLsbD e.hue.toNat && (decide (e.scope < n) || e.ticket.isSome)

/-- The entry with a release at the scope of number `n` that it owes, when its hue is in `mask`. -/
def BufEntry.owe (e : BufEntry) (mask : BitVec 8) (n : Nat) : BufEntry :=
  if mask.getLsbD e.hue.toNat then { e with owed := max e.owed n } else e

/-- Strand `sid` takes a release of the hues of `mask` at the scope of number `n`: what it covers drains toward all members of
that scope before it completes. -/
def State.owe (s : State) (sid : Nat) (mask : BitVec 8) (n : Nat) : State :=
  let t := s.strand sid
  let s := if t.buf.isEmpty then s else s.setStrand sid { t with buf := t.buf.map fun e => e.owe mask n }
  if s.early.any (fun e => e.due t.uid mask n) then
    { s with
      seqNo := s.seqNo + 1,
      early := s.early.map fun (e : Early) =>
        if e.due t.uid mask n then { e with ticket := some (e.ticket.getD s.seqNo) } else e }
  else s

/-- The set that release stands for: the entries in the buffers, and those that have not drained toward all its members or that an
earlier release still waits for. For the members of its scope every other entry has drained; for a party outside, what the machine
does with the release removed is allowed (R319; log 18). -/
def State.relSet (s : State) (sid : Nat) (mask : BitVec 8) (n : Nat) : List Nat :=
  ((s.strand sid).buf.filter fun e => mask.getLsbD e.hue.toNat).map (·.seq) ++
    ((s.early.filter fun e => e.due (s.strand sid).uid mask n).filterMap (·.ticket)).dedup

/-- Take the release: the state with it, and its set. -/
def State.release (s : State) (sid : Nat) (mask : BitVec 8) (n : Nat) : State × List Nat :=
  let s := s.owe sid mask n
  (s, s.relSet sid mask n)

/-- The slot of a retired strand, free: its registers stand until the next strand is put there (R311, R401). -/
def Strand.vacate (t : Strand) : Strand :=
  { t with stat := .free, buf := [], mid := none, wait := none, pend := [], parked := none, fetchWait := none,
           preempt := none, saving := false, startRel := [], startAcq := false, arrived := none, yielded := false }

/-- Nothing that the strand has stored is still to be performed toward some party (R315, R401; R319). -/
def State.spent (s : State) (t : Strand) : Bool := t.buf.isEmpty && !(s.early.any fun e => e.uid == t.uid)

/-- The slots of retired strands that have nothing left to perform become free (R401). -/
def State.vacateSpent (s : State) : State :=
  { s with strands := Table.mapVals (fun _ (t : Strand) => if t.stat == .draining && s.spent t then t.vacate else t) s.strands }

/-- An acquire at scope `sc` on core `c`. -/
def State.acquire (s : State) (c : Nat) (sc : Scope) : State :=
  if 2 ≤ scopeNo sc then s.setCore c { s.core c with l1 := [] } else s

/-! ### Writes that some parties do not read yet (15, R319; log 18) -/

/-- Core `b` lies in the scope of number `n` of core `a` (01, R19). -/
def inScope (n a b : Nat) : Bool :=
  match n with
  | 0 => false
  | 1 => a == b
  | 2 => sheafOf a == sheafOf b
  | _ => true

/-- Core `core` does not read yet what `e` wrote. -/
def Early.hides (e : Early) (core : Nat) : Bool := !(inScope e.scope e.core core)

/-- An engine operation forked on core `core` does not: engines belong to no core scope (01, R19). -/
def Early.hidesOp (e : Early) (core : Nat) : Bool := !(decide (2 ≤ e.scope) && inScope e.scope e.core core)

/-- A unit of the field does not. -/
def Early.hidesFar (e : Early) : Bool := decide (e.scope ≤ 2)

/-- Memory as a party reads it from which the records that `p` accepts are hidden. -/
def State.view (s : State) (p : Early → Bool) : Memory :=
  s.early.foldr (fun e m => if p e then m.put e.loc e.old else m) s.mem

/-- Memory as the strands of core `core` read it at its home or in near memory; as an engine operation forked there, a unit of
the field, and the host or a peer read it. -/
def State.seen (s : State) (core : Nat) : Memory := s.view fun e => e.hides core
def State.seenOp (s : State) (core : Nat) : Memory := s.view fun e => e.hidesOp core
def State.far (s : State) : Memory := s.view Early.hidesFar
def State.seenHost (s : State) : Memory := s.view fun _ => true

/-- The entries to be read by all when those of `seqs` are: with each, whatever stands before it at one of its locations, and whatever
`also` says goes with it. An entry goes as a whole. -/
def entriesWith (also : Early → Early → Bool) (all : List Early) (seqs : List Nat) : Nat → List Nat
  | 0 => seqs
  | n + 1 =>
    let more := all.filter fun e => !(seqs.contains e.seq) &&
      all.any fun f => seqs.contains f.seq && ((f.loc == e.loc && decide (e.seq ≤ f.seq)) || also f e)
    if more.isEmpty then seqs else entriesWith also all (seqs ++ more.map (·.seq)) n

/-- Record `e` goes when those that `p` accepts go. -/
def Early.goes (also : Early → Early → Bool) (all : List Early) (p : Early → Bool) (e : Early) : Bool :=
  (entriesWith also all ((all.filter p).map (·.seq)) all.length).contains e.seq

/-- A `waitw` tests a word in which both records lie when all read what `f` wrote, and reads what `e` wrote (11, R271; R317). -/
def State.testedWith (s : State) (f e : Early) : Bool :=
  s.liveSlots.any fun x => match x.2.wait with
    | some (.word locs _) => locs.contains f.loc && locs.contains e.loc && !(e.hides (coreOf x.1))
    | _ => false

/-! ### MSI-X (02, R31, R46) -/

/-- Signal vector `v`. -/
def State.signal (s : State) (v : Nat) : State :=
  if s.host.msixEn then
    if s.host.msixMask.contains v then { s with host := { s.host with msixPend := (s.host.msixPend.erase v) ++ [v] } }
    else { s with host := { s.host with msixSent := v :: s.host.msixSent } }
  else s

/-! ### Power tokens (05, R100, R110; log 35) -/

/-- FREQ in MHz and SCALE of a point. -/
def Governor.freq (g : Governor) (p : Nat) : Nat := ((g.vf[p]?).map (·.1)).getD 0
def Governor.scale (g : Governor) (p : Nat) : Nat := ((g.vf[p]?).map (·.2.2)).getD 0

/-- A charge at SCALE 256 on core `c`, in 1/256 token. -/
def State.charge (s : State) (c tokens : Nat) : Nat := tokens * s.gov.scale (s.sheaf (sheafOf c)).point

/-- A core that can be clocked (05, R98). -/
def Power.up : Power → Bool
  | .awake | .clockGated => true
  | _ => false

/-- Core `c` spends `tokens` for an event outside its issue: a flit, an access of an engine. One whose store does not cover it gates
itself (R100; log 35). -/
def State.spend (s : State) (c tokens : Nat) : State :=
  let k := s.core c
  let cost := s.charge c tokens
  let k' := { k with tokens := k.tokens - cost, tickTok := k.tickTok + tokens }
  s.setCore c (if k.tokens < cost && k.power.up then { k' with starved := true, power := .clockGated } else k')

/-- A strand is live on core `c` now: the delay of R98 counts from here. -/
def State.busy (s : State) (c : Nat) : State := s.setCore c { s.core c with idleSince := s.ftime }

/-! ### Little-endian bytes (R4) -/

/-- The `n` bytes of a number, low byte first. -/
def leBytes (w : Nat) : Nat → List Byte
  | 0 => []
  | n + 1 => BitVec.ofNat 8 (w % 256) :: leBytes (w / 256) n

/-- The number that bytes hold, low byte first. -/
def leNat : List Byte → Nat
  | [] => 0
  | b :: t => b.toNat + 256 * leNat t

/-- Bytes [off, off + n) of a record as a number. -/
def fieldAt (bs : List Byte) (off n : Nat) : Nat := leNat ((bs.drop off).take n)

/-- Bits h:l of a number. -/
def natBits (w h l : Nat) : Nat := w / 2 ^ l % 2 ^ (h + 1 - l)

/-- Cells of consecutive locations. -/
def cellsAt (l : Nat) : List Byte → List Host.Cell
  | [] => []
  | b :: t => (l, b) :: cellsAt (l + 1) t

/-- Keep a range of numbers. -/
def clampNat (lo hi n : Nat) : Nat := max lo (min hi n)

/-! ### What a strand CSR keeps of a value (07, R142, R143; 10, R213; 11, R242; 19, R371) -/

/-- `frm` stores 0 for 5 to 7 (R143). -/
def frmStore (w : Word) : BitVec 3 := if 5 ≤ w.toNat % 8 then 0 else w.truncate 3

/-- The value `xwin` stores: LEN 0 for a window that does not fit (R142). -/
def xwinStore (w : Word) : BitVec 11 :=
  let base := natBits w.toNat 4 0
  let len := natBits w.toNat 10 5
  if len = 0 ∨ 32 < len ∨ 32 < base + len then BitVec.ofNat 11 base else BitVec.ofNat 11 (base + 32 * len)

/-- The value `skew` stores: EN 0 for a tile that does not fit (R242). -/
def skewStore (w : Word) : Word :=
  let v := w.toNat
  let base := natBits v 10 0
  let pitch := natBits v 21 11
  let rows := natBits v 34 24
  let fields := base + pitch * 2 ^ 11 + rows * 2 ^ 24
  if pitch = 0 ∨ 0x40000 < base * 128 + 128 * pitch * (rows + 1) then BitVec.ofNat 64 fields
  else BitVec.ofNat 64 (fields + natBits v 63 63 * 2 ^ 63)

/-- `ddim` stores 2 for 0 and 1 (R213). -/
def ddimStore (w : Word) : BitVec 3 := if w.toNat % 8 < 2 then 2 else w.truncate 3

/-- `fpxsup` keeps SET and DEST (R143). -/
def fpxsupStore (w : Word) : Word := w &&& 0x8007FFFF

/-- `tvec` keeps bits 47:2 (R371). -/
def tvecStore (w : Word) : Word := w &&& 0x0000FFFFFFFFFFFC

/-! ### Location numbers (11, R238, R247; log 13) -/

def tcmLoc (core off : Nat) : Nat := Config.tcmBase + core * Config.tcmBytes + off
def localLoc (core off : Nat) : Nat := Config.localBase + core * Config.localBytes + off
def padLoc (sheaf off : Nat) : Nat := Config.padBase + sheaf * Config.padBytes + off

def isTcm (l : Nat) : Bool := decide (Config.tcmBase ≤ l ∧ l < Config.localBase)
def isLocal (l : Nat) : Bool := decide (Config.localBase ≤ l ∧ l < Config.padBase)
def isPad (l : Nat) : Bool := decide (Config.padBase ≤ l)
def isNear (l : Nat) : Bool := decide (Config.tcmBase ≤ l)
def isHbm (l : Nat) : Bool := decide (l < Config.hbmEnd)

/-- First location past the Granary plain portion (R247). -/
def State.granEnd (s : State) : Nat := Config.granaryBase + 576 * (512 - s.tch.granC) * 1024

/-- Physical address `p` names memory (R247). -/
def State.physOk (s : State) (p : Nat) : Bool :=
  decide (p < Config.hbmEnd ∨ (Config.granaryBase ≤ p ∧ p < s.granEnd))

/-- The home slice of a physical address (R249). -/
def homeSlice (p : Nat) : Nat :=
  if p < Config.hbmEnd then ((p / 64) ^^^ (p / 64 / 4096)) % 576 else (p - Config.granaryBase) / 64 % 576

/-- The linear scratchpad offset that skewed offset `o` maps to (R243). -/
def skewMap (skew : Word) (o : Nat) : Nat :=
  let w := skew.toNat
  let pitch := 32 * natBits w 21 11
  let top := natBits w 10 0 * 128
  if natBits w 63 63 = 1 ∧ top ≤ o ∧ o < top + 4 * pitch * (natBits w 34 24 + 1) then
    let j := (o - top) / 4
    let row := j / pitch
    let col := j % pitch
    let j := if col < 32 then row * pitch + (col + row) % 32 else j
    top + 4 * j + o % 4
  else o

/-- A skewed offset lies inside the enabled tile (R243). -/
def skewInTile (skew : Word) (o : Nat) : Bool :=
  let w := skew.toNat
  let top := natBits w 10 0 * 128
  decide (natBits w 63 63 = 1 ∧ top ≤ o ∧ o < top + 4 * (32 * natBits w 21 11) * (natBits w 34 24 + 1))

/-- The location of a near byte, none in a hole (R238). -/
def nearByte (core : Nat) (skew : Word) (a : Nat) : Option Nat :=
  if a < 0x8000 then some (tcmLoc core a)
  else if 0x10000 ≤ a ∧ a < 0x50000 then some (padLoc (sheafOf core) (a - 0x10000))
  else if 0x50000 ≤ a ∧ a < 0x90000 then some (padLoc (sheafOf core) (skewMap skew (a - 0x50000)))
  else if 0x100000 ≤ a ∧ a < 0x120000 then some (localLoc core (a - 0x100000))
  else none

/-- The near address of a near location, by its linear window (R238). -/
def nearAddr (l : Nat) : Nat :=
  if isTcm l then (l - Config.tcmBase) % Config.tcmBytes
  else if isLocal l then 0x100000 + (l - Config.localBase) % Config.localBytes
  else 0x10000 + (l - Config.padBase) % Config.padBytes

end Sys2Proof.Machine
end

