-- ==== Sys2Proof/Machine/Store.lean ====
section
/-! DEFINITION. A write to memory, by any party: what it does to the bytes and to every unit that watches them
(15, R317). -/

namespace Sys2Proof.Machine

/-! ### Launch records (04, R80) -/

def recCode (r : List Byte) : Word := BitVec.ofNat 64 (fieldAt r 0x00 8)
def recEntry (r : List Byte) : Nat := fieldAt r 0x08 4
def recCtx (r : List Byte) : BitVec 4 := BitVec.ofNat 4 (fieldAt r 0x0C 1)
def recPrio (r : List Byte) : Nat := fieldAt r 0x0D 1
def recNstage (r : List Byte) : Nat := fieldAt r 0x0E 1
def recFlags (r : List Byte) : Nat := fieldAt r 0x0F 1
def recPinned (r : List Byte) : Bool := natBits (recFlags r) 0 0 = 1
def recSstep (r : List Byte) : Bool := natBits (recFlags r) 1 1 = 1
def recGraphics (r : List Byte) : Bool := natBits (recFlags r) 2 2 = 1
def recScnt (r : List Byte) (k : Nat) : Nat := fieldAt r (0x10 + 2 * k) 2
def recArgs (r : List Byte) : Word := BitVec.ofNat 64 (fieldAt r 0x20 8)
def recDone (r : List Byte) : Word := BitVec.ofNat 64 (fieldAt r 0x28 8)
def recDoneVal (r : List Byte) : Nat := fieldAt r 0x30 4
def recPower (r : List Byte) : Nat := fieldAt r 0x34 2
def recShadow (r : List Byte) : Nat := fieldAt r 0x36 1
def recStk (r : List Byte) : Nat := fieldAt r 0x37 1
def recStart (r : List Byte) : Nat := fieldAt r 0x38 8
def recDepAddr (r : List Byte) (i : Nat) : Word := BitVec.ofNat 64 (fieldAt r (0x40 + 12 * i) 8)
def recDepVal (r : List Byte) (i : Nat) : Nat := fieldAt r (0x48 + 12 * i) 4
def recStkBase (r : List Byte) : Word := BitVec.ofNat 64 (fieldAt r 0x70 8)
def recTile0 (r : List Byte) : Nat := fieldAt r 0x78 2
def recTotal (r : List Byte) : Nat := ((List.range 8).map (recScnt r)).sum

/-! ### The writer -/

/-- Who writes: the owner tag (R251), the launch whose superstep logs it (R393), the core whose shadow log takes the
entry, the engine thread, whether the bytes carry poison (R252), and whether the Tchimen writes (R45). `uid`, `seq`, `hue`,
`toward`: the strand, the store entry and its hue, and the number of the scope whose members alone read the write for now, 0 for
all parties (R319). `vas`: the virtual addresses of the store. `cover`: locations that the same engine operation has written before (R252). -/
structure Writer where
  tag : BitVec 4
  launch : Option Nat
  core : Nat
  op : Option Nat
  poison : Bool
  tch : Bool
  uid : Nat
  seq : Option Nat
  hue : BitVec 3
  toward : Nat
  vas : List Nat
  cover : List Nat
deriving DecidableEq, Repr

/-- A unit, with nothing but a tag. -/
def Writer.plain (tag : BitVec 4) : Writer :=
  { tag := tag, launch := none, core := 0, op := none, poison := false, tch := false, uid := 0, seq := none, hue := 0,
    toward := 0, vas := [], cover := [] }

/-- The host, and the Tchimen (R251). -/
def Writer.host : Writer := Writer.plain 0
def Writer.tchimen : Writer := { Writer.plain 0 with tch := true }

/-! ### Poison and tags (R251, R252) -/

/-- Size and first location of the unit that carries poison. -/
def unitSize (l : Nat) : Nat := if isHbm l then 64 else 8
def unitBase (l : Nat) : Nat := l - l % unitSize l

/-- A transfer of this step meets a flaw that `f` accepts at the unit of `l`. -/
def State.flawAt (s : State) (l : Nat) (f : Flaw → Bool) : Bool :=
  s.choice.flaws.any fun x => unitBase x.1 == unitBase l && f x.2

/-- A read of `l` in this step finds the word or line that holds it poisoned or uncorrectable, or a read of HBM4 whose retries
are exhausted (R118, R252). -/
def State.poisoned (s : State) (l : Nat) : Bool :=
  s.poison.contains (unitBase l) || s.flawAt l fun f => f == .uncorrectable || (isHbm l && f == .readFailed)

/-- A rising list with `n` in it. -/
def insertNat (n : Nat) : List Nat → List Nat
  | [] => [n]
  | m :: t => if n < m then n :: m :: t else if n = m then m :: t else m :: insertNat n t

def covers (cells : List Host.Cell) (cover : List Nat) (base size : Nat) : Bool :=
  (List.range size).all fun i => cells.any (fun c => c.1 == base + i) || cover.contains (base + i)

/-- Poison after a write of `cells`; `cover` are locations that count as written with them. -/
def poisonAfter (cells : List Host.Cell) (cover : List Nat) (bad : Bool) (old : List Nat) : List Nat :=
  cells.foldl (fun p c =>
    let b := unitBase c.1
    if bad then insertNat b p
    else if p.contains b then (if covers cells cover b (unitSize b) then p.filter (· != b) else p)
    else p) old

/-- Lines of HBM4 among `cells` whose write exhausts its retries are poisoned (R118). -/
def State.writeFails (s : State) (cells : List Host.Cell) (old : List Nat) : List Nat :=
  if s.choice.flaws.isEmpty then old
  else cells.foldl (fun p c =>
    if isHbm c.1 && s.flawAt c.1 (fun f => f == .writeFailed) then insertNat (unitBase c.1) p else p) old

def setTag (tags : Table (BitVec 4)) (u : Nat) (tag : BitVec 4) : Table (BitVec 4) :=
  if tag = 0 then Table.erase tags u else Table.set tags u tag

/-- An HBM4 line lies in its Granary cache now: with C 0 none does (R248). -/
def State.cachedNow (s : State) (line : Nat) : Bool := s.tch.granC != 0 && Config.hbmCached line s.turnNo

/-- The owner tag of a location (R251): an HBM4 line has one only while it is cached. -/
def State.tagOf (s : State) (l : Nat) : BitVec 4 := Table.getD s.tags (l / 64) 0

/-- The tags after a write of `cells` (log 14). -/
def State.tagsAfter (s : State) (tag : BitVec 4) (cells : List Host.Cell) : Table (BitVec 4) :=
  cells.foldl (fun t (c : Host.Cell) =>
    setTag t (c.1 / 64) (if isHbm c.1 && !(s.cachedNow (c.1 / 64)) then 0 else tag)) s.tags

/-! ### Watches -/

/-- An operation reads location `l`: its source bytes; a gang operation's lie in scratchpads (12, R276). -/
def EngOp.reads (o : EngOp) (l : Nat) : Bool :=
  match o.work with
  | .copy src _ => src.contains l
  | .gang _ _ => isPad l
  | .ald _ _ elems => elems.any fun e => e.contains l
  | .ast _ _ _ _ => false

/-- A write of `cells` by another party, seen by an operation that has been forked (R269, R277, R323): an entry of the release
the operation carries stands before the fork; every other write is one more value its source bytes may be read with. -/
def EngOp.see (o : EngOp) (w : Writer) (bad : List Nat) (cells : List Host.Cell) : EngOp :=
  let cs : List Host.Cell := cells.filter fun c => o.reads c.1
  if cs.isEmpty || o.stop || w.op == some o.id then o
  else if w.seq.any o.rel.contains then
    { o with
      snap := o.snap.putAll cs, snapBad := poisonAfter cs [] w.poison o.snapBad,
      seen := o.seen.map (fun (x : SrcWrite) =>
        { x with cells := x.cells.filter (fun c => !(cs.any fun d => d.1 == c.1)), bad := poisonAfter cs [] w.poison x.bad }) }
  else { o with seen := o.seen ++ [{ cells := cs, bad := bad, seq := if w.toward = 0 then none else w.seq }] }

/-- A word or line that cannot be read is met at `l` by a unit, for context `ctx` and launch `launch`, 4096 for none: it is
handled before the step ends (R252, R390). -/
def State.meets (s : State) (l : Nat) (ctx : BitVec 4) (launch : Nat) : State :=
  { s with met := s.met ++ [{ tag := s.tagOf l, ctx := ctx, launch := launch }] }

/-- The first of `locs` that cannot be read, met so. -/
def State.meetsAt (s : State) (locs : List Nat) (ctx : BitVec 4) (launch : Nat) : State :=
  match locs.find? s.poisoned with
  | some l => s.meets l ctx launch
  | none => s

/-- The units of [a, a + n) that cannot be read. -/
def State.badUnits (s : State) (a n : Nat) : List Nat :=
  (((s.poison ++ s.choice.flaws.map (·.1)).map unitBase).dedup).filter fun u =>
    s.poisoned u && n != 0 && decide (u < a + n ∧ a < u + unitSize u)

/-- The tests of a `waitw` after a write to its word (R271); a word that cannot be read is met (R252). -/
def State.testWords (s : State) (cells : List Host.Cell) : State :=
  s.liveSlots.foldl (fun s e =>
    match e.2.wait with
    | some (.word locs v) =>
      if locs.any fun l => cells.any fun c => c.1 == l then
        if locs.any s.poisoned then s.meetsAt locs e.2.ctx e.2.launch
        else if leNat (locs.map (s.seen (coreOf e.1)).byte) == v.toNat then s.finishAt e.1
        else s
      else s
    | _ => s) s

/-- A dependence with value `v` on the word at `l` is satisfied (R91); one that cannot be read is not. -/
def State.depOk (s : State) (l v : Nat) : Bool :=
  !(s.poisoned l) && decide ((leNat (s.far.bytes l 4) + 2 ^ 32 - v) % 2 ^ 32 < 2 ^ 31)

/-- Drop the satisfied dependences of launch `k`, for good whatever their words hold later (log 63); READY once none is left
(R89). -/
def State.testDeps (s : State) (k : Nat) : State :=
  match Table.get? s.launches k with
  | none => s
  | some la =>
    if la.state = .waiting then
      let left := la.deps.filter fun d => !(s.depOk d.2 (recDepVal la.bytes d.1))
      let la := { la with deps := left, state := (if left.isEmpty then LState.ready else LState.waiting) }
      State.meetsAt { s with launches := Table.set s.launches k la } (left.map (·.2)) (recCtx la.bytes) 4096
    else s

def State.testAllDeps (s : State) (cells : List Host.Cell) : State :=
  s.launches.foldl (fun s e =>
    if e.2.state == .waiting && (e.2.deps.any fun d => cells.any fun c => decide (d.2 ≤ c.1 ∧ c.1 < d.2 + 4)) then s.testDeps e.1
    else s) s

/-- The page of the ownership map holds location `l` (R45). -/
def State.inOwnMap (s : State) (l : Nat) : Bool :=
  s.host.ownmap.any fun b => decide (b ≤ l ∧ l < b + 65536)

/-! ### What holds copies of memory -/

/-- A word of TCM that a fetch or loop buffer holds, after a write of `cells`: one that the write covers in part or whole is the
word that stands there (R121, R154), and so is one whose unit the write has given fresh check bits; one in a unit that the write
leaves poisoned cannot be read (R252). -/
def State.syncWord (s : State) (core : Nat) (carries : Bool) (cells : List Host.Cell) (f : FetchWord) : FetchWord :=
  if 0x8000 ≤ f.addr.toNat then f
  else
    let l := tcmLoc core f.addr.toNat
    let now : FetchRes :=
      if s.poison.contains (unitBase l) then .bad l else .word (BitVec.ofNat 32 (leNat (s.mem.bytes l 4)))
    if cells.any fun c => decide (l ≤ c.1 ∧ c.1 < l + 4) then { f with res := now }
    else if cells.any fun c => unitBase c.1 == unitBase l then
      match f.res with
      | .bad _ => { f with res := now }
      | _ => if carries then { f with res := .bad l } else f
    else f

/-- The core whose TCM holds a location. -/
def tcmCore (l : Nat) : Option Nat := if isTcm l then some ((l - Config.tcmBase) / Config.tcmBytes) else none

/-- The buffers of a core whose TCM has been written follow it. -/
def State.syncFetch (s : State) (carries : Bool) (cells : List Host.Cell) : State :=
  let cs := (cells.filterMap fun c => tcmCore c.1).dedup
  if cs.isEmpty then s
  else
    let sync (sid : Nat) (t : Strand) : Strand :=
      if cs.contains (coreOf sid) then
        { t with fbuf := t.fbuf.map (s.syncWord (coreOf sid) carries cells),
                 loopBuf := t.loopBuf.map (s.syncWord (coreOf sid) carries cells) }
      else t
    { s with strands := Table.mapVals sync s.strands }

/-! ### Writes that some parties do not read yet (R319; log 18) -/

/-- What the read under way has found of residency bit number `i`, bit `b` of its byte: none while that is to be read. The bits of the
batch of residency bits are its parts, in order; those that a batch of texels rests on were found set. -/
def Underway.bitRead (u : Underway) (i b : Nat) : Option Bool :=
  match u.parts[i]? with
  | some p => if p.home then p.got.map fun bs => (bs.headD 0).toNat.testBit b else some true
  | none => some true

/-- The bits by number that it rests on and has found as `v`. -/
def Underway.found (u : Underway) (v : Bool) : List (Nat × Nat) :=
  (u.bits.zipIdx.filter fun x => u.bitRead x.2 x.1.2 == some v).map (·.1)

/-- A residency bit that it has found set is clear in `now`, at time `t`: it may read the pages for 2 us more (13, R308). -/
def Underway.bound (u : Underway) (now : Memory) (t : Nat) : Underway :=
  if u.until'.isNone && (u.found true).any fun b => !((now.byte b.1).toNat.testBit b.2) then { u with until' := some (t + 2000) }
  else u

/-- Field time by which it ends: that of a read which has found a bit clear is none, for it goes on to no texel (R306). -/
def Underway.due (u : Underway) : Option Int := if (u.found false).isEmpty then u.until' else none

/-- Reads under way learn of a write to the bytes `locs` that clears a bit they have found set (R308). -/
def State.noteClears (s : State) (locs : List Nat) : State :=
  let note (sid : Nat) (t : Strand) : Strand :=
    match t.mid with
    | some u => if u.bits.any fun b => locs.contains b.1 then { t with mid := some (u.bound (s.seen (coreOf sid)) s.ftime) } else t
    | none => t
  if s.strands.any fun e => e.2.mid.any fun u => !u.bits.isEmpty then { s with strands := Table.mapVals note s.strands } else s

/-- The records of entry `seq` go: every party reads what it wrote, and what watches those bytes learns it (R317; 04, R79, R91). -/
def State.liftEntry (s : State) (seq : Nat) : State :=
  let gone := s.early.filter fun e => e.seq == seq
  let locs := gone.map (·.loc)
  let s' := { s with early := s.early.filter (fun e => e.seq != seq),
                     checked := s.checked.filter (fun k => !(k.2.2.any fun l => locs.contains l)) }
  let tell (o : EngOp) : EngOp :=
    gone.foldl (fun (o : EngOp) e =>
      if e.hidesOp o.core then
        o.see { Writer.plain 0 with seq := e.ticket } s.poison [(e.loc, (s'.view fun f => f.hidesOp o.core).byte e.loc)]
      else o) o
  let cells : List Host.Cell := locs.map fun l => (l, s.mem.byte l)
  (State.testWords (State.noteClears { s' with ops := s.ops.map tell } locs) cells).testAllDeps cells

/-- The records that `p` accepts go, entry by entry in the order in which they were written, with what a `waitw` reads that is tested
for them. -/
def State.lift (s : State) (p : Early → Bool) : State :=
  if s.early.any p then (((s.early.filter (Early.goes s.testedWith s.early p)).map (·.seq)).eraseDups).foldl State.liftEntry s else s

/-- A party on core `core` reads what stands at `locs` at its home or in near memory: what it reads there, others read from now on
(R317). A strand reads its own entries as if they stood in its buffers still, and passes its `uid`; 0 names none. -/
def State.touch (s : State) (core uid : Nat) (locs : List Nat) : State :=
  s.lift fun e => locs.contains e.loc && e.uid != uid && !(e.hides core)

/-- All records of strand `uid` go. -/
def State.liftOwn (s : State) (uid : Nat) : State := s.lift fun e => e.uid == uid

/-- Where the context table (11, R253) and the table of work queues (16, R348) lie: physical addresses, aligned to 256 bytes. Bits of
the registers above 47 and below 8 read back as written and name no other place (log 80). -/
def State.ctxTable (s : State) : Nat := natBits s.host.ctxtab.toNat 47 8 * 256
def State.wqTable (s : State) : Nat := natBits s.host.wqtab.toNat 47 8 * 256

/-- A byte of a table that units of the device read: CTXTAB, MESHTAB, WQTAB (log 18). -/
def State.inTables (s : State) (l : Nat) : Bool :=
  let ctx := s.ctxTable
  let mesh := natBits s.host.meshtab.toNat 47 9 * 512
  let wq := s.wqTable
  decide (ctx ≤ l ∧ l < ctx + 256 ∨ mesh ≤ l ∧ l < mesh + 512 ∨ wq ≤ l ∧ l < wq + 30720)

/-- The byte that a party which reads memory as `m` finds at `l` once it reads `cells` too. -/
def byteWith (m : Memory) (cells : List Host.Cell) (l : Nat) : Byte :=
  ((cells.reverse.find? fun c => c.1 == l).map (·.2)).getD (m.byte l)

/-- The write `w` of `cells` may be made toward the members of its scope alone: no member that waits for those bytes would go on for
it, and none of them could not be read before. -/
def State.mayHide (s : State) (w : Writer) (cells : List Host.Cell) : Bool :=
  decide (1 ≤ w.toward ∧ w.toward ≤ 3) &&
    (cells.all fun c => (if isNear c.1 then isPad c.1 && w.toward == 1 else true) && !(s.poison.contains (unitBase c.1))) &&
    !(s.strands.any fun e => inScope w.toward w.core (coreOf e.1) && (match e.2.wait with
      | some (.word locs v) => (locs.any fun l => cells.any fun c => c.1 == l) &&
        leNat (locs.map (byteWith (s.seen (coreOf e.1)) cells)) == v.toNat
      | _ => false)) &&
    !(w.toward == 3 && ((cells.any fun c => s.inTables c.1) || s.launches.any fun e => e.2.state == .waiting &&
      e.2.deps.any fun d => (cells.any fun c => decide (d.2 ≤ c.1 ∧ c.1 < d.2 + 4)) &&
        decide ((leNat ((List.range 4).map fun i => byteWith s.far cells (d.2 + i)) + 2 ^ 32 - recDepVal e.2.bytes d.1) % 2 ^ 32 < 2 ^ 31)))

/-- The write is hidden from operation `o` for now. -/
def Writer.hidden (w : Writer) (o : EngOp) : Bool :=
  w.toward != 0 && !(decide (2 ≤ w.toward) && inScope w.toward w.core o.core)

/-- Which parties do not read a write yet: the records after a write of `cells`. -/
def State.earlyAfter (s : State) (w : Writer) (cells : List Host.Cell) : List Early :=
  if w.toward = 0 then s.early
  else s.early ++ cells.map fun c =>
    { loc := c.1, old := s.mem.byte c.1, scope := w.toward, core := w.core, uid := w.uid, seq := w.seq.getD 0, hue := w.hue,
      vas := w.vas, ticket := none }

/-! ### The write -/

/-- A `waitw` goes on for a write of `cells` toward all, and reads what `e` wrote in its word (11, R271; R317). -/
def State.endsWait (s : State) (cells : List Host.Cell) (e : Early) : Bool :=
  s.liveSlots.any fun x => match x.2.wait with
    | some (.word locs v) => locs.contains e.loc && !(e.hides (coreOf x.1)) && (locs.any fun l => cells.any fun c => c.1 == l) &&
        leNat (locs.map (byteWith (s.seen (coreOf x.1)) cells)) == v.toNat
    | _ => false

/-- One write, from any party, with what it sets off but for the log and the mailbox and delivery units (15, R317; 11, R251, R252;
04, R79, R91). Bytes that have been written toward some parties alone are read by all first, unless the same strand writes them
toward no more; and so are the bytes that a `waitw` reads beside those of a write for which it goes on. -/
def State.storeOne (s : State) (w : Writer) (cells : List Host.Cell) : State :=
  let s := s.lift fun e => (w.toward == 0 || e.uid != w.uid || decide (e.scope < w.toward)) && cells.any fun c => c.1 == e.loc
  let s := s.lift fun e => w.toward == 0 && s.endsWait cells e
  let bad := s.writeFails cells (poisonAfter cells w.cover w.poison s.poison)
  let s := { s with
    mem := s.mem.putAll cells,
    tags := s.tagsAfter w.tag cells,
    poison := bad,
    early := s.earlyAfter w cells,
    ops := s.ops.map (fun (o : EngOp) => if w.hidden o then o else o.see w bad cells),
    checked := s.checked.filter (fun k => !(k.2.2.any fun l => cells.any fun c => c.1 == l)) }
  (((s.syncFetch w.poison cells).noteClears (cells.map (·.1))).testWords cells).testAllDeps cells

/-! ### Shadow log (19, R393) -/

/-- First byte of the shadow log in a core's local store, by offset. -/
def shadowBase (shadow : Nat) : Nat := 0x1FF80 - 1024 * shadow

/-- Tokens of an access of 32 bytes at near location `l` (05, R100). -/
def nearTokens (l : Nat) : Nat := if isLocal l then 5 else if isPad l then 1 else 0

/-- Log the line of near location `l` for launch `k`, before it is written by core `core`: a write of the log with the tag of the
launch's context, in which words that cannot be read stay such words (log 14). The core is charged for the old bytes read, two
accesses, and for the entry written, three (05, R100; log 35). -/
def State.logLine (s : State) (k core l : Nat) : State :=
  match Table.get? s.launches k with
  | none => s
  | some la =>
    let line := l / 64
    if !(recSstep la.bytes) || la.ss.marks.contains line then s
    else
      let used := Table.getD la.ss.logs core 0
      if used + 72 > 1024 * recShadow la.bytes then
        { s with launches := Table.set s.launches k { la with ss := { la.ss with lost := true } } }
      else
        let at' := localLoc core (shadowBase (recShadow la.bytes) + used)
        let w : Writer := { Writer.plain (recCtx la.bytes) with core := core }
        let ss := { la.ss with logs := Table.set la.ss.logs core (used + 72), marks := insertNat line la.ss.marks }
        let s' := { s with launches := Table.set s.launches k { la with ss := ss } }
        let s' := s'.spend core (15 + 2 * nearTokens l)
        let s' := s'.storeOne w (cellsAt at' (leBytes (nearAddr (line * 64)) 8))
        (List.range 8).foldl (fun s' i =>
          s'.storeOne { w with poison := s.poisoned (line * 64 + 8 * i) }
            (cellsAt (at' + 8 + 8 * i) (s.mem.bytes (line * 64 + 8 * i) 8))) s'

/-- SSTEP launches that core `core` runs strands of: one stands there in a slot, in a husk saved there, or in a checkpoint of
the superstep (R393). -/
def State.sstepOn (s : State) (core : Nat) : List Nat :=
  (s.launches.filter fun e => recSstep e.2.bytes &&
    ((s.strands.any fun t => coreOf t.1 == core && t.2.stat != SlotStat.free && t.2.launch == e.1) ||
     (s.husks.any fun h => coreOf h.sid == core && h.strand.launch == e.1) ||
     e.2.ss.cks.any fun c => coreOf c.sid == core)).map (·.1)

def State.logCells (s : State) (w : Writer) (cells : List Host.Cell) : State :=
  match w.launch with
  | none => s
  | some k => cells.foldl (fun s c => if isNear c.1 then s.logLine k w.core c.1 else s) s

/-- One write, from any party, logged first. A write to the ownership map's page is no write unless the Tchimen makes it (02,
R45). -/
def State.storeCells (s : State) (w : Writer) (cells : List Host.Cell) : State :=
  let cells : List Host.Cell := if w.tch then cells else cells.filter fun c => !(s.inOwnMap c.1)
  if cells.isEmpty then s else (s.logCells w cells).storeOne w cells

/-! ### Mailbox control blocks (16, R339) -/

/-- Location of mailbox `m`'s control block. -/
def mboxLoc (core m : Nat) : Nat := localLoc core (0x1FF80 + 16 * m)
def State.mboxBase (s : State) (core m : Nat) : Nat := leNat (s.mem.bytes (mboxLoc core m) 4)
def State.mboxSlots (s : State) (core m : Nat) : Nat := leNat (s.mem.bytes (mboxLoc core m + 4) 2)
def State.mboxEn (s : State) (core m : Nat) : Bool := natBits (leNat (s.mem.bytes (mboxLoc core m + 6) 2)) 0 0 = 1
def State.mboxHead (s : State) (core m : Nat) : Nat := leNat (s.mem.bytes (mboxLoc core m + 8) 4)
def State.mboxTail (s : State) (core m : Nat) : Nat := leNat (s.mem.bytes (mboxLoc core m + 12) 4)

/-- The block can be used: EN 1, SLOTS and BASE in range. -/
def State.mboxOk (s : State) (core m : Nat) : Bool :=
  let b := s.mboxBase core m
  let n := s.mboxSlots core m
  s.mboxEn core m && decide (1 ≤ n ∧ n ≤ 64 ∧ b % 64 = 0 ∧ 0x100000 ≤ b ∧ b + 64 * n ≤ 0x11FF80)

/-- Messages in the ring, 0 when it cannot be used. -/
def State.mboxCount (s : State) (core m : Nat) : Nat :=
  if s.mboxOk core m then (s.mboxHead core m + 2 ^ 32 - s.mboxTail core m) % 2 ^ 32 else 0

/-- The mailbox unit sees a write to the control blocks: EN from 0 to 1 sets HEAD and TAIL to 0, EN from 1 to 0 discards
what is held (R339). The owner tag of the block stays as it is (R251 names no tag for this write; log 66). -/
def State.mboxEdge (s old : State) (core m : Nat) : State :=
  if old.mboxEn core m == s.mboxEn core m then s
  else
    let s := s.setCore core { s.core core with hdr := (s.core core).hdr.filter fun e => e.1 / 64 != m }
    if s.mboxEn core m then
      s.storeCells (Writer.plain (s.tagOf (mboxLoc core m))) (cellsAt (mboxLoc core m + 8) (List.replicate 8 0))
    else s

/-- Mailboxes (core, m) whose control block a write touches. -/
def mboxTouched (cells : List Host.Cell) : List (Nat × Nat) :=
  (cells.filterMap fun c =>
    if isLocal c.1 then
      let o := (c.1 - Config.localBase) % Config.localBytes
      if 0x1FF80 ≤ o ∧ o < 0x1FFC0 then some ((c.1 - Config.localBase) / Config.localBytes, (o - 0x1FF80) / 16) else none
    else none).dedup

/-- A word of the control block of mailbox (core, m) that the unit would read and cannot (11, R252). -/
def State.mboxBad (s : State) (core m : Nat) : Option Nat := [mboxLoc core m, mboxLoc core m + 8].find? s.poisoned

/-- Take the oldest message of ring (core, m): its header and bytes, read from the local store in two accesses of 32 bytes (05,
R100); TAIL + 1 with the receiver's tag (R345, R251), one more. -/
def State.takeRing (s : State) (core m : Nat) (tag : BitVec 4) : Option (Header × List Byte × State) :=
  if s.mboxCount core m = 0 then none
  else
    let tail := s.mboxTail core m
    let slot := tail % s.mboxSlots core m
    let bytes := s.mem.bytes (localLoc core (s.mboxBase core m - 0x100000 + 64 * slot)) 64
    match Table.get? (s.core core).hdr (64 * m + slot) with
    | none => none
    | some h =>
      some (h, bytes, (s.spend core 15).storeCells { Writer.plain tag with core := core }
        (cellsAt (mboxLoc core m + 12) (leBytes ((tail + 1) % 2 ^ 32) 4)))

/-- A poisoned word that a receive of ring (core, m) reads: of the control block, or of the slot of the oldest message (11, R252). -/
def State.ringBad (s : State) (core m : Nat) : Option Nat :=
  (s.mboxBad core m).orElse fun _ =>
    if s.mboxCount core m = 0 then none
    else
      let l := localLoc core (s.mboxBase core m - 0x100000 + 64 * (s.mboxTail core m % s.mboxSlots core m))
      ((List.range 8).map fun i => l + 8 * i).find? s.poisoned

/-- The 8-byte header as a receive writes it (R340). -/
def Header.word (h : Header) : Word :=
  BitVec.ofNat 64 (h.len + h.src.toNat * 2 ^ 16 + h.dev.toNat * 2 ^ 32 + h.ctx.toNat * 2 ^ 36)

/-- The four v registers of a group set to 64 bytes. -/
def Strand.setGroup (t : Strand) (g : VGroup) (bs : List Byte) : Strand :=
  (List.range 4).foldl (fun t i => t.setV (groupReg g i) (BitVec.ofNat 128 (fieldAt bs (16 * i) 16))) t

/-- A receive takes a message: header and bytes written, the acquire of R325, the instruction complete. -/
def State.receive (s : State) (sid : Nat) (h : Header) (bs : List Byte) (d : XReg) (b : VGroup) : State :=
  let s := s.acquire (coreOf sid) h.scope
  s.setStrand sid (((s.strand sid).setX d h.word).setGroup b bs).done

/-- Waiting receives of ring (core, m) are served in the order they began (R345); one that would read a slot that cannot be read
meets it, and the ring with it as it stands (R252). The control block is read for each (05, R100). -/
def State.serveRing (s : State) (core m : Nat) : Nat → State
  | 0 => s
  | n + 1 =>
    match s.firstWaiter (fun sid w => match w with
      | .recv mb d b => if coreOf sid == core && mb.toNat == m then some (d, b) else none
      | _ => none) with
    | none => s
    | some (sid, d, b) =>
      match s.ringBad core m with
      | some l => s.meets l (s.strand sid).ctx (s.strand sid).launch
      | none =>
        match (s.spend core 5).takeRing core m (s.strand sid).ctx with
        | none => s
        | some (h, bs, s') => State.serveRing (s'.receive sid h bs d b) core m n

/-! ### Tray control blocks (13, R297) -/

def trayLoc (core : Nat) : Nat := localLoc core 0x1FFC0
def State.trayField (s : State) (core off n : Nat) : Nat := leNat (s.mem.bytes (trayLoc core + off) n)
def State.trayEn (s : State) (core : Nat) : Bool := natBits (s.trayField core 0x0C 4) 0 0 = 1

/-- Cores whose tray control block a write touches at CFG. -/
def trayTouched (cells : List Host.Cell) : List Nat :=
  (cells.filterMap fun c =>
    if isLocal c.1 then
      let o := (c.1 - Config.localBase) % Config.localBytes
      if 0x1FFCC ≤ o ∧ o < 0x1FFD0 then some ((c.1 - Config.localBase) / Config.localBytes) else none
    else none).dedup

/-- The delivery unit sees a write to CFG: EN from 0 to 1 starts HEAD at 0 (R297). The owner tag of the block stays as it is (log
66). -/
def State.trayEdge (s old : State) (core : Nat) : State :=
  if !(old.trayEn core) && s.trayEn core then
    (s.setCore core { s.core core with trayHead := 0 }).storeCells (Writer.plain (s.tagOf (trayLoc core)))
      (cellsAt (trayLoc core + 0x10) (List.replicate 8 0))
  else s

/-- A write with the mailbox and delivery units' watch (R297, R339, R345). -/
def State.write (s : State) (w : Writer) (cells : List Host.Cell) : State :=
  let s' := (mboxTouched cells).foldl (fun s' cm => (s'.mboxEdge s cm.1 cm.2).serveRing cm.1 cm.2 4) (s.storeCells w cells)
  (trayTouched cells).foldl (fun s' c => s'.trayEdge s c) s'

end Sys2Proof.Machine
end

