-- ==== Sys2Proof/Machine/Husk.lean ====
section
/-! DEFINITION. The layout of a saved strand: husks, checkpoints and the shadow chains (19, R388). -/

namespace Sys2Proof.Machine

/-- `sstat` (07, R141). -/
def Strand.sstat (t : Strand) : Word := BitVec.ofNat 64 (t.mode.toNat + 4 * t.pmode.toNat)

/-- The 28 strand CSRs of a husk, in its order. -/
def Strand.csrs (t : Strand) : List Word :=
  [t.fflags.zeroExtend 64, t.fen.zeroExtend 64, t.frm.zeroExtend 64, t.lpc, t.lpstart, t.lpend,
   t.xwin.zeroExtend 64, t.ddim.zeroExtend 64, t.skew, t.bvhlo.zeroExtend 64, t.bvhhi.zeroExtend 64,
   t.hue.zeroExtend 64, t.pwrreq.zeroExtend 64, t.stallto, t.pausemax, t.kprobe, t.gangto, t.fpxsup, t.sstat,
   t.tvec, t.epc, t.cause.zeroExtend 64, t.tval, t.kscratch, t.elpc, t.elpstart, t.elpend, t.instret]

/-- The memory form of a directional register (11, R262). -/
def DirReg.bytes (r : DirReg) : List Byte :=
  (r.lanes.toList.map fun q => leBytes q.toNat 2).flatten ++ leBytes r.norm.toNat 2

/-- A directional register from its memory form. -/
def dirOfBytes (bs : List Byte) : DirReg :=
  { lanes := Vector.ofFn fun i => BitVec.ofNat 16 (fieldAt bs (2 * i.val) 2), norm := BitVec.ofNat 16 (fieldAt bs 14 2) }

def maskBit (m : Nat) (i : Nat) : Bool := m.testBit i

/-- All ones: the masks of a full husk. -/
def fullMasks : List Byte := List.replicate 12 0xFF

/-- The 2 KiB block of a strand: `masks` are XM, VM, DM, PM and a zero byte as the pause table has them. -/
def Strand.huskBytes (t : Strand) (full : Bool) (masks : List Byte) : List Byte :=
  let xm := fieldAt masks 0 4
  let vm := fieldAt masks 4 4
  let dm := fieldAt masks 8 2
  let pm := fieldAt masks 10 1
  let flags := (if full then 1 else 0) + (if t.parked.isSome then 2 else 0) + (t.launch % 2 ^ 16) * 2 ^ 32 +
    (t.ordinal % 2 ^ 16) * 2 ^ 48
  let xs := (List.finRange 32).map fun i => leBytes (if maskBit xm i.val then t.x[i].toNat else 0) 8
  let vs := (List.finRange 32).map fun i => leBytes (if maskBit vm i.val then t.v[i].toNat else 0) 16
  let ds := (List.finRange 16).map fun i => (if maskBit dm i.val then t.d[i] else DirReg.zero).bytes
  let ps := (List.finRange 8).map fun i =>
    leBytes (if i.val = 0 then 0xFFFF else if maskBit pm i.val then t.p[i].toNat else 0) 2
  let cs := (List.finRange 8).map fun i => leBytes t.c[i].toNat 1
  let eds := (List.finRange 32).map fun i => leBytes t.ed[i].toNat 8
  leBytes t.pc.toNat 8 ++ leBytes flags 8 ++ masks.take 12 ++ List.replicate 36 0 ++
    (t.csrs.map fun w => leBytes w.toNat 8).flatten ++ List.replicate 32 0 ++
    xs.flatten ++ vs.flatten ++ ds.flatten ++ ps.flatten ++ cs.flatten ++ List.replicate 8 0 ++ eds.flatten ++
    List.replicate 416 0

/-- The mode in bits 1:0 of `w`: there are three (R137), and 3 is taken as 2 (log 79). -/
def modeOf (w : Word) : BitVec 2 := if w.toNat % 4 = 3 then 2 else w.truncate 2

/-- The strand that a 2 KiB block holds, with everything the block does not hold taken from `t` (R389). Memory may have changed since it
was saved: the pc stays a multiple of 4 (R120), every CSR takes what a write of its word would store (R139, R142, R143), and a mode
of 3, which no strand has (R137), is taken as 2 (log 79). -/
def Strand.ofHusk (t : Strand) (bs : List Byte) : Strand :=
  let w (i : Nat) : Word := BitVec.ofNat 64 (fieldAt bs (0x40 + 8 * i) 8)
  { t with
    pc := BitVec.ofNat 64 (fieldAt bs 0 8) &&& ~~~3,
    parked := if natBits (fieldAt bs 8 8) 1 1 = 1 then t.parked else none,
    fflags := (w 0).truncate 5, fen := (w 1).truncate 5, frm := frmStore (w 2), lpc := w 3, lpstart := w 4,
    lpend := w 5, xwin := xwinStore (w 6), ddim := ddimStore (w 7), skew := skewStore (w 8), bvhlo := (w 9).truncate 48,
    bvhhi := (w 10).truncate 48, hue := (w 11).truncate 3, pwrreq := (w 12).truncate 4, stallto := w 13,
    pausemax := w 14, kprobe := w 15, gangto := w 16, fpxsup := fpxsupStore (w 17),
    mode := modeOf (w 18), pmode := modeOf (w 18 >>> 2), tvec := tvecStore (w 19), epc := w 20,
    cause := (w 21).truncate 9, tval := w 22, kscratch := w 23, elpc := w 24, elpstart := w 25, elpend := w 26, instret := w 27,
    x := Vector.ofFn fun i => BitVec.ofNat 64 (fieldAt bs (0x140 + 8 * i.val) 8),
    v := Vector.ofFn fun i => BitVec.ofNat 128 (fieldAt bs (0x240 + 16 * i.val) 16),
    d := Vector.ofFn fun i => dirOfBytes ((bs.drop (0x440 + 16 * i.val)).take 16),
    p := Vector.ofFn fun i => BitVec.ofNat 16 (fieldAt bs (0x540 + 2 * i.val) 2),
    c := Vector.ofFn fun i => BitVec.ofNat 8 (fieldAt bs (0x550 + i.val) 1),
    ed := Vector.ofFn fun i => BitVec.ofNat 64 (fieldAt bs (0x560 + 8 * i.val) 8),
    entry := false, wait := none, waited := 0, probed := 0, eff := t.prio, waitCnt := 0, yielded := false, fbuf := [],
    loopBuf := [], fetchWait := none, buf := [], mid := none, preempt := none, saving := false, pauseMasks := none }

/-! ### HUSKBASE (R387) -/

def State.huskEn (s : State) : Bool := natBits s.host.huskbase.toNat 0 0 = 1
def State.huskLoc (s : State) (sid : Nat) : Nat := natBits s.host.huskbase.toNat 47 16 * 65536 + 4096 * sid
def State.checkLoc (s : State) (sid : Nat) : Nat := s.huskLoc sid + 2048

/-- A strand's 2 KiB block at `base` is written; what it held goes to the husks (or the checkpoints) of strands of the same slot
that stand in it still, so that each resumes from its own (log 65). -/
def Husk.keep (h : Husk) (sid : Nat) (old : List Byte) : Husk :=
  if h.sid = sid && h.kept.isNone then { h with kept := some old } else h
def Checkpoint.keep (c : Checkpoint) (sid : Nat) (old : List Byte) : Checkpoint :=
  if c.sid = sid && c.kept.isNone then { c with kept := some old } else c

/-- The husk block of slot `sid` is written with `bs`, and a husk of strand `t` stands in it. -/
def State.saveHusk (s : State) (sid : Nat) (t : Strand) (bs : List Byte) : State :=
  let hs := s.husks.map fun (h : Husk) => h.keep sid (s.far.bytes (s.huskLoc sid) 2048)
  let s := s.write (Writer.plain 0) (cellsAt (s.huskLoc sid) bs)
  { s with husks := hs ++ [{ sid := sid, uid := t.uid, strand := t, since := s.ftime, kept := none }] }

/-- The blocks that husk `h` and checkpoint `c` stand in now. -/
def State.huskBlock (s : State) (h : Husk) : List Byte := h.kept.getD (s.far.bytes (s.huskLoc h.sid) 2048)
def State.checkBlock (s : State) (c : Checkpoint) : List Byte := c.kept.getD (s.far.bytes (s.checkLoc c.sid) 2048)

/-- A word of a block in memory that cannot be read (R252). -/
def State.huskBad (s : State) (h : Husk) : Option Nat :=
  if h.kept.isSome then none else ((List.range 256).map fun i => s.huskLoc h.sid + 8 * i).find? s.poisoned
def State.checkBad (s : State) (c : Checkpoint) : Option Nat :=
  if c.kept.isSome then none else ((List.range 256).map fun i => s.checkLoc c.sid + 8 * i).find? s.poisoned

/-- Write a strand's checkpoint (R392): its block in memory, and where it runs. With HUSKBASE.EN 0 nothing can be
written and the superstep cannot be recovered (log 20). -/
def State.checkpoint (s : State) (sid : Nat) : State :=
  let t := s.strand sid
  match Table.get? s.launches t.launch with
  | none => s
  | some la =>
    if !(recSstep la.bytes) then s
    else if s.huskEn then
      let old := s.far.bytes (s.checkLoc sid) 2048
      let keep (_ : Nat) (la : Launch) : Launch :=
        { la with ss := { la.ss with cks := (la.ss.cks.filter fun k => k.strand.uid != t.uid).map fun k => k.keep sid old } }
      let s := State.write { s with launches := Table.mapVals keep s.launches } (Writer.plain 0)
        (cellsAt (s.checkLoc sid) (t.huskBytes true fullMasks))
      match Table.get? s.launches t.launch with
      | none => s
      | some la =>
        let ss := { la.ss with cks := la.ss.cks ++ [{ sid := sid, strand := t, kept := none }] }
        { s with launches := Table.set s.launches t.launch { la with ss := ss } }
    else { s with launches := Table.set s.launches t.launch { la with ss := { la.ss with lost := true } } }

end Sys2Proof.Machine
end

