-- ==== Sys2Proof/Machine/Ops.lean ====
section
/-! DEFINITION. The shared operations: keys, barrier points, the completion of releases, ending a context, rolling a
superstep back, taking a trap and returning from one. -/

namespace Sys2Proof.Machine

/-! ### Keys (16, R355-R358) -/

/-- The scope of a key (R355). -/
def keyScope (k : Word) : Scope := if k.getLsbD 63 then .core else .field

/-- The table a key's entry lives in: the core's, or a home slice's. -/
def keyHome (core : Nat) (k : Word) : Option Nat := if k.getLsbD 63 then some core else none
/-- The home slice of a homed key. -/
def keySlice (k : Word) : Nat :=
  ((natBits k.toNat 19 0) ^^^ (natBits k.toNat 39 20) ^^^ (natBits k.toNat 59 40) ^^^ (natBits k.toNat 62 60)) % 576

def State.keyIdx (s : State) (core : Nat) (k : Word) : Option Nat :=
  s.keys.findIdx? fun e => e.key == k && e.core == keyHome core k

/-- `n` is behind NEXT (R355). -/
def KeyEntry.behind (e : KeyEntry) (n : BitVec 32) : Bool := decide (2 ^ 31 ≤ (n - e.next).toNat)
def KeyEntry.skipped (e : KeyEntry) (n : BitVec 32) : Bool := e.skips.contains n || e.ctxSkips.contains n

/-- NEXT passes the numbers in the skip set. -/
def KeyEntry.pass (e : KeyEntry) : Nat → KeyEntry
  | 0 => e
  | f + 1 =>
    if e.skipped e.next then
      KeyEntry.pass { e with next := e.next + 1, skips := e.skips.erase e.next, ctxSkips := e.ctxSkips.erase e.next } f
    else e

/-- `advance` (R356): the entry, and the waiter granted with its status. -/
def KeyEntry.advance (e : KeyEntry) : KeyEntry × Option (Nat × Bool) :=
  let e := KeyEntry.pass { e with next := e.next + 1 } (e.skips.length + e.ctxSkips.length)
  match e.waiters.find? fun w => w.2 == e.next with
  | some (u, n) =>
    ({ e with holder := some (u, n), abandoned := false, made := false, waiters := e.waiters.filter fun w => w.1 != u },
     some (u, e.abandoned))
  | none => (e, none)

/-- Strand `uid` is granted `key`: status to xd, the acquire of R326, its `kenter` complete (R357). -/
def State.grantKey (s : State) (uid : Nat) (key : Word) (status : Bool) : State :=
  match s.slotOf uid with
  | none => s
  | some sid =>
    match (s.strand sid).wait with
    | some (.key _ _ d) =>
      let s := s.acquire (coreOf sid) (keyScope key)
      s.setStrand sid ((s.strand sid).setX d (if status then 1 else 0)).done
    | _ => s

/-- Entry `i` advances and grants. -/
def State.advanceKey (s : State) (i : Nat) (e : KeyEntry) : State :=
  let r := e.advance
  let s := { s with keys := s.keys.set i r.1 }
  match r.2 with
  | none => s
  | some (u, st) => s.grantKey u e.key st

/-- The effect of `kleave` (R357). -/
def State.leaveKey (s : State) (i : Nat) (e : KeyEntry) : State :=
  s.advanceKey i { e with holder := none, leaving := none }

/-- The effect of `kskip` of number `n` (R357). -/
def State.skipKey (s : State) (i : Nat) (e : KeyEntry) (n : BitVec 32) : State :=
  if e.next = n && e.holder.isNone then s.advanceKey i e
  else { s with keys := s.keys.set i { e with skips := if e.skips.contains n then e.skips else e.skips ++ [n] } }

/-- The `kleave`s and `kskip`s whose release has completed take effect (R318, R326). -/
def State.settleKeys (s : State) : State :=
  (List.range s.keys.length).foldl (fun s i =>
    match s.keys[i]? with
    | none => s
    | some e =>
      let s := match e.leaving with
        | some set => if s.drained set then s.leaveKey i e else s
        | none => s
      match s.keys[i]? with
      | none => s
      | some e =>
        e.skipping.foldl (fun s k =>
          if s.drained k.2.2 then
            match s.keys[i]? with
            | none => s
            | some e => s.skipKey i { e with skipping := e.skipping.erase k } k.2.1
          else s) s) s

/-- The entry without the waiters that `p` accepts; none when it stood there for waiting `kenter`s alone and the last of them is
among those (R9). -/
def KeyEntry.leave (e : KeyEntry) (p : Nat → Bool) : Option KeyEntry :=
  let left := e.waiters.filter fun w => !(p w.1)
  if e.made && left.isEmpty && !e.waiters.isEmpty then none else some { e with waiters := left }

/-- Strand `uid` leaves the waiters of every key (R357). -/
def State.unwaitKeys (s : State) (uid : Nat) : State := { s with keys := s.keys.filterMap fun e => e.leave fun u => u == uid }

/-! ### Barrier points (16, R333-R338) -/

/-- The table key of point `b` for a strand on core `core`: one copy a sheaf for b0-b15, one a team for b16-b23. -/
def pointKey (core : Nat) (b : BPoint) : Nat := if b.toNat < 16 then sheafOf core * 32 + b.toNat else b.toNat
def pointIsField (key : Nat) : Bool := decide (16 ≤ key % 32)
def pointScope (key : Nat) : Scope := if pointIsField key then .field else .sheaf

def Launch.point (la : Launch) (key : Nat) : Point := Table.getD la.points key Point.blank

/-- A strand that has started and not retired: live, or resumed from a husk onto a core that still wakes (R334). -/
def Strand.started (t : Strand) : Bool := t.stat == SlotStat.live || (t.stat == SlotStat.bound && !t.fresh)

/-- Names of the live team strands in the scope of point `key` of launch `k` (R334). -/
def State.teamLive (s : State) (k key : Nat) : List Nat :=
  let here (sid : Nat) : Bool := pointIsField key || sheafOf (coreOf sid) == key / 32
  ((s.strands.filter fun e => e.2.started && e.2.launch == k && here e.1).map fun e => e.2.uid) ++
  ((s.husks.filter fun h => h.strand.launch == k && here h.sid).map fun h => h.uid)

/-- The current phase of a point passes now (R334, R337). -/
def Point.passes (p : Point) (live : List Nat) : Bool :=
  let cur := p.arrivals.filter fun a => a.phase == p.phase
  p.init && !cur.isEmpty && (cur.all fun a => a.counted) &&
    (match p.count with
     | some n => cur.length == n
     | none => live.all fun u => cur.any fun a => a.uid == u)

/-- The phase of a point advances in one step (R334). -/
def Point.step (p : Point) : Point :=
  { p with phase := p.phase + 1, arrivals := p.arrivals.filter fun a => a.phase != p.phase }

/-- `bwait` on `old` may return (R338). -/
def phasePassed (phase old : BitVec 32) : Bool :=
  decide (1 ≤ (phase - old).toNat ∧ (phase - old).toNat ≤ 2 ^ 31 - 1)

/-- `barr` of strand `sid` returns in an SSTEP launch once its phase has passed and its engine operations have completed:
its checkpoint is written (19, R392). -/
def State.testSuper (s : State) (sid : Nat) : State :=
  let t := s.strand sid
  match t.wait with
  | some (.superstep k key old d) =>
    match Table.get? s.launches k with
    | none => s
    | some la =>
      if phasePassed (la.point key).phase old && !(s.ops.any fun o => o.counters.any fun c => c.1 == t.uid) then
        let s := s.acquire (coreOf sid) .field
        (s.setStrand sid { (t.setX d (old.zeroExtend 64)).done with arrived := none }).checkpoint sid
      else s
  | _ => s

/-- Strands that wait for a phase of point `key` of launch `k` test again (R338). -/
def State.testPhase (s : State) (k key : Nat) (phase : BitVec 32) : State :=
  s.liveSlots.foldl (fun s e =>
    match e.2.wait with
    | some (.phase k' key' old) =>
      if k' = k && key' = key && phasePassed phase old then
        (s.acquire (coreOf e.1) (pointScope key)).finishAt e.1
      else s
    | some (.superstep _ _ _ _) => s.testSuper e.1
    | _ => s) s

/-- What the units of a core hold. -/
def Core.mark (c : Core) : UnitMark :=
  { hdr := c.hdr, edge := c.edge, trayHead := c.trayHead, trayPartials := c.trayPartials }

/-- What the units of the cores that run strands of launch `k` hold. -/
def State.unitMarks (s : State) (k : Nat) : Table UnitMark :=
  (s.cores.filter fun e => (s.sstepOn e.1).contains k).map fun e => (e.1, e.2.mark)

/-- A strand of launch `k` is placed on core `c`: the first of an SSTEP launch's superstep notes what the core's units hold
(R394). -/
def State.markUnits (s : State) (k c : Nat) : State :=
  match Table.get? s.launches k with
  | none => s
  | some la =>
    if recSstep la.bytes && (Table.get? la.ss.units c).isNone then
      let ss := { la.ss with units := Table.set la.ss.units c (s.core c).mark }
      { s with launches := Table.set s.launches k { la with ss := ss } }
    else s

/-- At a phase pass of a field point of an SSTEP launch a superstep begins (R392). -/
def State.newSuperstep (s : State) (k : Nat) : State :=
  match Table.get? s.launches k with
  | none => s
  | some la =>
    if recSstep la.bytes then
      let cks := la.ss.cks.filter fun c => (s.teamLive k 16).contains c.strand.uid
      let ss : Superstep := { cks := cks, logs := [], marks := [], points := la.points, lost := !s.huskEn, rolls := 0,
                              retired := la.retired, total := la.total, units := s.unitMarks k }
      { s with launches := Table.set s.launches k { la with ss := ss } }
    else s

/-- Every phase of point `key` of launch `k` that can pass now passes (R334, R337); `fuel` bounds how many. -/
def State.passPoint (s : State) (k key : Nat) : Nat → State
  | 0 => s
  | f + 1 =>
    match Table.get? s.launches k with
    | none => s
    | some la =>
      let p := la.point key
      if p.passes (s.teamLive k key) then
        let s := { s with launches := Table.set s.launches k { la with points := Table.set la.points key p.step } }
        let s := if pointIsField key then s.newSuperstep k else s
        State.passPoint (s.testPhase k key p.step.phase) k key f
      else s

/-- Arrivals whose release has completed count (R337). -/
def State.settlePoints (s : State) : State :=
  s.launches.foldl (fun s e =>
    e.2.points.foldl (fun s q =>
      match Table.get? s.launches e.1 with
      | none => s
      | some la =>
        let p := la.point q.1
        let p' := { p with arrivals := p.arrivals.map fun a => { a with counted := a.counted || s.drained a.rel } }
        let s := { s with launches := Table.set s.launches e.1 { la with points := Table.set la.points q.1 p' } }
        s.passPoint e.1 q.1 (p.arrivals.length + 1)) s) s

/-! ### Engine threads and emissions wait for their release (R323, R406) -/

def EngOp.slice (o : EngOp) (core : Nat) : Bool :=
  match o.work with
  | .copy _ _ => false
  | .gang _ ms => ms.any fun m => m.core == core
  | _ => o.core == core

/-- The cores whose slice an operation uses. -/
def EngOp.cores (o : EngOp) : List Nat :=
  match o.work with
  | .copy _ _ => []
  | .gang _ ms => ms.map (·.core)
  | _ => [o.core]

/-- A strand of launch `k` forked the operation. -/
def EngOp.inLaunch (o : EngOp) (k : Nat) : Bool :=
  match o.work with
  | .gang _ ms => ms.any fun m => m.launch == k
  | _ => o.launch == k

/-- The sheaf whose array an operation runs on. -/
def EngOp.array (o : EngOp) : Option Nat :=
  match o.work with
  | .gang _ _ => some (sheafOf o.core)
  | _ => none

/-- No operation forked earlier on the same slices, nor on the same sheaf's array, is still to be performed (R280,
R286). -/
def State.sliceTurn (s : State) (o : EngOp) : Bool :=
  s.ops.all fun p => p.stop || decide (o.id ≤ p.id) ||
    !((o.cores.any fun c => p.slice c) || (o.array.isSome && o.array == p.array))

/-- Start the threads whose release has completed and whose turn it is. -/
def State.settleOps (s : State) : State :=
  { s with ops := s.ops.map fun (o : EngOp) =>
      if o.started || o.stop || !(s.drained o.rel) || !(s.sliceTurn o) then o
      else
        match o.work with
        | .ast tile _ _ _ =>
          { o with started := true,
                   tileOld := (s.core o.core).acc.filter fun e => e.1 / 64 == tile }
        | _ => { o with started := true } }

/-- Groups of a mask in increasing order. -/
def groupList (m : BitVec 8) : List Nat := (List.range 8).filter fun g => m.getLsbD g

/-- The offsets in the buffer of the beats that an emission has not read yet: 72 for each group of its mask, in order (21, R406). -/
def Emission.left (e : Emission) : List Nat :=
  ((groupList e.mask).flatMap fun g => (List.range 72).map fun k => 2304 * g + 32 * k).drop (e.read.length / 32)
/-- It has not read its last byte. -/
def Emission.unread (e : Emission) : Bool := !e.left.isEmpty

/-- The core's emissions whose release has completed join the unit's order (R406). -/
def State.settleEmits (s : State) : State :=
  s.cores.foldl (fun s e =>
    if e.2.emits.all fun m => m.ready.isSome || !(s.drained m.rel) then s
    else
      let r := e.2.emits.foldl (fun (acc : List Emission × Nat) m =>
        if m.ready.isNone && s.drained m.rel then
          let lo := localLoc e.1 (m.base - 0x100000)
          (acc.1 ++ [{ m with ready := some acc.2, since := s.ftime, behind := none, snap := s.mem.within lo (lo + 18432),
                                 snapBad := s.poison.filter fun l => decide (lo ≤ l ∧ l < lo + 18432) }], acc.2 + 1)
        else (acc.1 ++ [m], acc.2)) (([] : List Emission), s.waitNo)
      { s with waitNo := r.2 }.setCore e.1 { e.2 with emits := r.1 }) s

/-! ### Work queues (16, R348-R353) -/

/-- Entry of work queue `q` in the table at WQTAB. -/
def State.wqEntry (s : State) (q : Nat) : Nat := s.wqTable + 32 * (q - 64)
def State.wqField (s : State) (q off n : Nat) : Nat := leNat (s.far.bytes (s.wqEntry q + off) n)
def State.wqBase (s : State) (q : Nat) : Nat := s.wqField q 0x00 8
def State.wqSlots (s : State) (q : Nat) : Nat := s.wqField q 0x08 4
def State.wqCtx (s : State) (q : Nat) : BitVec 4 := BitVec.ofNat 4 (s.wqField q 0x0C 2)
def State.wqValid (s : State) (q : Nat) : Bool := s.wqField q 0x0E 2 % 2 == 1
def State.wqClosed (s : State) (q : Nat) : Bool := s.wqField q 0x0E 2 / 2 % 2 == 1

/-- A word of the entry that cannot be read (11, R252). -/
def State.wqBad (s : State) (q : Nat) : Option Nat := ((List.range 4).map fun i => s.wqEntry q + 8 * i).find? s.poisoned

/-- A counter or flag that the home slice writes in an entry (log 22). -/
def State.wqWrite (s : State) (q off n v : Nat) : State :=
  s.write (Writer.plain 0) (cellsAt (s.wqEntry q + off) (leBytes v n))

/-- The oldest FULL slot: its number. -/
def State.wqOldest (s : State) (q : Nat) : Option Nat :=
  ((Table.getD s.wq q []).foldl (fun (best : Option (Nat × Nat)) e =>
    match e.2, best with
    | .full n, none => some (n, e.1)
    | .full n, some b => if n < b.1 then some (n, e.1) else best
    | .taken _, _ => best) none).map fun r => r.2

/-- Strand `sid` takes slot `i`: TAKEN, POPPED + 1, its address to xd, an acquire at field scope (R352). -/
def State.wqTake (s : State) (sid q i : Nat) (d : XReg) : State :=
  let uid := (s.strand sid).uid
  let s := { s with wq := Table.set s.wq q (Table.set (Table.getD s.wq q []) i (.taken uid)) }
  let s := s.wqWrite q 0x18 8 (s.wqField q 0x18 8 + 1)
  let s := s.acquire (coreOf sid) .field
  s.setStrand sid ((s.strand sid).setX d (BitVec.ofNat 64 (s.wqBase q + 128 * i))).done

/-- End of work for strand `sid`. -/
def State.wqEnd (s : State) (sid : Nat) (d : XReg) : State :=
  s.setStrand sid ((s.strand sid).setX d (-1)).done

/-- Waiting `qpop`s of queue `q` are served in the order they began. -/
def State.wqServe (s : State) (q : Nat) : Nat → State
  | 0 => s
  | n + 1 =>
    match s.firstWaiter (fun _ w => match w with
      | .pop q' d => if q' = q then some d else none
      | _ => none) with
    | none => s
    | some (sid, d) =>
      match s.wqOldest q with
      | some i => State.wqServe (s.wqTake sid q i d) q n
      | none => if s.wqClosed q then State.wqServe (s.wqEnd sid d) q n else s

/-- CLOSED is set; waiters of an empty queue get end of work (R353). -/
def State.wqClose (s : State) (q : Nat) : State :=
  let s := s.wqWrite q 0x0E 2 (s.wqField q 0x0E 2 / 4 * 4 + 2 + s.wqField q 0x0E 2 % 2)
  s.wqServe q s.strands.length

/-- A `qclose` of strand `uid` takes effect; an entry that cannot be read is met for that strand (11, R252). -/
def State.closeNow (s : State) (q uid : Nat) : State :=
  match s.wqBad q with
  | some l =>
    let t := ((s.strands.find? fun e => e.2.uid == uid).map (·.2)).getD Strand.blank
    s.meets l t.ctx t.launch
  | none => s.wqClose q

/-- The `qclose`s whose release has completed take effect. -/
def State.settleCloses (s : State) : State :=
  s.closes.foldl (fun s c =>
    if s.drained c.2.2 then { s with closes := s.closes.erase c }.closeNow c.1 c.2.1 else s) s

/-- The fences whose release has completed complete, a full fence with its acquire (R321). -/
def State.settleFences (s : State) : State :=
  s.liveSlots.foldl (fun s e =>
    match e.2.wait with
    | some (.fence set acq) =>
      if s.drained set then
        let s := match acq with
          | some sc => s.acquire (coreOf e.1) sc
          | none => s
        s.finishAt e.1
      else s
    | _ => s) s

/-- Everything that was tied to the completion of a release happens in the step in which it completes (R318). -/
def State.settle (s : State) : State :=
  s.vacateSpent.settleOps.settleEmits.settleKeys.settlePoints.settleCloses.settleFences

/-! ### The send queue (R341) -/

/-- The send queue of a core has room. -/
def Core.sendRoom (c : Core) : Bool := decide (c.sendQ.length < 8)

def State.pushSend (s : State) (core : Nat) (m : Msg) : State :=
  s.setCore core { s.core core with sendQ := (s.core core).sendQ ++ [{ msg := m, refused := false, onLink := false }] }

/-- The blocked `send` of core `core` that has waited longest. -/
def State.sendWaiter (s : State) (core : Nat) : Option (Nat × Msg × XReg) :=
  s.firstWaiter fun sid w => match w with
    | .send m d => if coreOf sid == core then some (m, d) else none
    | _ => none

/-- Free entries go to the blocked sends and the FPX messages that wait, in the order in which they began (R344, R378). -/
def State.serveSend (s : State) (core : Nat) : Nat → State
  | 0 => s
  | n + 1 =>
    if !(s.core core).sendRoom then s
    else
      let fpx (m : Msg) (rest : List (Nat × Msg)) : State :=
        (s.setCore core { s.core core with fpx := rest }).pushSend core m
      let send (sid : Nat) (m : Msg) (d : XReg) : State :=
        let s := s.pushSend core m
        s.setStrand sid ((s.strand sid).setX d 0).done
      match (s.core core).fpx, s.sendWaiter core with
      | [], none => s
      | (_, m) :: rest, none => State.serveSend (fpx m rest) core n
      | [], some (sid, m, d) => State.serveSend (send sid m d) core n
      | (k, m) :: rest, some (sid, m', d) =>
        State.serveSend (if k < (s.strand sid).waitNo then fpx m rest else send sid m' d) core n

/-- Every core's free entries are given out; nothing moves while frozen. -/
def State.serveSends (s : State) : State :=
  if s.dbg.frozen then s else s.cores.foldl (fun s e => s.serveSend e.1 8) s

/-! ### The wired barrier (12, R280) -/

/-- Withdraw the arrival of strand `uid` from the groups that are not committed. -/
def Sheaf.withdraw (h : Sheaf) (uid : Nat) : Sheaf :=
  { h with waiting := (h.waiting.map (fun (g : GangGroup) =>
      { g with arrivals := g.arrivals.filter (fun a => a.uid != uid) })).filter (fun g => !g.arrivals.isEmpty) }

/-- The wait of strand `sid` is withdrawn with what it had entered (R331, R332): its key wait, its gang arrival. The arrival of a
field-point `barr` of an SSTEP launch stays entered, though R9 would have no effect of the instruction remain (log 67). -/
def State.withdraw (s : State) (sid : Nat) : State :=
  let t := s.strand sid
  match t.wait with
  | none => s
  | some w =>
    let s := match w with
      | .key _ _ _ => s.unwaitKeys t.uid
      | .gang _ _ => s.setSheaf (sheafOf (coreOf sid)) ((s.sheaf (sheafOf (coreOf sid))).withdraw t.uid)
      | _ => s
    s.setStrand sid { t with wait := none, waited := 0, probed := 0 }

/-! ### Ending a context (19, R381-R383) -/

/-- Work-queue slots TAKEN by one of `uids` become FREE (R348). -/
def State.freeTaken (s : State) (uids : List Nat) : State :=
  { s with wq := Table.mapVals (fun _ (q : Table QSlot) => q.filter (fun e => match e.2 with
      | .taken u => !(uids.contains u)
      | .full _ => true)) s.wq }

/-- Names of the strands of context `c`, in slots and husks. -/
def State.ctxUids (s : State) (c : BitVec 4) : List Nat :=
  ((s.strands.filter fun e => e.2.stat != SlotStat.free && e.2.ctx == c).map (·.2.uid)) ++
  ((s.husks.filter fun h => h.strand.ctx == c).map (·.uid))

/-- Decrement the counters `cs` (uid, cn), 12 R287. -/
def State.countDown (s : State) (cs : List (Nat × BitVec 3)) : State :=
  cs.foldl (fun s c =>
    match s.slotOf c.1 with
    | none => s
    | some sid =>
      let t := s.strand sid
      let t := t.setC c.2 (t.cr c.2 - 1)
      let s := s.setStrand sid t
      match t.wait with
      | some (.counter cn thr) => if cn = c.2 && (t.cr cn).toNat ≤ thr.toNat then s.finishAt sid else s
      | _ => s.testSuper sid) s

/-- An operation that has ended makes the decrements that no earlier operation on the same counter holds back (R287). -/
def State.settleCounters (s : State) : Nat → State
  | 0 => s
  | f + 1 =>
    let ready (o : EngOp) (c : Nat × BitVec 3) : Bool :=
      o.stop && s.ops.all fun p => decide (o.id ≤ p.id) || !(p.counters.contains c)
    let due := (s.ops.map fun o => o.counters.filter (ready o)).flatten
    if due.isEmpty then s
    else
      let ops := s.ops.map fun (o : EngOp) => { o with counters := o.counters.filter fun c => !(ready o c) }
      let s' := { s with ops := ops.filter fun o => !(o.stop && o.counters.isEmpty) }
      State.settleCounters (s'.countDown due) f

/-- Operations that have ended with no counter left are forgotten; the slice goes on to its next. -/
def State.opsEnded (s : State) : State :=
  let s := s.settleCounters (s.ops.length + 1)
  { s with ops := s.ops.filter fun o => !(o.stop && o.counters.isEmpty) }.settleOps

/-- Keys of the ended strands (R358): waiters leave and keep their place, held keys are abandoned and advance. -/
def State.abandonKeys (s : State) (uids : List Nat) : State :=
  (List.range s.keys.length).foldl (fun s i =>
    match s.keys[i]? with
    | none => s
    | some e =>
      let gone : List (Nat × BitVec 32) := e.waiters.filter fun w => uids.contains w.1
      let e : KeyEntry := { e with
                        waiters := e.waiters.filter fun w => !(uids.contains w.1),
                        ctxSkips := e.ctxSkips ++ gone.map (·.2),
                        made := e.made && gone.isEmpty,
                        abandoned := e.abandoned || !gone.isEmpty,
                        skipping := e.skipping.filter fun k => !(uids.contains k.1) }
      match e.holder with
      | some (u, _) =>
        if uids.contains u then s.advanceKey i { e with holder := none, leaving := none, abandoned := true }
        else { s with keys := s.keys.set i e }
      | none => { s with keys := s.keys.set i e }) s

/-- The launch has reached COMPLETE: its last strand has retired or been skipped (21, R402), or its context has ended. -/
def Launch.over (la : Launch) : Bool :=
  match la.state with
  | .complete => true
  | .ready => la.total == 0
  | .running | .drainingOut => decide (la.total ≤ la.retired + la.skips)
  | .waiting => false

/-- End context `c` with CAUSE `code` (R382). -/
def State.endContext (s : State) (c : BitVec 4) (code : Nat) : State :=
  let uids := s.ctxUids c
  let s := s.lift fun e => uids.contains e.uid
  -- 1, 2: strands, waits, parking, husks, checkpoints; entries and messages not yet performed
  let s := { s with
    strands := Table.mapVals (fun _ (t : Strand) => if t.ctx == c && t.stat != SlotStat.free then Strand.blank else t) s.strands,
    husks := s.husks.filter (fun (h : Husk) => h.strand.ctx != c),
    sheafs := Table.mapVals (fun _ (h : Sheaf) => uids.foldl (fun h u => h.withdraw u) h) s.sheafs,
    cores := Table.mapVals (fun _ (k : Core) =>
      { k with sendQ := k.sendQ.filter (fun m => !(m.msg.ctx == c && m.msg.dev == s.host.devId)),
               fpx := k.fpx.filter (fun m => m.2.ctx != c) }) s.cores }
  -- 3: engine operations of the context stop; members of other contexts get their counters back
  let mine (o : EngOp) : Bool := match o.work with
    | .gang _ ms => ms.any fun m => m.ctx == c
    | _ => o.ctx == c
  let s := { s with ops := s.ops.map (fun (o : EngOp) => if mine o then { o with stop := true } else o) }.opsEnded
  -- 4: keys, work-queue slots, mesh slots
  let s := (s.abandonKeys uids).freeTaken uids
  let s := { s with closes := s.closes.filter (fun (c : Nat × Nat × List Nat) => !(uids.contains c.2.1)) }
  let endSlot (m : MeshSlot) : MeshSlot := if m.retired then m else { m with retired := true, empty := true }
  let endRing (k : Nat) (r : MeshRing) : MeshRing :=
    if k = c.toNat then { r with slots := r.slots.map endSlot } else r
  let s := { s with rings := Table.mapVals endRing s.rings }
  -- 5, 6: launches, CTXEND, vector 0
  let endLaunch (_ : Nat) (la : Launch) : Launch :=
    if recCtx la.bytes == c && !la.over then
      { la with state := .complete, ended := some (BitVec.ofNat 8 code), ss := { la.ss with cks := [] } }
    else la
  let s := { s with launches := Table.mapVals endLaunch s.launches }
  -- what waited for the entries that are gone: queue places, transfers (R341, R406)
  let s := s.serveSends.settleEmits
  { s with host := { s.host with ctxend := s.host.ctxend ||| (1 <<< c.toNat) } }.signal 0

/-! ### Superstep rollback (19, R394) -/

/-- A word of a log goes back to its line: with its poison when it cannot be read (log 14). The line keeps the owner tag it has: R251 names
none for this writer (log 82). -/
def State.unlogWord (s : State) (core from' addr : Nat) : State :=
  let cells : List Host.Cell :=
    ((List.range 8).zip (s.mem.bytes from' 8)).filterMap fun ib => (nearByte core 0 (addr + ib.1)).map fun l => (l, ib.2)
  s.storeCells { Writer.plain (s.tagOf ((cells.map (·.1)).headD 0)) with core := core, poison := s.poisoned from' } cells

/-- Write back the entries of one core's log, newest first: `n` entries lie below. One whose address cannot be read is met for
context `ctx` (R252). -/
def State.unlog (s : State) (ctx : BitVec 4) (core base : Nat) : Nat → State
  | 0 => s
  | n + 1 =>
    let at' := base + 72 * n
    let addr := leNat (s.mem.bytes at' 8)
    let s := if s.poisoned at' then s.meets at' ctx 4096
      else (List.range 8).foldl (fun s i => s.unlogWord core (at' + 8 + 8 * i) (addr + 8 * i)) s
    State.unlog s ctx core base n

/-- The units of a core go back to what they held (R394). -/
def Core.backTo (c : Core) (m : UnitMark) : Core :=
  { c with hdr := m.hdr, edge := m.edge, trayHead := m.trayHead, trayPartials := m.trayPartials }

/-- A strand of checkpoint `c` of launch `k` comes back: in its slot, or as a husk when the slot holds a strand of another launch. A
block that cannot be read is met (R252). -/
def State.restore (s : State) (la : Launch) (c : Checkpoint) : State :=
  let s := match s.checkBad c with
    | some l => s.meets l (recCtx la.bytes) 4096
    | none => s
  let block := s.checkBlock c
  let t := c.strand.ofHusk block
  if (s.strand c.sid).stat = SlotStat.free then (s.setStrand c.sid { t with stat := .live }).busy (coreOf c.sid)
  else s.saveHusk c.sid t block

/-- Roll launch `k` back to its last checkpoint. A strand that has not started has nothing to undo. -/
def State.rollback (s : State) (k : Nat) : State :=
  match Table.get? s.launches k with
  | none => s
  | some la =>
    let mine (t : Strand) : Bool := t.launch == k && t.stat != SlotStat.free && !(t.stat == SlotStat.bound && t.fresh)
    let uids := ((s.strands.filter fun e => mine e.2).map (·.2.uid)) ++
      ((s.husks.filter fun h => h.strand.launch == k).map (·.uid))
    let own (u : Nat) : Bool := uids.contains u
    let s := s.lift fun e => own e.uid
    -- 1, 2: strands, engine operations, messages
    let s := { s with
      strands := Table.mapVals (fun _ (t : Strand) => if mine t then Strand.blank else t) s.strands,
      husks := s.husks.filter (fun (h : Husk) => h.strand.launch != k),
      closes := s.closes.filter (fun (c : Nat × Nat × List Nat) => !(own c.2.1)),
      sheafs := Table.mapVals (fun _ (h : Sheaf) => uids.foldl (fun h u => h.withdraw u) h) s.sheafs,
      cores := Table.mapVals (fun _ (c : Core) => { c with sendQ := c.sendQ.filter (fun m => m.msg.launch != la.accNo),
                                                           fpx := c.fpx.filter (fun m => m.2.launch != la.accNo) }) s.cores,
      ops := s.ops.map (fun (o : EngOp) =>
        if o.inLaunch k then { o with stop := true, counters := o.counters.filter (fun c => !(own c.1)) } else o) }.opsEnded
    -- 3: the logs, and the units that deliveries of the superstep went through
    let s := la.ss.logs.foldl (fun s e => s.unlog (recCtx la.bytes) e.1 (localLoc e.1 (shadowBase (recShadow la.bytes))) (e.2 / 72)) s
    let s := la.ss.units.foldl (fun s e => s.setCore e.1 ((s.core e.1).backTo e.2)) s
    -- 4: barrier points, keys
    let held (e : KeyEntry) : Bool := e.holder.any fun h => own h.1
    let s := { s with keys := (s.keys.filterMap fun (e : KeyEntry) => e.leave own).map (fun (e : KeyEntry) =>
      { e with skipping := e.skipping.filter (fun q => !(own q.1)),
               holder := if held e then none else e.holder,
               leaving := if held e then none else e.leaving }) }
    let ss := { la.ss with logs := [], marks := [], rolls := la.ss.rolls + 1 }
    let la' := { la with points := la.ss.points, ss := ss, retired := la.ss.retired, total := la.ss.total }
    let back (m : MeshSlot) : MeshSlot :=
      if m.launch = k ∧ (la.ss.cks.any fun c => c.strand.ordinal == m.ordinal && !c.strand.spawned) then
        { m with retired := false } else m
    let s := { s with launches := Table.set s.launches k la',
                      rings := Table.mapVals (fun _ (r : MeshRing) => { r with slots := r.slots.map back }) s.rings,
                      host := { s.host with rback := if s.host.rback = 255 then 255 else s.host.rback + 1 } }
    -- 5: the strands, each in its slot, or as a husk when the slot holds a strand of another launch
    let s := la.ss.cks.foldl (fun s c => s.restore la c) s
    s.serveSends.settleEmits

/-! ### Uncorrectable words (19, R390, R391) -/

/-- A poisoned or uncorrectable word with tag `tag` is met by an access of context `acc` and launch `la`: it is counted
once, and each context it names is rolled back or ended. -/
def State.uncorr (s : State) (tag acc : BitVec 4) (launch : Nat) : State :=
  let named := ([tag, acc].filter fun c => c != 0).dedup
  let s := { s with host := { s.host with ue := if s.host.ue = 0xFFFF then 0xFFFF else s.host.ue + 1 } }
  named.foldl (fun s c =>
    let s := { s with host := { s.host with lastCtx := c } }
    match Table.get? s.launches launch with
    | some la =>
      if c == acc && recCtx la.bytes == c && recSstep la.bytes && !la.ss.lost && decide (la.ss.rolls < 3) then
        s.rollback launch
      else s.endContext c 0x16
    | none => s.endContext c 0x16) s

/-- What units have met on the way is handled, and what that meets in turn (R390). -/
def State.settleMet (s : State) : Nat → State
  | 0 => s
  | n + 1 =>
    if s.met.isEmpty then s
    else State.settleMet (s.met.foldl (fun s m => s.uncorr m.tag m.ctx m.launch) { s with met := [] }) n

/-! ### Traps (19, R369-R376) -/

/-- Cause codes (R373). -/
def Cause.code : Cause → Nat
  | .illegal => 0x01 | .priv => 0x02 | .align => 0x03 | .access => 0x04 | .page => 0x05 | .prot => 0x06
  | .xlate => 0x07 | .window => 0x08 | .loopbody => 0x09 | .fpxLocal => 0x0A | .stall => 0x0B | .keydl => 0x0C
  | .keyfull => 0x0D | .keyorder => 0x0E | .barstate => 0x0F | .gangto => 0x10 | .engstate => 0x11
  | .engaddr => 0x12 | .meshbound => 0x13 | .trayfull => 0x14 | .rampv => 0x15 | .uncorr => 0x16 | .sysc => 0x17
  | .brk => 0x18 | .trap => 0x19 | .msgaddr => 0x1A | .engformat => 0x1B

/-- The state of a strand in its handler (R370): what `trap_entry` writes when it does not end the context. What RESUME masked was
masked for the issue that ends here (R379). No rule says whether the captured loop body outlasts the entry or a `kret` back into it:
both empty the loop buffer, and the body is fetched and captured anew (R123, R154, R155; log 90). -/
def Strand.enter (t : Strand) (code : Nat) (value : Word) (async : Bool) (resume : Word) : Strand :=
  { t with
    elpc := t.lpc, elpstart := t.lpstart, elpend := t.lpend, lpc := 0, loopBuf := [], fbuf := [],
    epc := resume, tval := value,
    cause := BitVec.ofNat 9 (code % 256 + if async then 256 else 0),
    pmode := t.mode, mode := if t.mode.toNat < 1 then 1 else t.mode,
    entry := true, fenMask := 0, pc := t.tvec }

/-- `trap_entry` (R370, R372): strand `sid` enters its handler, or its context ends. -/
def State.trapEntry (s : State) (sid code : Nat) (value : Word) (async : Bool) (resume : Word) : State :=
  let t := s.strand sid
  if t.tvec = 0 || t.entry then s.endContext t.ctx code
  else s.setStrand sid (t.enter code value async resume)

/-- A faulting cause at strand `sid` (R9, R369): the instruction takes no effect, its wait is withdrawn, `epc` is its own
address. -/
def State.raiseAt (s : State) (sid : Nat) (c : Cause) (value : Word) : State :=
  let s := s.withdraw sid
  s.trapEntry sid c.code value false (s.strand sid).pc

/-- The current instruction raises `c`. -/
def State.trap (s : State) (c : Cause) (value : Word) : Out := .next (s.raiseAt s.cur c value)

/-- A completing cause (R369, R375): the instruction completes, with the loop step, and then the handler is entered. -/
def State.trapAfter (s : State) (c : Cause) (value : Word) : Out :=
  let t := s.me.done
  .next ((s.setMe t).trapEntry s.cur c.code value false t.pc)

/-- `kret` (R376) on the strand: registers after the return; its target is `epc`. The loop buffer is empty after it (log 90). -/
def Strand.kret (t : Strand) : Strand :=
  { t with
    lpstart := t.elpstart, lpend := t.elpend,
    lpc := if t.elpstart.toNat ≤ t.epc.toNat ∧ t.epc.toNat < t.elpend.toNat then t.elpc else 0,
    loopBuf := [], fbuf := [], mode := t.pmode, pmode := 0 }

/-- A pending boundary cause of strand `sid`, the lowest code first, equal codes in the order they came (R369). -/
def Strand.addPend (t : Strand) (code : Nat) (value : Word) : Strand :=
  { t with pend := (t.pend.filter fun p => decide (p.1 ≤ code)) ++ [(code, value)] ++
                   (t.pend.filter fun p => decide (code < p.1)) }

def State.pendAt (s : State) (sid code : Nat) (value : Word) : State :=
  s.setStrand sid ((s.strand sid).addPend code value)

end Sys2Proof.Machine
end

