-- ==== Sys2Proof/Machine/Access.lean ====
section
/-! DEFINITION. Addresses: translation, the checks of an access, reading and storing through a strand's view, and
instruction fetch. -/

namespace Sys2Proof.Machine

/-! ### Translation (11, R253-R257) -/

/-- What an access does with the page (R258, check 4). -/
inductive Acc | read | write | both | exec
deriving DecidableEq, Repr

/-- Why an access cannot be made: a cause of R258, or the location of a word of a table or of memory that cannot be read
(R252). -/
inductive Block
  | cause (c : Cause)
  | bad (l : Nat)
deriving DecidableEq, Repr

def pteBit (p : Word) (i : Nat) : Bool := p.getLsbD i
def ptePpn (p : Word) : Nat := natBits p.toNat 47 16 * 65536

/-- A well-formed table pointer (R255, R256). -/
def ptePointer (p : Word) : Bool :=
  pteBit p 0 && natBits p.toNat 63 48 == 0 && natBits p.toNat 15 1 == 0

/-- A well-formed leaf at level 2 (`big`) or 3. -/
def pteLeaf (p : Word) (big : Bool) : Bool :=
  pteBit p 0 && pteBit p 4 && natBits p.toNat 63 48 == 0 && natBits p.toNat 15 8 == 0 &&
    (pteBit p 1 || pteBit p 2 || pteBit p 3) && (!big || natBits p.toNat 25 16 == 0)

/-- `n` consecutive locations. -/
def locsFrom (l : Nat) : Nat → List Nat
  | 0 => []
  | n + 1 => l :: locsFrom (l + 1) n

/-- A table entry read at its home, for a strand of core `core` or, with none, for a unit of the field; an entry that is poisoned
reads as an uncorrectable word (R252), one at an address without memory as zeros, so that the walk ends in PAGE (R247; log 80). -/
def State.pteAt (s : State) (core : Option Nat) (p : Nat) : State × Except Block Word :=
  if s.poisoned p then (s, .error (.bad p))
  else
    match core with
    | none => (s, .ok (BitVec.ofNat 64 (leNat (s.far.bytes p 8))))
    | some c =>
      let s := s.touch c 0 (locsFrom p 8)
      (s, .ok (BitVec.ofNat 64 (leNat ((s.seen c).bytes p 8))))

/-- Number of the page of an entry. -/
def TlbEntry.hits (e : TlbEntry) (ctx : BitVec 4) (va : Nat) : Bool :=
  e.ctx == ctx && e.vpn == va / (if e.big then 2 ^ 26 else 2 ^ 16)

/-- The slice whose walk cache serves a virtual address (log 9). -/
def walkSlice (va : Nat) : Nat := va / 65536 % 576

/-- Newest first, at most `n`. -/
def keepNew {α : Type} (a : α) (l : List α) (n : Nat) : List α := (a :: l).take n

/-- A leaf is entered in the sheaf's TLB and the core's micro-TLB (R256; log 9). -/
def State.fillTlb (s : State) (core : Nat) (e : TlbEntry) : State :=
  let h := sheafOf core
  let s := s.setSheaf h { s.sheaf h with tlb := keepNew e (s.sheaf h).tlb 256 }
  s.setCore core { s.core core with utlb := keepNew e (s.core core).utlb 16 }

/-- The walk below a level-2 pointer. -/
def State.walk3 (s : State) (core : Option Nat) (ctx : BitVec 4) (va : Nat) (ptr : Word) : State × Except Block TlbEntry :=
  match s.pteAt core (ptePpn ptr + 8 * natBits va 25 16) with
  | (s, .error b) => (s, .error b)
  | (s, .ok p) =>
    if pteLeaf p false then (s, .ok { ctx := ctx, big := false, vpn := va / 2 ^ 16, pte := p }) else (s, .error (.cause .page))

/-- A pointer read by a walk joins the walk cache of the address's slice (R256). -/
def State.keepPointer (s : State) (ctx : BitVec 4) (va level path : Nat) (p : Word) : State :=
  let w : WalkEntry := { ctx := ctx, level := level, path := path, pte := p }
  let rest := (Table.getD s.walks (walkSlice va) []).filter fun e => !(e.ctx == ctx && e.level == level && e.path == path)
  { s with walks := Table.set s.walks (walkSlice va) (w :: rest) }

/-- The walk below a level-1 pointer. -/
def State.walk2 (s : State) (core : Option Nat) (ctx : BitVec 4) (va : Nat) (ptr : Word) : State × Except Block TlbEntry :=
  match s.pteAt core (ptePpn ptr + 8 * natBits va 36 26) with
  | (s, .error b) => (s, .error b)
  | (s, .ok p) =>
    if pteLeaf p true then (s, .ok { ctx := ctx, big := true, vpn := va / 2 ^ 26, pte := p })
    else if ptePointer p then (s.keepPointer ctx va 2 (natBits va 47 26) p).walk3 core ctx va p
    else (s, .error (.cause .page))

/-- The walk from level 1 (R253-R255). A bit of CTXTAB outside 47:8, or of a context table entry, that should be zero is not looked at
(log 80). -/
def State.walk1 (s : State) (core : Option Nat) (ctx : BitVec 4) (va : Nat) : State × Except Block TlbEntry :=
  match s.pteAt core (s.ctxTable + 16 * ctx.toNat) with
  | (s, .error b) => (s, .error b)
  | (s, .ok e) =>
    if ctx = 0 || !(pteBit e 0) then (s, .error (.cause .page))
    else
      match s.pteAt core (natBits e.toNat 47 16 * 65536 + 8 * natBits va 47 37) with
      | (s, .error b) => (s, .error b)
      | (s, .ok p) =>
        if ptePointer p then (s.keepPointer ctx va 1 (natBits va 47 37) p).walk2 core ctx va p
        else (s, .error (.cause .page))

/-- The walk of a virtual address, from the longest path its walk cache holds (R256). -/
def State.walk (s : State) (core : Option Nat) (ctx : BitVec 4) (va : Nat) : State × Except Block TlbEntry :=
  let cache := Table.getD s.walks (walkSlice va) []
  match cache.find? fun w => w.ctx == ctx && w.level == 2 && w.path == natBits va 47 26 with
  | some w => s.walk3 core ctx va w.pte
  | none =>
    match cache.find? fun w => w.ctx == ctx && w.level == 1 && w.path == natBits va 47 37 with
    | some w => s.walk2 core ctx va w.pte
    | none => s.walk1 core ctx va

/-- What a walk has found, with a critical leaf read a second time (R257): on a mismatch the walk is discarded and made
again from level 1, and after the third there is no translation; `n` walks are left. -/
def State.compared (core : Option Nat) (ctx : BitVec 4) (va : Nat) (r : State × Except Block TlbEntry) :
    Nat → State × Except Block TlbEntry
  | 0 => (r.1, .error (.cause .xlate))
  | n + 1 =>
    match r.2 with
    | .error b => (r.1, .error b)
    | .ok e =>
      if pteBit e.pte 7 && Config.critFlips r.1.turnNo n va != 0 then
        if n = 0 then (r.1, .error (.cause .xlate)) else State.compared core ctx va (r.1.walk1 core ctx va) n
      else (r.1, .ok e)

/-- The leaf that a walk reads from memory. -/
def State.walked (s : State) (core : Option Nat) (ctx : BitVec 4) (va : Nat) : State × Except Block TlbEntry :=
  State.compared core ctx va (s.walk core ctx va) 3

/-- An entry that fails its parity is dropped, and the next access fetches it as on a miss (R256): of a micro-TLB, a sheaf TLB or
a walk cache. -/
def State.tlbParity (s : State) (kind unit entry : Nat) : State :=
  match kind with
  | 0 => s.setCore unit { s.core unit with utlb := (s.core unit).utlb.eraseIdx entry }
  | 1 => s.setSheaf unit { s.sheaf unit with tlb := (s.sheaf unit).tlb.eraseIdx entry }
  | _ => { s with walks := Table.set s.walks unit ((Table.getD s.walks unit []).eraseIdx entry) }

/-- The leaf for a virtual address: micro-TLB, sheaf TLB, walk (R256). -/
def State.leafOf (s : State) (core : Nat) (ctx : BitVec 4) (va : Nat) : State × Except Block TlbEntry :=
  match (s.core core).utlb.find? fun e => e.hits ctx va with
  | some e => (s, .ok e)
  | none =>
    match (s.sheaf (sheafOf core)).tlb.find? fun e => e.hits ctx va with
    | some e => (s.setCore core { s.core core with utlb := keepNew e (s.core core).utlb 16 }, .ok e)
    | none =>
      match s.walked (some core) ctx va with
      | (s, .ok e) => (s.fillTlb core e, .ok e)
      | (s, .error b) => (s, .error b)

/-- Physical address of `va` under a leaf. -/
def TlbEntry.phys (e : TlbEntry) (va : Nat) : Nat :=
  if e.big then ptePpn e.pte + va % 2 ^ 26 else ptePpn e.pte + va % 2 ^ 16

/-- Check 4 of R258. `user` is the strand in U mode. -/
def TlbEntry.allows (e : TlbEntry) (acc : Acc) (user : Bool) : Bool :=
  (match acc with
   | .read => pteBit e.pte 1
   | .write => pteBit e.pte 2
   | .both => pteBit e.pte 1 && pteBit e.pte 2
   | .exec => pteBit e.pte 3) && (!user || pteBit e.pte 6)

/-- A global address through checks 2 to 5 of R258: its physical address and whether its page is NC. -/
def State.translate (s : State) (core : Nat) (ctx : BitVec 4) (user : Bool) (va : Nat) (acc : Acc) :
    State × Except Block (Nat × Bool) :=
  if 2 ^ 48 ≤ va then (s, .error (.cause .access))
  else
    match s.leafOf core ctx va with
    | (s, .error b) => (s, .error b)
    | (s, .ok e) =>
      if !(e.allows acc user) then (s, .error (.cause .prot))
      else if !(s.physOk (e.phys va)) then (s, .error (.cause .access))
      else (s, .ok (e.phys va, pteBit e.pte 5))

/-! ### The checks of an access (R258) -/

/-- The locations of `n` near bytes from `a`, none if one lies in a hole. -/
def nearLocs (core : Nat) (skew : Word) (a : Nat) : Nat → Option (List Nat)
  | 0 => some []
  | n + 1 =>
    match nearByte core skew a, nearLocs core skew (a + 1) n with
    | some l, some ls => some (l :: ls)
    | _, _ => none

/-- Checks 2 to 5 of R258 for `size` bytes that lie in one page. -/
def State.place (s : State) (core : Nat) (t : Strand) (a size : Nat) (acc : Acc) : State × Except Block Place :=
  if a < 0x1000000 then
    match nearLocs core t.skew a size with
    | some ls => (s, .ok { locs := ls, direct := true })
    | none => (s, .error (.cause .access))
  else
    match s.translate core t.ctx (t.mode == 0) a acc with
    | (s, .error b) => (s, .error b)
    | (s, .ok (p, nc)) => (s, .ok { locs := locsFrom p size, direct := nc })

/-- Checks 1 to 5 of R258 of an access of the strand in slot `sid`. -/
def State.access (s : State) (sid : Nat) (a : Word) (size : Nat) (acc : Acc) : State × Except Block Place :=
  if a.toNat % size ≠ 0 then (s, .error (.cause .align)) else s.place (coreOf sid) (s.strand sid) a.toNat size acc

/-! ### Ranges of bytes (R268) -/

/-- The locations of `n` bytes from `a` in one page, or the address of the first byte that fails checks 2 to 5. -/
def State.pageLocs (s : State) (core : Nat) (t : Strand) (a n : Nat) (acc : Acc) :
    State × Except (Block × Nat) (List Nat) :=
  if a < 0x1000000 then
    match (locsFrom a n).find? fun b => (nearByte core t.skew b).isNone with
    | some b => (s, .error (.cause .access, b))
    | none => (s, .ok ((locsFrom a n).filterMap fun b => nearByte core t.skew b))
  else
    match s.translate core t.ctx (t.mode == 0) a acc with
    | (s, .error b) => (s, .error (b, a))
    | (s, .ok (p, _)) => (s, .ok (locsFrom p n))

/-- The locations of `n` bytes from `a`, in increasing address, page by page. -/
def State.rangeLocs (s : State) (core : Nat) (t : Strand) (a n : Nat) (acc : Acc) (done : List Nat) :
    Nat → State × Except (Block × Nat) (List Nat)
  | 0 => (s, .ok done)
  | f + 1 =>
    if n = 0 then (s, .ok done)
    else
      let part := min n (65536 - a % 65536)
      match s.pageLocs core t a part acc with
      | (s, .error e) => (s, .error e)
      | (s, .ok ls) => State.rangeLocs s core t (a + part) (n - part) acc (done ++ ls) f

/-- `rangeLocs` over every page the range touches. -/
def State.range (s : State) (core : Nat) (t : Strand) (a n : Nat) (acc : Acc) : State × Except (Block × Nat) (List Nat) :=
  s.rangeLocs core t a n acc [] (n / 65536 + 2)

/-! ### Mesh rings (13, R290, R293) -/

/-- Entry of context `c` in the mesh table. -/
def State.meshEntry (s : State) (c : BitVec 4) : Nat := natBits s.host.meshtab.toNat 47 9 * 512 + 32 * c.toNat
def State.meshField (s : State) (c : BitVec 4) (off n : Nat) : Nat := leNat (s.far.bytes (s.meshEntry c + off) n)
def State.meshValid (s : State) (c : BitVec 4) : Bool := c != 0 && s.meshField c 0x1C 4 % 2 == 1
def State.meshBase (s : State) (c : BitVec 4) : Nat := s.meshField c 0x00 8
def State.meshNslot (s : State) (c : BitVec 4) : Nat := s.meshField c 0x08 4
/-- Slot size Z. -/
def State.meshZ (s : State) (c : BitVec 4) : Nat :=
  (16 + 32 * s.meshField c 0x0C 2 + 4 * s.meshField c 0x0E 2 + 127) / 128 * 128

def isMeshLaunch (r : List Byte) : Bool := recGraphics r && !(recPinned r)

/-- The first byte of [a, a + size) that the strand may not write by R293. -/
def State.meshBad (s : State) (t : Strand) (a size : Nat) : Option Nat :=
  if t.mode != 0 || !(s.meshValid t.ctx) then none
  else
    let lo := s.meshBase t.ctx
    let z := s.meshZ t.ctx
    let hi := lo + z * s.meshNslot t.ctx
    let own : Nat × Nat :=
      match Table.get? s.launches t.launch with
      | some la =>
        if isMeshLaunch la.bytes && !t.spawned then
          let i := (la.meshFirst + t.ordinal) % s.meshNslot t.ctx
          (lo + z * i, lo + z * (i + 1))
        else (0, 0)
      | none => (0, 0)
    (locsFrom a size).find? fun b => decide (lo ≤ b ∧ b < hi) && !(decide (own.1 ≤ b ∧ b < own.2))

/-- A word of the mesh table entry of the strand's context that the test of R293 reads and cannot, for a write of `size` bytes at a
global address `a` in U mode (11, R252; log 81). -/
def State.meshDark (s : State) (t : Strand) (a size : Nat) : Option Nat :=
  if t.mode != 0 || t.ctx == 0 || size == 0 || decide (a < 0x1000000) then none
  else ((List.range 4).map fun i => s.meshEntry t.ctx + 8 * i).find? s.poisoned

/-- R293 lets the strand write [a, a + size). -/
def State.meshMay (s : State) (t : Strand) (a size : Nat) : Bool := (s.meshDark t a size).isNone && (s.meshBad t a size).isNone

/-! ### Loads (15, R314) -/

/-- The youngest entry of the strand's own buffers that covers a location. -/
def forwarded (buf : List BufEntry) (l : Nat) : Option Byte :=
  (buf.reverse.findSome? fun e => (e.cells.reverse.find? fun c => c.1 == l).map (·.2))

/-- The L1 with a line most recently used; a set holds four lines, and line n falls in set n mod 64 (R250 gives ways and size and
no index: log 73). -/
def l1Touch (l1 : List L1Line) (e : L1Line) : List L1Line :=
  let rest := l1.filter fun f => f.line != e.line
  let same := rest.filter fun f => f.line % 64 == e.line % 64
  let out := (same.drop 3).map (·.line)
  e :: rest.filter fun f => !(out.contains f.line)

/-- A line may be filled: it has no poisoned word, so that a later read of the word meets it (R252). -/
def State.mayFill (s : State) (line : Nat) : Bool := !((List.range 8).any fun i => s.poisoned (line * 64 + 8 * i))

/-- The bytes of line `line` as strand `sid` reads them through its core's L1 view, filled from the home on a miss (R314,
log 7). -/
def State.l1Line (s : State) (sid line : Nat) : State × List Byte :=
  let core := coreOf sid
  let uid := (s.strand sid).uid
  match (s.core core).l1.find? fun e => e.line == line with
  | some e =>
    -- what another strand of the core has drained into the line is read
    let s := s.lift fun f => f.core == core && f.uid != uid && f.loc / 64 == line
    (s.setCore core { s.core core with l1 := l1Touch (s.core core).l1 e }, e.bytes)
  | none =>
    let s := s.touch core uid (locsFrom (line * 64) 64)
    let bs := (s.seen core).bytes (line * 64) 64
    if s.mayFill line then (s.setCore core { s.core core with l1 := l1Touch (s.core core).l1 { line := line, bytes := bs } }, bs)
    else (s, bs)

/-- The location of a word that strand `sid` would read at the place and that cannot be read (check 6 of R258). -/
def State.loadBad (s : State) (sid : Nat) (p : Place) : Option Nat :=
  p.locs.find? fun l => (forwarded (s.strand sid).buf l).isNone && s.poisoned l &&
    (p.direct || !((s.core (coreOf sid)).l1.any fun e => e.line == l / 64))

/-- The bytes a single-copy atomic load of `sid` takes; a poisoned word that it reads from memory ends it with that
location. -/
def State.load (s : State) (sid : Nat) (p : Place) : State × Except Nat (List Byte) :=
  let buf := (s.strand sid).buf
  let core := coreOf sid
  match s.loadBad sid p with
  | some l => (s, .error l)
  | none =>
    if p.locs.all fun l => (forwarded buf l).isSome then (s, .ok (p.locs.filterMap fun l => forwarded buf l))
    else if p.direct then
      let s := s.touch core (s.strand sid).uid p.locs
      (s, .ok (p.locs.map fun l => (forwarded buf l).getD ((s.seen core).byte l)))
    else
      let r := s.l1Line sid (p.locs.headD 0 / 64)
      (r.1, .ok (p.locs.map fun l => (forwarded buf l).getD (r.2.getD (l % 64) blankByte)))

/-- Bytes read at their home for strand `sid`, past its buffers and the L1 view. -/
def State.homeLoad (s : State) (sid : Nat) (locs : List Nat) : State × Except Nat (List Byte) :=
  match locs.find? s.poisoned with
  | some l => (s, .error l)
  | none =>
    let s := s.touch (coreOf sid) 0 locs
    (s, .ok (locs.map (s.seen (coreOf sid)).byte))

/-- An address of the skewed window inside an enabled tile (R243). -/
def Strand.inTile (t : Strand) (a : Nat) : Bool :=
  decide (0x50000 ≤ a ∧ a < 0x90000) && skewInTile t.skew (a - 0x50000)

/-- The single-copy atomic parts of an access at `a`: `n` bytes each, in an enabled tile 4 (R239). -/
def Strand.parts (t : Strand) (n a : Nat) (home : Bool) (p : Place) : List Part :=
  let n := if t.inTile a then 4 else n
  if p.locs.length ≤ n then [{ va := a, place := p, home := home, got := none }]
  else (List.range (p.locs.length / n)).map fun i =>
    { va := a + n * i, place := { locs := (p.locs.drop (n * i)).take n, direct := p.direct }, home := home, got := none }

/-- The part of a read of `sid`, taken. -/
def State.loadPart (s : State) (sid : Nat) (p : Part) : State × Except Nat (List Byte) :=
  if p.home then s.homeLoad sid p.place.locs else s.load sid p.place

/-- The parts of `ps` that `pick` names by number are taken in turn, `i` being the number of the first; what stood before them
is `acc`. -/
def State.loadParts (s : State) (sid : Nat) (pick : Nat → Bool) (acc : List Part) (i : Nat) :
    List Part → State × Except Nat (List Part)
  | [] => (s, .ok acc)
  | p :: rest =>
    if p.got.isSome || !(pick i) then State.loadParts s sid pick (acc ++ [p]) (i + 1) rest
    else
      match s.loadPart sid p with
      | (s, .error l) => (s, .error l)
      | (s, .ok bs) => State.loadParts s sid pick (acc ++ [{ p with got := some bs }]) (i + 1) rest

/-- The current instruction meets a failure at `a`: it raises the cause, or the word that cannot be read ends or rolls back
(R252, R258, R390). -/
def State.meet (s : State) (b : Block) (a : Word) : Out :=
  match b with
  | .cause c => s.trap c a
  | .bad l => .next (s.uncorr (s.tagOf l) s.me.ctx s.me.launch)

/-- A read of an instruction: its address, its size, and the address it reports when it fails. -/
abbrev ReadAt := Word × Nat × Word

/-- How a batch of reads is made: in parts of `size` bytes, of 8 from the address `wide` on, in order, past the buffers and the L1
view; the residency bits it rests on (13, R308). -/
structure ReadKind where
  size : Nat
  wide : Option Nat
  ordered : Bool
  home : Bool
  bits : List (Nat × Nat)
deriving DecidableEq, Repr

def ReadKind.plain : ReadKind := { size := 8, wide := none, ordered := false, home := false, bits := [] }

/-- The size of the parts of a read at `a`. -/
def ReadKind.sizeAt (m : ReadKind) (a : Nat) : Nat := if m.wide.any fun w => decide (w ≤ a) then 8 else m.size

/-- The parts of reads of the current strand in turn, every check of each made (R258, R261); nothing but the first failure is
raised: a read that fails stops the instruction before a later one is checked (log 49). -/
def State.placeReads (s : State) (m : ReadKind) (as : List ReadAt) (ps : List Part) (k : State → List Part → Out) : Out :=
  match as with
  | [] => k s ps
  | (a, size, value) :: rest =>
    match s.access s.cur a size .read with
    | (s, .error b) => s.meet b value
    | (s, .ok p) =>
      match (if m.home then p.locs.find? s.poisoned else s.loadBad s.cur p) with
      | some l => s.meet (.bad l) value
      | none => State.placeReads s m rest (ps ++ s.me.parts (m.sizeAt a.toNat) a.toNat m.home p) k

/-- The parts of a read that the step takes (log 59). -/
def State.picks (s : State) (u : Underway) (i : Nat) : Bool :=
  let c := s.choice.cut >>> (64 * u.done.length) % 2 ^ 64
  s.choice.cut == 0 || (if u.ordered then decide (i < c) else c.testBit i)

/-- The current strand takes the parts that the step picks of those that are left; `k` goes on with the bytes once all have been
taken (R314). -/
def State.takeParts (s : State) (u : Underway) (k : State → List Byte → Out) : Out :=
  match s.loadParts s.cur (s.picks u) [] 0 u.parts with
  | (s, .error l) => s.meet (.bad l) 0
  | (s, .ok ps) =>
    if ps.all fun p => p.got.isSome then k s (ps.filterMap (·.got)).flatten
    else .next (s.setMe { s.me with mid := some ({ u with parts := ps }.bound (s.seen s.myCore) s.ftime) })

/-- Tokens of an access at SCALE 256 (05, R100): local store 5, scratchpad 1, global memory 4 for each mesh flit. -/
def State.accessTokens (s : State) (a : Word) : Nat :=
  if 0x100000 ≤ a.toNat ∧ a.toNat < 0x120000 then 5
  else if 0x10000 ≤ a.toNat ∧ a.toNat < 0x90000 then 1
  else if 0x1000000 ≤ a.toNat ∧ a.toNat < 2 ^ 48 then 4 * Config.accessFlits s.turnNo
  else 0

/-- The reads of a batch but the first, whose addresses rest on what was read before, are charged as they are made; those of the first
are with the issue. -/
def State.chargeReads (s : State) (done : List (List Byte)) (as : List ReadAt) : State :=
  if done.isEmpty then s else s.spend s.myCore ((as.map fun a => s.accessTokens a.1).sum)

/-- The next batch of reads of the current instruction, after those that gave `done`; `u` is what it stands in from an earlier
step. Texels may be read no longer than the residency bits of their level let them (13, R308). -/
def State.batch (s : State) (u : Option Underway) (done : List (List Byte)) (m : ReadKind) (as : List ReadAt)
    (k : State → List Byte → Out) : Out :=
  let by' : Option Int := u.bind fun v => if v.done.length + 1 = done.length && v.bits == m.bits then v.until' else none
  let start : Out := s.placeReads m as [] fun s ps =>
    let u : Underway := { no := s.seqNo, done := done, parts := ps, ordered := m.ordered, bits := m.bits, until' := by' }
    State.takeParts ({ s with seqNo := s.seqNo + 1 }.chargeReads done as) u k
  match u with
  | none => start
  | some u =>
    match u.done[done.length]? with
    | some bs => k s bs
    | none => if u.done.length = done.length then s.takeParts u k else start

/-- The current strand with no read under way, and the one that was. -/
def State.unmid (s : State) : State × Option Underway :=
  match s.me.mid with
  | some u => (s.setMe { s.me with mid := none }, some u)
  | none => (s, none)

/-- The current strand makes the reads, all checks before the first access (R258, R261); a read that is under way goes on with
the parts left. -/
def State.readAll (s : State) (m : ReadKind) (as : List ReadAt) (k : State → List Byte → Out) : Out :=
  s.unmid.1.batch s.unmid.2 [] m as k

/-- The current strand reads `size` bytes at `a`, or raises what R258 says; `k` goes on with them. -/
def State.reading (s : State) (a : Word) (size : Nat) (k : State → List Byte → Out) : Out :=
  s.readAll ReadKind.plain [(a, size, a)] k

/-- The 16-byte reads of a record at `base`, `n` of them: a failure has the record's address. -/
def recordReads (base : Word) (n : Nat) : List ReadAt :=
  (List.range n).map fun i => (base + BitVec.ofNat 64 (16 * i), 16, base)

/-- The current strand reads a record of `n` parts of 16 bytes, each field of `size` bytes single-copy atomic (R235, R300). -/
def State.readRecord (s : State) (size : Nat) (base : Word) (n : Nat) (k : State → List Byte → Out) : Out :=
  s.readAll { ReadKind.plain with size := size } (recordReads base n) k

/-! ### Stores (R315) -/

/-- The test of R293 over the ranges that the current instruction writes; `k` goes on. -/
def State.meshTest (s : State) (ranges : List (Nat × Nat)) (k : Out) : Out :=
  match ranges.findSome? fun r => s.meshDark s.me r.1 r.2 with
  | some l => s.meet (.bad l) 0
  | none =>
    match ranges.findSome? fun r => s.meshBad s.me r.1 r.2 with
    | some b => s.trap .meshbound (BitVec.ofNat 64 b)
    | none => k

/-- The current strand may write `size` bytes at `a`, or raises what R258 and R293 say; `k` goes on with the place. -/
def State.writing (s : State) (a : Word) (size : Nat) (acc : Acc) (k : State → List Nat → Out) : Out :=
  match s.access s.cur a size acc with
  | (s, .error b) => s.meet b a
  | (s, .ok p) => s.meshTest [(a.toNat, size)] (k s p.locs)

/-- A new entry in the buffer of the current hue, of a store to the addresses `vas`. -/
def Strand.pushEntry (t : Strand) (seq : Nat) (vas : List Nat) (cells : List Host.Cell) : Strand :=
  { t with buf := t.buf ++ [{ seq := seq, hue := t.hue, vas := vas, cells := cells, owed := 0 }] }

/-- The entries of strand `uid` that some party does not read yet: for such a party they take places in its buffers still. -/
def State.hiddenOf (s : State) (uid : Nat) : Nat := ((s.early.filter fun e => e.uid == uid).map (·.seq)).dedup.length

/-- The current strand buffers a store and completes with registers as in `t` otherwise. -/
def State.buffer (s : State) (t : Strand) (vas : List Nat) (cells : List Host.Cell) : Out :=
  let s := if 16 ≤ t.buf.length + s.hiddenOf t.uid then s.liftOwn t.uid else s
  State.finish { s with seqNo := s.seqNo + 1 } (t.pushEntry s.seqNo vas cells)

/-- All 16 entries are taken (R314). -/
def Strand.bufFull (t : Strand) : Bool := decide (16 ≤ t.buf.length)

/-- The writer that a strand is (R251, R393). -/
def Strand.writer (t : Strand) (sid : Nat) : Writer :=
  { Writer.plain t.ctx with launch := some t.launch, core := coreOf sid, uid := t.uid }

/-- Update the matching lines of a core's L1 view (R315). -/
def l1Update (l1 : List L1Line) (cells : List Host.Cell) : List L1Line :=
  l1.map fun e => { e with bytes := (List.range 64).zipWith (fun i b =>
    ((cells.reverse.find? fun c => c.1 == e.line * 64 + i).map (·.2)).getD b) e.bytes }

/-- L1 lines without those of `locs`. -/
def l1Without (l1 : List L1Line) (locs : List Nat) : List L1Line := l1.filter fun e => !(locs.any fun l => l / 64 == e.line)

/-- The write of entry `e` of strand `sid`: toward the scope the step says, when the entry owes no wider one and the write may be
hidden from the rest (R319; log 18). -/
def State.entryWriter (s : State) (sid : Nat) (e : BufEntry) : Writer :=
  let t := s.strand sid
  let w : Writer := { t.writer sid with seq := some e.seq, hue := e.hue, vas := e.vas }
  let near := { w with toward := s.choice.toward }
  if decide (e.owed ≤ s.choice.toward) && s.mayHide near e.cells then near else w

/-- The entry `e` of strand `sid` is performed: bytes in the coherence order, the core's own L1 line updated, releases
completed; a retired strand whose last entry it was frees its slot (R315, R401). -/
def State.performEntry (s : State) (sid : Nat) (e : BufEntry) : State :=
  let t := s.strand sid
  let w := s.entryWriter sid e
  let s := s.setStrand sid { t with buf := t.buf.filter fun b => b.seq != e.seq }
  let kept := e.cells.filter fun c => !(s.inOwnMap c.1)
  let core := coreOf sid
  let s := if e.cells.all fun c => isNear c.1 then s
    else s.setCore core { s.core core with l1 := l1Update (s.core core).l1 kept }
  (s.write w e.cells).settle

/-- Remove the lines of global cells from a core's L1 view (R322, R323). -/
def State.dropLines (s : State) (core : Nat) (locs : List Nat) : State :=
  if locs.all isNear then s
  else s.setCore core { s.core core with l1 := l1Without (s.core core).l1 locs }

/-! ### Instruction fetch (06, R119-R123) -/

/-- Four bytes of a line as a word. -/
def lineWord (bs : List Byte) (off : Nat) : BitVec 32 := BitVec.ofNat 32 (fieldAt bs off 4)

/-- The word at offset `off` of an instruction-cache line. -/
def ILine.word (e : ILine) (off : Nat) : FetchRes :=
  if e.bad.contains (off - off % 8) then .bad (e.phys + off) else .word (lineWord e.bytes off)

/-- The word at `a` as strand `sid` would fetch it now (R119), none where its line is not in the instruction cache. -/
def State.fetchAt (s : State) (sid : Nat) (a : Word) : State × Option FetchRes :=
  let t := s.strand sid
  let core := coreOf sid
  if a.toNat < 0x8000 then
    let l := tcmLoc core a.toNat
    (s, some (if s.poisoned l then .bad l else .word (BitVec.ofNat 32 (leNat (s.mem.bytes l 4)))))
  else if a.toNat < 0x1000000 then (s, some (.fault .access))
  else
    match s.translate core t.ctx (t.mode == 0) a.toNat .exec with
    | (s, .error (.bad l)) => (s, some (.bad l))
    | (s, .error (.cause c)) => (s, some (.fault c))
    | (s, .ok _) =>
      (s, ((s.core core).icache.find? fun e => e.ctx == t.ctx && e.line == a.toNat / 64).map fun e => e.word (a.toNat % 64))

/-- A word that a captured loop body or the fetch buffer holds (R121, R123, R154). -/
def Strand.held (t : Strand) (a : Word) : Option FetchRes :=
  match (if t.inLoop then t.loopBuf.find? fun f => f.addr == a else none) with
  | some f => some f.res
  | none => (t.fbuf.find? fun f => f.addr == a).map (·.res)

/-- Fetch the word at the pc of strand `sid`: from the loop buffer, the fetch buffer, or its source. None on a miss. -/
def State.fetch (s : State) (sid : Nat) : State × Option FetchRes :=
  match (s.strand sid).held (s.strand sid).pc with
  | some r => (s, some r)
  | none => s.fetchAt sid (s.strand sid).pc

/-- Fill the fetch buffer of strand `sid` with the words from `a`, `n` at most, up to the first that misses (R121). -/
def State.readAhead (s : State) (sid : Nat) (a : Word) : Nat → State
  | 0 => s
  | n + 1 =>
    if ((s.strand sid).fbuf.any fun f => f.addr == a) then State.readAhead s sid (a + 4) n
    else
      match s.fetchAt sid a with
      | (s, none) => s
      | (s, some r) =>
        let t := s.strand sid
        State.readAhead (s.setStrand sid { t with fbuf := t.fbuf ++ [{ addr := a, res := r }] }) sid (a + 4) n

/-- The word that is issued is kept for the later trips of a loop body (R154). -/
def Strand.capture (t : Strand) (w : BitVec 32) : Strand :=
  if t.inLoop && !(t.loopBuf.any fun f => f.addr == t.pc) then
    { t with loopBuf := t.loopBuf ++ [{ addr := t.pc, res := .word w }] }
  else t

end Sys2Proof.Machine
end

