-- ==== Sys2Proof/Machine/Operands.lean ====
section
/-! DEFINITION. The operand forms: immediates, addresses, branch targets, and the checks that belong to a word
(06, R127, R135). -/

namespace Sys2Proof.Machine

/-! ### Immediates (R127, R151) -/

/-- A signed immediate of the I and M formats. -/
def sext {n : Nat} (i : BitVec n) : Word := i.signExtend 64
/-- A zero-extended immediate. -/
def zext {n : Nat} (i : BitVec n) : Word := i.zeroExtend 64
/-- A word offset: count of words times 4 (R127). -/
def wordOff {n : Nat} (i : BitVec n) : Word := i.signExtend 64 <<< 2

/-! ### Addresses (11, R259) -/

/-- Address of an M-format access: xa with post-increment, else xa + offset. -/
def Strand.memAddr (t : Strand) (a : XReg) (pi : Bool) (o : BitVec 12) : Word :=
  if pi then t.xr a else t.xr a + sext o
/-- The post-increment of xa, after the access. -/
def Strand.postInc (t : Strand) (a : XReg) (pi : Bool) (o : BitVec 12) : Strand :=
  if pi then t.setX a (t.xr a + sext o) else t

/-- Size of a load width (06, R130). -/
def ldSize : LdWidth → Nat
  | .b => 1 | .h => 2 | .w => 4 | .d => 8 | .bz => 1 | .hz => 2 | .wz => 4
/-- The loaded value, extended (R130). -/
def ldExtend : LdWidth → Nat → Word
  | .b, n => (BitVec.ofNat 8 n).signExtend 64
  | .h, n => (BitVec.ofNat 16 n).signExtend 64
  | .w, n => (BitVec.ofNat 32 n).signExtend 64
  | .d, n => BitVec.ofNat 64 n
  | .bz, n => (BitVec.ofNat 8 n).zeroExtend 64
  | .hz, n => (BitVec.ofNat 16 n).zeroExtend 64
  | .wz, n => (BitVec.ofNat 32 n).zeroExtend 64
/-- Size of a store width. -/
def stSize : StWidth → Nat
  | .b => 1 | .h => 2 | .w => 4 | .d => 8
/-- Size of an AMO width. -/
def amoSize : AmoWidth → Nat
  | .w => 4 | .d => 8

/-! ### Bit builders -/

/-- The number whose bit `i` is `f i`, for i below `n`. -/
def ofBits (f : Nat → Bool) : Nat → Nat
  | 0 => 0
  | n + 1 => ofBits f n + if f n then 2 ^ n else 0

/-- How many of the bits below `n` `f` sets. -/
def countBits (f : Nat → Bool) : Nat → Nat
  | 0 => 0
  | n + 1 => countBits f n + if f n then 1 else 0

/-- Position of the highest set bit plus one, 0 for 0. -/
def sigBits (n : Nat) : Nat := if n = 0 then 0 else Nat.log2 n + 1

/-- Position of the lowest set bit at or above `i`, `n` when there is none below it; `f` counts the positions left. -/
def lowBit (w : Word) (i : Nat) : Nat → Nat
  | 0 => i
  | f + 1 => if w.getLsbD i then i else lowBit w (i + 1) f

/-! ### The checks of a word (06, R135) -/

/-- The word of an instruction as a trap value. -/
def wordOf (i : Instr) : Word := (encode i).zeroExtend 64

/-- The form needs K or F mode (R135, order 3). -/
def State.inK (s : State) (i : Instr) (k : Out) : Out := if s.me.mode = 0 then s.trap .priv (wordOf i) else k

/-- The form may not stand in a captured loop body (R135, order 4). -/
def State.offLoop (s : State) (i : Instr) (k : Out) : Out := if s.me.inLoop then s.trap .loopbody (wordOf i) else k

end Sys2Proof.Machine
end

