-- ==== Sys2Proof/Machine/Flags.lean ====
section
/-! DEFINITION. Floating point to the bit: formats, exact values, the one rounding, and the event flags
(07, R143, R157-R162; 08, R171-R173, R179, R181, R182). Every value is an exact dyadic number until it is rounded. -/

namespace Sys2Proof.Machine

/-! ### Events (R143) -/

abbrev Events := BitVec 5
def evNV : Events := 1
def evDZ : Events := 2
def evOF : Events := 4
def evUF : Events := 8
def evNX : Events := 16

/-- Rounding modes (R143). -/
inductive Rm | rne | rmm | rup | rdn | rtz
deriving DecidableEq, Repr

def rmOf (f : BitVec 3) : Rm :=
  match f.toNat with
  | 1 => .rmm | 2 => .rup | 3 => .rdn | 4 => .rtz | _ => .rne

/-! ### Formats -/

/-- A binary format: exponent and fraction widths. -/
structure Fmt where
  eb : Nat
  mb : Nat
deriving DecidableEq, Repr

def fmtH : Fmt := { eb := 5, mb := 10 }
def fmtB : Fmt := { eb := 8, mb := 7 }
def fmtS : Fmt := { eb := 8, mb := 23 }
def fmtD : Fmt := { eb := 11, mb := 52 }
def fmtA56 : Fmt := { eb := 11, mb := 44 }
def fmtW19 : Fmt := { eb := 8, mb := 10 }
def fmtS20 : Fmt := { eb := 8, mb := 12 }

def Fmt.bias (f : Fmt) : Int := 2 ^ (f.eb - 1) - 1
/-- Exponent of the least significant bit of a subnormal. -/
def Fmt.qmin (f : Fmt) : Int := 1 - f.bias - f.mb
def Fmt.signBit (f : Fmt) : Nat := 2 ^ (f.eb + f.mb)
def Fmt.infBits (f : Fmt) : Nat := (2 ^ f.eb - 1) * 2 ^ f.mb
/-- The canonical quiet NaN (R158, R189). -/
def Fmt.nan (f : Fmt) : Nat := f.infBits + 2 ^ (f.mb - 1)

/-- A value: NaN (signalling or not), infinity, or (−1)^neg · m · 2^e. -/
inductive Fv
  | nan (signalling : Bool)
  | inf (neg : Bool)
  | fin (neg : Bool) (m : Nat) (e : Int)
deriving DecidableEq, Repr

/-- The value of the bits `w` in format `f`. -/
def Fmt.decode (f : Fmt) (w : Nat) : Fv :=
  let neg := w / f.signBit % 2 = 1
  let e := w / 2 ^ f.mb % 2 ^ f.eb
  let m := w % 2 ^ f.mb
  if e = 2 ^ f.eb - 1 then (if m = 0 then .inf neg else .nan (decide (m < 2 ^ (f.mb - 1))))
  else if e = 0 then .fin neg m f.qmin
  else .fin neg (m + 2 ^ f.mb) (f.qmin + (e - 1 : Nat))

def Fv.isNan : Fv → Bool
  | .nan _ => true
  | _ => false
def Fv.isSnan : Fv → Bool
  | .nan s => s
  | _ => false
def Fv.isInf : Fv → Bool
  | .inf _ => true
  | _ => false
def Fv.isZero : Fv → Bool
  | .fin _ m _ => m == 0
  | _ => false
def Fv.neg? : Fv → Bool
  | .nan _ => false
  | .inf n => n
  | .fin n _ _ => n
def Fv.negate : Fv → Fv
  | .nan s => .nan s
  | .inf n => .inf !n
  | .fin n m e => .fin (!n) m e

/-! ### The one rounding -/

/-- Whether the kept part `k` goes up: `rest` of 2 ^ `sh` parts is dropped, and more when `sticky`. -/
def roundUp (rm : Rm) (neg : Bool) (k rest sh : Nat) (sticky : Bool) : Bool :=
  let inexact := rest != 0 || sticky
  match rm with
  | .rne =>
    if sh = 0 then false
    else decide (2 ^ (sh - 1) < rest) || (rest == 2 ^ (sh - 1) && (sticky || k % 2 == 1))
  | .rmm => if sh = 0 then false else decide (2 ^ (sh - 1) ≤ rest)
  | .rup => inexact && !neg
  | .rdn => inexact && neg
  | .rtz => false

/-- m · 2^e (with `sticky` a little more) as a count of 2^q, rounded, and whether it was inexact. -/
def quantize (rm : Rm) (neg : Bool) (m : Nat) (e q : Int) (sticky : Bool) : Nat × Bool :=
  if q ≤ e then (m * 2 ^ (e - q).toNat, sticky)
  else
    let sh := (q - e).toNat
    let k := m / 2 ^ sh
    let rest := m % 2 ^ sh
    (k + (if roundUp rm neg k rest sh sticky then 1 else 0), rest != 0 || sticky)

/-- (−1)^neg · m · 2^e rounded once to format `f` (R157): tininess is detected after rounding, UF needs an inexact
result. With `sticky`, `m` has at least three bits below the rounding position. -/
def Fmt.round (f : Fmt) (rm : Rm) (neg : Bool) (m : Nat) (e : Int) (sticky : Bool) : Nat × Events :=
  let sgn := if neg then f.signBit else 0
  if m = 0 && !sticky then (sgn, 0)
  else
    let top : Int := e + (sigBits m : Nat) - 1
    let q := max (top - f.mb) f.qmin
    let r := quantize rm neg m e q sticky
    let enc := (q - f.qmin).toNat * 2 ^ f.mb + r.1
    if f.infBits ≤ enc then
      let toInf : Bool := match rm with
        | .rne | .rmm => true
        | .rup => !neg
        | .rdn => neg
        | .rtz => false
      (sgn + (if toInf then f.infBits else f.infBits - 1), evOF ||| evNX)
    else
      let emin := f.qmin + f.mb
      let tiny : Bool :=
        if emin ≤ top then false
        else if top < emin - 1 then true
        else decide ((quantize rm neg m e (top - f.mb) sticky).1 < 2 ^ (f.mb + 1))
      (sgn + enc, (if r.2 then evNX else 0) ||| (if r.2 && tiny then evUF else 0))

/-! ### Exact sums -/

/-- A signed dyadic number n · 2^e. -/
structure Dy where
  n : Int
  e : Int
deriving DecidableEq, Repr

def Dy.zero : Dy := { n := 0, e := 0 }
def Dy.add (a b : Dy) : Dy :=
  if a.e ≤ b.e then { n := a.n + b.n * 2 ^ (b.e - a.e).toNat, e := a.e }
  else { n := a.n * 2 ^ (a.e - b.e).toNat + b.n, e := b.e }
def Dy.mul (a b : Dy) : Dy := { n := a.n * b.n, e := a.e + b.e }
def Dy.negate (a : Dy) : Dy := { a with n := -a.n }
def Dy.sub (a b : Dy) : Dy := a.add b.negate
def Dy.lt (a b : Dy) : Bool := decide ((a.sub b).n < 0)
def Dy.le (a b : Dy) : Bool := decide ((a.sub b).n ≤ 0)
def Dy.abs (a : Dy) : Dy := { a with n := a.n.natAbs }
def Dy.ofInt (n : Int) : Dy := { n := n, e := 0 }

def Fv.dy : Fv → Dy
  | .fin neg m e => { n := if neg then -(m : Int) else m, e := e }
  | _ => Dy.zero

/-- A dyadic number rounded to `f`; a zero is +0. -/
def Fmt.roundDy (f : Fmt) (rm : Rm) (x : Dy) : Nat × Events :=
  f.round rm (decide (x.n < 0)) x.n.natAbs x.e false

/-- The NaN result and its NV for operands some of which are NaN. -/
def Fmt.nanOf (f : Fmt) (ops : List Fv) : Nat × Events := (f.nan, if ops.any Fv.isSnan then evNV else 0)

/-- The zero an exact zero sum gives: −0 in RDN, else +0 (R197). -/
def Fmt.zeroSum (f : Fmt) (rm : Rm) : Nat × Events := (if rm = .rdn then f.signBit else 0, 0)

/-- The product of two values that are no NaN: none for ∞ · 0. -/
def Fv.mul : Fv → Fv → Option Fv
  | .inf n, .fin n' m _ => if m = 0 then none else some (.inf (n != n'))
  | .fin n m _, .inf n' => if m = 0 then none else some (.inf (n != n'))
  | .inf n, .inf n' => some (.inf (n != n'))
  | .fin n m e, .fin n' m' e' => some (.fin (n != n') (m * m') (e + e'))
  | _, _ => none

/-- Opposite infinities among the terms of a sum. -/
def opposed (ts : List Fv) : Bool := ts.contains (.inf false) && ts.contains (.inf true)

/-- The exact sum of values that are no NaN, rounded once (R197, R200): none of the terms may be NaN here. Opposite
infinities give NaN with NV; an exact zero is −0 when every term is −0, and any other exact zero the zero of `rm`. -/
def Fmt.sumRound (f : Fmt) (rm : Rm) (ts : List Fv) : Nat × Events :=
  if opposed ts then (f.nan, evNV)
  else if ts.contains (.inf false) then (f.infBits, 0)
  else if ts.contains (.inf true) then (f.signBit + f.infBits, 0)
  else
    let x := ts.foldl (fun a t => a.add t.dy) Dy.zero
    if x.n = 0 then
      (if ts.all (fun t => t.isZero && t.neg?) then (f.signBit, 0) else f.zeroSum rm)
    else f.roundDy rm x

/-- The sum of two values that are no NaN as IEEE 754 adds them (R157): two zeros of one sign keep it in every mode
(log 19). -/
def Fmt.sumTwo (f : Fmt) (rm : Rm) (a b : Fv) : Nat × Events :=
  if a.isZero && b.isZero && !a.neg? && !b.neg? then (0, 0) else f.sumRound rm [a, b]

/-! ### The operations (R159, R162) -/

def Fmt.addF (f : Fmt) (rm : Rm) (a b : Fv) : Nat × Events :=
  if a.isNan || b.isNan then f.nanOf [a, b] else f.sumTwo rm a b

def Fmt.subF (f : Fmt) (rm : Rm) (a b : Fv) : Nat × Events := f.addF rm a b.negate

/-- A value that is no NaN, rounded. -/
def Fmt.ofFv (f : Fmt) (rm : Rm) : Fv → Nat × Events
  | .nan _ => (f.nan, 0)
  | .inf n => ((if n then f.signBit else 0) + f.infBits, 0)
  | .fin n m e => f.round rm n m e false

def Fmt.mulF (f : Fmt) (rm : Rm) (a b : Fv) : Nat × Events :=
  if a.isNan || b.isNan then f.nanOf [a, b]
  else
    match a.mul b with
    | none => (f.nan, evNV)
    | some p => f.ofFv rm p

/-- a·b + c with one rounding; ∞ · 0 raises NV even beside a quiet NaN c (R162, R195). -/
def Fmt.fmaF (f : Fmt) (rm : Rm) (a b c : Fv) : Nat × Events :=
  if a.isNan || b.isNan then f.nanOf [a, b, c]
  else
    match a.mul b with
    | none => (f.nan, evNV)
    | some p => if c.isNan then f.nanOf [c] else f.sumTwo rm p c

/-- A quotient of positive integers with at least `bits` significant bits: m · 2^(−k), and whether something is left. -/
def quotient (a b bits : Nat) : Nat × Nat × Bool :=
  let k := bits + sigBits b - sigBits a + 1
  (a * 2 ^ k / b, k, a * 2 ^ k % b != 0)

def Fmt.divF (f : Fmt) (rm : Rm) (a b : Fv) : Nat × Events :=
  let neg := a.neg? != b.neg?
  let sgn := if neg then f.signBit else 0
  match a, b with
  | .inf _, .inf _ => (f.nan, evNV)
  | .inf _, .fin _ _ _ => (sgn + f.infBits, 0)
  | .fin _ _ _, .inf _ => (sgn, 0)
  | .fin _ m e, .fin _ m' e' =>
    if m' = 0 then (if m = 0 then (f.nan, evNV) else (sgn + f.infBits, evDZ))
    else if m = 0 then (sgn, 0)
    else
      let r := quotient m m' (f.mb + 4)
      f.round rm neg r.1 (e - e' - r.2.1) r.2.2
  | _, _ => f.nanOf [a, b]

/-- The integer square root, built bit by bit from bit `i` − 1 down. -/
def isqrt (n : Nat) : Nat → Nat → Nat
  | 0, r => r
  | i + 1, r => isqrt n i (if (r + 2 ^ i) * (r + 2 ^ i) ≤ n then r + 2 ^ i else r)

/-- √(m · 2^e) with at least `bits` bits: r · 2^x, and whether something is left. -/
def sqrtParts (m : Nat) (e : Int) (bits : Nat) : Nat × Int × Bool :=
  let k0 := 2 * bits + 2 - sigBits m
  let k := if (e - k0) % 2 = 0 then k0 else k0 + 1
  let n := m * 2 ^ k
  let r := isqrt n (sigBits n / 2 + 1) 0
  (r, (e - k) / 2, r * r != n)

def Fmt.sqrtF (f : Fmt) (rm : Rm) (a : Fv) : Nat × Events :=
  match a with
  | .nan _ => f.nanOf [a]
  | .inf n => if n then (f.nan, evNV) else (f.infBits, 0)
  | .fin n m e =>
    if m = 0 then (if n then f.signBit else 0, 0)
    else if n then (f.nan, evNV)
    else
      let r := sqrtParts m e (f.mb + 4)
      f.round rm false r.1 r.2.1 r.2.2

/-- a < b of values that are no NaN; −0 and +0 are equal. -/
def Fv.lt : Fv → Fv → Bool
  | .inf true, .inf true => false
  | .inf true, _ => true
  | .inf false, _ => false
  | _, .inf n => !n
  | a, b => a.dy.lt b.dy

/-- a = b of values that are no NaN. -/
def Fv.eq (a b : Fv) : Bool := !(a.lt b) && !(b.lt a)

/-- `a` comes before `b` for `fmin`: −0 below +0 (R159). -/
def Fv.below (a b : Fv) : Bool := a.lt b || (a.eq b && a.neg? && !b.neg?)

/-- minimumNumber or maximumNumber on bits (R159). -/
def Fmt.pick (f : Fmt) (least : Bool) (x y : Nat) : Nat × Events :=
  let a := f.decode x
  let b := f.decode y
  let ev : Events := if a.isSnan || b.isSnan then evNV else 0
  if a.isNan && b.isNan then (f.nan, ev)
  else if a.isNan then (y, ev)
  else if b.isNan then (x, ev)
  else if least then (if b.below a then (y, ev) else (x, ev))
  else (if a.below b then (y, ev) else (x, ev))

/-- `eq`, `lt`, `le` with their NV (R159, R205). -/
inductive Fcmp | eq | lt | le
deriving DecidableEq, Repr

def fcompare (c : Fcmp) (a b : Fv) : Bool × Events :=
  if a.isNan || b.isNan then
    (false, if a.isSnan || b.isSnan || c != .eq then evNV else 0)
  else
    (match c with
     | .eq => a.eq b
     | .lt => a.lt b
     | .le => !(b.lt a), 0)

/-! ### Conversions (R161, R201) -/

/-- (−1)^neg · m · 2^e rounded to an integer, and whether it was inexact. -/
def roundInt (rm : Rm) (neg : Bool) (m : Nat) (e : Int) : Int × Bool :=
  let r := quantize rm neg m e 0 false
  (if neg then -(r.1 : Int) else r.1, r.2)

/-- To an integer of [lo, hi]: a NaN gives hi; beyond the range saturates; both raise NV and no NX. -/
def toIntF (rm : Rm) (lo hi : Int) (a : Fv) : Int × Events :=
  match a with
  | .nan _ => (hi, evNV)
  | .inf n => (if n then lo else hi, evNV)
  | .fin n m e =>
    let r := roundInt rm n m e
    if r.1 < lo then (lo, evNV) else if hi < r.1 then (hi, evNV) else (r.1, if r.2 then evNX else 0)

/-- From an integer. -/
def Fmt.ofIntF (f : Fmt) (rm : Rm) (n : Int) : Nat × Events := f.roundDy rm { n := n, e := 0 }

/-- Between formats: NV only for a signalling NaN. -/
def Fmt.convert (f : Fmt) (rm : Rm) (a : Fv) : Nat × Events :=
  if a.isNan then f.nanOf [a] else f.ofFv rm a

/-- The class word (R159). -/
def Fmt.classWord (f : Fmt) (w : Nat) : Nat :=
  let e := w / 2 ^ f.mb % 2 ^ f.eb
  let k := match f.decode w with
    | .nan s => if s then 5 else 4
    | .inf _ => 3
    | .fin _ m _ => if m = 0 then 0 else if e = 0 then 1 else 2
  2 ^ k + if w / f.signBit % 2 = 1 then 256 else 0

/-! ### Fixed roundings of other chapters -/

/-- `round_a56` of an exact value (08, R182). -/
def roundA56 (x : Dy) : Nat := (fmtA56.roundDy .rne x).1

/-- Round to nearest integer, ties to even. -/
def roundNe (x : Dy) : Int := (roundInt .rne (decide (x.n < 0)) x.n.natAbs x.e).1

end Sys2Proof.Machine
end

