-- ==== Sys2Proof/Machine/Atomic.lean ====
section
/-! DEFINITION. Atomics, fences and waits on a word or a counter (11, R263-R265, R271; 12, R288; 15, R321, R322). -/

namespace Sys2Proof.Machine

/-! ### AMO and `cas` -/

def ordAcquires : OrdKind → Bool
  | .acq | .acqrel => true
  | _ => false
/-- An AMO of kind `k` at scope `sc` carries a release. One at strand scope has an effect on no other party (R319), and the strand itself
reads its older stores in its buffers all the same (R314): it is as if it were removed, and orders nothing (log 18). -/
def ordReleases (k : OrdKind) (sc : Scope) : Bool :=
  sc != .strand && match k with
    | .rel | .acqrel => true
    | _ => false

/-- Entries of the strand that cover one of the locations. -/
def Strand.covering (t : Strand) (locs : List Nat) : List Nat :=
  (t.buf.filter fun e => e.cells.any fun c => locs.contains c.1).map (·.seq)

/-- The launch of the current strand has SSTEP set (R265). -/
def State.sstep (s : State) : Bool := (Table.get? s.launches s.me.launch).any fun la => recSstep la.bytes

/-- Steps 3 and 4 of R322 on checked locations: `f` gives the value to write and the value of xd from the old value. Whatever has
been written there is read by all first. -/
def State.amoStep (s : State) (d : XReg) (locs : List Nat) (k : OrdKind) (sc : Scope) (f : Nat → Option Nat × Word) : Out :=
  let s := s.lift fun e => locs.contains e.loc
  let r := f (leNat (locs.map s.mem.byte))
  let s := match r.1 with
    | some n => s.write (s.me.writer s.cur) (locs.zip (leBytes n locs.length))
    | none => s
  let s := s.dropLines s.myCore locs
  let s := if ordAcquires k then s.acquire s.myCore sc else s
  s.finish (s.me.setX d r.2)

/-- An AMO of word `i` at `a` (R263, R265, R322). A word that cannot be read is met at step 3, when what has to drain before it has: an
older entry may write it whole. An address whose bits 63:48 are not zero counts as global (R258 checks them of a global access;
log 75). -/
def State.amo (s : State) (i : Instr) (d : XReg) (a : Word) (wd : AmoWidth) (k : OrdKind) (sc : Scope)
    (f : Nat → Option Nat × Word) : Out :=
  if s.sstep && decide (0x1000000 ≤ a.toNat) then s.trap .illegal (wordOf i)
  else
    match s.access s.cur a (amoSize wd) .both with
    | (s, .error b) => s.meet b a
    | (s, .ok p) =>
      if wd = .d ∧ s.me.inTile a.toNat then s.trap .access a
      else
        let bad := p.locs.find? s.poisoned
        let r := if ordReleases k sc then s.release s.cur allHues (scopeNo sc) else (s, s.me.covering p.locs)
        match (if r.2.isEmpty then bad else none) with
        | some l => s.meet (.bad l) a
        | none => s.meshTest (if bad.isSome then [] else [(a.toNat, amoSize wd)])
            (if r.2.isEmpty then r.1.amoStep d p.locs k sc f else r.1.wait (.drain r.2))

/-- The value an AMO or `cas` leaves in xd: sign-extended for .w. -/
def amoOld (wd : AmoWidth) (n : Nat) : Word :=
  match wd with
  | .w => (BitVec.ofNat 32 n).signExtend 64
  | .d => BitVec.ofNat 64 n

/-- An operand of width `wd`. -/
def amoArg (wd : AmoWidth) (w : Word) : Nat := w.toNat % 2 ^ (8 * amoSize wd)

/-- The signed number an operand holds. -/
def amoInt (wd : AmoWidth) (n : Nat) : Int :=
  if 2 ^ (8 * amoSize wd - 1) ≤ n then (n : Int) - 2 ^ (8 * amoSize wd) else n

/-- An AMO whose new value is `op old b`. -/
def amoInstr (i : Instr) (op : Nat → Nat → Nat) (d a b : XReg) (k : OrdKind) (sc : Scope) (wd : AmoWidth) (s : State) :
    Out :=
  let y := amoArg wd (s.me.xr b)
  s.amo i d (s.me.xr a) wd k sc fun old => (some (op old y), amoOld wd old)

def execAmoadd (d a b : XReg) (k : OrdKind) (sc : Scope) (wd : AmoWidth) (s : State) : Out :=
  amoInstr (.amoadd d a b k sc wd) (fun x y => x + y) d a b k sc wd s
def execAmoand (d a b : XReg) (k : OrdKind) (sc : Scope) (wd : AmoWidth) (s : State) : Out :=
  amoInstr (.amoand d a b k sc wd) (fun x y => x &&& y) d a b k sc wd s
def execAmoor (d a b : XReg) (k : OrdKind) (sc : Scope) (wd : AmoWidth) (s : State) : Out :=
  amoInstr (.amoor d a b k sc wd) (fun x y => x ||| y) d a b k sc wd s
def execAmoxor (d a b : XReg) (k : OrdKind) (sc : Scope) (wd : AmoWidth) (s : State) : Out :=
  amoInstr (.amoxor d a b k sc wd) (fun x y => x ^^^ y) d a b k sc wd s
def execAmomin (d a b : XReg) (k : OrdKind) (sc : Scope) (wd : AmoWidth) (s : State) : Out :=
  amoInstr (.amomin d a b k sc wd) (fun x y => if amoInt wd y < amoInt wd x then y else x) d a b k sc wd s
def execAmomax (d a b : XReg) (k : OrdKind) (sc : Scope) (wd : AmoWidth) (s : State) : Out :=
  amoInstr (.amomax d a b k sc wd) (fun x y => if amoInt wd x < amoInt wd y then y else x) d a b k sc wd s
def execAmominu (d a b : XReg) (k : OrdKind) (sc : Scope) (wd : AmoWidth) (s : State) : Out :=
  amoInstr (.amominu d a b k sc wd) (fun x y => min x y) d a b k sc wd s
def execAmomaxu (d a b : XReg) (k : OrdKind) (sc : Scope) (wd : AmoWidth) (s : State) : Out :=
  amoInstr (.amomaxu d a b k sc wd) (fun x y => max x y) d a b k sc wd s
def execAmoswap (d a b : XReg) (k : OrdKind) (sc : Scope) (wd : AmoWidth) (s : State) : Out :=
  amoInstr (.amoswap d a b k sc wd) (fun _ y => y) d a b k sc wd s

/-- `amofadd` rounds to nearest even, with no flag and no event; xd is zero-extended. -/
def execAmofadd (d a b : XReg) (k : OrdKind) (sc : Scope) (wd : AmoWidth) (s : State) : Out :=
  let f : Fmt := match wd with
    | .w => fmtS
    | .d => fmtD
  let y := amoArg wd (s.me.xr b)
  s.amo (.amofadd d a b k sc wd) d (s.me.xr a) wd k sc fun old =>
    (some (f.addF .rne (f.decode old) (f.decode y)).1, BitVec.ofNat 64 old)

def execCas (d a b c : XReg) (wd : AmoWidth) (k : OrdKind) (sc : Scope) (s : State) : Out :=
  let y := amoArg wd (s.me.xr b)
  let z := amoArg wd (s.me.xr c)
  s.amo (.cas d a b c wd k sc) d (s.me.xr a) wd k sc fun old =>
    (if old = z then some y else none, amoOld wd old)

/-! ### Fences (R321) -/

/-- A release of the hues of `m` at scope `sc`, then the acquire of `acq`. -/
def State.fenceRel (s : State) (m : BitVec 8) (sc : Scope) (acq : Option Scope) : Out :=
  let r := s.release s.cur m (scopeNo sc)
  let s := r.1
  if r.2.isEmpty then
    let s := match acq with
      | some sc => s.acquire s.myCore sc
      | none => s
    s.finish s.me
  else s.wait (.fence r.2 acq)

def execFence (k : FenceKind) (sc : Scope) (m : BitVec 8) (s : State) : Out :=
  if sc = .strand then s.finish s.me
  else
    match k with
    | .rel => s.fenceRel m sc none
    | .acq => s.fenceRel 0 sc (some sc)
    | .full => s.fenceRel m sc (some sc)

/-! ### Waits on a word and a counter (R271, R288) -/

def execWaitw (a b : XReg) (s : State) : Out :=
  let w := s.me.xr b
  match s.access s.cur w 8 .read with
  | (s, .error b) => s.meet b w
  | (s, .ok p) =>
    if s.me.inTile w.toNat then s.trap .access w
    else
      match p.locs.find? fun l => s.poisoned l with
      | some l => s.meet (.bad l) w
      | none =>
        let s := s.touch s.myCore 0 p.locs
        if leNat (p.locs.map (s.seen s.myCore).byte) = (s.me.xr a).toNat then s.finish s.me
        else s.wait (.word p.locs (s.me.xr a))

def execWaitc (c : CReg) (thr : BitVec 8) (s : State) : Out :=
  if (s.me.cr c).toNat ≤ thr.toNat then s.finish s.me else s.wait (.counter c thr)

end Sys2Proof.Machine
end

