-- ==== Sys2Proof/Machine/Thresher.lean ====
section
/-! DEFINITION. The Thresher's shared operations: reading through a context's tables from the base die, the checks of code
objects and records, queues, placement, images and the state of a new strand (04, R74-R94; 05, R96, R97; 16, R333). -/

namespace Sys2Proof.Machine

/-! ### Reading through a context's tables (log 23) -/

def leafReads (e : TlbEntry) : Bool := pteBit e.pte 1
def leafWrites (e : TlbEntry) : Bool := pteBit e.pte 2
def leafAny (_ : TlbEntry) : Bool := true

/-- Physical address of global virtual address `va` in context `c` when its leaf meets `ok` (checks 2 to 5 of R258). The
units of the base die fill no TLB. -/
def State.unitPhys (s : State) (c : BitVec 4) (va : Nat) (ok : TlbEntry → Bool) : Option Nat :=
  if va < 0x1000000 ∨ 2 ^ 48 ≤ va then none
  else
    match (s.walked none c va).2 with
    | .error _ => none
    | .ok e => if ok e && s.physOk (e.phys va) then some (e.phys va) else none

/-- Every page that [va, va + n) touches can be read. -/
def State.unitReads (s : State) (c : BitVec 4) (va n : Nat) : Bool :=
  n == 0 || (List.range ((va % 65536 + n - 1) / 65536 + 1)).all fun i =>
    (s.unitPhys c (if i = 0 then va else (va / 65536 + i) * 65536) leafReads).isSome

/-- `n` bytes from `va`, page by page; `gone` are those of a page that cannot be read. -/
def State.unitBytesOr (s : State) (gone : Nat → Byte) (c : BitVec 4) (va n : Nat) : Nat → List Byte
  | 0 => []
  | f + 1 =>
    if n = 0 then []
    else
      let part := min n (65536 - va % 65536)
      (match s.unitPhys c va leafReads with
       | none => (locsFrom va part).map gone
       | some p => s.far.bytes p part) ++ State.unitBytesOr s gone c (va + part) (n - part) f

/-- `n` bytes from `va`; a page that cannot be read gives zeros: of a header or a pause table that has lost its page since its check,
of a mesh slot (log 84). -/
def State.unitBytes (s : State) (c : BitVec 4) (va n : Nat) (fuel : Nat) : List Byte := s.unitBytesOr (fun _ => 0) c va n fuel

/-- The locations of `n` bytes from `va`, page by page, of the pages that can be read. -/
def State.unitLocs (s : State) (c : BitVec 4) (va n : Nat) : Nat → List Nat
  | 0 => []
  | f + 1 =>
    if n = 0 then []
    else
      let part := min n (65536 - va % 65536)
      (match s.unitPhys c va leafReads with
       | none => []
       | some p => locsFrom p part) ++ State.unitLocs s c (va + part) (n - part) f

/-- The walk of `va` meets a table entry that cannot be read: it is met for context `c` (R252). -/
def State.meetWalk (s : State) (c : BitVec 4) (launch va : Nat) : State :=
  match (if va < 0x1000000 ∨ 2 ^ 48 ≤ va then .ok none else ((s.walked none c va).2.map some)) with
  | .error (.bad l) => s.meets l c launch
  | _ => s

/-- A unit reads `n` bytes from `va`: what cannot be read of the tables and of the bytes is met for context `c`. -/
def State.meetUnit (s : State) (c : BitVec 4) (launch va n : Nat) : State :=
  if n = 0 then s
  else
    let s := (List.range ((va % 65536 + n - 1) / 65536 + 1)).foldl (fun s i =>
      s.meetWalk c launch (if i = 0 then va else (va / 65536 + i) * 65536)) s
    s.meetsAt (s.unitLocs c va n (n / 65536 + 2)) c launch

/-! ### Code objects (04, R74-R79) -/

/-- The header of a code object: offset and size of each image, and which are uninitialised. -/
structure CodeObj where
  magic : Nat
  version : Nat
  flags : Nat
  text : Nat × Nat
  near : Nat × Nat
  sheaf : Nat × Nat
  loc : Nat × Nat
  pause : Nat × Nat
  symbols : Nat × Nat
  global : Nat × Nat
deriving DecidableEq, Repr

def CodeObj.far (o : CodeObj) : Bool := natBits o.flags 0 0 == 1
/-- NINEAR, NISHEAF, NILOCAL. -/
def CodeObj.blankNear (o : CodeObj) : Bool := natBits o.flags 1 1 == 1
def CodeObj.blankSheaf (o : CodeObj) : Bool := natBits o.flags 2 2 == 1
def CodeObj.blankLocal (o : CodeObj) : Bool := natBits o.flags 3 3 == 1

/-- The header that 64 bytes hold. -/
def codeHeader (bs : List Byte) : CodeObj :=
  let pair (off : Nat) : Nat × Nat := (fieldAt bs off 4, fieldAt bs (off + 4) 4)
  { magic := fieldAt bs 0 4, version := fieldAt bs 4 2, flags := fieldAt bs 6 2, text := pair 0x08, near := pair 0x10,
    sheaf := pair 0x18, loc := pair 0x20, pause := pair 0x28, symbols := pair 0x30, global := pair 0x38 }

/-- The header at `code` in context `c`. -/
def State.codeObj (s : State) (c : BitVec 4) (code : Word) : CodeObj := codeHeader (s.unitBytes c code.toNat 64 2)

/-- The code object of a launch. -/
def State.objOf (s : State) (la : Launch) : CodeObj := s.codeObj (recCtx la.bytes) (recCode la.bytes)

/-- Bounds of a stored image: it is readable, or absent. -/
def State.imageOk (s : State) (c : BitVec 4) (code : Nat) (img : Nat × Nat) (blank : Bool) (limit : Nat) : Bool :=
  img.1 % 16 == 0 && decide (img.2 ≤ limit) &&
    (if blank then img.1 == 0 else s.unitReads c (code + img.1) img.2)

/-- Entry `i` of the pause table as 16 bytes. -/
def State.pauseEntry (s : State) (c : BitVec 4) (code : Nat) (o : CodeObj) (i : Nat) : List Byte :=
  s.unitBytes c (code + o.pause.1 + 16 * i) 16 1

/-- One entry of the pause table keeps R78: `prev` is the entry before it. -/
def pauseOk (text : Nat) (prev : Option (List Byte)) (e : List Byte) : Bool :=
  let addr := fieldAt e 0 4
  addr % 4 == 0 && decide (addr < text) && fieldAt e 4 4 % 2 == 0 && (fieldAt e 4 4).testBit 2 && fieldAt e 14 1 % 2 == 0 &&
    fieldAt e 15 1 == 0 && (match prev with
      | none => true
      | some p => decide (fieldAt p 0 4 < addr))

/-- The checks of R74 and R79 on the object at `code`. -/
def State.codeCheck (s : State) (c : BitVec 4) (code : Nat) : Bool :=
  let o := s.codeObj c (BitVec.ofNat 64 code)
  code % 256 == 0 && s.unitReads c code 64 && o.magic == 0x4C474F43 && o.version == 1 && decide (o.flags < 16) &&
    s.imageOk c code o.text false (if o.far then 2 ^ 32 else 0x4000) &&
    s.imageOk c code o.near o.blankNear (if o.far then 0 else 0x4000) &&
    s.imageOk c code o.sheaf o.blankSheaf 0x40000 && s.imageOk c code o.loc o.blankLocal 0x20000 &&
    s.imageOk c code o.global false (2 ^ 32) && s.imageOk c code o.symbols false (2 ^ 32) &&
    o.pause.1 % 16 == 0 && s.unitReads c (code + o.pause.1) (16 * o.pause.2) &&
    (List.range o.pause.2).all fun i =>
      pauseOk o.text.2 (if i = 0 then none else some (s.pauseEntry c code o (i - 1))) (s.pauseEntry c code o i)

/-- The object at `code` may be used: it has passed and its header has not been written since, or it passes now (R79). -/
def State.useCode (s : State) (c : BitVec 4) (code : Word) : State × Bool :=
  if s.checked.any fun k => k.1 == c && k.2.1 == code then (s, true)
  else
    let ok := s.codeCheck c code.toNat
    let o := s.codeObj c code
    let phys := s.unitPhys c code.toNat leafReads
    let s := (s.meetUnit c 4096 code.toNat 64).meetUnit c 4096 (code.toNat + o.pause.1) (16 * o.pause.2)
    match ok, phys with
    | true, some p => ({ s with checked := s.checked ++ [(c, code, locsFrom p 64)] }, true)
    | _, _ => (s, false)

/-! ### Records (R81) -/

/-- Bytes that R80 does not name are zero. -/
def recReserved (r : List Byte) : Bool :=
  natBits (fieldAt r 0x0C 1) 7 4 == 0 && natBits (recFlags r) 7 4 == 0 && fieldAt r 0x7A 6 == 0

/-- The dependences in use, by number. -/
def recDeps (r : List Byte) : List Nat := (List.range 4).filter fun i => recDepAddr r i != 0

/-- Everything of R81 but the code object. `sub` is the submitter's context, none when any will do (R88). A near object
without a `.near` image counts as one of size 0 at 0x4000, so that STK above 16 is malformed (log 61). -/
def State.recordOk (s : State) (r : List Byte) (sub : Option (BitVec 4)) (o : CodeObj) : Bool :=
  let c := recCtx r
  recReserved r && decide (recEntry r < o.text.2) && recEntry r % 4 == 0 && c != 0 && sub.all (fun x => x == c) &&
    decide (recPrio r ≤ 47) && decide (1 ≤ recNstage r ∧ recNstage r ≤ 8) &&
    ((List.range 8).all fun k => decide (k < recNstage r) || recScnt r k == 0) &&
    (natBits (recFlags r) 3 3 == natBits (recFlags r) 0 0) && (recStart r == 0 || recPinned r) &&
    (!(recPinned r) || (List.range 8).all fun k => decide (recTile0 r + recScnt r k ≤ 9216)) &&
    (if recSstep r then decide (8 ≤ recShadow r ∧ recShadow r ≤ 32) else recShadow r == 0) &&
    (recDone r).toNat % 8 == 0 && ((recDeps r).all fun i => (recDepAddr r i).toNat % 8 == 0 &&
      (s.unitPhys c (recDepAddr r i).toNat leafAny).isSome) &&
    (recDone r == 0 || (s.unitPhys c (recDone r).toNat leafWrites).isSome) &&
    (if o.far then recStk r == 0 || recStkBase r != 0 else decide (0x4000 + o.near.2 + 1024 * recStk r ≤ 0x8000))

/-- The record is well formed; the code object it names may now be known to pass. -/
def State.wellRecord (s : State) (r : List Byte) (sub : Option (BitVec 4)) : State × Bool :=
  if recCode r = 0 ∨ recCtx r = 0 then (s, false)
  else
    match s.useCode (recCtx r) (recCode r) with
    | (s, false) => (s, false)
    | (s, true) =>
      let ok := s.recordOk r sub (s.codeObj (recCtx r) (recCode r))
      ((recDone r :: (recDeps r).map (recDepAddr r)).foldl (fun s a => s.meetWalk (recCtx r) 4096 a.toNat) s, ok)

/-! ### The ownership map (02, R45) -/

/-- Entry of `tile` in the map. -/
def State.mapEntry (s : State) (tile : Nat) : Nat :=
  match s.host.ownmap with
  | some b => if tile < 9216 then leNat (s.mem.bytes (b + 2 * tile) 2) else 0
  | none => 0

/-- The core that owns `tile`, none for a dark tile. -/
def State.owner (s : State) (tile : Nat) : Option Nat :=
  let e := s.mapEntry tile
  if natBits e 15 15 = 1 then some (natBits e 13 0) else none

/-- An entry of the map that cannot be read (11, R252), by location. -/
def State.mapBad (s : State) (tile : Nat) : Option Nat :=
  match s.host.ownmap with
  | some b => if tile < 9216 && s.poisoned (b + 2 * tile) then some (b + 2 * tile) else none
  | none => none

/-! ### Queue ports (02, R27-R30) -/

def State.port (s : State) (q : Nat) : Port := Table.getD s.ports q Port.blank
def State.setPort (s : State) (q : Nat) (p : Port) : State := { s with ports := Table.set s.ports q p }

/-- A refused submission through port `q` (R29). -/
def State.refuse (s : State) (q : Nat) (tag : BitVec 32) (why : Byte) : State :=
  let p := s.port q
  let s := s.setPort q { p with tag := tag, why := why, refused := true }
  if p.note then s.signal p.vec.toNat else s

def State.queue (s : State) (q : Nat) : List Submitted := Table.getD s.queues q []
def State.queueFull (s : State) (q : Nat) : Bool := decide (Config.queueDepth ≤ (s.queue q).length)
def State.pushQueue (s : State) (q : Nat) (m : Submitted) : State :=
  { s with queues := Table.set s.queues q (s.queue q ++ [m]) }

/-! ### The launch table (R86, R89) -/

/-- The lowest free entry. -/
def State.freeEntry (s : State) : Option Nat := (List.range 4096).find? fun i => (Table.get? s.launches i).isNone

/-- A new entry. -/
def Launch.new (r : List Byte) (o : Origin) (n : Nat) : Launch :=
  { bytes := r, origin := o, state := .waiting, accNo := n, deps := [], handed := 0, ahead := [], total := recTotal r,
    retired := 0, skips := 0, lateStart := false, darkSkip := false, ended := none, wordDone := false, chosenAt := none, runTick := none,
    rampFrom := 0, rampTicks := 0, runAt := 0, runNo := 0, points := [], sets := [], imaged := [], imagedLocal := [], imagedNear := [], meshSlots := 0, meshFirst := 0,
    ss := { cks := [], logs := [], marks := [], points := [], lost := false, rolls := 0, retired := 0,
            total := recTotal r, units := [] } }

/-- Enter a well-formed record in entry `k`: WAITING with its dependences watched and tested once (R89, R91). -/
def State.enterLaunch (s : State) (k : Nat) (m : Submitted) : State :=
  let deps := (recDeps m.bytes).filterMap fun i =>
    (s.unitPhys (recCtx m.bytes) (recDepAddr m.bytes i).toNat leafAny).map fun p => (i, p)
  let la := { Launch.new m.bytes m.origin (s.accNo + 1) with deps := deps }
  State.testDeps { s with accNo := s.accNo + 1, launches := Table.set s.launches k la } k

/-- The 16 bytes at ARGS of a mesh launch (13, R292), which may lie in two pages; bytes of a page that does not translate are lost. -/
def State.meshArgs (s : State) (la : Launch) (bs : List Byte) : State :=
  let c := recCtx la.bytes
  let a := (recArgs la.bytes).toNat
  let cells : List Host.Cell := bs.zipIdx.filterMap fun b => (s.unitPhys c (a + b.2) leafAny).map fun p => (p, b.1)
  (((s.meetWalk c 4096 a).meetWalk c 4096 (a + 15))).write (Writer.plain c) cells

/-- What of the mesh table entry of context `c` cannot be read is met for launch `k` (11, R252). -/
def State.meshMeets (s : State) (c : BitVec 4) (k : Nat) : State := s.meetsAt (locsFrom (s.meshEntry c) 32) c k

/-- A mesh launch whose context has a ring (13, R292). -/
def State.usesRing (s : State) (la : Launch) : Bool := isMeshLaunch la.bytes && s.meshValid (recCtx la.bytes)

/-- Launch `k` becomes RUNNING (R89, R90); one with no strand has handed out its last. A pinned launch that comes to run after its
START has started late (R93). -/
def State.run (s : State) (k : Nat) : State :=
  match Table.get? s.launches k with
  | none => s
  | some la =>
    let la := { la with state := if la.total = 0 then LState.drainingOut else LState.running, runAt := s.ftime,
                        runNo := s.waitNo,
                        lateStart := recPinned la.bytes && decide (0 < recStart la.bytes ∧ recStart la.bytes < s.ftime) }
    let s := { s with waitNo := s.waitNo + 1, launches := Table.set s.launches k la }
    if isMeshLaunch la.bytes then
      let s := s.meshMeets (recCtx la.bytes) k
      if s.meshValid (recCtx la.bytes) then s else s.meshArgs la (List.replicate 16 0xFF)
    else s

/-! ### Placement (R77, R97, R333) -/

/-- Strands of core `c` that are live or handed out to it. -/
def State.onCore (s : State) (c : Nat) : List Strand :=
  (s.strands.filter fun e => coreOf e.1 == c && (e.2.stat == SlotStat.live || e.2.stat == SlotStat.bound)).map (·.2)

/-- The lowest free slot of core `c`. -/
def State.freeSlot (s : State) (c : Nat) : Option Nat :=
  ((List.range 4).map fun i => 4 * c + i).find? fun i => (s.strand i).stat == SlotStat.free
def State.freeCount (s : State) (c : Nat) : Nat :=
  (((List.range 4).map fun i => 4 * c + i).filter fun i => (s.strand i).stat == SlotStat.free).length

/-- The launch of a strand. -/
def State.launchOfStrand (s : State) (t : Strand) : Option Launch := Table.get? s.launches t.launch

/-- The strand belongs to a near launch. -/
def State.isNearStrand (s : State) (t : Strand) : Bool := (s.launchOfStrand t).any fun la => !(s.objOf la).far

/-- Two launches have the same CODE in one context, and the same STK: R77 and R94 say CODE alone, an address that two contexts may map
to two objects (log 76). -/
def sameCode (a b : Launch) : Bool :=
  recCtx a.bytes == recCtx b.bytes && recCode a.bytes == recCode b.bytes && recStk a.bytes == recStk b.bytes

/-- TCM of core `c` holds the near object of `la`. -/
def State.tcmHolds (s : State) (c : Nat) (la : Launch) : Bool :=
  (s.core c).near == some (recCtx la.bytes, recCode la.bytes)

/-- The first case of R77. -/
def State.holdsNear (s : State) (c : Nat) (la : Launch) : Bool :=
  s.tcmHolds c la && (s.onCore c).all fun t => (s.launchOfStrand t).any fun l => sameCode l la

/-- A launch other than the one in entry `k` with a nonzero image that `size` gives has a strand among `ts`. -/
def State.otherImage (s : State) (k : Nat) (size : CodeObj → Nat) (ts : List Strand) : Bool :=
  ts.any fun t => t.launch != k && (s.launchOfStrand t).any fun l => size (s.objOf l) != 0

/-- Strands live or handed out in sheaf `h`. -/
def State.onSheaf (s : State) (h : Nat) : List Strand :=
  (s.strands.filter fun e => sheafOf (coreOf e.1) == h &&
    (e.2.stat == SlotStat.live || e.2.stat == SlotStat.bound)).map (·.2)

/-- R77 allows a strand of launch `k` on core `c`. -/
def State.fitsImages (s : State) (k : Nat) (la : Launch) (c : Nat) : Bool :=
  let o := s.objOf la
  (o.far || s.holdsNear c la || !((s.onCore c).any s.isNearStrand)) &&
    (o.loc.2 == 0 || !(s.otherImage k (fun o => o.loc.2) (s.onCore c))) &&
    (o.sheaf.2 == 0 || !(s.otherImage k (fun o => o.sheaf.2) (s.onSheaf (sheafOf c))))

/-- Launches that hold a set of sheaf points of sheaf `h`. -/
def State.setsHeld (s : State) (h : Nat) : Nat := (s.launches.filter fun e => e.2.sets.contains h).length

/-- The sheaf-set rule (R333). -/
def State.setRoom (s : State) (la : Launch) (h : Nat) : Bool := la.sets.contains h || decide (s.setsHeld h < 8)

/-- A strand of launch `k` may be placed on core `c` now. -/
def State.fits (s : State) (k : Nat) (la : Launch) (c : Nat) : Bool :=
  decide (c < Config.cores) && !(s.core c).failed && (s.freeSlot c).isSome && s.fitsImages k la c && s.setRoom la (sheafOf c)

/-- The core of the lowest id in `cs` that R97 names for launch `k`. -/
def State.chooseCore (s : State) (k : Nat) (la : Launch) (cs : List Nat) : Option Nat :=
  let pick (f : Nat → Bool) : Option Nat := cs.find? fun c => f c && s.fits k la c
  ((pick fun c => (s.core c).power.up && (s.onCore c).any fun t => t.launch == k).orElse fun _ =>
    pick fun c => (s.core c).power.up).orElse fun _ =>
    (pick fun c => (s.core c).power == Power.powerGated).orElse fun _ => pick fun c => (s.core c).power == Power.off

/-- The cores of a sheaf in the order of their members. -/
def sheafCores (h : Nat) : List Nat := (List.range 16).map fun m => h / 8 * 128 + h % 8 * 16 + m

/-! ### Images (R66, R75, R77) -/

/-- The near images of `la` are to be copied to core `c` for a strand: TCM holds another object, or no near strand is live
there and the launch has not had them copied. A strand that is `back` from a husk finds its data where it left them (19,
R389). -/
def State.needsNear (s : State) (la : Launch) (c : Nat) (back : Bool) : Bool :=
  !(s.objOf la).far && !(s.tcmHolds c la && (back || la.imagedNear.contains c || (s.onCore c).any s.isNearStrand))

/-- The stored images to be copied for a strand of `la` on core `c`, with where each goes. -/
def State.copies (s : State) (la : Launch) (c : Nat) (back : Bool) : List ((Nat × Nat) × Nat) :=
  let o := s.objOf la
  let h := sheafOf c
  (if s.needsNear la c back then
     (o.text, tcmLoc c 0) :: (if o.blankNear then [] else [(o.near, tcmLoc c 0x4000)]) else []) ++
  (if o.blankSheaf || la.imaged.contains h then [] else [(o.sheaf, padLoc h 0)]) ++
  (if o.blankLocal || la.imagedLocal.contains c then [] else [(o.loc, localLoc c 0)])

/-- Bytes of the stored image `img` of `la`: how many pages they may touch bounds the recursion. A page that translated at the check
of R79 and does no more gives bytes that the spec does not name, and the strand starts all the same (R66; log 84). -/
def State.imageBytes (s : State) (la : Launch) (img : Nat × Nat) : List Byte :=
  s.unitBytesOr (Config.goneByte s.turnNo) (recCtx la.bytes) ((recCode la.bytes).toNat + img.1) img.2 (img.2 / 65536 + 2)

/-- A word of an image to be copied that cannot be read (11, R252). -/
def State.imageBad (s : State) (la : Launch) (c : Nat) (back : Bool) : Option Nat :=
  (s.copies la c back).findSome? fun x =>
    (s.unitLocs (recCtx la.bytes) ((recCode la.bytes).toNat + x.1.1) x.1.2 (x.1.2 / 65536 + 2)).find? s.poisoned

/-- Other launches no longer hold the images that those of launch `k` on core `c` stand in place of. -/
def State.overlay (s : State) (k : Nat) (o : CodeObj) (near : Bool) (c : Nat) : State :=
  let cut (b : Bool) (n : Nat) (l : List Nat) : List Nat := if b then l.filter (· != n) else l
  let other (i : Nat) (l : Launch) : Launch :=
    if i = k then l
    else { l with imaged := cut (o.sheaf.2 != 0) (sheafOf c) l.imaged, imagedLocal := cut (o.loc.2 != 0) c l.imagedLocal,
                  imagedNear := cut near c l.imagedNear }
  { s with launches := Table.mapVals other s.launches }

/-- The images a strand of launch `k` needs on core `c` are copied in, and noted. -/
def State.copyImages (s : State) (k : Nat) (la : Launch) (c : Nat) (back : Bool) : State :=
  let o := s.objOf la
  let near := s.needsNear la c back
  let copy (t : State) (x : (Nat × Nat) × Nat) : State :=
    t.write (Writer.plain (recCtx la.bytes)) (cellsAt x.2 (s.imageBytes la x.1))
  let s' := ((s.copies la c back).foldl copy s).overlay k o near c
  let s' := if near then s'.setCore c { s'.core c with near := some (recCtx la.bytes, recCode la.bytes) } else s'
  match Table.get? s'.launches k with
  | none => s'
  | some l =>
    let h := sheafOf c
    let l := { l with imaged := insertNat h l.imaged, imagedLocal := insertNat c l.imagedLocal, sets := insertNat h l.sets,
                      imagedNear := if o.far then l.imagedNear else insertNat c l.imagedNear }
    { s' with launches := Table.set s'.launches k l }

/-- With the images of launch `k` on core `c`, `f` goes on; a word of them that cannot be read ends or rolls back the contexts
it names instead (19, R390). -/
def State.withImages (s : State) (k : Nat) (la : Launch) (c : Nat) (back : Bool) (f : State → State) : State :=
  match s.imageBad la c back with
  | some l => s.uncorr (s.tagOf l) (recCtx la.bytes) k
  | none => f (s.copyImages k la c back)

/-! ### New strands (R82-R84) -/

/-- Stage and index of ordinal `n`. -/
def stageOf (r : List Byte) (n st : Nat) : Nat → Nat × Nat
  | 0 => (st, n)
  | f + 1 => if n < recScnt r st then (st, n) else stageOf r (n - recScnt r st) (st + 1) f

/-- The handler address of a context (20, R396). -/
def State.kvecOf (s : State) (c : BitVec 4) : Word := Table.getD s.tch.kvec c.toNat 0

/-- A strand of launch `k` in slot `sid` as R83 and R84 give it, not yet started. Its pc is a multiple of 4 (R120), whatever the header,
which is read again here, has come to hold since the launch was accepted (log 79). -/
def State.newStrand (s : State) (k : Nat) (la : Launch) (sid ordinal : Nat) (tile : Option Nat) : Strand :=
  let r := la.bytes
  let o := s.objOf la
  let si := stageOf r ordinal 0 8
  let size := 256 * recStk r
  let tp : Word :=
    if size = 0 then 0
    else if o.far then recStkBase r + BitVec.ofNat 64 (ordinal * size)
    else BitVec.ofNat 64 (0x8000 - (sid % 4 + 1) * size)
  let sp : Word := if size = 0 then 0 else tp + BitVec.ofNat 64 size
  let pc : Word :=
    (if o.far then recCode r + BitVec.ofNat 64 (o.text.1 + recEntry r) else BitVec.ofNat 64 (recEntry r)) &&& ~~~3
  let t : Strand := { Strand.blank with
    stat := .bound, fresh := true, uid := s.uidNo, ctx := recCtx r, launch := k, ordinal := ordinal, stage := si.1, index := si.2,
    tile := tile, prio := recPrio r, eff := recPrio r, pc := pc, tvec := s.kvecOf (recCtx r) }
  ((((((t.setX 2 sp).setX 3 tp).setX 4 (recArgs r)).setX 5 (BitVec.ofNat 64 si.1)).setX 6 (BitVec.ofNat 64 si.2)).setX 7
    (BitVec.ofNat 64 (recScnt r si.1))).setX 8 (match tile with
      | some n => BitVec.ofNat 64 n
      | none => -1)

/-- Hand a strand of launch `k` to slot `sid`, whose core holds its images (R90). -/
def State.bindStrand (s : State) (k : Nat) (la : Launch) (sid ordinal : Nat) (tile : Option Nat) : State :=
  (State.setStrand { s with uidNo := s.uidNo + 1 } sid (s.newStrand k la sid ordinal tile)).markUnits k (coreOf sid)

/-- A launch is running: strands of it may be live. -/
def Launch.runs (la : Launch) : Bool := la.state == LState.running || la.state == LState.drainingOut

/-- Ordinal `n` of launch `k` has been handed out or skipped: `handed` moves past everything that has. -/
def Launch.took (la : Launch) (n : Nat) : Launch :=
  let ahead := insertNat n la.ahead
  let run := ((List.range (ahead.length + 1)).find? fun i => !(ahead.contains (la.handed + i))).getD 0
  { la with handed := la.handed + run, ahead := ahead.filter fun m => decide (la.handed + run ≤ m),
            state := if la.handed + run = recTotal la.bytes ∧ la.state = .running then LState.drainingOut else la.state }

end Sys2Proof.Machine
end

