-- ==== Sys2Proof/Machine/Emission.lean ====
section
/-! DEFINITION. The emission path: `emit`, `emitq`, the transfer, its arrival and its swap (21, R403-R407; 08, R187). -/

namespace Sys2Proof.Machine

def State.tile (s : State) (n : Nat) : Tile := Table.getD s.tiles n Tile.blank
def State.setTile (s : State) (n : Nat) (t : Tile) : State := { s with tiles := Table.set s.tiles n t }
def Tile.group (t : Tile) (g : Nat) : RowGroup := Table.getD t.groups g RowGroup.blank

/-- Groups of `tile` named by the emissions of a core that `f` accepts, as a mask. -/
def Core.groupsOf (c : Core) (tile : Nat) (f : Emission → Bool) : BitVec 8 :=
  c.emits.foldl (fun m e => if e.tile == tile && f e then m ||| e.mask else m) 0

/-! ### `emit` (R406) -/

/-- A requested time as a swap time: 0, or rounded up to 10 ns. -/
def swapTime (t : Nat) : Nat := if t = 0 then 0 else (t + 9) / 10 * 10

/-- The current strand looks the owner of `tile` up and goes on with `k`, or meets an entry of the map that cannot be read (11,
R252). -/
def State.withTile (s : State) (tile : Nat) (w : Word) (k : Out) : Out :=
  match s.mapBad tile with
  | some l => s.meet (.bad l) w
  | none => k

def execEmit (a b c : XReg) (s : State) : Out :=
  let t := s.me
  let ad := t.xr a
  let w := t.xr c
  let core := s.myCore
  let tile := natBits w.toNat 29 16
  let mask : BitVec 8 := BitVec.ofNat 8 (natBits w.toNat 7 0)
  if ad.toNat % 32 ≠ 0 then s.trap .align ad
  else if ad.toNat < 0x100000 ∨ 0x120000 < ad.toNat + 18432 then s.trap .access ad
  else if natBits w.toNat 63 30 ≠ 0 ∨ natBits w.toNat 15 8 ≠ 0 then s.trap .access w
  else s.withTile tile w (
  if s.owner tile ≠ some core then s.trap .access w
  else if mask = 0 then s.finish t
  else if (s.core core).groupsOf tile (fun _ => true) &&& mask ≠ 0 then s.wait .emit
  else
    let r := s.release s.cur allHues 1
    let s := r.1
    let t := s.me
    let e : Emission :=
      { tile := tile, mask := mask, base := ad.toNat, time := swapTime (t.xr b).toNat, pol := (s.core core).latePol,
        rel := r.2, uid := t.uid, launch := s.accOf t.launch, ctx := t.ctx, ready := none, snap := [], snapBad := [],
        since := 0, behind := none, stage := 0, read := [], dark := [], swapAt := 0 }
    let s := s.setMe t.done
    .next (s.setCore core { s.core core with emits := (s.core core).emits ++ [e] }).settleEmits)

/-! ### `emitq` (R407) -/

/-- The groups whose last byte has not been read. -/
def Core.groupsUnread (c : Core) (tile : Nat) : BitVec 8 :=
  c.emits.foldl (fun m e => if e.tile == tile && e.unread then m ||| ofBits (fun g => e.left.any fun o => o / 2304 == g) 8 else m) 0

def execEmitq (d a : XReg) (s : State) : Out :=
  let w := s.me.xr a
  let tile := w.toNat
  let c := s.core s.myCore
  if natBits w.toNat 63 14 ≠ 0 then s.trap .access w
  else s.withTile tile w (
    if s.owner tile ≠ some s.myCore then s.trap .access w
    else
      let x := s.tile tile
      s.finish (s.me.setX d (BitVec.ofNat 64
        ((c.groupsUnread tile).toNat * 2 ^ 56 + (c.groupsOf tile fun _ => true).toNat * 2 ^ 48 +
         x.lateg.toNat * 2 ^ 40 + x.swapT.toNat))))

/-! ### The transfer (R406) -/

/-- The emission whose beats the unit is at. -/
def Core.reading (c : Core) : Option Emission := c.emits.find? fun e => e.stage == 1 && e.unread

/-- The first, in the unit's order, of the emissions that `p` accepts and whose release has completed. -/
def Core.firstEmission (c : Core) (p : Emission → Bool) : Option Emission :=
  (c.emits.filter fun e => e.ready.isSome && p e).foldl (fun (best : Option Emission) e =>
    match best with
    | none => some e
    | some b => if e.ready.getD 0 < b.ready.getD 0 then some e else best) none

/-- The emission a core's unit takes next: the one whose release completed first, when the beats of no other are left. -/
def Core.nextEmission (c : Core) : Option Emission := if c.reading.isSome then none else c.firstEmission fun e => e.stage == 0

/-- The emission of which the last beat reaches the pending latches next. -/
def Core.arriving (c : Core) : Option Emission := c.firstEmission fun e => e.stage == 1

/-- The buffer byte at offset `o` of emission `e` on core `core`. -/
def State.emitByte (s : State) (core : Nat) (e : Emission) (fresh o : Nat) : Byte :=
  let l := localLoc core (e.base - 0x100000 + o)
  if fresh.testBit (o / 4) then s.mem.byte l else e.snap.byte l

/-- The word of 8 bytes of buffer byte `o` is met poisoned: in one of the two reads of 4 bytes. -/
def State.emitBad (s : State) (core : Nat) (e : Emission) (fresh o : Nat) : Bool :=
  let l := localLoc core (e.base - 0x100000 + o / 8 * 8)
  [2 * (o / 8), 2 * (o / 8) + 1].any fun i => if fresh.testBit i then s.poisoned l else e.snapBad.contains l

/-- The core's emission of the same order as `e` becomes `f` of itself. -/
def Core.setEmission (c : Core) (e : Emission) (f : Emission → Emission) : Core :=
  { c with emits := c.emits.map fun m => if m.ready == e.ready then f m else m }

/-- The unit reads the next `n` beats of emission `e`, all that are left for 0: each is one read of 32 bytes (R100) in one step, and a
word of it that cannot be read is met (R390). -/
def State.readBeats (s : State) (core : Nat) (e : Emission) (fresh n : Nat) : State :=
  let offs := if n = 0 then e.left else e.left.take n
  let bytes := offs.flatMap fun o => (List.range 32).map fun i => s.emitByte core e fresh (o + i)
  let dark := offs.flatMap fun o => ((List.range 4).map fun i => o + 8 * i).filter fun w => s.emitBad core e fresh w
  let s := s.spend core (5 * offs.length)
  let s := s.setCore core ((s.core core).setEmission e fun m =>
    { m with stage := 1, read := m.read ++ bytes, dark := m.dark ++ dark })
  dark.foldl (fun s o => s.uncorr (s.tagOf (localLoc core (e.base - 0x100000 + o))) e.ctx ((s.launchOf e.launch).getD 4096)) s

/-- The emission unit starts its next transfer and reads as many of its beats as the step says (log 59). -/
def execEmitTransferStart (core freshWords : Nat) (s : State) : Out :=
  match (s.core core).nextEmission with
  | none => .next s
  | some e => .next (s.readBeats core e freshWords s.choice.cut)

/-- The emission unit reads on. -/
def State.moreBeats (s : State) (core fresh : Nat) : State :=
  match (s.core core).reading with
  | none => s
  | some e => s.readBeats core e fresh s.choice.cut

/-- The codes that three bytes each hold two of, from offset `o` on (08, R187): 0 for one with a bit in a word that could not be
read. -/
def codePairs (dark : Nat → Bool) (o : Nat) : List Byte → List Nat
  | a :: b :: c :: rest =>
    (if dark o || dark (o + 1) then 0 else a.toNat + b.toNat % 16 * 256) ::
      (if dark (o + 1) || dark (o + 2) then 0 else b.toNat / 16 + c.toNat * 16) :: codePairs dark (o + 3) rest
  | _ => []

/-- The codes of each group of the transfer, as they have been passed to the pending latches. -/
def Emission.codes (e : Emission) : List (Nat × List Nat) :=
  ((groupList e.mask).zipIdx).map fun g =>
    (g.1, codePairs (fun o => e.dark.contains (o / 8 * 8)) (2304 * g.1) ((e.read.drop (2304 * g.2)).take 2304))

/-- The first multiple of 10 ns strictly after `a`. -/
def nextTen (a : Nat) : Nat := (a / 10 + 1) * 10

/-- When an emission that arrives at `a` swaps, and whether it is late; `frame` is the FRAME in force. -/
def Emission.swaps (e : Emission) (a frame : Nat) : Nat × Bool :=
  if e.time = 0 then (nextTen a, false)
  else if a < e.time then (e.time, false)
  else if e.pol then (nextTen a, true)
  else (e.time + ((a - e.time) / (10 * frame) + 1) * (10 * frame), true)

/-! ### How long a transfer takes (R23, R406; log 5) -/

/-- The fastest and the slowest core clock of the V/F table, in MHz; none is above 2.6 GHz (01, R12). -/
def Governor.fastest (g : Governor) : Nat := min 2600 ((g.vf.map (·.1)).foldl max 1)
def Governor.slowest (g : Governor) : Nat := (g.vf.map (·.1)).foldl (fun a f => if f = 0 then a else min a f) g.fastest

/-- Beats of a transfer: 72 for each group. -/
def Emission.beats (e : Emission) : Nat := 72 * (groupList e.mask).length

/-- The least field time, in ns, at which a transfer may arrive: R23's first read, beats and crossing after its release, and its own
beats after the arrival of one ahead of it, which may have crossed 4 ns slower. -/
def Emission.from' (e : Emission) (g : Governor) : Int :=
  let alone : Int := e.since + ((1000 * (5 + e.beats) / g.fastest + 4 : Nat) : Int)
  match e.behind with
  | none => alone
  | some a => max alone (a + ((1000 * e.beats / g.fastest : Nat) : Int) - 4)

/-- The most, in ns, between `since`, or the arrival of one ahead of it, and that of the transfer: every beat eight times as long, the
vertical tester met, and the clock stretched to half. -/
def Emission.most (e : Emission) (g : Governor) : Nat := 2000 * (9 + 64 + 8 * e.beats) / g.slowest + 9

/-- By when the transfer has arrived. -/
def Emission.by' (e : Emission) (g : Governor) : Nat := (max e.since (e.behind.getD e.since) + e.most g).toNat

/-- By when the emission that arrives next, or is taken next, has arrived. -/
def Core.arriveBy (c : Core) (g : Governor) : Option Nat :=
  (c.arriving.orElse fun _ => c.nextEmission).map fun e => e.by' g

/-- The emissions that stand behind one go on once it has arrived. -/
def Core.unblock (c : Core) (now : Int) : Core :=
  { c with emits := c.emits.map fun (e : Emission) =>
      if decide (e.stage ≤ 1) && e.ready.isSome then { e with behind := some now } else e }

/-- The last beat of a transfer reaches the pending latches, within the bounds of R23. -/
def execEmitArrival (core : Nat) (s : State) : Out :=
  match (s.core core).arriving with
  | none => .next s
  | some e =>
    if e.unread || decide ((s.ftime : Int) < e.from' s.gov) then .next s
    else
      let t := s.tile e.tile
      let frame := (t.group ((groupList e.mask).headD 0)).frame
      let r := e.swaps s.ftime frame
      let groups := e.codes.foldl (fun gs c => Table.set gs c.1 { t.group c.1 with pending := c.2 }) t.groups
      let s := s.setTile e.tile { t with groups := groups, lateg := if r.2 then e.mask else t.lateg }
      let c := ((s.core core).setEmission e fun m => { m with stage := 2, swapAt := r.1 }).unblock s.ftime
      .next (s.setCore core (if r.2 then { c with lates := c.lates + 1, late := true } else c))

/-! ### The swap (R403, R404, R406; 02, R42) -/

/-- The trim loaded for subpixel `k` (02, R42). -/
def State.trim (s : State) (k : Nat) : Byte :=
  match s.tch.trims with
  | some m => m.byte k
  | none => 0x80

/-- The trims loaded for the 1,536 subpixels of group `g` of `tile`, in the order of its codes. -/
def State.groupTrims (s : State) (tile g : Nat) : List Byte :=
  (List.range 1536).map fun k =>
    let y := tile / 128 * 64 + 8 * g + k / 192
    let x := tile % 128 * 64 + k % 192 / 3
    s.trim ((y * 8192 + x) * 3 + k % 3)

/-- The groups of `m` swap; every group of the tile takes the trims loaded and the drive rail's common factor (R42, R114). -/
def State.swapGroups (s : State) (tile : Nat) (m : BitVec 8) : State :=
  let t := s.tile tile
  let swap (gs : Table RowGroup) (g : Nat) : Table RowGroup :=
    let r := t.group g
    let r := { r with trims := s.groupTrims tile g, factor := s.gov.factor }
    Table.set gs g (if m.getLsbD g then
      { r with active := r.pending, frame := s.host.frame, stepm1 := s.host.stepm1, periodAt := s.ftime } else r)
  s.setTile tile { t with groups := (List.range 8).foldl swap t.groups, swapT := BitVec.ofNat 32 s.ftime }

/-- The current at which subpixel `k` of a group is lit, as a part of the nominal one: by its trim and by the common factor
in force (R42, R114, R404). -/
def RowGroup.current (r : RowGroup) (k : Nat) : Rat :=
  ((1 : Rat) / 2 + ((r.trims.getD k 0x80).toNat : Rat) / 256) * ((r.factor.toNat + 1 : Nat) : Rat) / 65536

/-- Subpixel `k` of group `g` of `tile` is lit (R404): within each period of 4,095 steps, for as many steps as its active
code; never while frozen. -/
def State.lit (s : State) (tile g k : Nat) : Bool :=
  let r := (s.tile tile).group g
  let step : Int := ((r.stepm1 + 1) * 10 : Nat)
  let code : Int := (r.active.getD k 0 : Nat)
  !s.dbg.frozen && decide (((s.ftime : Int) - r.periodAt) % (4095 * step) / step < code)

/-- The current of subpixel `k` of group `g` of `tile` now. -/
def State.drive (s : State) (tile g k : Nat) : Rat := if s.lit tile g k then ((s.tile tile).group g).current k else 0

def execEmitSwap (tile group : Nat) (s : State) : Out :=
  let due (e : Emission) : Bool :=
    e.tile == tile && e.mask.getLsbD group && e.stage == 2 && decide (e.swapAt ≤ s.ftime)
  match s.cores.findSome? fun c => (c.2.emits.find? due).map fun e => (c.1, e) with
  | none => .next s
  | some (core, e) =>
    let s := s.swapGroups tile e.mask
    .next (s.setCore core { s.core core with emits := (s.core core).emits.filter fun m => m.ready != e.ready })

end Sys2Proof.Machine
end

