-- ==== Sys2Proof/Machine/Health.lean ====
section
/-! DEFINITION. HEALTH, the temperature sensors, freeze and the alarm records (02, R46, R48; 05, R114-R116). -/

namespace Sys2Proof.Machine

/-! ### Sensors (05, R115, R116) -/

def State.sensor (s : State) (j : Nat) : Sensor := Table.getD s.gov.sensors j Sensor.blank

/-- The last raw reading, 0 before the first. -/
def Sensor.raw (x : Sensor) : Int := x.readings.headD 0

/-- The 4-adjacent sensors of the same layer: nine region rows of eight columns. -/
def sensorNear (j : Nat) : List Nat :=
  let row := j % 72 / 8
  let col := j % 8
  (if 0 < row then [j - 8] else []) ++ (if row < 8 then [j + 8] else []) ++
  (if 0 < col then [j - 1] else []) ++ (if col < 7 then [j + 1] else [])

/-- The neighbours of sensor `j` that have not failed. -/
def State.soundNear (s : State) (j : Nat) : List Nat := (sensorNear j).filter fun i => !(s.sensor i).failed

/-- The greatest of a list, none when it is empty. -/
def greatest : List Int → Option Int
  | [] => none
  | a :: t => match greatest t with
    | none => some a
    | some b => some (max a b)

/-- TEMP of sensor `j` in sixteenths of a degree. -/
def State.temp (s : State) (j : Nat) : Int :=
  if (s.sensor j).failed then
    match greatest ((s.soundNear j).map fun i => (s.sensor i).raw) with
    | some m => m + 160
    | none => 2400
  else (s.sensor j).raw

/-- A sensor's readings have moved by more than 2 °C. -/
def Sensor.moved (x : Sensor) : Bool := x.readings.any fun a => x.readings.any fun b => decide (32 < a - b)

/-- Sensor `j` is to be marked failed (R116). -/
def State.sensorFails (s : State) (j : Nat) : Bool :=
  let x := s.sensor j
  decide (x.raw < -640 ∨ 2400 < x.raw) ||
    (decide (16 ≤ x.readings.length) && (x.readings.all fun a => a == x.raw) &&
      (sensorNear j).any fun i => (s.sensor i).moved)

def State.failedSensors (s : State) : List Nat := (s.gov.sensors.filter fun e => e.2.failed).map (·.1)

/-- HEALTH.SNSFAIL. -/
def State.snsfail (s : State) : Bool :=
  decide (8 < s.failedSensors.length) || s.failedSensors.any fun j => (s.soundNear j).isEmpty

/-- Some sensor reads TSHUT or above. -/
def State.tripped (s : State) : Bool := s.gov.sensors.any fun e => decide ((s.gov.tshut : Int) * 16 ≤ s.temp e.1)

/-! ### HEALTH (02, R46) -/

def State.linkdeg (s : State) : Bool := s.links.any fun e => e.2.deg
def State.ocSeen (s : State) : Bool := s.gov.ocBits != 0

/-- The value of HEALTH. -/
def State.health (s : State) : Word :=
  let bit (b : Bool) (i : Nat) : Nat := if b then 2 ^ i else 0
  let worn := s.tch.adopted != 0 || s.tch.dark || s.snsfail
  BitVec.ofNat 64 (s.tch.adopted * 2 ^ 16 + s.tch.stage * 2 ^ 12 + bit s.snsfail 11 + bit s.ocSeen 10 +
    bit s.linkdeg 9 + bit s.tch.calfail 8 + bit s.tch.fwrecov 7 + bit s.tch.dark 3 + bit (worn || s.tch.fwrecov) 2 +
    bit (worn || s.linkdeg) 1 + bit s.tch.ready 0)

/-- `s'` follows `s`: a change of HEALTH signals vector 0. -/
def State.noteHealth (s s' : State) : State := if s.health = s'.health then s' else s'.signal 0

/-! ### Freeze (02, R48, R49) -/

/-- FREEZE is asserted. -/
def State.freeze (s : State) : State :=
  if s.dbg.frozen then s else { s with dbg := { s.dbg with frozen := true, arrayRead := false } }

/-- FREEZE is released: after an array read-out the device stays frozen. -/
def State.thaw (s : State) : State :=
  if s.dbg.arrayRead then s else { s with dbg := { s.dbg with frozen := false } }

/-- A reading at TSHUT freezes the device and sets THERMTRIP. -/
def State.tripTest (s : State) : State :=
  if s.tripped then State.freeze { s with gov := { s.gov with thermTrip := true } } else s

/-- A region comes to read TTHR or above. -/
def State.heats (s s' : State) : Bool :=
  let hot (s : State) (j : Nat) : Bool := decide ((s.gov.tthr : Int) * 16 ≤ s.temp j)
  s'.gov.sensors.any fun e => hot s' e.1 && !(hot s e.1)

/-- `s'` follows `s` by a reading or a change of THERMCFG: THERMTRIP set, a sensor marked failed and a region that comes to
read TTHR or above signal vector 1 (02, R31; which events these are is log 37). -/
def State.noteHeat (s s' : State) : State :=
  if (s'.gov.thermTrip && !s.gov.thermTrip) || decide (s.failedSensors.length < s'.failedSensors.length) || s.heats s' then
    s'.signal 1
  else s'

/-! ### Over-current (05, R114) -/

/-- Sheaves at boost points drop to P_BASE. -/
def State.dropBoost (s : State) : State :=
  { s with sheafs := Table.mapVals (fun _ (h : Sheaf) =>
      if s.gov.pbase < h.point ∨ s.gov.pbase < h.target.getD 0 then { h with target := some s.gov.pbase } else h) s.sheafs }

/-- One alarm of rail `r`. -/
def State.alarm (s : State) (r : Nat) : State :=
  let g := s.gov
  let g := { g with ocTime := if g.ocBits = 0 then BitVec.ofNat 32 (s.ftime / 1000) else g.ocTime,
                    ocCount := if g.ocCount = 0xFFFF then 0xFFFF else g.ocCount + 1,
                    ocBits := g.ocBits ||| BitVec.ofNat 6 (2 ^ r) }
  (State.dropBoost { s with gov := g }).signal 1

/-- A write of `w` to OC_CAUSE takes effect. -/
def Governor.clearOc (g : Governor) (w : Word) : Governor :=
  let bits := g.ocBits &&& ~~~(w.truncate 6)
  if bits = 0 then { g with ocBits := 0, ocCount := 0, ocTime := 0 } else { g with ocBits := bits }

/-! ### Steps -/

/-- OC_N is asserted. -/
def execOcNAssert (s : State) : Out := .next (s.noteHealth (s.alarm 0))

/-- A write of OC_CAUSE waits for the next tick boundary (R109). -/
def execOcCauseClear (val : Word) (s : State) : Out :=
  if s.tch.pcieUp && !s.tch.fwrecov then
    .next { s with gov := { s.gov with writes := s.gov.writes ++ [(0x18, val)] } }
  else .next s

/-- Sensor `j` is read. -/
def execSensorReading (j : Nat) (raw : Int) (s : State) : Out :=
  if 288 ≤ j then .next s
  else
    let x := s.sensor j
    let put (s : State) (x : Sensor) : State := { s with gov := { s.gov with sensors := Table.set s.gov.sensors j x } }
    let s' := put s { x with readings := raw :: x.readings.take 15 }
    let s' := if s'.sensorFails j then put s' { s'.sensor j with failed := true } else s'
    .next (s.noteHealth (s.noteHeat s'.tripTest))

/-- The rail of a sheaf falls by more than 5% (R113). A fall while the period is still doubled is part of the same event
(log 37). -/
def execDroopDetect (sheaf : Nat) (s : State) : Out :=
  let h := s.sheaf sheaf
  if h.stretched || decide (Config.sheaves ≤ sheaf) then .next s
  else .next (s.setSheaf sheaf { h with stretched := true, droop := if h.droop = 0xFFFF then 0xFFFF else h.droop + 1 })

def execDroopRecover (sheaf : Nat) (s : State) : Out :=
  let h := s.sheaf sheaf
  if h.stretched then .next (s.setSheaf sheaf { h with stretched := false }) else .next s

end Sys2Proof.Machine
end

