-- ==== Sys2Proof/Machine/Launching.lean ====
section
/-! DEFINITION. The steps of the Thresher: doorbells, acceptance, choice, hand-out, start, completion, pre-emption, husks
and mesh slots (04, R85-R93; 05, R96, R97; 13, R292; 19, R384-R389). -/

namespace Sys2Proof.Machine

/-! ### Submission and acceptance -/

/-- The queue ports respond: the link is up and the device is not in recovery (02, R38). -/
def State.barsUp (s : State) : Bool := s.tch.pcieUp && !s.tch.fwrecov

/-- A host access while frozen is dropped and counted (02, R48). -/
def State.frzDrop (s : State) : State := { s with host := { s.host with frzdrop := s.host.frzdrop + 1 } }

/-- A doorbell (02, R27-R29). The record keeps the CTX that QCFG names now, and is checked against it (R88 names no moment: log
70). -/
def State.doorbell (s : State) (port : Nat) (tag : BitVec 32) : State :=
  if !s.barsUp || decide (64 ≤ port) then s
  else if s.dbg.frozen then s.frzDrop
  else
    let p := s.port port
    if !p.en then s.refuse port tag 0xF2
    else if s.queueFull port then s.refuse port tag 0xF0
    else
      let s := s.setPort port { p with refused := false }
      s.pushQueue port { bytes := p.staging, origin := .port port tag, ctx := p.ctx }

def execQueueDoorbell (port : Nat) (tag : BitVec 32) (s : State) : Out := .next (s.doorbell port tag)

/-- The context a record is checked against (R88). -/
def Submitted.check (m : Submitted) : Option (BitVec 4) :=
  match m.origin with
  | .port _ _ => some m.ctx
  | .strand _ _ _ mode _ => if mode = 0 then some m.ctx else none

/-- A malformed record is refused (R89; 02, R29; 16, R351). -/
def State.refuseRecord (s : State) (m : Submitted) : State :=
  match m.origin with
  | .port q tag => s.refuse q tag 0xF1
  | .strand _ _ _ _ _ => { s with host := { s.host with qrefuse := s.host.qrefuse + 1 } }

def execLaunchAccept (queue : Nat) (s : State) : Out :=
  match s.queue queue, s.freeEntry with
  | m :: rest, some k =>
    let s := { s with queues := Table.set s.queues queue rest }
    (match s.wellRecord m.bytes m.check with
     | (s, true) => .next (s.enterLaunch k m)
     | (s, false) => .next (s.refuseRecord m))
  | _, _ => .next s

/-! ### Choice (R90) -/

/-- Launch `a` comes before launch `b`. -/
def Launch.before (a b : Launch) : Bool :=
  decide (recPrio b.bytes < recPrio a.bytes ∨ (recPrio a.bytes = recPrio b.bytes ∧ a.accNo < b.accNo))

/-- The first launch in the order of R90 among those that `f` accepts. -/
def State.firstLaunch (s : State) (f : Launch → Bool) : Option (Nat × Launch) :=
  s.launches.foldl (fun (best : Option (Nat × Launch)) e =>
    if f e.2 then
      match best with
      | none => some e
      | some b => if e.2.before b.2 then some e else best
    else best) none

def execLaunchChoose (s : State) : Out :=
  match s.firstLaunch fun la => la.state == LState.ready && la.chosenAt.isNone && la.total != 0 with
  | none => .next s
  | some (k, la) =>
    if recPinned la.bytes then
      .next { s with launches := Table.set s.launches k { la with chosenAt := some (max ((s.ftime + 999) / 1000) (s.gov.tick + 1)) } }
    else .next (s.run k)

/-! ### Hand-out and resumption (R82, R90, R96, R97, R389) -/

/-- Who gets a slot next: a strand of launch `k`, a strand skipped for its dark tile, or husk number `i`. -/
inductive Cand
  | strand (k ordinal : Nat) (tile : Option Nat) (core : Nat)
  | dark (k ordinal : Nat)
  | husk (i core : Nat)
deriving DecidableEq, Repr

/-- A candidate with its place in the order of R90. -/
structure Place90 where
  prio : Nat
  acc : Nat
  ordinal : Nat
  cand : Cand
deriving DecidableEq, Repr

def Place90.before (a b : Place90) : Bool :=
  decide (b.prio < a.prio ∨ (a.prio = b.prio ∧ (a.acc < b.acc ∨ (a.acc = b.acc ∧ a.ordinal < b.ordinal))))

/-- Ordinals of a RUNNING launch that have not been handed out, lowest first. -/
def Launch.pending (la : Launch) : List Nat :=
  if la.state = .running then
    ((List.range (recTotal la.bytes - la.handed)).map fun i => la.handed + i).filter fun n => !(la.ahead.contains n)
  else []

/-- The tile of ordinal `n` of a pinned launch (R82). -/
def tileOf (r : List Byte) (n : Nat) : Nat := recTile0 r + (stageOf r n 0 8).2

/-- A pinned strand is one that is bound to a tile; a strand that one has spawned is none (R82, R354; log 65). -/
def Husk.pinned (h : Husk) : Bool := h.strand.tile.isSome

/-- The only core a husk may resume on: its tile's owner, or the core it left for a packable near strand (R389). -/
def State.huskCore (s : State) (h : Husk) : Option (Option Nat) :=
  match s.launchOfStrand h.strand with
  | none => none
  | some la =>
    if h.pinned then some (h.strand.tile.bind s.owner)
    else if !(s.objOf la).far then some (some (coreOf h.sid))
    else some none

/-- The tiles whose owners units look up for strands that wait for a pinned core, each for a context and a launch; with `ramp`, for
those of launches that ramp too (05, R106). -/
def State.mapWaits (s : State) (ramp : Bool) : List (Nat × BitVec 4 × Nat) :=
  (s.launches.flatMap fun e =>
    if recPinned e.2.bytes then
      (if ramp && e.2.state == LState.ready && e.2.runTick.isSome then List.range (recTotal e.2.bytes) else e.2.pending).map fun n =>
        (tileOf e.2.bytes n, recCtx e.2.bytes, e.1)
    else []) ++
  s.husks.filterMap fun h => h.strand.tile.map fun t => (t, h.strand.ctx, h.strand.launch)

/-- The first entry of the map that such a look-up cannot read is met for its context (11, R252; log 81). -/
def State.mapMeets (s : State) (ramp : Bool) : State :=
  match (s.mapWaits ramp).findSome? fun w => (s.mapBad w.1).map fun l => (l, w.2) with
  | some w => s.meets w.1 w.2.1 w.2.2
  | none => s

/-- The Thresher looks the owners up and goes on with `k`, or meets an entry that it cannot read and does nothing else. -/
def State.withMap (s : State) (k : Out) : Out :=
  let t := s.mapMeets false
  if t.met.length = s.met.length then k else .next t

/-- Some sheaf point of the launch has been initialised (16, R333). -/
def Launch.sheafPoints (la : Launch) : Bool := la.points.any fun p => !(pointIsField p.1) && p.2.init

/-- A strand of launch `k` in the husk `h` could resume on core `c`, were a slot of it its own (R389, R333). -/
def State.huskFits (s : State) (h : Husk) (c : Nat) : Bool :=
  (s.launchOfStrand h.strand).any fun la =>
    match s.huskCore h with
    | none => false
    | some (some c') => c' == c
    | some none => !h.pinned && s.fits h.strand.launch la c &&
        (!la.sheafPoints || sheafOf c == sheafOf (coreOf h.sid))

/-- A waiting strand of a launch with a PRIO above `prio` can use the slots of core `c` (R90, R96): one that waits for a ring
slot (13, R292) too. -/
def State.claimed (s : State) (c prio : Nat) : Bool :=
  (s.launches.any fun e => decide (prio < recPrio e.2.bytes) &&
    (if recPinned e.2.bytes then e.2.pending.any fun n => s.owner (tileOf e.2.bytes n) == some c
     else !e.2.pending.isEmpty && s.fits e.1 e.2 c)) ||
  (s.husks.any fun h => decide (prio < h.strand.prio) && s.huskFits h c)

/-- The cores a packable launch may use. -/
def State.openCores (s : State) (prio : Nat) : List Nat := (List.range Config.cores).filter fun c => !(s.claimed c prio)

/-- Strand `n` of a launch waits for a slot of its context's mesh ring (13, R292). -/
def State.awaitsRing (s : State) (la : Launch) (n : Nat) : Bool := s.usesRing la && decide (la.meshSlots ≤ n)

/-- The first strand of launch `k` that can be handed out now. -/
def State.strandCand (s : State) (k : Nat) (la : Launch) : Option Place90 :=
  let r := la.bytes
  let mk (n : Nat) (c : Cand) : Place90 := { prio := recPrio r, acc := la.accNo, ordinal := n, cand := c }
  if recPinned r then
    la.pending.findSome? fun n =>
      match s.owner (tileOf r n) with
      | none => some (mk n (.dark k n))
      | some c => if s.fits k la c && !(s.claimed c (recPrio r)) then some (mk n (.strand k n (some (tileOf r n)) c)) else none
  else
    match la.pending with
    | [] => none
    | n :: _ =>
      if s.awaitsRing la n then none
      else (s.chooseCore k la (s.openCores (recPrio r))).map fun c => mk n (.strand k n none c)

/-- Where husk number `i` can resume now. -/
def State.huskCand (s : State) (i : Nat) (h : Husk) : Option Place90 :=
  match s.launchOfStrand h.strand with
  | none => none
  | some la =>
    let k := h.strand.launch
    let mk (c : Nat) : Place90 :=
      { prio := h.strand.prio, acc := la.accNo, ordinal := h.strand.ordinal, cand := .husk i c }
    match s.huskCore h with
    | none => none
    | some (some c) => if s.fits k la c && !(s.claimed c h.strand.prio) then some (mk c) else none
    | some none =>
      if h.pinned then none
      else
        let cs := (s.openCores h.strand.prio).filter fun c => !la.sheafPoints || sheafOf c == sheafOf (coreOf h.sid)
        (s.chooseCore k la cs).map mk

/-- The first of all candidates. -/
def State.nextCand (s : State) : Option Cand :=
  let cs := (s.launches.filterMap fun e => s.strandCand e.1 e.2) ++
    ((List.range s.husks.length).zip s.husks).filterMap fun e => s.huskCand e.1 e.2
  (cs.foldl (fun (best : Option Place90) p =>
    match best with
    | none => some p
    | some b => if p.before b then some p else best) none).map (·.cand)

/-- Ordinal `n` of launch `k` is skipped for its dark tile (R82). -/
def State.skipDark (s : State) (k n : Nat) : State :=
  match Table.get? s.launches k with
  | none => s
  | some la =>
    { s with launches := Table.set s.launches k { la.took n with darkSkip := true, skips := la.skips + 1 } }

/-- Ordinal `n` of launch `k` is handed to core `c`. -/
def State.handOut (s : State) (k n : Nat) (tile : Option Nat) (c : Nat) : State :=
  match Table.get? s.launches k, s.freeSlot c with
  | some la, some sid =>
    s.withImages k la c false fun s =>
      let s := s.bindStrand k la sid n tile
      match Table.get? s.launches k with
      | some la => { s with launches := Table.set s.launches k (la.took n) }
      | none => s
  | _, _ => s

def execStrandHandout (s : State) : Out :=
  s.withMap (match s.nextCand with
    | some (.strand k n tile c) => .next (s.handOut k n tile c)
    | some (.dark k n) => .next (s.skipDark k n)
    | _ => .next s)

/-- The strand that husk `h` holds, in slot `sid` (R389). -/
def State.resumed (s : State) (h : Husk) (up : Bool) : Strand :=
  let t := h.strand.ofHusk (s.huskBlock h)
  { t with stat := if up then SlotStat.live else SlotStat.bound, fresh := false, uid := h.uid }

/-- Core `c` can start a strand of `la`: it is awake or clock-gated, and for a packable strand it has received its first
injection (05, R99). -/
def State.coreReady (s : State) (c : Nat) (la : Launch) : Bool :=
  (s.core c).power.up && (recPinned la.bytes || (s.core c).injected)

/-- Husk number `i` resumes on core `c` (R389), or a word of it that cannot be read is met. -/
def State.resumeHusk (s : State) (i c : Nat) : State :=
  match s.husks[i]?, s.freeSlot c with
  | some h, some sid =>
    (match s.launchOfStrand h.strand with
     | none => s
     | some la =>
       match s.huskBad h with
       | some l => s.uncorr (s.tagOf l) h.strand.ctx h.strand.launch
       | none =>
         s.withImages h.strand.launch la c true fun s =>
           (({ s with husks := s.husks.eraseIdx i }.setStrand sid (s.resumed h (s.coreReady c la))).busy c).markUnits
             h.strand.launch c)
  | _, _ => s

def execHuskResume (s : State) : Out :=
  s.withMap (match s.nextCand with
    | some (.husk i c) => .next (s.resumeHusk i c)
    | _ => .next s)

/-! ### Start (R83, R93) -/

/-- A strand handed out may start: its core is ready, START has come, and its mesh slot is reserved. -/
def State.mayStart (s : State) (sid : Nat) (t : Strand) : Bool :=
  (s.launchOfStrand t).any fun la =>
    s.coreReady (coreOf sid) la && decide (recStart la.bytes ≤ s.ftime) && !(t.fresh && s.awaitsRing la t.ordinal)

def execStrandStart (sid : Nat) (s : State) : Out :=
  let t := s.strand sid
  if t.stat = SlotStat.bound ∧ s.mayStart sid t then
    let s := s.busy (coreOf sid)
    if t.fresh then
      let t := { t with stat := .live, fresh := false, eff := t.prio, waitCnt := 0, tvec := s.kvecOf t.ctx }
      .next ((s.setStrand sid t).checkpoint sid)
    else .next (s.setStrand sid { t with stat := .live })
  else .next s

/-! ### Completion (R89, R92, R402, R415) -/

/-- Nothing of launch `k` is left that its completion word waits for (21, R402). -/
def State.launchQuiet (s : State) (k : Nat) (la : Launch) : Bool :=
  !(s.strands.any fun e => e.2.stat != SlotStat.free && e.2.launch == k) && !(s.husks.any fun h => h.strand.launch == k) &&
    !(s.ops.any fun o => o.inLaunch k) && !(s.cores.any fun c => c.2.emits.any fun e => e.launch == la.accNo && e.unread)

/-- The completion word. -/
def Launch.word (la : Launch) : Word :=
  BitVec.ofNat 64 (recDoneVal la.bytes + (if la.darkSkip then 2 ^ 61 else 0) + (if la.lateStart then 2 ^ 62 else 0) +
    (match la.ended with
     | some c => c.toNat * 2 ^ 32 + 2 ^ 63
     | none => 0))

/-- The completion word is written and the submitter told, or its failure is counted. NOTE and VEC are those that QCFG names now
(R92 names no moment: log 70). -/
def State.writeDone (s : State) (la : Launch) : State :=
  let r := la.bytes
  if recDone r = 0 then s
  else
    match s.unitPhys (recCtx r) (recDone r).toNat leafWrites with
    | none =>
      let s := s.meetWalk (recCtx r) 4096 (recDone r).toNat
      { s with host := { s.host with donedropCtx := recCtx r, donedrop := s.host.donedrop + 1 } }.signal 0
    | some p =>
      let s := s.write (Writer.plain (recCtx r)) (cellsAt p (leBytes la.word.toNat 8))
      (match la.origin with
       | .port q _ => if (s.port q).note then s.signal (s.port q).vec.toNat else s
       | .strand _ _ _ _ _ => s)

def execLaunchComplete (launch : Nat) (s : State) : Out :=
  match Table.get? s.launches launch with
  | none => .next s
  | some la =>
    if la.over && s.launchQuiet launch la then
      .next (State.writeDone { s with launches := Table.erase s.launches launch } la)
    else .next s

/-! ### Pre-emption (19, R384, R385) -/

/-- The pause point a strand is at, as the masks of its entry (R78). -/
def State.pauseAt (s : State) (t : Strand) : Option (List Byte) :=
  match s.launchOfStrand t with
  | none => none
  | some la =>
    let o := s.objOf la
    let code := (recCode la.bytes).toNat
    let base := if o.far then code + o.text.1 else 0
    if t.pc.toNat < base then none
    else
      (((List.range o.pause.2).map fun i => s.pauseEntry (recCtx la.bytes) code o i).find? fun e =>
        fieldAt e 0 4 == t.pc.toNat - base).map fun e => e.drop 4

/-- A wait that ends by itself when entries drain: it is no wait that a request withdraws. -/
def Wait.brief : Wait → Bool
  | .again | .drain _ | .tlb _ _ _ => true
  | _ => false

/-- The masks of the pause point at which a strand may be saved in part: in U mode, outside every loop (R385). -/
def State.pauseMasksAt (s : State) (t : Strand) : Option (List Byte) :=
  if t.mode = 0 ∧ t.lpc = 0 then s.pauseAt t else none

/-- The strand stops, to be saved. -/
def State.stopAt (s : State) (sid : Nat) : State :=
  let t := s.strand sid
  s.setStrand sid { t with saving := true, pauseMasks := s.pauseMasksAt t }

/-- A strand with a pre-emption request stops when step 2 of R385 says so; one that comes to wait once more has its wait
withdrawn and stops there, at the instruction that it issues again on resumption (log 60). -/
def State.pauseStop (s : State) (sid : Nat) : State :=
  let t := s.strand sid
  match t.preempt with
  | none => s
  | some n =>
    if t.stat ≠ SlotStat.live ∨ t.saving = true ∨ t.mid.isSome = true then s
    else if t.parked.isSome then s.setStrand sid { t with saving := true }
    else
      match t.wait with
      | some w =>
        (match w with
         | .gang _ true => s
         | _ => if w.brief || !t.pend.isEmpty then s else (s.withdraw sid).stopAt sid)
      | none => if (s.pauseMasksAt t).isSome || decide (t.pausemax.toNat ≤ n) then s.stopAt sid else s

/-- A strand stands in a slot and has not retired. -/
def Strand.present (t : Strand) : Bool := t.stat == SlotStat.live || t.stat == SlotStat.bound

/-- A pre-emption is in progress on core `c`: of a strand that has one to come once it has started, too. -/
def State.preempting (s : State) (c : Nat) : Bool :=
  s.strands.any fun e => coreOf e.1 == c && e.2.present && e.2.preempt.isSome

/-- The strand of the lowest PRIO, then the lowest core and slot, among strands in slots that `f` accepts: one that has not started
is among them, and runs as R385 says once it has (log 60). -/
def State.lowestStrand (s : State) (f : Nat → Strand → Bool) : Option Nat :=
  (s.strands.foldl (fun (best : Option (Nat × Nat)) e =>
    if e.2.present && f e.1 e.2 then
      match best with
      | none => some (e.2.prio, e.1)
      | some b => if e.2.prio < b.1 then some (e.2.prio, e.1) else best
    else best) none).map (·.2)

/-- The request reaches strand `sid`: its wait is withdrawn, unless its gang is committed (12, R280), and its instruction is issued
again at once, since the strand goes on issuing (log 60). -/
def State.requestPause (s : State) (sid : Nat) : State :=
  let s := match (s.strand sid).wait with
    | some (.gang _ true) => s
    | _ => s.withdraw sid
  (s.setStrand sid { s.strand sid with preempt := some 0 }).pauseStop sid

/-- The strand to pause for a pinned strand of a launch of priority `prio` that waits for core `c`. -/
def State.pinnedVictim (s : State) (c prio : Nat) : Option Nat :=
  if (s.freeSlot c).isSome || s.preempting c then none
  else s.lowestStrand fun sid t => coreOf sid == c && decide (t.prio < prio)

/-- The pinned strands that wait, as priority, acceptance number and core. -/
def State.pinnedWaits (s : State) : List (Nat × Nat × Nat) :=
  (s.launches.flatMap fun e => if recPinned e.2.bytes then
    e.2.pending.filterMap fun n => (s.owner (tileOf e.2.bytes n)).map fun c => (recPrio e.2.bytes, e.2.accNo, c) else []) ++
  s.husks.filterMap fun h => match s.launchOfStrand h.strand with
    | some la => (h.strand.tile.bind s.owner).map fun c => (h.strand.prio, la.accNo, c)
    | none => none

/-- The next strand of packable launch `k` waits, and it waits for a strand slot: it has its ring slot, and no slot that it can
use is free. -/
def State.lacksSlot (s : State) (k : Nat) (la : Launch) : Bool :=
  match la.pending with
  | [] => false
  | n :: _ => !(s.awaitsRing la n) && (s.strandCand k la).isNone

/-- The packable strands that have waited 100 µs for a slot, as priority and acceptance number. -/
def State.packWaits (s : State) : List (Nat × Nat) :=
  (s.launches.filterMap fun e =>
    if !(recPinned e.2.bytes) && s.lacksSlot e.1 e.2 && decide (e.2.runAt + 100000 ≤ (s.ftime : Int)) then
      some (recPrio e.2.bytes, e.2.accNo) else none) ++
  s.husks.filterMap fun h => match s.launchOfStrand h.strand with
    | some la =>
      if !h.pinned && (s.huskCand 0 h).isNone && decide (h.since + 100000 ≤ (s.ftime : Int)) then
        some (h.strand.prio, la.accNo) else none
    | none => none

/-- The strand to pause for a packable strand of priority `prio`: none while that strand's core has a pre-emption in progress, its own
or another's. -/
def State.packVictim (s : State) (prio : Nat) : Option Nat :=
  match s.lowestStrand fun _ t => decide (t.prio + 8 ≤ prio) with
  | none => none
  | some sid => if s.preempting (coreOf sid) then none else some sid

/-- The victim for the first of the waiting strands, in the order of R90, that has one. -/
def firstVictim (ws : List (Nat × Nat × Option Nat)) : Option Nat :=
  (ws.foldl (fun (best : Option (Nat × Nat × Nat)) w =>
    match w.2.2, best with
    | none, _ => best
    | some v, none => some (w.1, w.2.1, v)
    | some v, some b => if b.1 < w.1 ∨ (b.1 = w.1 ∧ w.2.1 < b.2.1) then some (w.1, w.2.1, v) else best) none).map fun b => b.2.2

def execPreemptRequest (pinned : Bool) (s : State) : Out :=
  if !s.huskEn then .next s
  else
    let ws : List (Nat × Nat × Option Nat) :=
      if pinned then s.pinnedWaits.map fun w => (w.1, w.2.1, s.pinnedVictim w.2.2 w.1)
      else s.packWaits.map fun w => (w.1, w.2, s.packVictim w.1)
    s.withMap (match firstVictim ws with
      | none => .next s
      | some sid => .next (s.requestPause sid))

/-- A stopped strand is saved once its entries have drained and its engine operations have completed (R385-R388). -/
def execHuskSave (sid : Nat) (s : State) : Out :=
  let t := s.strand sid
  if t.stat = SlotStat.live && t.saving && t.buf.isEmpty && t.mid.isNone && s.huskEn &&
      !(s.ops.any fun o => o.counters.any fun c => c.1 == t.uid) then
    let bs := t.huskBytes t.pauseMasks.isNone (t.pauseMasks.getD fullMasks)
    let t := { t with preempt := none, saving := false, pauseMasks := none }
    .next (((s.liftOwn t.uid).saveHusk sid t bs).setStrand sid Strand.blank)
  else .next s

/-! ### Mesh slots (13, R292) -/

def State.ring (s : State) (c : BitVec 4) : MeshRing := Table.getD s.rings c.toNat { next := 0, slots := [] }

/-- A mesh launch of the same context that became RUNNING earlier still reserves slots. -/
def State.earlierMesh (s : State) (la : Launch) : Bool :=
  s.launches.any fun e => isMeshLaunch e.2.bytes && recCtx e.2.bytes == recCtx la.bytes && e.2.runs &&
    decide (e.2.runNo < la.runNo) && decide (e.2.meshSlots < recTotal e.2.bytes)

def execMeshSlotReserve (launch : Nat) (s : State) : Out :=
  match Table.get? s.launches launch with
  | none => .next s
  | some la =>
    let c := recCtx la.bytes
    let t := if la.runs && isMeshLaunch la.bytes then s.meshMeets c launch else s
    if t.met.length ≠ s.met.length then .next t else
    let ring := s.ring c
    let n := s.meshNslot c
    if la.runs ∧ s.usesRing la ∧ la.meshSlots < recTotal la.bytes ∧ !(s.earlierMesh la) ∧
        ring.slots.length < n then
      let slot := ring.next % n
      let m : MeshSlot := { slot := slot, launch := launch, ordinal := la.meshSlots, retired := false, empty := false }
      let la' := { la with meshSlots := la.meshSlots + 1, meshFirst := if la.meshSlots = 0 then slot else la.meshFirst }
      let s := { s with rings := Table.set s.rings c.toNat { next := (slot + 1) % n, slots := ring.slots ++ [m] },
                        launches := Table.set s.launches launch la' }
      if la.meshSlots = 0 then .next (s.meshArgs la (leBytes slot 4 ++ leBytes n 4 ++ leBytes (s.meshBase c) 8))
      else .next s
    else .next s

end Sys2Proof.Machine
end

