-- ==== Sys2Proof/Machine/Governor.lean ====
section
/-! DEFINITION. The load-step governor: power states, tokens, requests, ramps, chaff, V/F points (05, R98-R113). -/

namespace Sys2Proof.Machine

/-! ### Requests (R103, R104, R106) -/

/-- A core's token store holds at most 131,072 tokens; in 1/256 token. -/
def tokenCap : Nat := 131072 * 256

/-- The share of one strand of a record's launch, in qW, exact. -/
def strandShare (r : List Byte) : Rat :=
  (if recPower r = 0 then (1 : Rat) else (recPower r : Rat) / (recTotal r : Rat)) / 25

/-- What a pinned launch draws: its strands' shares together, rounded up to a whole qW. -/
def pinnedDraw (r : List Byte) : Nat :=
  ((if recPower r = 0 then recTotal r else recPower r) + 24) / 25

/-- Add `q` to the request of core `c`. -/
def addRequest (t : Table Rat) (c : Nat) (q : Rat) : Table Rat := Table.set t c (Table.getD t c 0 + q)
def totalRequest (t : Table Rat) : Rat := (t.map (·.2)).sum

/-- Its launch is pinned, or none when the launch is gone. -/
def State.pinnedStrand (s : State) (t : Strand) : Option Bool := (s.launchOfStrand t).map fun la => recPinned la.bytes

/-- A core runs: it is awake or clock-gated with a strand on it, or it wakes for one that was admitted. -/
def State.runsCore (s : State) (c : Nat) : Bool :=
  (s.core c).waking || ((s.core c).power.up && !(s.onCore c).isEmpty)

/-- A core waits for a ramp slot. -/
def State.waitsCore (s : State) (c : Nat) : Bool := !(s.core c).power.up && !(s.core c).waking

/-- The strands present whose core `f` accepts and whose launch is pinned or not. -/
def State.requestOf (s : State) (pinned : Bool) (f : Nat → Bool) : Table Rat :=
  s.strands.foldl (fun (t : Table Rat) e =>
    match s.launchOfStrand e.2 with
    | some la =>
      if e.2.present && recPinned la.bytes == pinned && f (coreOf e.1) then addRequest t (coreOf e.1) (strandShare la.bytes) else t
    | none => t) []

/-- Requests of the running pinned launches: of their strands in slots, and of those not handed out yet on the cores they
are pinned to. -/
def State.pinnedRequests (s : State) : Table Rat :=
  s.launches.foldl (fun (t : Table Rat) e =>
    if recPinned e.2.bytes then
      (e.2.pending.filterMap fun n => s.owner (tileOf e.2.bytes n)).foldl (fun t c => addRequest t c (strandShare e.2.bytes)) t
    else t) (s.requestOf true fun _ => true)

/-- The cores of a pinned launch, one for each strand. -/
def State.launchCores (s : State) (la : Launch) : List Nat :=
  (List.range (recTotal la.bytes)).filterMap fun n => s.owner (tileOf la.bytes n)

/-- A pinned launch stands in its pre-ramp at tick `k`. -/
def Launch.inRamp (la : Launch) (k : Nat) : Bool :=
  la.state == LState.ready && la.runTick.any fun r => decide (la.rampFrom ≤ k ∧ k < r)

/-- Pre-ramp terms of tick `k`, spread over the cores in proportion to their strands (R106). -/
def State.rampRequests (s : State) (k : Nat) : Table Rat :=
  s.launches.foldl (fun (t : Table Rat) e =>
    if e.2.inRamp k then
      let term := min (pinnedDraw e.2.bytes) ((k - e.2.rampFrom + 1) * s.gov.rampUp)
      let cs := s.launchCores e.2
      cs.foldl (fun t c => addRequest t c ((term : Rat) / (cs.length : Rat))) t
    else t) []

/-- Launches in the order of R90. -/
def insertLaunch (e : Nat × Launch) : List (Nat × Launch) → List (Nat × Launch)
  | [] => [e]
  | f :: t => if e.2.before f.2 then e :: f :: t else f :: insertLaunch e t

def State.orderedLaunches (s : State) : List (Nat × Launch) := s.launches.foldl (fun l e => insertLaunch e l) []

/-- Packable cores that wait for a ramp slot, in the order of R105. -/
def State.waitingCores (s : State) : List Nat :=
  ((s.orderedLaunches.filter fun e => !(recPinned e.2.bytes)).flatMap fun e =>
    ((s.strands.filter fun t => t.2.present && t.2.launch == e.1 && s.waitsCore (coreOf t.1)).map fun t => coreOf t.1)).eraseDups

/-! ### Grants (R102, R105, R108) -/

/-- Tokens of `q` qW over one tick, in 1/256 token. -/
def tokensOf (q : Rat) : Nat := (q * 64000000).floor.toNat

/-- Grants of a set of requests from `give`, in 1/256 token by core, and the qW given. -/
def grant (req : Table Rat) (give : Rat) : Table Nat × Rat :=
  let total := totalRequest req
  if total ≤ give then (req.map fun e => (e.1, tokensOf e.2), total)
  else
    let g : Table Nat := req.map fun e => (e.1, (e.2 * give / total * 250000).floor.toNat * 256)
    (g, ((g.map (·.2)).sum : Rat) / 64000000)

/-- Admission to ramp slots: the cores admitted with their requests, and what is left of `give`. -/
def rampAdmit (req : Table Rat) (give : Rat) : List Nat → List (Nat × Rat) × Rat
  | [] => ([], give)
  | c :: t =>
    let q := Table.getD req c 0
    if q ≤ give then
      let r := rampAdmit req (give - q) t
      ((c, q) :: r.1, r.2)
    else ([], give)

/-- `n` in proportion to `weights`, rounded down; the first core takes what rounding leaves. -/
def spread (n : Nat) (weights : List (Nat × Nat)) : List (Nat × Nat) :=
  let total := (weights.map (·.2)).sum
  match weights with
  | [] => []
  | w :: ws =>
    let rest := ws.map fun v => (v.1, n * v.2 / total)
    (w.1, n - (rest.map (·.2)).sum) :: rest

/-- Cores whose grant of the previous tick exceeds their request `req` in this tick, with the excess. -/
def Governor.excess (g : Governor) (req : Table Nat) : List (Nat × Nat) :=
  g.grants.filterMap fun e => if Table.getD req e.1 0 < e.2 then some (e.1, e.2 - Table.getD req e.1 0) else none

/-- The first sheaves with a core that is awake or clock-gated: how many and in which parts is left open (log 31). -/
def State.lowCores (s : State) : List (Nat × Nat) :=
  let hs := (List.range Config.sheaves).filter fun h => (sheafCores h).any fun c => (s.core c).power.up
  ((hs.take (Config.chaffSheaves s.turnNo + 1)).flatMap fun h =>
    (sheafCores h).filter fun c => (s.core c).power.up).map fun c => (c, Config.chaffWeight s.turnNo c + 1)

/-- Where `n` of chaff goes. -/
def State.chaffParts (s : State) (req : Table Nat) (n : Nat) : List (Nat × Nat) :=
  if n = 0 then []
  else
    match s.gov.excess req with
    | [] => spread n s.lowCores
    | xs => spread n xs

/-! ### Diffusion and injection (R100, R101) -/

/-- The neighbours of core `c`: left, right, above, below. -/
def coreNear (c : Nat) : List Nat :=
  (if 0 < c % 128 then [c - 1] else []) ++ (if c % 128 < 127 then [c + 1] else []) ++
  (if 128 ≤ c then [c - 128] else []) ++ (if c + 128 < Config.cores then [c + 128] else [])

/-- Whole tokens a core sends to each neighbour, from its store at the boundary. -/
def Core.surplusPart (k : Core) : Nat := (k.tokens - 256 * k.tokres) / 1024

/-- The neighbours of `c` that tokens can reach. -/
def State.tokenNear (s : State) (c : Nat) : List Nat := (coreNear c).filter fun n => (s.core n).power != Power.off

/-- A core of store `n` may issue again. -/
def Core.raise (k : Core) (n : Nat) : Core :=
  { k with tokens := n, starved := k.starved && decide (n ≤ 4096 * 256) }

/-- Diffusion from the stores at the boundary: every core at once; the excess is counted in SPILL. -/
def State.diffuse (s : State) : State :=
  let cs := (s.cores.flatMap fun e => if 0 < e.2.surplusPart then e.1 :: s.tokenNear e.1 else []).eraseDups
  cs.foldl (fun s' c =>
    let k := s.core c
    let out := (s.tokenNear c).length * k.surplusPart
    let into := ((coreNear c).map fun n => if k.power = Power.off then 0 else (s.core n).surplusPart).sum
    let n := k.tokens - 256 * out + 256 * into
    let lost := (n - tokenCap) / 256
    let g := s'.gov
    let t := g.spillTok + lost
    let g := { g with spillTok := t % 65536, spill := g.spill + BitVec.ofNat 32 (t / 65536) }
    State.setCore { s' with gov := g } c ((s'.core c).raise (min n tokenCap))) s

/-- Chaff to burn on core `c`, which is not idle then (R98). -/
def State.addChaff (s : State) (c n : Nat) : State :=
  if n = 0 then s else (s.setCore c { s.core c with chaff := (s.core c).chaff + n }).busy c

/-- Injection (R99, R102): what the store cannot hold is burned as chaff. -/
def State.inject (s : State) (c n : Nat) : State :=
  let k := s.core c
  (s.setCore c { k.raise (min (k.tokens + n) tokenCap) with injected := k.injected || n != 0 }).addChaff c (k.tokens + n - tokenCap)

/-! ### Writes to the block (R109) -/

/-- One host write takes effect. -/
def Governor.take (g : Governor) (off : Nat) (w : Word) : Governor :=
  let n := w.toNat
  if off = 0x00 then
    { g with rampDn := clampNat 1 256 (natBits n 39 31), rampUp := clampNat 1 256 (natBits n 30 22),
             plim := clampNat 80 1040 (natBits n 21 11) }
  else if off = 0x18 then g.clearOc w
  else if off = 0x20 then { g with boostEn := w.getLsbD 8, pmax := natBits n 7 4, pbase := natBits n 3 0 }
  else if off = 0x28 then { g with offDly := natBits n 63 32, gateDly := max 2 (natBits n 15 0) }
  else if off = 0x4800 then { g with tboost := natBits n 23 16, tthr := natBits n 15 8, tshut := natBits n 7 0 }
  else if 0x8000 ≤ off ∧ off < 0x8400 then
    let key := (off - 0x8000) / 8
    let old := Table.getD g.hbmerr key 0
    let clear (old : Word) (h l : Nat) : Word :=
      if natBits n h l = 2 ^ (h + 1 - l) - 1 then old &&& ~~~(BitVec.ofNat 64 ((2 ^ (h + 1 - l) - 1) * 2 ^ l)) else old
    let new :=
      if key % 2 = 0 then clear (clear (clear (clear old 63 48) 47 32) 31 16) 15 0
      else clear (clear old 63 32) 31 16
    { g with hbmerr := if new = 0 then Table.erase g.hbmerr key else Table.set g.hbmerr key new }
  else g

/-- Every write since the last boundary, in order. -/
def Governor.takeAll (g : Governor) : Governor :=
  { g.writes.foldl (fun (g : Governor) w => g.take w.1 w.2) g with writes := [] }

/-! ### Pinned launches (R106, R107) -/

/-- p of the pinned launches that are running or in pre-ramp at tick `k`. -/
def State.pinnedSum (s : State) (k : Nat) : Nat :=
  ((s.launches.filter fun e => recPinned e.2.bytes && (e.2.runs || e.2.inRamp k)).map fun e => pinnedDraw e.2.bytes).sum

/-- RAMPV in the pushing strand, while it lives, in a slot or a husk. -/
def State.rampvAt (s : State) (sid uid : Nat) (addr : Word) : State :=
  match s.slotOf uid with
  | some i => s.pendAt i Cause.rampv.code addr
  | none =>
    { s with husks := s.husks.map fun (h : Husk) =>
        if h.uid = uid ∧ h.sid = sid then { h with strand := h.strand.addPend Cause.rampv.code addr } else h }

/-- The launch in entry `e` is refused with RAMPV. -/
def State.refuseRamp (s : State) (e : Nat × Launch) : State :=
  let g := s.gov
  let tag : BitVec 32 := match e.2.origin with
    | .port _ t => t
    | .strand _ _ _ _ _ => 0
  let g := { g with refTag := tag, refCount := if g.refCount = 0xFFFF then 0xFFFF else g.refCount + 1, refCtx := recCtx e.2.bytes }
  let s := { s with gov := g, launches := Table.erase s.launches e.1 }
  match e.2.origin with
  | .port q t => s.refuse q t 0x15
  | .strand sid uid _ _ addr => (s.rampvAt sid uid addr).signal 1

/-- The governor plans the pre-ramp of a chosen launch at tick `k`, or refuses the launch. -/
def State.planRamp (s : State) (k : Nat) (e : Nat × Launch) : State :=
  let r := e.2.bytes
  let p := pinnedDraw r
  let n := (p + s.gov.rampUp - 1) / s.gov.rampUp
  let kS := recStart r / 1000
  let future := decide (1000 * k < recStart r)
  if (future && decide (kS < k + n)) || decide (s.gov.plim < p + s.pinnedSum k) then s.refuseRamp e
  else
    let la := if future then { e.2 with rampFrom := kS - n, rampTicks := n, runTick := some kS }
      else { e.2 with rampFrom := k, rampTicks := n, runTick := some (k + n) }
    { s with launches := Table.set s.launches e.1 la }

/-- The launches whose tick has come become RUNNING. -/
def State.runRipe (s : State) (k : Nat) : State :=
  let ripe (la : Launch) : Bool := la.state == LState.ready && la.runTick.any fun r => decide (r ≤ k)
  (s.orderedLaunches.filter fun e => ripe e.2).foldl (fun s e => s.run e.1) s

/-- Tick `k` for the pinned launches: those whose tick has come run, those chosen are planned, and one that needs no pre-ramp
runs at once (R106, R107). -/
def State.rampLaunches (s : State) (k : Nat) : State :=
  let due (la : Launch) : Bool := la.state == LState.ready && la.runTick.isNone && la.chosenAt.any fun c => decide (c ≤ k)
  let s := s.runRipe k
  ((s.orderedLaunches.filter fun e => due e.2).foldl (fun s e => s.planRamp k e) s).runRipe k

/-! ### Waking (R98, R99, R105) -/

/-- Core `c` begins to wake. -/
def State.wakeCore (s : State) (c : Nat) : State :=
  let k := s.core c
  if k.power.up || k.waking then s else s.setCore c { k with waking := true, admitted := true }

/-- A pinned launch has its cores woken at tick `k`: its pre-ramp has begun, or the next tick would be later than
START − 2 µs. -/
def Launch.wakesAt (la : Launch) (k : Nat) : Bool :=
  la.runTick.isSome && (la.runs || decide (la.rampFrom ≤ k) || decide (recStart la.bytes < 1000 * k + 3000))

/-- Cores that pinned strands need awake: those of strands not handed out and those strands stand on, waiting or brought back by a
rollback. -/
def State.pinnedWakes (s : State) (k : Nat) : List Nat :=
  (s.launches.flatMap fun e =>
    if recPinned e.2.bytes && e.2.wakesAt k then
      if e.2.state == LState.ready then s.launchCores e.2
      else e.2.pending.filterMap fun n => s.owner (tileOf e.2.bytes n)
    else []) ++
  ((s.strands.filter fun e => (e.2.stat == SlotStat.bound || e.2.stat == SlotStat.live) && s.pinnedStrand e.2 == some true).map fun e => coreOf e.1)

/-! ### V/F points (R110, R111; 07, R170) -/

/-- A core's request: the highest `pwrreq` of its live strands, 15 without one. -/
def State.corePoint (s : State) (c : Nat) : Nat :=
  match (s.strands.filter fun e => coreOf e.1 == c && e.2.stat == SlotStat.live).map fun e => e.2.pwrreq.toNat with
  | [] => 15
  | r :: t => t.foldl max r

/-- REQPT of a sheaf. -/
def State.sheafReq (s : State) (h : Nat) : Nat := ((sheafCores h).map s.corePoint).foldl max 0

/-- The region of a sheaf among the 72 of a layer. -/
def sheafRegion (h : Nat) : Nat := h / 8 / 8 * 8 + h % 8

/-- Some layer of the region reads TTHR or above. -/
def State.hot (s : State) (h : Nat) : Bool :=
  (List.range 4).any fun l => decide ((s.gov.tthr : Int) * 16 ≤ s.temp (72 * l + sheafRegion h))

/-- Firmware rewrites point `p` of the table to FREQ `mhz` and VOLT `mv`; SCALE is 256·(VOLT/820)², rounded (R110). No core runs above
2.6 GHz (01, R12): such a point is not taken (log 5). -/
def Governor.setPoint (g : Governor) (p mhz mv : Nat) : Governor :=
  if 2600 < mhz then g
  else { g with vf := g.vf.set p (mhz % 65536, mv % 65536, (256 * (mv % 65536) ^ 2 + 336200) / 672400 % 65536) }

/-- Tokens core `c` would spend over a tick at the SCALE and the frequency of point `p`, each charge as the last tick's average: over
the cycles in which the core was clocked (log 36). -/
def State.spendAt (s : State) (c p : Nat) : Rat :=
  let k := s.core c
  if k.tickCyc = 0 then 0
  else (k.tickTok : Rat) / (k.tickCyc : Rat) * (s.gov.scale p : Rat) / 256 * (s.gov.freq p : Rat)

/-- Point `p` meets every condition of R111 for sheaf `h`. -/
def State.pointOk (s : State) (h p : Nat) : Bool :=
  let g := s.gov
  decide (p ≤ g.pmax) && decide (p ≤ s.sheafReq h) &&
    (decide (p ≤ g.pbase) || (g.boostEn && !s.ocSeen && decide (s.temp (72 + sheafRegion h) < (g.tboost : Int) * 16))) &&
    (!(s.hot h) || decide (p ≤ g.pbase - 3)) &&
    decide (((sheafCores h).map fun c => s.spendAt c p).sum * 256 ≤
      ((((sheafCores h).map fun c => Table.getD g.grants c 0).sum : Nat) : Rat))

/-- The highest such point; the lowest of the table when none is. -/
def State.pickPoint (s : State) (h : Nat) : Nat := ((List.range 16).reverse.find? fun p => s.pointOk h p).getD 0

/-- Every sheaf is set to its point: a change begins. -/
def State.setPoints (s : State) : State :=
  (List.range Config.sheaves).foldl (fun s' h =>
    let p := s.pickPoint h
    let x := s'.sheaf h
    let target := if p = x.point then none else some p
    if x.target = target then s' else s'.setSheaf h { x with target := target }) s

/-! ### The tick (R102) -/

/-- T of R102, and A after it. -/
def Governor.allocate (g : Governor) (want : Rat) : Rat × Rat :=
  let t := min want (g.plim : Rat)
  (t, if g.alloc < t then min t (g.alloc + (g.rampUp : Rat)) else max t (g.alloc - (g.rampDn : Rat)))

/-- What tick `k` grants: pinned, running and admitted cores, and chaff. -/
def State.giveOut (s : State) (k : Nat) : State :=
  let pin := s.pinnedRequests
  let ramp := s.rampRequests k
  let both := ramp.foldl (fun (t : Table Rat) e => addRequest t e.1 e.2) pin
  let run := s.requestOf false s.runsCore
  let cand := s.requestOf false s.waitsCore
  let ta := s.gov.allocate (totalRequest both + totalRequest run + totalRequest cand)
  let gp := grant both ta.2
  let gr := grant run (ta.2 - gp.2)
  let ad := rampAdmit cand (ta.2 - gp.2 - gr.2) s.waitingCores
  let reqs : Table Nat :=
    (run.foldl (fun (t : Table Rat) e => addRequest t e.1 e.2) both).map fun e => (e.1, tokensOf e.2)
  let chaff := s.chaffParts reqs (tokensOf ad.2)
  -- the part of a pinned grant that belongs to a pre-ramp is burned
  let rampPart (e : Nat × Nat) : Nat :=
    (((e.2 : Rat) * Table.getD ramp e.1 0) / Table.getD both e.1 1).floor.toNat
  let s := gp.1.foldl (fun s e => (s.inject e.1 (e.2 - rampPart e)).addChaff e.1 (rampPart e)) s
  let s := gr.1.foldl (fun s e => s.inject e.1 e.2) s
  let s := ad.1.foldl (fun s e => (s.wakeCore e.1).inject e.1 (tokensOf e.2)) s
  let s := chaff.foldl (fun s e => s.addChaff e.1 e.2) s
  let note (t : Table Nat) (e : Nat × Nat) : Table Nat := Table.set t e.1 (Table.getD t e.1 0 + e.2)
  let grants := (gp.1 ++ gr.1 ++ (ad.1.map fun e => (e.1, tokensOf e.2)) ++ chaff).foldl note []
  { s with gov := { s.gov with demand := ta.1, alloc := ta.2, grants := grants } }

/-- The tick's averages begin anew. -/
def State.newAverages (s : State) : State :=
  { s with cores := Table.mapVals (fun _ (k : Core) => { k with tickTok := 0, tickCyc := 0 }) s.cores }

/-- Tick `k`. -/
def State.tickAt (s : State) (k : Nat) (rails : BitVec 6) : State :=
  let s := s.noteHeat (State.tripTest { s with gov := { s.gov.takeAll with factor := Config.driveFactor s.turnNo } })
  let s := (List.range 6).foldl (fun s r => if rails.getLsbD r then s.alarm r else s) s
  let s := (s.diffuse.rampLaunches k).giveOut k
  let s := (s.pinnedWakes k).foldl State.wakeCore s
  let s := s.setPoints.newAverages
  { s with gov := { s.gov with tick := k } }

/-- A tick boundary, once field time has reached it. An entry of the ownership map that it cannot read is met (11, R252; log 81). -/
def execGovernorTick (rails : BitVec 6) (s : State) : Out :=
  let k := s.gov.tick + 1
  if 1000 * k ≤ s.ftime then .next (s.noteHealth ((s.mapMeets true).tickAt k rails)) else .next s

/-! ### Points, stores and power states -/

/-- A change of point completes (R111). -/
def execVfTransitionDone (sheaf : Nat) (s : State) : Out :=
  let h := s.sheaf sheaf
  match h.target with
  | some p => .next (s.setSheaf sheaf { h with point := p, target := none })
  | none => .next s

/-- A core whose store cannot cover the charge it owes gates itself (R100). -/
def execTokenStarve (core : Nat) (s : State) : Out :=
  let k := s.core core
  if k.power.up && !k.starved && decide (k.tokens < k.owed) then
    .next (s.setCore core { k with starved := true, owed := 0, power := .clockGated })
  else .next s

/-- No strand of core `c` is live and it carries no chaff. -/
def State.idle (s : State) (c : Nat) : Bool :=
  (s.core c).chaff == 0 && !((s.onCore c).any fun t => t.stat == SlotStat.live)

/-- What core `c` loses when its power is gated: core CSRs, but for `cycle` (07, R144), accumulators, caches and its
micro-TLB; the values it then has are free (log 38). Its token store and the chaff left to burn, which R98 does not list, stay (log 77). -/
def Core.forget (k : Core) (turn c : Nat) : Core :=
  let csr (a : Nat) : Word := Config.lostCsr turn c a
  let late := csr 0x201
  { k with
    tokres := min (csr 0x200).toNat 131072, lates := (late >>> 32).truncate 32, late := late.getLsbD 16,
    latePol := late.getLsbD 0, qbase6 := (csr 0x204).truncate 8, qbase4 := (csr 0x205).truncate 8,
    qnan8 := (csr 0x206).truncate 8, qnan6 := (csr 0x206 >>> 8).truncate 6, qnan4 := (csr 0x206 >>> 16).truncate 4,
    qtab := (List.range 256).filterMap fun i =>
      let v : BitVec 19 := (csr (0x300 + i)).truncate 19
      if v = 0 then none else some (i, v),
    acc := (List.range 512).filterMap fun i =>
      let v := Config.lostAcc turn c i
      if v = 0 then none else some (i, v),
    l1 := [], icache := [], utlb := [] }

/-- Power gating (R98); the token store stays (log 77). -/
def execCorePowerGate (core : Nat) (s : State) : Out :=
  let k := s.core core
  if k.power.up && decide (core < Config.cores) && s.idle core && decide (k.idleSince + 1000 * s.gov.gateDly ≤ s.ftime) then
    .next (s.setCore core { k.forget s.turnNo core with
      power := .powerGated, gatedSince := s.ftime, admitted := false, starved := false, injected := false })
  else .next s

/-- The core owns a tile other than its own (02, R45). -/
def State.adopter (s : State) (c : Nat) : Bool := (coreNear c).any fun t => s.owner t == some c

/-- What TCM of core `c` holds once it has been off (log 32). -/
def State.loseTcm (s : State) (c : Nat) : State :=
  let cells := (List.range Config.tcmBytes).map fun o => (tcmLoc c o, Config.lostByte s.turnNo (tcmLoc c o))
  { s with mem := s.mem.putAll cells }

/-- A power-gated core turns off (R98): TCM is lost, the token store stays (log 77). One for which the map cannot be read stays gated
(11, R252; log 81). -/
def execCorePowerOff (core : Nat) (s : State) : Out :=
  let k := s.core core
  if k.power = Power.powerGated ∧ k.waking = false ∧ k.gatedSince + 1000 * s.gov.offDly ≤ s.ftime then
    match (coreNear core).findSome? s.mapBad with
    | some l => .next (s.meets l 0 4096)
    | none =>
      if s.adopter core then .next s
      else .next (State.setCore (s.loseTcm core) core { k with power := .off, near := none })
  else .next s

/-- A wake completes (R98): a core that was off counts its cycles from 0, and near images are copied in again. -/
def execCoreWakeDone (core : Nat) (s : State) : Out :=
  let k := s.core core
  if k.waking then
    let k := { k with waking := false, admitted := false, power := .clockGated, idleSince := s.ftime,
                      cycle := if k.power = Power.off then 0 else k.cycle }
    let s := s.setCore core k
    if k.near.isNone then
      .next ((s.onCore core).foldl (fun s t =>
        match s.launchOfStrand t with
        | some la => if (s.objOf la).far then s else s.withImages t.launch la core false fun s => s
        | none => s) s)
    else .next s
  else .next s

end Sys2Proof.Machine
end

