-- ==== Sys2Proof/Machine/Send.lean ====
section
/-! DEFINITION. The send queue and the floating-point event rule (16, R341, R344; 19, R378; 07, R164). -/

namespace Sys2Proof.Machine

def State.link (s : State) (p : Nat) : Link := Table.getD s.links p Link.blank
def State.setLink (s : State) (p : Nat) (l : Link) : State := { s with links := Table.set s.links p l }

/-- The four ports start training, as bring-up has it (log 41). -/
def State.trainLinks (s : State) : State :=
  (List.range 4).foldl (fun s p => s.setLink p { s.link p with begun := true }) s

/-- Destination value (02, R33). -/
def destCore (w : Word) : Nat := natBits w.toNat 13 0
def destDev (w : Word) : Nat := natBits w.toNat 17 14
def destExt (w : Word) : Bool := w.getLsbD 18

/-- The checks of R344 on a destination value. -/
def State.destOk (s : State) (w : Word) : Bool :=
  natBits w.toNat 63 19 == 0 &&
  (if destExt w then
     let r := Table.getD s.routes (destDev w) 0
     r.getLsbD 2 && (s.link (r.toNat % 4)).up
   else decide (destCore w ≤ 9215) && !(s.core (destCore w)).failed)

/-- The smallest scope that holds both cores (R325). -/
def pairScope (a b : Nat) (ext : Bool) : Scope :=
  if ext then .system else if a = b then .core else if sheafOf a = sheafOf b then .sheaf else .field

/-- A message from the strand in slot `sid` to `dest`. -/
def State.message (s : State) (sid : Nat) (dest : Word) (mbox : BitVec 2) (len : Nat) (data : List Byte)
    (rel : List Nat) : Msg :=
  let t := s.strand sid
  { dest := BitVec.ofNat 14 (destCore dest),
    ext := if destExt dest then some (BitVec.ofNat 4 (destDev dest)) else none,
    mbox := mbox, ctx := t.ctx, dev := s.host.devId, src := BitVec.ofNat 16 sid, len := len,
    data := (data ++ List.replicate 64 0).take 64, rel := rel, launch := s.accOf t.launch }

/-- The FPX message of a parked strand (R378). -/
def State.fpxMessage (s : State) (sid : Nat) (e : Events) : Msg :=
  let t := s.strand sid
  s.message sid t.fpxsup 2 16
    (leBytes t.pc.toNat 8 ++ leBytes sid 2 ++ leBytes s.host.devId.toNat 1 ++ leBytes t.ctx.toNat 1 ++
     leBytes e.toNat 1 ++ leBytes t.fflags.toNat 1 ++ [0, 0]) []

/-- The strand in slot `sid` parks for its supervisor with the events `e` (R164): its message takes the next free entry of the
send queue, after those that have waited longer (R378). -/
def State.park (s : State) (sid : Nat) (e : Events) : State :=
  let core := coreOf sid
  let m := s.fpxMessage sid e
  let s := s.setStrand sid { s.strand sid with parked := some e }
  if (s.core core).sendRoom then s.pushSend core m
  else { s with waitNo := s.waitNo + 1 }.setCore core { s.core core with fpx := (s.core core).fpx ++ [(s.waitNo, m)] }

/-! ### The event rule (07, R164) -/

/-- A form that raised the events `e` and would leave the strand as `t` otherwise: it completes, parks for its supervisor,
or raises FPX_LOCAL. -/
def State.fpEnd (s : State) (t : Strand) (e : Events) : Out :=
  let me := s.me
  let flags := me.fflags ||| e
  if e &&& (me.fen &&& ~~~me.fenMask) = 0 then s.finish { t with fflags := flags }
  else
    let s := s.setMe { me with fflags := flags }
    if me.fpxsup.getLsbD 31 && s.destOk (me.fpxsup &&& 0x7FFFF) then .next (s.park s.cur e)
    else s.trap .fpxLocal (e.zeroExtend 64)

end Sys2Proof.Machine
end

