-- ==== Sys2Proof/Machine/BringUp.lean ====
section
/-! DEFINITION. The Tchimen: resets and bring-up, and the mailbox commands (02, R37-R46; 11, R246, R248; 19, R381; 20,
R396). -/

namespace Sys2Proof.Machine

/-! ### Firmware images (02, R39) -/

/-- The payload of an image. -/
def fwPayload (img : List Byte) : List Byte := (img.drop 0xC0).take (fieldAt img 0x0C 4)

/-- The three checks of R39. -/
def fwOk (img : List Byte) : Bool :=
  let key := (img.drop 0x40).take 64
  decide (Config.sm3 key = Config.fusedKeyHash) &&
    Config.sm2Verify key (Config.sm3 (img.take 0x40 ++ fwPayload img)) ((img.drop 0x80).take 64) &&
    decide (Config.rollback.toNat ≤ fieldAt img 0x08 4)

/-- The image of a kind staged for the next cold or warm reset. -/
def Tchimen.stagedFw (t : Tchimen) (field : Bool) : Option (List Byte) :=
  (t.staged.find? fun i => i.field == field).map (·.bytes)

/-- A staged image replaces the one of its kind staged earlier. -/
def Tchimen.stage' (t : Tchimen) (field : Bool) (img : List Byte) : Tchimen :=
  { t with staged := (t.staged.filter fun i => i.field != field) ++ [{ field := field, bytes := img }] }

/-! ### Core test, adoption and the ownership map (02, R43-R45) -/

/-- Cores that failed core test, in increasing id. -/
def failedCores (b : BringUp) : List Nat := (List.range Config.cores).filter fun c => b.failed.contains c

/-- The adopters: each failed core with the first neighbour that passed and adopts no other tile. -/
def adoptions (b : BringUp) : List (Nat × Nat) :=
  (failedCores b).foldl (fun (as : List (Nat × Nat)) c =>
    match (coreNear c).find? fun n => !(b.failed.contains n) && !(as.any fun a => a.2 == n) with
    | some n => as ++ [(c, n)]
    | none => as) []

/-- The map's entry for `tile`. -/
def mapValue (b : BringUp) (tile : Nat) : Nat :=
  if b.failed.contains tile then
    match (adoptions b).find? fun a => a.1 == tile with
    | some a => 0xC000 + a.2
    | none => 0
  else 0x8000 + tile

/-- The page lies where R45 puts it. -/
def State.pageOk (s : State) (page : Nat) : Bool :=
  page % 65536 == 0 &&
    (if s.tch.granC < 512 then decide (Config.granaryBase ≤ page ∧ page + 65536 ≤ s.granEnd)
     else decide (page + 65536 ≤ Config.hbmEnd))

/-- Step 4: core test. Every core starts anew; latches are 0 and pending swaps are gone (21, R404). -/
def State.coreTest (s : State) (b : BringUp) : State :=
  let bad := (failedCores b)
  let cores : Table Core := bad.map fun c => (c, { Core.blank with failed := true })
  let group (_ : Nat) (r : RowGroup) : RowGroup := { RowGroup.blank with trims := r.trims, periodAt := s.ftime }
  let tile (_ : Nat) (t : Tile) : Tile := { Tile.blank with groups := Table.mapVals group t.groups }
  { s with cores := cores, tiles := Table.mapVals tile s.tiles,
           tch := { s.tch with stage := 4, adopted := (adoptions b).length, dark := decide ((adoptions b).length < bad.length) } }

/-- Step 5: the Tchimen writes the map (11, R251) and OWNMAP. -/
def State.writeMap (s : State) (b : BringUp) : State :=
  let cells := cellsAt b.page ((List.range Config.cores).flatMap fun t => leBytes (mapValue b t) 2)
  let s := { s with host := { s.host with ownmap := some b.page }, tch := { s.tch with stage := 5 } }
  s.write Writer.tchimen cells

/-- Step 7. -/
def State.setReady (s : State) : State := { s with tch := { s.tch with stage := 7, ready := true } }

/-! ### Cold and warm reset (02, R37, R38) -/

/-- What a cold or warm reset leaves before step 1: sticky fields, staged and running images; numbers go on. -/
def State.powerOn (s : State) : State :=
  let g := s.gov
  let gov := { Governor.blank with ocCount := g.ocCount, ocTime := g.ocTime, ocBits := g.ocBits, thermTrip := g.thermTrip }
  let tch := { Tchimen.blank with staged := s.tch.staged, fieldFw := s.tch.fieldFw }
  { State.reset with agenda := s.agenda, turnNo := s.turnNo, seqNo := s.seqNo, uidNo := s.uidNo, opNo := s.opNo,
                     waitNo := s.waitNo, accNo := s.accNo, reqNo := s.reqNo, gov := gov, tch := tch }

/-- Recovery at step `n`. -/
def State.recover (s : State) (n : Nat) : State :=
  State.trainLinks { s with tch := { s.tch with stage := n, fwrecov := true, pcieUp := true } }

/-- The image of a kind that was staged takes effect. -/
def State.takeStaged (s : State) (field : Bool) : State :=
  match s.tch.stagedFw field with
  | none => s
  | some img =>
    let t := { s.tch with staged := s.tch.staged.filter fun i => i.field != field }
    { s with tch := if field then { t with fieldFw := some img } else t }

/-- Steps 1 to 5, and the wait of step 6. -/
def State.bringUp (s : State) (b : BringUp) : State :=
  if !(b.fw1 && (s.tch.stagedFw false).all fwOk) then s.recover 1
  else
    let s := s.takeStaged false
    if !(b.fw2 && (s.tch.stagedFw true).all fwOk) then s.recover 2
    else
      let s := s.takeStaged true
      let s := State.trainLinks { s with tch := { s.tch with stage := 3, pcieUp := true } }
      let s := (s.coreTest b).writeMap b
      { s with tch := { s.tch with stage := 6 } }

def execColdReset (b : BringUp) (s : State) : Out :=
  if s.powerOn.pageOk b.page then .next (s.powerOn.bringUp b) else .next s

def execWarmReset (b : BringUp) (s : State) : Out :=
  let s' := s.powerOn
  if s'.pageOk b.page then .next (s'.bringUp b) else .next s

/-- 2 s pass in step 6. -/
def execCalloadWaitTimeout (s : State) : Out :=
  if s.tch.stage = 6 ∧ s.tch.fwrecov = false then .next (s.noteHealth s.setReady) else .next s

/-! ### Field reset (02, R37, R38) -/

/-- What a field reset leaves before step 4: the sticky fields, the PCIe link with MSI-X, QCFG, the route table, DEVID, the
calibration and the firmware, field time, and memory outside the cores' own. A mailbox command that runs is dropped: BUSY and
RESULT read 0 and no vector 0 is signalled for it (R40 leaves it open; log 39). -/
def State.fieldBase (s : State) : State :=
  let g := s.gov
  let gov := { Governor.blank with ocCount := g.ocCount, ocTime := g.ocTime, ocBits := g.ocBits, thermTrip := g.thermTrip,
                                   tick := s.ftime / 1000 }
  let t := s.tch
  let tch := { Tchimen.blank with
    staged := t.staged, fieldFw := t.fieldFw, calDigest := t.calDigest, trims := t.trims, gransetNext := t.gransetNext,
    granC := t.gransetNext, pcieUp := t.pcieUp }
  let h := s.host
  let host := { HostRegs.blank with
    devNext := h.devNext, devId := h.devNext, msixEn := h.msixEn, msixMask := h.msixMask, msixPend := h.msixPend,
    msixTable := h.msixTable, msixSent := h.msixSent, hostData := h.hostData, hostBad := h.hostBad }
  let ports := Table.mapVals (fun _ (p : Port) =>
    { Port.blank with note := p.note, vec := p.vec, en := p.en, ctx := p.ctx }) s.ports
  let s' := { s.powerOn with gov := gov, tch := tch, host := host, ports := ports }
  let m := s.mem.filter fun e => s'.physOk e.1
  { s' with ftime := s.ftime, mem := m, tags := s.tags.filter (fun e => s'.physOk (64 * e.1)),
            poison := s.poison.filter s'.physOk, tiles := s.tiles, routes := s.routes, dbg := s.dbg }

/-- The field reset that FRESET asked for. In recovery the request stands and nothing starts until a cold or warm reset (log
39). -/
def execFieldReset (b : BringUp) (s : State) : Out :=
  let s0 := s.fieldBase
  if s.host.freset && !s.tch.fwrecov && s0.pageOk b.page then
    let down := s.links.any fun e => e.2.up || e.2.deg
    let s4 := s.noteHealth (s0.coreTest b)
    let s4 := if down && s.health == s4.health then s4.signal 0 else s4
    let s5 := s4.noteHealth (s4.writeMap b).trainLinks
    .next (s5.noteHealth s5.setReady)
  else .next s

/-- Loss of the always-on power: the sticky fields return to reset. -/
def execAlwaysOnPowerLoss (s : State) : Out :=
  .next (s.noteHealth { s with gov := { s.gov with ocCount := 0, ocTime := 0, ocBits := 0, thermTrip := false } })

/-! ### The mailbox (02, R40) -/

/-- Byte `i` of the running command's arguments. -/
def State.mbArg (s : State) (i : Nat) : Byte :=
  if Config.mbFresh s.turnNo (i / 4) then s.tch.buf.byte i else s.tch.args.byte i

/-- `n` bytes of arguments from offset `o`. -/
def State.mbArgs (s : State) (o n : Nat) : List Byte := (List.range n).map fun i => s.mbArg (o + i)
def State.mbNum (s : State) (o n : Nat) : Nat := leNat (s.mbArgs o n)

/-- A command ends: results, LEN, RESULT, BUSY and vector 0. -/
def State.mbEnd (s : State) (result : Byte) (out : List Byte) : State :=
  let t := s.tch
  let t := { t with result := result, busy := false, running := none, rlen := out.length, buf := t.buf.putAll (cellsAt 0 out) }
  State.signal { s with tch := t } 0

/-- The commands served in recovery. -/
def mbRecovery (code : Byte) : Bool := code == 0x01 || code == 0x02

/-- The host writes `code` to MBCMD. -/
def State.mbStart (s : State) (code : Byte) : State :=
  if !s.tch.pcieUp then s
  else
    let s := { s with tch := { s.tch with code := code } }
    if s.tch.busy then { s with tch := { s.tch with result := 0x02 } }
    else if s.tch.fwrecov && !(mbRecovery code) then s.mbEnd 0x05 []
    else if code = 0 || decide (7 < code.toNat) then s.mbEnd 0x04 []
    else { s with tch := { s.tch with busy := true, running := some code, args := s.tch.buf } }

def execAttest (s : State) : Out := .next (s.mbStart 0x01)
def execFwstage (s : State) : Out := .next (s.mbStart 0x02)
def execCalload (s : State) : Out := .next (s.mbStart 0x03)
def execGranset (s : State) : Out := .next (s.mbStart 0x04)
def execVtlog (s : State) : Out := .next (s.mbStart 0x05)
def execEndctx (s : State) : Out := .next (s.mbStart 0x06)
def execKvec (s : State) : Out := .next (s.mbStart 0x07)
/-- A code that the table of R40 does not hold. -/
def execMbUnknownCommand (code : Byte) (s : State) : Out :=
  if code = 0 ∨ 7 < code.toNat then .next (s.mbStart code) else .next s

/-- The first `n` bytes of a list, with zeros where it is shorter. -/
def fixLen (n : Nat) (bs : List Byte) : List Byte := (bs ++ List.replicate n 0).take n

/-- The report of ATTEST (R41); its ROLLBK is the fused counter (log 40: the rule does not say which one). -/
def State.attestReport (s : State) (nonce : List Byte) : List Byte :=
  let fw :=
    if s.tch.fwrecov then Config.recoveryDigest
    else match s.tch.fieldFw with
      | some img => Config.sm3 (fwPayload img)
      | none => Config.fieldFwDigest
  let body := nonce ++ fixLen 64 Config.identityKey ++ fixLen 32 fw ++ fixLen 32 s.tch.calDigest ++
    leBytes Config.rollback.toNat 4 ++ leBytes 0 4 ++ leBytes s.health.toNat 8
  body ++ fixLen 64 (Config.sm2Sign (Config.sm3 body))

/-- The Tchimen reads an image of `n` bytes at `a` of HBM4: `ok` goes on with its bytes; with a word that cannot be read, each such word
or line is met (11, R252) and `bad` ends the command, as a check that fails does (log 86). -/
def State.readImage (s : State) (a n : Nat) (ok : List Byte → State) (bad : State → State) : State :=
  let us := s.badUnits a n
  if us.isEmpty then ok (s.far.bytes a n) else bad (us.foldl (fun s u => s.meets u 0 4096) s)

/-- FWSTAGE (R39, R40). Chunks of both kinds gather in one store; the kind in the chunk with LAST 1 is the image's, and that chunk
leaves the store empty whatever the checks say (log 68). -/
def State.runFwstage (s : State) : State :=
  let at' := s.mbNum 0 8
  let size := s.mbNum 8 4
  let kind := s.mbNum 12 1
  let src := s.mbNum 13 1
  let last := s.mbNum 14 1
  let take (s : State) (img : List Byte) : State :=
    if fwOk img then State.mbEnd { s with tch := s.tch.stage' (kind == 1) img } 0x00 [] else s.mbEnd 0x01 []
  if 1 < kind ∨ 1 < src ∨ 1 < last ∨ 0x4000000 < size then s.mbEnd 0x03 []
  else if src = 0 then
    if Config.hbmEnd < at' + size then s.mbEnd 0x03 []
    else s.readImage at' size (take s) fun s => s.mbEnd 0x01 []
  else if size = 0 ∨ 4032 < size ∨ s.tch.chunks.length < at' ∨ 0x4000000 < at' + size then s.mbEnd 0x03 []
  else
    let img := s.tch.chunks.take at' ++ s.mbArgs 64 size
    if last = 1 then take { s with tch := { s.tch with chunks := [] } } img
    else State.mbEnd { s with tch := { s.tch with chunks := img } } 0x00 []

/-- Bytes of a calibration image. -/
def calBytes : Nat := 113246208

/-- CALLOAD (R42). -/
def State.runCalload (s : State) : State :=
  let at' := s.mbNum 0 8
  let digest := s.mbArgs 8 32
  let fails (s : State) : State := State.mbEnd { s with tch := { s.tch with calfail := true } } 0x01 []
  if Config.hbmEnd < at' + calBytes then s.mbEnd 0x03 []
  else s.readImage at' calBytes (fun bs =>
    if Config.sm3 bs ≠ digest then fails s
    else
      let img : Memory := (s.far.within at' (at' + calBytes)).map fun e => (e.1 - at', e.2)
      State.mbEnd { s with tch := { s.tch with calfail := false, calDigest := digest, trims := some img } } 0x00 []) fails

/-- GRANSET (11, R248). -/
def State.runGranset (s : State) : State :=
  let c := s.mbNum 0 2
  if [0, 128, 256, 384, 512].contains c then State.mbEnd { s with tch := { s.tch with gransetNext := c } } 0x00 []
  else s.mbEnd 0x03 []

/-- VTLOG (11, R246). -/
def State.runVtlog (s : State) : State :=
  let c := s.mbNum 0 2
  let k := s.core c
  if Config.cores ≤ c then s.mbEnd 0x03 []
  else s.mbEnd 0x00 (leBytes k.visits.toNat 4 ++ leBytes k.aborts.toNat 4 ++ leBytes k.mismatches.toNat 4)

/-- ENDCTX (19, R381). -/
def State.runEndctx (s : State) : State :=
  let c := s.mbNum 0 1
  if c = 0 ∨ 15 < c then s.mbEnd 0x03 [] else (s.endContext (BitVec.ofNat 4 c) 0).mbEnd 0x00 []

/-- KVEC (20, R396). -/
def State.runKvec (s : State) : State :=
  let c := s.mbNum 0 1
  let a := s.mbNum 8 8
  if c = 0 ∨ 15 < c ∨ 2 ^ 48 ≤ a ∨ a % 4 ≠ 0 then s.mbEnd 0x03 []
  else State.mbEnd { s with tch := { s.tch with kvec := Table.set s.tch.kvec c (BitVec.ofNat 64 a) } } 0x00 []

/-- The running command is carried out and ends; a CALLOAD ends the wait of step 6. -/
def State.mbRun (s : State) (code : Byte) : State :=
  if code = 0x01 then s.mbEnd 0x00 (s.attestReport (s.mbArgs 0 32))
  else if code = 0x02 then s.runFwstage
  else if code = 0x03 then
    let s := s.runCalload
    if s.tch.stage = 6 then s.setReady else s
  else if code = 0x04 then s.runGranset
  else if code = 0x05 then s.runVtlog
  else if code = 0x06 then s.runEndctx
  else s.runKvec

def execMbCommandEnd (s : State) : Out :=
  match s.tch.running with
  | some code => .next (s.noteHealth (s.mbRun code))
  | none => .next s

end Sys2Proof.Machine
end

