-- ==== Sys2Proof/Machine/Control.lean ====
section
/-! DEFINITION. Branches, jumps, the hardware loop, the register window, traps and strand control
(07, R152-R156, R165-R170; 15, R320; 19, R374-R377). -/

namespace Sys2Proof.Machine

/-! ### Branches and jumps (R152, R153) -/

/-- A branch of word `i`: taken when `c` holds of xa and xb. -/
def branch (i : Instr) (c : Word → Word → Bool) (b a : XReg) (o : BitVec 16) (s : State) : Out :=
  s.offLoop i (s.finishTo s.me (if c (s.me.xr a) (s.me.xr b) then s.me.pc + wordOff o else s.me.pc + 4))

def execBeq (b a : XReg) (o : BitVec 16) (s : State) : Out := branch (.beq b a o) (fun x y => x == y) b a o s
def execBne (b a : XReg) (o : BitVec 16) (s : State) : Out := branch (.bne b a o) (fun x y => x != y) b a o s
def execBlt (b a : XReg) (o : BitVec 16) (s : State) : Out := branch (.blt b a o) (fun x y => x.slt y) b a o s
def execBge (b a : XReg) (o : BitVec 16) (s : State) : Out := branch (.bge b a o) (fun x y => !(x.slt y)) b a o s
def execBltu (b a : XReg) (o : BitVec 16) (s : State) : Out := branch (.bltu b a o) (fun x y => x.ult y) b a o s
def execBgeu (b a : XReg) (o : BitVec 16) (s : State) : Out := branch (.bgeu b a o) (fun x y => !(x.ult y)) b a o s

def execJmp (o : BitVec 26) (s : State) : Out := s.offLoop (.jmp o) (s.finishTo s.me (s.me.pc + wordOff o))

def execJal (o : BitVec 26) (s : State) : Out :=
  s.offLoop (.jal o) (s.finishTo (s.me.setX 1 (s.me.pc + 4)) (s.me.pc + wordOff o))

def execJalr (d a : XReg) (i : BitVec 16) (s : State) : Out :=
  let t := s.me.xr a + sext i
  s.offLoop (.jalr d a i)
    (if t.toNat % 4 ≠ 0 then s.trap .align t else s.finishTo (s.me.setX d (s.me.pc + 4)) t)

/-! ### The hardware loop (R154) -/

def execLoop (a : XReg) (l : BitVec 5) (s : State) : Out :=
  let n := s.me.xr a
  let pc := s.me.pc
  let fin := pc + 4 + 4 * zext l
  s.offLoop (.loop a l)
    (if n = 0 then s.finishTo s.me fin
     else s.finishTo { s.me with lpstart := pc + 4, lpend := fin, lpc := n, loopBuf := [] } (pc + 4))

/-! ### The register window (R142, R156) -/

def Strand.winBase (t : Strand) : Nat := natBits t.xwin.toNat 4 0
def Strand.winLen (t : Strand) : Nat := natBits t.xwin.toNat 10 5

/-- The register of window index `i`, none outside the window. -/
def Strand.winReg (t : Strand) (i : Word) : Option XReg :=
  if 0 ≤ i.toInt ∧ i.toInt < t.winLen then some (BitVec.ofNat 5 (t.winBase + i.toNat)) else none

def execXrd (d a : XReg) (s : State) : Out :=
  match s.me.winReg (s.me.xr a) with
  | none => s.trap .window (s.me.xr a)
  | some r => s.finish (s.me.setX d (s.me.xr r))

def execXwr (a b : XReg) (s : State) : Out :=
  match s.me.winReg (s.me.xr a) with
  | none => s.trap .window (s.me.xr a)
  | some r => s.finish (s.me.setX r (s.me.xr b))

/-! ### Traps and returns (R374-R377) -/

def execTrap (a : XReg) (s : State) : Out := s.trapAfter .trap (s.me.xr a)
def execSysc (s : State) : Out := s.trapAfter .sysc 0
def execBrk (n : BitVec 10) (s : State) : Out := s.trapAfter .brk (zext n)

def execKret (s : State) : Out :=
  s.inK .kret (s.offLoop .kret
    (if s.me.epc.toNat % 4 ≠ 0 then s.trap .align s.me.epc else s.finishTo s.me.kret s.me.epc))

def execHalt (a : XReg) (s : State) : Out :=
  s.inK (.halt a) (.next (s.endContext s.me.ctx ((s.me.xr a).toNat % 256)))

/-! ### Strand control (R165-R170, R320) -/

def execNap (a : XReg) (s : State) : Out :=
  if (s.me.xr a).toNat ≤ s.ftime then s.finish s.me else s.wait (.nap (s.me.xr a).toNat)

/-- `yield` completes as a `nop`; the core passes the strand over in the next cycle (R168). -/
def execYield (s : State) : Out := .next (s.setMe { s.me.done with yielded := true })

/-- Inside a captured loop body the next word comes from the loop buffer all the same (R123, R154 against R169; log 78). -/
def execFencei (s : State) : Out :=
  let c := s.myCore
  State.finish (s.setCore c { s.core c with icache := [] }) { s.me with fbuf := [] }

def execSethue (h : BitVec 3) (s : State) : Out := s.finish { s.me with hue := h }

def execPwrh (a : XReg) (s : State) : Out :=
  s.finish { s.me with pwrreq := BitVec.ofNat 4 (min (s.me.xr a).toNat 15) }

/-- A key that strand `uid` holds (R355). -/
def State.heldKey (s : State) (uid : Nat) : Option Word :=
  (s.keys.find? fun e => e.holder.any fun h => h.1 == uid).map (·.key)

/-- Strand `uid` of launch `k` has retired: a mesh slot is done, AUTO points take it as arrived, its slot of a work
queue is free (21, R401). -/
def State.retired (s : State) (k uid ordinal : Nat) (spawned : Bool) : State :=
  let s := s.freeTaken [uid]
  match Table.get? s.launches k with
  | none => s
  | some la =>
    let s := { s with launches := Table.set s.launches k { la with retired := la.retired + 1 } }
    let doneSlot (m : MeshSlot) : MeshSlot :=
      if m.launch = k ∧ m.ordinal = ordinal ∧ !spawned then { m with retired := true } else m
    let doneRing (_ : Nat) (r : MeshRing) : MeshRing := { r with slots := r.slots.map doneSlot }
    State.settlePoints { s with rings := Table.mapVals doneRing s.rings }

def execDone (s : State) : Out :=
  match s.heldKey s.me.uid with
  | some k => s.trap .keyorder k
  | none =>
    let t := { s.me with instret := s.me.instret + 1 }
    let dropCounters (o : EngOp) : EngOp := { o with counters := o.counters.filter fun c => c.1 != t.uid }
    let s := { s with ops := s.ops.map dropCounters }
    let s := s.setMe (if s.spent t then t.vacate
      else { t with stat := .draining, lpc := 0, pend := [], preempt := none })
    .next (s.retired t.launch t.uid t.ordinal t.spawned)

/-! ### TLB invalidation (11, R266) -/

def inContext (x : Word) (c : BitVec 4) : Bool := natBits x.toNat 3 0 == 0 || natBits x.toNat 3 0 == c.toNat
def TlbEntry.removed (va x : Word) (e : TlbEntry) : Bool :=
  inContext x e.ctx && (x.getLsbD 4 || e.hits e.ctx va.toNat)
def WalkEntry.removed (va x : Word) (w : WalkEntry) : Bool :=
  inContext x w.ctx && (x.getLsbD 4 ||
    w.path == (if w.level = 1 then natBits va.toNat 47 37 else natBits va.toNat 47 26))

/-- Cores whose micro-TLB `tlbinv` of scope `sc` names. -/
def inTlbScope (sc : Scope) (core c : Nat) : Bool :=
  match sc with
  | .strand | .core => c == core
  | .sheaf => sheafOf c == sheafOf core
  | .field | .system => true

def State.tlbInvalidate (s : State) (sc : Scope) (core : Nat) (va x : Word) : State :=
  let cut (k : Nat) (c : Core) : Core :=
    if inTlbScope sc core k then { c with utlb := c.utlb.filter fun e => !(e.removed va x) } else c
  let cutS (k : Nat) (h : Sheaf) : Sheaf :=
    if (sc == .sheaf && k == sheafOf core) || 3 ≤ scopeNo sc then { h with tlb := h.tlb.filter fun e => !(e.removed va x) }
    else h
  let s := { s with cores := Table.mapVals cut s.cores, sheafs := Table.mapVals cutS s.sheafs }
  if 3 ≤ scopeNo sc then
    { s with walks := Table.mapVals (fun _ (l : List WalkEntry) => l.filter fun w => !(w.removed va x)) s.walks }
  else s

/-- The entries that a `tlbinv` removes from the micro-TLBs and sheaf TLBs it names. -/
def State.tlbGone (s : State) (sc : Scope) (core : Nat) (va x : Word) : List TlbEntry :=
  ((s.cores.filter fun e => inTlbScope sc core e.1).flatMap fun e => e.2.utlb.filter fun t => t.removed va x) ++
  ((s.sheafs.filter fun e => (sc == .sheaf && e.1 == sheafOf core) || 3 ≤ scopeNo sc).flatMap fun e =>
    e.2.tlb.filter fun t => t.removed va x)

/-- An access of context `c` to `a` may have used a removed entry: the 64 KiB page of `xa`, or a page that one of `gone`
maps. -/
def pageTouched (gone : List TlbEntry) (va x : Word) (c : BitVec 4) (a : Nat) : Bool :=
  decide (0x1000000 ≤ a) && inContext x c &&
    (x.getLsbD 4 || a / 2 ^ 16 == va.toNat / 2 ^ 16 || gone.any fun e => e.hits c a)

/-- Parts that are still to be taken of a read under way lie in a page that `p` accepts. -/
def Strand.readsIn (t : Strand) (p : Nat → Bool) : Option Nat :=
  match t.mid with
  | none => none
  | some u => if u.parts.any fun q => q.got.isNone && p q.va then some u.no else none

/-- What may have used a removed translation, of strands and operations in the scope, and is not yet performed: entries, engine
operations, reads under way (R266). -/
def State.tlbUsers (s : State) (sc : Scope) (core : Nat) (va x : Word) : List Nat × List Nat × List Nat :=
  let gone := s.tlbGone sc core va x
  let ts := s.strands.filter fun e => inTlbScope sc core (coreOf e.1)
  ((ts.map fun e => (e.2.buf.filter fun b => b.vas.any (pageTouched gone va x e.2.ctx)).map (·.seq)).flatten,
   (s.ops.filter fun o => inTlbScope sc core o.core && !o.stop && o.vas.any (pageTouched gone va x o.ctx)).map (·.id),
   ts.filterMap fun e => e.2.readsIn (pageTouched gone va x e.2.ctx))

/-- An entry that some party does not read yet and that may have used a removed translation is performed toward all of them. -/
def State.liftUsers (s : State) (sc : Scope) (core : Nat) (va x : Word) : State :=
  let gone := s.tlbGone sc core va x
  s.lift fun e => inTlbScope sc core e.core &&
    s.strands.any fun t => t.2.uid == e.uid && e.vas.any (pageTouched gone va x t.2.ctx)

/-- Those have been performed. -/
def State.usersDone (s : State) (set ops reads : List Nat) : Bool :=
  s.drained set && !(s.ops.any fun o => ops.contains o.id) &&
    !(s.strands.any fun e => e.2.mid.any fun u => reads.contains u.no)

def execTlbinv (a b : XReg) (sc : Scope) (s : State) : Out :=
  s.inK (.tlbinv a b sc)
    (match s.me.wait with
     | some (.tlb set ops reads) => if s.usersDone set ops reads then s.finish s.me else s.wait (.tlb set ops reads)
     | _ =>
       let s := s.liftUsers sc s.myCore (s.me.xr a) (s.me.xr b)
       let u := s.tlbUsers sc s.myCore (s.me.xr a) (s.me.xr b)
       let s := s.tlbInvalidate sc s.myCore (s.me.xr a) (s.me.xr b)
       if u.1.isEmpty && u.2.1.isEmpty && u.2.2.isEmpty then s.finish s.me else s.wait (.tlb u.1 u.2.1 u.2.2))

end Sys2Proof.Machine
end

