-- ==== Sys2Proof/Machine/Csr.lean ====
section
/-! DEFINITION. The control and status registers (07, R138-R145; 08, R175; 10, R213, R231; 11, R242; 19, R371;
21, R405). -/

namespace Sys2Proof.Machine

/-! ### Rights (R138, R139) -/

/-- What a CSR allows: U reads, U writes, K and F write. K and F read every CSR. -/
structure CsrRights where
  uRead : Bool
  uWrite : Bool
  kWrite : Bool
deriving DecidableEq, Repr

def csrRights (a : Nat) : CsrRights :=
  if a = 0x001 ∨ a = 0x002 ∨ a = 0x003 ∨ a = 0x00C ∨ (0x010 ≤ a ∧ a ≤ 0x013) ∨ a = 0x201 ∨
      (0x204 ≤ a ∧ a ≤ 0x206) ∨ (0x300 ≤ a ∧ a ≤ 0x3FF) then { uRead := true, uWrite := true, kWrite := true }
  else if (0x040 ≤ a ∧ a ≤ 0x044) ∨ a = 0x200 then { uRead := true, uWrite := false, kWrite := true }
  else if 0x100 ≤ a ∧ a ≤ 0x10A then { uRead := false, uWrite := false, kWrite := true }
  else { uRead := true, uWrite := false, kWrite := false }

/-! ### Reading -/

/-- `latepol` (R405). -/
def Core.latepol (c : Core) : Word :=
  BitVec.ofNat 64 ((if c.latePol then 1 else 0) + (if c.late then 2 ^ 16 else 0) + c.lates.toNat * 2 ^ 32)

/-- `qnan` (R175). -/
def Core.qnan (c : Core) : Word :=
  BitVec.ofNat 64 (c.qnan8.toNat + c.qnan6.toNat * 2 ^ 8 + c.qnan4.toNat * 2 ^ 16)

/-- `sid` of slot `sid` (R144). -/
def State.sidWord (s : State) (sid : Nat) : Word := BitVec.ofNat 64 (sid + s.host.devId.toNat * 2 ^ 16)

/-- The value of the CSR at `a` for the strand in slot `sid`. -/
def State.csrRead (s : State) (sid a : Nat) : Word :=
  let t := s.strand sid
  let c := s.core (coreOf sid)
  if 0x300 ≤ a then (Table.getD c.qtab (a - 0x300) 0).zeroExtend 64
  else
    match a with
    | 0x001 => t.fflags.zeroExtend 64
    | 0x002 => t.fen.zeroExtend 64
    | 0x003 => t.frm.zeroExtend 64
    | 0x008 => t.lpc
    | 0x009 => t.lpstart
    | 0x00A => t.lpend
    | 0x00C => t.xwin.zeroExtend 64
    | 0x010 => t.ddim.zeroExtend 64
    | 0x011 => t.skew
    | 0x012 => t.bvhlo.zeroExtend 64
    | 0x013 => t.bvhhi.zeroExtend 64
    | 0x020 => t.hue.zeroExtend 64
    | 0x021 => t.pwrreq.zeroExtend 64
    | 0x040 => t.stallto
    | 0x041 => t.pausemax
    | 0x042 => t.kprobe
    | 0x043 => t.gangto
    | 0x044 => t.fpxsup
    | 0x0C0 => c.cycle
    | 0x0C1 => t.instret
    | 0x0C2 => BitVec.ofNat 64 s.ftime
    | 0x0C3 => s.sidWord sid
    | 0x0C4 => t.ctx.zeroExtend 64
    | 0x100 => t.sstat
    | 0x101 => t.tvec
    | 0x102 => t.epc
    | 0x103 => t.cause.zeroExtend 64
    | 0x104 => t.tval
    | 0x105 => t.kscratch
    | 0x108 => t.elpc
    | 0x109 => t.elpstart
    | 0x10A => t.elpend
    | 0x200 => BitVec.ofNat 64 c.tokres
    | 0x201 => c.latepol
    | 0x204 => c.qbase6.zeroExtend 64
    | 0x205 => c.qbase4.zeroExtend 64
    | 0x206 => c.qnan
    | _ => 0

/-! ### Writing -/

/-- PMODE as a write from mode `m` stores it (R141). -/
def pmodeStore (m : BitVec 2) (v : Nat) : BitVec 2 :=
  if m = 2 then (if v = 3 then 2 else BitVec.ofNat 2 v) else (if 2 ≤ v then 1 else BitVec.ofNat 2 v)

/-- A write of `w` to the strand CSR at `a`. -/
def Strand.csrWrite (t : Strand) (a : Nat) (w : Word) : Strand :=
  match a with
  | 0x001 => { t with fflags := w.truncate 5 }
  | 0x002 => { t with fen := w.truncate 5 }
  | 0x003 => { t with frm := frmStore w }
  | 0x00C => { t with xwin := xwinStore w }
  | 0x010 => { t with ddim := ddimStore w }
  | 0x011 => { t with skew := skewStore w }
  | 0x012 => { t with bvhlo := w.truncate 48 }
  | 0x013 => { t with bvhhi := w.truncate 48 }
  | 0x040 => { t with stallto := w }
  | 0x041 => { t with pausemax := w }
  | 0x042 => { t with kprobe := w }
  | 0x043 => { t with gangto := w }
  | 0x044 => { t with fpxsup := fpxsupStore w }
  | 0x100 => { t with pmode := pmodeStore t.mode (natBits w.toNat 3 2) }
  | 0x101 => { t with tvec := tvecStore w }
  | 0x102 => { t with epc := w }
  | 0x103 => { t with cause := w.truncate 9 }
  | 0x104 => { t with tval := w }
  | 0x105 => { t with kscratch := w }
  | 0x108 => { t with elpc := w }
  | 0x109 => { t with elpstart := w }
  | 0x10A => { t with elpend := w }
  | _ => t

/-- A write of `w` to the core CSR at `a`. -/
def Core.csrWrite (c : Core) (a : Nat) (w : Word) : Core :=
  if 0x300 ≤ a then
    let v : BitVec 19 := w.truncate 19
    { c with qtab := if v = 0 then Table.erase c.qtab (a - 0x300) else Table.set c.qtab (a - 0x300) v }
  else
    match a with
    | 0x200 => { c with tokres := min w.toNat 131072 }
    | 0x201 => { c with latePol := w.getLsbD 0, late := c.late && !(w.getLsbD 16) }
    | 0x204 => { c with qbase6 := w.truncate 8 }
    | 0x205 => { c with qbase4 := w.truncate 8 }
    | 0x206 => { c with qnan8 := w.truncate 8, qnan6 := (w >>> 8).truncate 6, qnan4 := (w >>> 16).truncate 4 }
    | _ => c

/-- The CSR is one of the core. -/
def csrOfCore (a : Nat) : Bool := decide (0x200 ≤ a)

/-- The CSR forms (R145): `old` is what the CSR reads; `write` is the value to write, if the form writes. -/
def csrOp (i : Instr) (d : XReg) (c : BitVec 12) (write : Word → Option Word) (s : State) : Out :=
  let a := c.toNat
  let r := csrRights a
  let user := s.me.mode == 0
  let old := s.csrRead s.cur a
  if user && !r.uRead then s.trap .priv (wordOf i)
  else
    match write old with
    | none => s.finish (s.me.setX d old)
    | some w =>
      if user && !r.uWrite && r.kWrite then s.trap .priv (wordOf i)
      else if !r.kWrite then s.trap .illegal (wordOf i)
      else if csrOfCore a then
        State.finish (s.setCore s.myCore ((s.core s.myCore).csrWrite a w)) (s.me.setX d old)
      else s.finish ((s.me.csrWrite a w).setX d old)

/-- W: the W1C bits of a CSR. -/
def csrW1c (a : Nat) : Word := if a = 0x201 then 0x10000 else 0

def execCsrr (d : XReg) (c : BitVec 12) (s : State) : Out := csrOp (.csrr d c) d c (fun _ => none) s
def execCsrw (d a : XReg) (c : BitVec 12) (s : State) : Out :=
  csrOp (.csrw d a c) d c (fun _ => some (s.me.xr a)) s
def execCsrs (d a : XReg) (c : BitVec 12) (s : State) : Out :=
  let w := csrW1c c.toNat
  csrOp (.csrs d a c) d c
    (fun old => if a = 0 then none else some (((old ||| s.me.xr a) &&& ~~~w) ||| (s.me.xr a &&& w))) s
def execCsrc (d a : XReg) (c : BitVec 12) (s : State) : Out :=
  csrOp (.csrc d a c) d c
    (fun old => if a = 0 then none else some (old &&& ~~~(s.me.xr a) &&& ~~~(csrW1c c.toNat))) s

end Sys2Proof.Machine
end

