-- ==== Sys2Proof/Machine/Special.lean ====
section
/-! DEFINITION. The six special functions (09, R202), from series in fixed point with a sticky remainder (log 11). -/

namespace Sys2Proof.Machine

/-! ### Fixed point: numbers are counts of 2^-fixBits -/

def fixBits : Nat := 420
def fixOne : Nat := 2 ^ fixBits

/-- t − t·y/3 ... : Σ (−1)^i t·y^i/(2(k+i)+1), or with all signs plus, `n` terms. -/
def oddSum (alternate : Bool) (y : Nat) : Nat → Nat → Nat → Int
  | 0, _, _ => 0
  | n + 1, k, t =>
    let rest := oddSum alternate y n (k + 1) (t * y / fixOne)
    (t / (2 * k + 1) : Nat) + if alternate then -rest else rest

/-- atan(1/q) and atanh(p/q), p < q. -/
def atanInv (q : Nat) : Int := oddSum true (fixOne / (q * q)) 220 0 (fixOne / q)
def atanhFrac (p q : Nat) : Int := oddSum false (fixOne * p * p / (q * q)) 220 0 (fixOne * p / q)

/-- ln 2 = 2 atanh(1/3), and π by Machin. -/
def fixLn2 : Int := 2 * atanhFrac 1 3
def fixPi : Int := 16 * atanInv 5 - 4 * atanInv 239

/-- Σ y^i·t/(k+1)…(k+i). -/
def expSum (y : Nat) : Nat → Nat → Nat → Nat
  | 0, _, _ => 0
  | n + 1, k, t => t + expSum y n (k + 1) (t * y / fixOne / (k + 1))

/-- The alternating sum of t, t·y²/((k+1)(k+2)), …: cos from k = 0, t = 1; sin from k = 1, t = y. -/
def trigSum (y2 : Nat) : Nat → Nat → Nat → Int
  | 0, _, _ => 0
  | n + 1, k, t => (t : Int) - trigSum y2 n (k + 2) (t * y2 / fixOne / ((k + 1) * (k + 2)))

/-- A value that is no dyadic number, rounded: the fixed-point approximation is cut to 340 bits, and what is left is
sticky. -/
def Fmt.roundFix (f : Fmt) (rm : Rm) (neg : Bool) (v : Int) (e : Int) : Nat × Events :=
  f.round rm neg (v.toNat / 2 ^ 80) (e - 340) true

/-! ### The functions -/

/-- Clamp an exponent that lies far outside every format. -/
def clampExp (n : Int) : Int := if n < -5000 then -5000 else if 5000 < n then 5000 else n

def Fmt.rcpF (f : Fmt) (rm : Rm) (a : Fv) : Nat × Events := f.divF rm (.fin false 1 0) a

def Fmt.rsqF (f : Fmt) (rm : Rm) (a : Fv) : Nat × Events :=
  match a with
  | .nan _ => f.nanOf [a]
  | .inf n => if n then (f.nan, evNV) else (0, 0)
  | .fin n m e =>
    if m = 0 then ((if n then f.signBit else 0) + f.infBits, evDZ)
    else if n then (f.nan, evNV)
    else
      let m' := if e % 2 = 0 then m else 2 * m
      let e' := if e % 2 = 0 then e else e - 1
      let k := f.mb + 4 + sigBits m'
      let q := 2 ^ (2 * k) / m'
      let r := isqrt q (sigBits q / 2 + 1) 0
      f.round rm false r (-(e' / 2) - k) (r * r * m' != 2 ^ (2 * k))

/-- 2^x: the integer part is the exponent, the fraction goes through e^(fraction · ln 2). -/
def Fmt.exp2F (f : Fmt) (rm : Rm) (a : Fv) : Nat × Events :=
  match a with
  | .nan _ => f.nanOf [a]
  | .inf n => if n then (0, 0) else (f.infBits, 0)
  | .fin n m e =>
    if 16 ≤ (sigBits m : Int) + e then f.round rm false 1 (if n then -5000 else 5000) false
    else if 0 ≤ e then f.round rm false 1 (clampExp (if n then -((m * 2 ^ e.toNat : Nat) : Int) else (m * 2 ^ e.toNat : Nat))) false
    else
      let den : Nat := 2 ^ (-e).toNat
      let x : Int := if n then -(m : Int) else m
      let i := x / den
      let r := (x % den).toNat
      if r = 0 then f.round rm false 1 (clampExp i) false
      else
        let y : Nat := (fixLn2.toNat * r) / den
        f.roundFix rm false (expSum y 120 0 fixOne) (clampExp i)

/-- log₂ x: the exponent of x plus ln(m)/ln 2 of its significand m in [1, 2). -/
def Fmt.log2F (f : Fmt) (rm : Rm) (a : Fv) : Nat × Events :=
  match a with
  | .nan _ => f.nanOf [a]
  | .inf n => if n then (f.nan, evNV) else (f.infBits, 0)
  | .fin n m e =>
    if m = 0 then (f.signBit + f.infBits, evDZ)
    else if n then (f.nan, evNV)
    else
      let b := sigBits m - 1
      let i : Int := e + b
      if m = 2 ^ b then f.roundDy rm (Dy.ofInt i)
      else
        let l : Int := 2 * atanhFrac (m - 2 ^ b) (m + 2 ^ b) * fixOne / fixLn2
        let v : Int := i * fixOne + l
        f.roundFix rm (decide (v < 0)) v.natAbs 0

/-- sin and cos of 2π·(q/4 + r), r = rem/(4·den): the quarter turn chooses the function and the sign. -/
def turnValue (cosine : Bool) (q rem den : Nat) : Int :=
  let th := 2 * fixPi.toNat * rem / (4 * den)
  let y2 := th * th / fixOne
  let sn := trigSum y2 100 1 th
  let cs := trigSum y2 100 0 fixOne
  match (q + if cosine then 1 else 0) % 4 with
  | 0 => sn
  | 1 => cs
  | 2 => -sn
  | _ => -cs

/-- sin or cos of x turns, x finite and not zero. -/
def Fmt.turnF (f : Fmt) (rm : Rm) (cosine : Bool) (n : Bool) (m : Nat) (e : Int) : Nat × Events :=
  let one (neg : Bool) : Nat × Events := f.round rm neg 1 0 false
  let den : Nat := if 0 ≤ e then 1 else 2 ^ (-e).toNat
  let frac := if 0 ≤ e then 0 else m % den
  let q := 4 * frac / den
  let rem := 4 * frac % den
  if rem = 0 then
    match (q + if cosine then 1 else 0) % 4 with
    | 1 => one (n && !cosine)
    | 3 => one (!(n && !cosine))
    | _ => (0, 0)
  else
    let v := turnValue cosine q rem den
    f.roundFix rm ((decide (v < 0)) != (n && !cosine)) v.natAbs 0

def Fmt.sinF (f : Fmt) (rm : Rm) (a : Fv) : Nat × Events :=
  match a with
  | .nan _ => f.nanOf [a]
  | .inf _ => (f.nan, evNV)
  | .fin n m e => if m = 0 then (if n then f.signBit else 0, 0) else f.turnF rm false n m e

def Fmt.cosF (f : Fmt) (rm : Rm) (a : Fv) : Nat × Events :=
  match a with
  | .nan _ => f.nanOf [a]
  | .inf _ => (f.nan, evNV)
  | .fin n m e => if m = 0 then f.round rm false 1 0 false else f.turnF rm true n m e

end Sys2Proof.Machine
end

