-- ==== Sys2Proof/Machine/Vector.lean ====
section
/-! DEFINITION. Vector and predicate instructions (09, R191-R206). -/

namespace Sys2Proof.Machine

/-! ### Elements (R191) -/

/-- The elements of `w` bytes of a register, element 0 first. -/
def elemsOf (w : Nat) (v : V128) : List Nat :=
  (List.range (16 / w)).map fun e => v.toNat / 2 ^ (8 * w * e) % 2 ^ (8 * w)

/-- A number whose fields of `b` bits are the values, the first lowest. -/
def packBits (b : Nat) : List Nat → Nat
  | [] => 0
  | x :: t => x % 2 ^ b + 2 ^ b * packBits b t

/-- A register of the elements. -/
def ofElems (w : Nat) (l : List Nat) : V128 := BitVec.ofNat 128 (packBits (8 * w) l)

def vSigned : VType → Bool
  | .ib | .ih | .iw => true
  | _ => false

/-- The number an integer element of `bits` bits holds. -/
def intElem (signed : Bool) (bits n : Nat) : Int :=
  if signed && decide (2 ^ (bits - 1) ≤ n) then (n : Int) - 2 ^ bits else n

def loInt (signed : Bool) (bits : Nat) : Int := if signed then -(2 ^ (bits - 1)) else 0
def hiInt (signed : Bool) (bits : Nat) : Int := if signed then 2 ^ (bits - 1) - 1 else 2 ^ bits - 1
def saturate (signed : Bool) (bits : Nat) (n : Int) : Int := max (loInt signed bits) (min (hiInt signed bits) n)
/-- An integer reduced to `bits` bits. -/
def wrapInt (bits : Nat) (n : Int) : Nat := (n % 2 ^ bits).toNat

def vFmt : VType → Fmt
  | .f16 => fmtH
  | _ => fmtS

/-- Bits of an element. -/
def vBits (t : VType) : Nat := 8 * t.width

/-- Element `e` of width `w` is active (R192). -/
def active (p : BitVec 16) (w e : Nat) : Bool := p.getLsbD (w * e)

/-! ### The template (R195) -/

/-- The active elements of `old` replaced by what `op` makes at their position, with the union of the events. -/
def predicated (p : BitVec 16) (w : Nat) (old : List Nat) (op : Nat → Nat × Events) : List Nat × Events :=
  let r := (List.range old.length).map fun e => if active p w e then op e else (old.getD e 0, (0 : Events))
  (r.map (·.1), r.foldl (fun ev x => ev ||| x.2) 0)

/-- An element-wise form of destination width `w`. -/
def State.vWise (s : State) (d : VReg) (p : PReg) (w : Nat) (op : Nat → Nat × Events) : Out :=
  let r := predicated (s.me.pr p) w (elemsOf w (s.me.vr d)) op
  s.fpEnd (s.me.setV d (ofElems w r.1)) r.2

/-- A two-source form: `fi` on integers with the bits of a type, `ff` on float bits. -/
def vOp (fi : Int → Int → Int → Int) (ff : Fmt → Rm → Nat → Nat → Nat → Nat × Events) (d a b : VReg) (p : PReg)
    (t : VType) (s : State) : Out :=
  let x := elemsOf t.width (s.me.vr a)
  let y := elemsOf t.width (s.me.vr b)
  let z := elemsOf t.width (s.me.vr d)
  let i (n : Nat) : Int := intElem (vSigned t) (vBits t) n
  s.vWise d p t.width fun e =>
    let xe := x.getD e 0
    let ye := y.getD e 0
    let ze := z.getD e 0
    if t.isFloat then ff (vFmt t) (rmOf s.me.frm) xe ye ze else (wrapInt (vBits t) (fi (i xe) (i ye) (i ze)), 0)

/-- A form with no float types: `f` takes the width in bits and the two elements' bits. -/
def vBitOp (f : Nat → Nat → Nat → Nat) (d a b : VReg) (p : PReg) (t : VType) (s : State) : Out :=
  let x := elemsOf t.width (s.me.vr a)
  let y := elemsOf t.width (s.me.vr b)
  s.vWise d p t.width fun e => (f (vBits t) (x.getD e 0) (y.getD e 0), 0)

def execVadd (d a b : VReg) (p : PReg) (t : VType) (s : State) : Out :=
  vOp (fun x y _ => x + y) (fun f rm x y _ => f.addF rm (f.decode x) (f.decode y)) d a b p t s
def execVsub (d a b : VReg) (p : PReg) (t : VType) (s : State) : Out :=
  vOp (fun x y _ => x - y) (fun f rm x y _ => f.subF rm (f.decode x) (f.decode y)) d a b p t s
def execVmul (d a b : VReg) (p : PReg) (t : VType) (s : State) : Out :=
  vOp (fun x y _ => x * y) (fun f rm x y _ => f.mulF rm (f.decode x) (f.decode y)) d a b p t s
def execVma (d a b : VReg) (p : PReg) (t : VType) (s : State) : Out :=
  vOp (fun x y z => z + x * y) (fun f rm x y z => f.fmaF rm (f.decode x) (f.decode y) (f.decode z)) d a b p t s
def execVmin (d a b : VReg) (p : PReg) (t : VType) (s : State) : Out :=
  vOp (fun x y _ => min x y) (fun f _ x y _ => f.pick true x y) d a b p t s
def execVmax (d a b : VReg) (p : PReg) (t : VType) (s : State) : Out :=
  vOp (fun x y _ => max x y) (fun f _ x y _ => f.pick false x y) d a b p t s
def execVand (d a b : VReg) (p : PReg) (t : VType) (s : State) : Out := vBitOp (fun _ x y => x &&& y) d a b p t s
def execVor (d a b : VReg) (p : PReg) (t : VType) (s : State) : Out := vBitOp (fun _ x y => x ||| y) d a b p t s
def execVxor (d a b : VReg) (p : PReg) (t : VType) (s : State) : Out := vBitOp (fun _ x y => x ^^^ y) d a b p t s
def execVandn (d a b : VReg) (p : PReg) (t : VType) (s : State) : Out :=
  vBitOp (fun n x y => x &&& (2 ^ n - 1 - y)) d a b p t s
def execVshl (d a b : VReg) (p : PReg) (t : VType) (s : State) : Out :=
  vBitOp (fun n x y => x * 2 ^ (y % n)) d a b p t s
def execVshr (d a b : VReg) (p : PReg) (t : VType) (s : State) : Out :=
  vBitOp (fun n x y => wrapInt n (intElem (vSigned t) n x / 2 ^ (y % n))) d a b p t s
def execVaddsat (d a b : VReg) (p : PReg) (t : VType) (s : State) : Out :=
  vOp (fun x y _ => saturate (vSigned t) (vBits t) (x + y)) (fun _ _ x _ _ => (x, 0)) d a b p t s
def execVsubsat (d a b : VReg) (p : PReg) (t : VType) (s : State) : Out :=
  vOp (fun x y _ => saturate (vSigned t) (vBits t) (x - y)) (fun _ _ x _ _ => (x, 0)) d a b p t s
def execVmulh (d a b : VReg) (p : PReg) (t : VType) (s : State) : Out :=
  vOp (fun x y _ => x * y / 2 ^ vBits t) (fun _ _ x _ _ => (x, 0)) d a b p t s

/-- `vabs` and `vneg`: float bits are copied but for the sign. -/
def execVabs (d a : VReg) (p : PReg) (t : VType) (s : State) : Out :=
  let x := elemsOf t.width (s.me.vr a)
  s.vWise d p t.width fun e =>
    let n := x.getD e 0
    if t.isFloat then (n % (vFmt t).signBit, 0)
    else (wrapInt (vBits t) (intElem true (vBits t) n).natAbs, 0)
def execVneg (d a : VReg) (p : PReg) (t : VType) (s : State) : Out :=
  let x := elemsOf t.width (s.me.vr a)
  s.vWise d p t.width fun e =>
    let n := x.getD e 0
    if t.isFloat then (n ^^^ (vFmt t).signBit, 0) else (wrapInt (vBits t) (-(n : Int)), 0)

/-- `vsel` (R196): the predicate chooses, every element is written. -/
def execVsel (d a b : VReg) (p : PReg) (t : VType) (s : State) : Out :=
  let x := elemsOf t.width (s.me.vr a)
  let y := elemsOf t.width (s.me.vr b)
  s.finish (s.me.setV d (ofElems t.width ((List.range (16 / t.width)).map fun e =>
    if active (s.me.pr p) t.width e then x.getD e 0 else y.getD e 0)))

/-! ### Dot products (R197) -/

/-- Sum of the `k` products of element group `i`. -/
def dotInt (t : VType) (x y : List Nat) (k i : Nat) : Int :=
  ((List.range k).map fun j =>
    intElem (vSigned t) (vBits t) (x.getD (k * i + j) 0) * intElem (vSigned t) (vBits t) (y.getD (k * i + j) 0)).sum

def vDotInt (k : Nat) (d a b : VReg) (p : PReg) (t : VType) (s : State) : Out :=
  let x := elemsOf t.width (s.me.vr a)
  let y := elemsOf t.width (s.me.vr b)
  let z := elemsOf 4 (s.me.vr d)
  s.vWise d p 4 fun i => (wrapInt 32 ((z.getD i 0 : Nat) + dotInt t x y k i), 0)

/-- The product of two f16 values as a term, with its NV: NaN for a NaN operand and for ∞·0. -/
def termOf (a b : Fv) : Fv × Events :=
  if a.isNan || b.isNan then (.nan false, if a.isSnan || b.isSnan then evNV else 0)
  else
    match a.mul b with
    | some x => (x, 0)
    | none => (.nan false, evNV)

/-- The exact sum of terms, rounded once; a NaN term makes it NaN, and opposite infinities beside it still raise NV. -/
def Fmt.sumTerms (f : Fmt) (rm : Rm) (ts : List Fv) : Nat × Events :=
  if ts.any Fv.isNan then (f.nan, if ts.any Fv.isSnan || opposed ts then evNV else 0) else f.sumRound rm ts

def execVdot4 (d a b : VReg) (p : PReg) (t : VType) (s : State) : Out := vDotInt 4 d a b p t s
def execVdot2 (d a b : VReg) (p : PReg) (t : VType) (s : State) : Out :=
  if t.isFloat then
    let x := elemsOf 2 (s.me.vr a)
    let y := elemsOf 2 (s.me.vr b)
    let z := elemsOf 4 (s.me.vr d)
    s.vWise d p 4 fun i =>
      let t0 := termOf (fmtH.decode (x.getD (2 * i) 0)) (fmtH.decode (y.getD (2 * i) 0))
      let t1 := termOf (fmtH.decode (x.getD (2 * i + 1) 0)) (fmtH.decode (y.getD (2 * i + 1) 0))
      let r := fmtS.sumTerms (rmOf s.me.frm) [fmtS.decode (z.getD i 0), t0.1, t1.1]
      (r.1, r.2 ||| t0.2 ||| t1.2)
  else vDotInt 2 d a b p t s

/-! ### Moving (R199) -/

/-- The low bits of an x register as an element. -/
def xElem (t : VType) (w : Word) : Nat := w.toNat % 2 ^ vBits t

def execVbcast (d : VReg) (a : XReg) (p : PReg) (t : VType) (s : State) : Out :=
  s.vWise d p t.width fun _ => (xElem t (s.me.xr a), 0)

def execVmovx (d : VReg) (a b : XReg) (t : VType) (s : State) : Out :=
  let old := elemsOf t.width (s.me.vr d)
  s.finish (s.me.setV d (ofElems t.width (old.set ((s.me.xr b).toNat % (16 / t.width)) (xElem t (s.me.xr a)))))

def execVextx (d : XReg) (a : VReg) (b : XReg) (t : VType) (s : State) : Out :=
  let n := (elemsOf t.width (s.me.vr a)).getD ((s.me.xr b).toNat % (16 / t.width)) 0
  s.finish (s.me.setX d (BitVec.ofInt 64 (intElem (vSigned t) (vBits t) n)))

def execVperm (d a b : VReg) (p : PReg) (t : VType) (s : State) : Out :=
  let x := elemsOf t.width (s.me.vr a)
  let y := elemsOf t.width (s.me.vr b)
  s.vWise d p t.width fun e => (x.getD (y.getD e 0 % (16 / t.width)) 0, 0)

def execVrot (d a : VReg) (b : XReg) (p : PReg) (t : VType) (s : State) : Out :=
  let x := elemsOf t.width (s.me.vr a)
  s.vWise d p t.width fun e => (x.getD ((e + (s.me.xr b).toNat) % (16 / t.width)) 0, 0)

/-! ### Reductions (R200) -/

/-- The active elements of va. -/
def activeElems (s : State) (a : VReg) (p : PReg) (t : VType) : List Nat :=
  let x := elemsOf t.width (s.me.vr a)
  ((List.range x.length).filter fun e => active (s.me.pr p) t.width e).map fun e => x.getD e 0

def activeInts (s : State) (a : VReg) (p : PReg) (t : VType) : List Int :=
  (activeElems s a p t).map (intElem (vSigned t) (vBits t))

def execVredadd (d : XReg) (a : VReg) (p : PReg) (t : VType) (s : State) : Out :=
  if t.isFloat then
    let f := vFmt t
    let xs := (activeElems s a p t).map f.decode
    let r := if xs.isEmpty then (0, 0) else f.sumTerms (rmOf s.me.frm) xs
    s.fpEnd (s.me.setX d (BitVec.ofNat 64 r.1)) r.2
  else s.finish (s.me.setX d (BitVec.ofInt 64 (activeInts s a p t).sum))

/-- The least or greatest active float: `pick` over the elements, NV on a signalling NaN. -/
def Fmt.pickAll (f : Fmt) (least : Bool) : List Nat → Nat × Events
  | [] => ((if least then 0 else f.signBit) + f.infBits, 0)
  | x :: t =>
    let r := t.foldl (fun acc y =>
      let q := f.pick least acc.1 y
      (q.1, acc.2 ||| q.2)) (x, if (f.decode x).isSnan then evNV else (0 : Events))
    (if (f.decode r.1).isNan then f.nan else r.1, r.2)

def redPick (least : Bool) (d : XReg) (a : VReg) (p : PReg) (t : VType) (s : State) : Out :=
  if t.isFloat then
    let r := (vFmt t).pickAll least (activeElems s a p t)
    s.fpEnd (s.me.setX d (BitVec.ofNat 64 r.1)) r.2
  else
    let sg := vSigned t
    let r := (activeInts s a p t).foldl (fun x y => if least then min x y else max x y)
      (if least then hiInt sg (vBits t) else loInt sg (vBits t))
    s.finish (s.me.setX d (BitVec.ofInt 64 r))

def execVredmin (d : XReg) (a : VReg) (p : PReg) (t : VType) (s : State) : Out := redPick true d a p t s
def execVredmax (d : XReg) (a : VReg) (p : PReg) (t : VType) (s : State) : Out := redPick false d a p t s

/-! ### Conversion (R201) -/

/-- An element type of `vcvt`: an R134 type, or bf16. -/
inductive CvtType
  | t (v : VType)
  | bf
deriving DecidableEq, Repr

def CvtType.width : CvtType → Nat
  | .t v => v.width
  | .bf => 2
def CvtType.fmt? : CvtType → Option Fmt
  | .t .f16 => some fmtH
  | .t .f32 => some fmtS
  | .t _ => none
  | .bf => some fmtB
def CvtType.signed : CvtType → Bool
  | .t v => vSigned v
  | .bf => true

/-- The source type of a code. -/
def cvtSource (c : BitVec 4) : CvtType :=
  match c.toNat with
  | 0 => .t .ib | 1 => .t .ih | 2 => .t .iw | 3 => .t .zb | 4 => .t .zh | 5 => .t .zw | 6 => .t .f16 | 7 => .t .f32
  | _ => .bf

/-- One element converted. -/
def cvtElem (rm : Rm) (src dst : CvtType) (n : Nat) : Nat × Events :=
  if src = dst ∧ src ≠ .bf then (n, 0)
  else
    let sb := 8 * src.width
    let db := 8 * dst.width
    match src.fmt?, dst.fmt? with
    | none, none => (wrapInt db (saturate dst.signed db (intElem src.signed sb n)), 0)
    | none, some f => f.ofIntF rm (intElem src.signed sb n)
    | some f, some g => g.convert rm (f.decode n)
    | some f, none =>
      let r := toIntF rm (loInt dst.signed db) (hiInt dst.signed db) (f.decode n)
      (wrapInt db r.1, r.2)

def execVcvt (d a : VReg) (bf : Bool) (c : BitVec 4) (p : PReg) (t : VType) (s : State) : Out :=
  let src := cvtSource c
  let dst : CvtType := if bf then .bf else .t t
  let x := elemsOf src.width (s.me.vr a)
  s.vWise d p dst.width fun e =>
    if e < min x.length (16 / dst.width) then cvtElem (rmOf s.me.frm) src dst (x.getD e 0) else (0, 0)

/-! ### Special functions (R202) -/

def vSpecial (op : Fmt → Rm → Fv → Nat × Events) (d a : VReg) (p : PReg) (t : VType) (s : State) : Out :=
  let x := elemsOf t.width (s.me.vr a)
  s.vWise d p t.width fun e => op (vFmt t) (rmOf s.me.frm) ((vFmt t).decode (x.getD e 0))

def execVrcp (d a : VReg) (p : PReg) (t : VType) (s : State) : Out := vSpecial Fmt.rcpF d a p t s
def execVrsq (d a : VReg) (p : PReg) (t : VType) (s : State) : Out := vSpecial Fmt.rsqF d a p t s
def execVexp2 (d a : VReg) (p : PReg) (t : VType) (s : State) : Out := vSpecial Fmt.exp2F d a p t s
def execVlog2 (d a : VReg) (p : PReg) (t : VType) (s : State) : Out := vSpecial Fmt.log2F d a p t s
def execVsin (d a : VReg) (p : PReg) (t : VType) (s : State) : Out := vSpecial Fmt.sinF d a p t s
def execVcos (d a : VReg) (p : PReg) (t : VType) (s : State) : Out := vSpecial Fmt.cosF d a p t s

/-! ### Packing and e12 codes (R203, R204) -/

/-- Fields of `b` bits of the low `n` positions of a number. -/
def fieldsOf (b n w : Nat) : List Nat := (List.range n).map fun i => w / 2 ^ (b * i) % 2 ^ b

def execVpack (d a b : VReg) (t : VType) (s : State) : Out :=
  let h := vBits t / 2
  let narrow (v : VReg) : List Nat := (elemsOf t.width (s.me.vr v)).map fun n =>
    wrapInt h (saturate (vSigned t) h (intElem (vSigned t) (vBits t) n))
  s.finish (s.me.setV d (BitVec.ofNat 128 (packBits h (narrow a ++ narrow b))))

def execVunpack (d a : VReg) (half : BitVec 1) (t : VType) (s : State) : Out :=
  let h := vBits t / 2
  let low := (s.me.vr a).toNat / 2 ^ (64 * half.toNat)
  s.finish (s.me.setV d (ofElems t.width ((fieldsOf h (16 / t.width) low).map fun n =>
    wrapInt (vBits t) (intElem (vSigned t) h n))))

/-- `round_e12` (R188). -/
def roundE12 : Fv → Nat
  | .nan _ => 0
  | .inf n => if n then 0 else 4095
  | .fin n m e => clampNat 0 4095 (roundNe (Fv.fin n m e).dy).toNat

/-- x·g + o as a value, exact. -/
def mulAddExact (x g o : Fv) : Fv :=
  if x.isNan || g.isNan || o.isNan then .nan false
  else
    match x.mul g, o with
    | none, _ => .nan false
    | some (.inf n), .inf n' => if n = n' then .inf n else .nan false
    | some (.inf n), _ => .inf n
    | some _, .inf n => .inf n
    | some p, _ =>
      let r := p.dy.add o.dy
      .fin (decide (r.n < 0)) r.n.natAbs r.e

def execVenc12 (d a b : VReg) (p : PReg) (s : State) : Out :=
  let x := elemsOf 2 (s.me.vr a)
  let y := elemsOf 2 (s.me.vr b)
  let old := fieldsOf 12 8 (s.me.vr d).toNat
  let codes := (List.range 8).map fun i =>
    if active (s.me.pr p) 2 i then
      roundE12 (mulAddExact (fmtH.decode (x.getD i 0)) (fmtH.decode (y.getD 0 0)) (fmtH.decode (y.getD 1 0)))
    else old.getD i 0
  s.finish (s.me.setV d (BitVec.ofNat 128 (packBits 12 codes)))

/-! ### Compares and predicates (R205, R206) -/

/-- A condition on two elements, with its events. -/
def vCond (t : VType) (c : Cond) (x y : Nat) : Bool × Events :=
  if t.isFloat then
    let a := (vFmt t).decode x
    let b := (vFmt t).decode y
    match c with
    | .eq => fcompare .eq a b
    | .ne =>
      let r := fcompare .eq a b
      (!r.1, r.2)
    | .lt => fcompare .lt a b
    | .le => fcompare .le a b
  else
    let a := intElem (vSigned t) (vBits t) x
    let b := intElem (vSigned t) (vBits t) y
    (match c with
     | .eq => decide (a = b)
     | .ne => decide (a ≠ b)
     | .lt => decide (a < b)
     | .le => decide (a ≤ b), 0)

def execVcmp (d : PReg) (a b : VReg) (p : PReg) (t : VType) (c : Cond) (s : State) : Out :=
  let w := t.width
  let x := elemsOf w (s.me.vr a)
  let y := elemsOf w (s.me.vr b)
  let r := (List.range (16 / w)).map fun e =>
    if active (s.me.pr p) w e then vCond t c (x.getD e 0) (y.getD e 0) else (false, (0 : Events))
  let bits := ofBits (fun i => (r.getD (i / w) (false, 0)).1) 16
  s.fpEnd (s.me.setP d (BitVec.ofNat 16 bits)) (r.foldl (fun ev q => ev ||| q.2) 0)

def execPand (d a b : PReg) (s : State) : Out := s.finish (s.me.setP d (s.me.pr a &&& s.me.pr b))
def execPor (d a b : PReg) (s : State) : Out := s.finish (s.me.setP d (s.me.pr a ||| s.me.pr b))
def execPxor (d a b : PReg) (s : State) : Out := s.finish (s.me.setP d (s.me.pr a ^^^ s.me.pr b))
def execPnot (d a : PReg) (s : State) : Out := s.finish (s.me.setP d (~~~(s.me.pr a)))
def execPmov (d : PReg) (a : XReg) (s : State) : Out := s.finish (s.me.setP d ((s.me.xr a).truncate 16))
def execPget (d : XReg) (a : PReg) (s : State) : Out := s.finish (s.me.setX d ((s.me.pr a).zeroExtend 64))
def execPcnt (d : XReg) (a : PReg) (s : State) : Out :=
  s.finish (s.me.setX d (BitVec.ofNat 64 (countBits (fun i => (s.me.pr a).getLsbD i) 16)))

end Sys2Proof.Machine
end

