-- ==== Sys2Proof/Machine/Narrow.lean ====
section
/-! DEFINITION. Narrow formats: the decode table, encoding by search, exact block sums, and the narrow instructions
(08, R174-R185; 09, R207-R210). -/

namespace Sys2Proof.Machine

/-! ### Codes (R174, R177) -/

/-- A decode table as an operation reads it. -/
structure QTab where
  tab : Table (BitVec 19)
  base6 : Nat
  base4 : Nat
deriving DecidableEq, Repr

def Core.qt (c : Core) : QTab := { tab := c.qtab, base6 := c.qbase6.toNat, base4 := c.qbase4.toNat }

def nBits : NFmt → Nat
  | .t8 => 8 | .t6 => 6 | .t4 => 4

/-- The value of code `c` of format `f`. -/
def QTab.val (q : QTab) (f : NFmt) (c : Nat) : Fv :=
  let i := match f with
    | .t8 => c % 256
    | .t6 => (q.base6 + c) % 256
    | .t4 => (q.base4 + c) % 256
  fmtW19.decode (Table.getD q.tab i 0).toNat

/-- `s20_value` (R179). -/
def s20Value (w : Nat) : Fv := fmtS20.decode (w % 2 ^ 20)

/-- Element `i` of a packed sequence of codes: bits of a register or of a byte sequence as one number. -/
def codeAt (f : NFmt) (w i : Nat) : Nat := w / 2 ^ (nBits f * i) % 2 ^ nBits f

/-! ### Encoding by search (R178) -/

/-- y / s for a value y and a positive scale s, compared without the division: y < v. -/
def encLt (y : Fv) (s : Dy) (v : Fv) : Bool :=
  match v with
  | .fin n m e =>
    let x := (Fv.fin n m e).dy.mul s
    (match y with
     | .inf n => n
     | y => y.dy.lt x)
  | .inf n => if n then false else y != .inf false
  | .nan _ => false

/-- s · |y / s − v|, none for +∞. -/
def encDist (y : Fv) (s : Dy) (v : Fv) : Option Dy :=
  match y, v with
  | _, .nan _ => none
  | .inf a, .inf b => if a = b then some Dy.zero else none
  | .inf _, _ => none
  | _, .inf _ => none
  | y, v => some (y.dy.sub (v.dy.mul s)).abs

def encSearch (val : Nat → Fv) (y : Fv) (s : Dy) : Nat → Nat → Nat → Nat × Nat
  | 0, lo, hi => (lo, hi)
  | n + 1, lo, hi =>
    if 1 < hi - lo then
      let mid := (lo + hi) / 2
      if encLt y s (val mid) then encSearch val y s n lo mid else encSearch val y s n mid hi
    else (lo, hi)

/-- `encode_tn` of y / s. -/
def encodeTn (c : Core) (f : NFmt) (y : Fv) (s : Dy) : Nat :=
  if y.isNan then
    match f with
    | .t8 => c.qnan8.toNat
    | .t6 => c.qnan6.toNat
    | .t4 => c.qnan4.toNat
  else
    let val := c.qt.val f
    let r := encSearch val y s 8 0 (2 ^ nBits f - 1)
    match encDist y s (val r.1), encDist y s (val r.2) with
    | some a, some b => if a.lt b then r.1 else if b.lt a then r.2 else if r.1 % 2 = 0 then r.1 else r.2
    | some _, none => r.1
    | none, some _ => r.2
    | none, none => if r.1 % 2 = 0 then r.1 else r.2

/-! ### One block of an exact sum (R183, R190) -/

/-- The rounded partial of a block, as A56 bits. -/
def blockPartial (terms : List Fv) (ga gb : Fv) : Nat :=
  let pinf := terms.any fun t => t == .inf false
  let ninf := terms.any fun t => t == .inf true
  if terms.any Fv.isNan || (pinf && ninf) || ga.isNan || gb.isNan || (ga.isInf && gb.isZero) || (gb.isInf && ga.isZero) then
    fmtA56.nan
  else
    let x := terms.foldl (fun a t => a.add t.dy) Dy.zero
    let ginf := ga.isInf || gb.isInf
    if pinf || ninf then
      (if !ginf && (ga.isZero || gb.isZero) then fmtA56.nan else fmtA56.infBits + if ninf then fmtA56.signBit else 0)
    else if ginf then
      (if x.n = 0 then fmtA56.nan else fmtA56.infBits + if x.n < 0 then fmtA56.signBit else 0)
    else roundA56 ((x.mul ga.dy).mul gb.dy)

/-- The accumulator after a block. -/
def addA56 (acc p : Nat) : Nat := (fmtA56.addF .rne (fmtA56.decode acc) (fmtA56.decode p)).1

/-- A product of two decoded codes. -/
def codeTerm (a b : Fv) : Fv := (termOf a b).1

def blockStep (acc : Nat) (terms : List Fv) (ga gb : Fv) : Nat := addA56 acc (blockPartial terms ga gb)

/-! ### The narrow instructions (R208-R210) -/

def execVqma (d a b : VReg) (c : XReg) (na nb : NFmt) (s : State) : Out :=
  let q := (s.core s.myCore).qt
  let x := (s.me.vr a).toNat
  let y := (s.me.vr b).toNat
  let z := (s.me.vr d).toNat
  let w := (s.me.xr c).toNat
  let two := na = .t4 ∨ nb = .t4
  let lane (j : Nat) : Nat :=
    let terms := (List.range 16).map fun k =>
      codeTerm (q.val na (codeAt na x (if na = .t4 then 16 * j + k else k)))
        (q.val nb (codeAt nb y (if nb = .t4 then 16 * j + k else k)))
    blockStep (z / 2 ^ (64 * j) % 2 ^ 56) terms (s20Value w) (s20Value (w / 2 ^ 20))
  s.finish (s.me.setV d (BitVec.ofNat 128
    (lane 0 + 2 ^ 64 * if two then lane 1 else z / 2 ^ 64 % 2 ^ 64)))

/-- FIRST + m exceeds the elements of the narrow register: ILLEGAL (R211). -/
def narrowFits (nf : NFmt) (ff : FFmt) (first : BitVec 5) : Bool := decide (first.toNat + ff.elems ≤ nf.elems)

def ffFmt : FFmt → Fmt
  | .f16 => fmtH
  | .f32 => fmtS
def ffWidth : FFmt → Nat
  | .f16 => 2
  | .f32 => 4

/-- A decoded code times the scale, rounded (R209). -/
def qdecElem (f : Fmt) (rm : Rm) (y g : Fv) : Nat × Events :=
  if y.isNan || g.isNan then (f.nan, 0)
  else
    match y.mul g with
    | none => (f.nan, evNV)
    | some p => f.ofFv rm p

def execVqdec (d a : VReg) (n : BitVec 5) (c : XReg) (nf : NFmt) (ff : FFmt) (s : State) : Out :=
  if narrowFits nf ff n then
    let q := (s.core s.myCore).qt
    let g := s20Value (s.me.xr c).toNat
    let r := (List.range ff.elems).map fun i =>
      qdecElem (ffFmt ff) (rmOf s.me.frm) (q.val nf (codeAt nf (s.me.vr a).toNat (n.toNat + i))) g
    s.fpEnd (s.me.setV d (ofElems (ffWidth ff) (r.map (·.1)))) (r.foldl (fun ev x => ev ||| x.2) 0)
  else s.trap .illegal (wordOf (.vqdec d a n c nf ff))

/-- The value `vqenc` passes to the search, and the scale it stands over (R210). -/
def qencArg (x g : Fv) : Fv × Dy :=
  let neg := x.neg?
  if x.isNan || g.isNan then (.nan false, Dy.ofInt 1)
  else if g.isZero then (if x.isZero then .nan false else .inf neg, Dy.ofInt 1)
  else if g.isInf then (if x.isInf then .nan false else .fin neg 0 0, Dy.ofInt 1)
  else (x, g.dy)

def execVqenc (d a : VReg) (n : BitVec 5) (c : XReg) (ff : FFmt) (nf : NFmt) (s : State) : Out :=
  if narrowFits nf ff n then
    let k := s.core s.myCore
    let g := s20Value (s.me.xr c).toNat
    let x := elemsOf (ffWidth ff) (s.me.vr a)
    let codes := (List.range nf.elems).map fun i =>
      if n.toNat ≤ i ∧ i < n.toNat + ff.elems then
        let y := qencArg ((ffFmt ff).decode (x.getD (i - n.toNat) 0)) g
        encodeTn k nf y.1 y.2
      else codeAt nf (s.me.vr d).toNat i
    s.finish (s.me.setV d (BitVec.ofNat 128 (packBits (nBits nf) codes)))
  else s.trap .illegal (wordOf (.vqenc d a n c ff nf))

end Sys2Proof.Machine
end

