-- ==== Sys2Proof/Machine/Engine.lean ====
section
/-! DEFINITION. Engine operations: the copy engine, the sheaf array, accumulator tiles (11, R267-R270; 12, R272-R289; 15,
R323). -/

namespace Sys2Proof.Machine

/-! ### Descriptor registers (R274) -/

def execEwr (d : EReg) (a : XReg) (s : State) : Out := s.finish (s.me.setEd d (s.me.xr a))
def execErd (d : XReg) (a : EReg) (s : State) : Out := s.finish (s.me.setX d (s.me.edr a))

/-! ### Forking -/

/-- Forked copies of a sheaf's engine that have not completed. -/
def State.copiesIn (s : State) (h : Nat) : Nat :=
  (s.ops.filter fun o => !o.stop && sheafOf o.core == h && (match o.work with
    | .copy _ _ => true
    | _ => false)).length

/-- Forked operations of a core's slice that have not completed. -/
def State.sliceCount (s : State) (c : Nat) : Nat := (s.ops.filter fun o => !o.stop && o.slice c).length

/-- An address in every page that [a, a + n) touches. -/
def pagesOf (a n : Nat) : List Nat :=
  if n = 0 then [] else (List.range ((a % 65536 + n - 1) / 65536 + 1)).map fun i => if i = 0 then a else (a / 65536 + i) * 65536

/-- The number of the scope of an operation of core `core` on bytes at `locs` (R269). -/
def forkScope (core : Nat) (locs : List Nat) : Nat :=
  let own (l : Nat) : Bool := !(isPad l) && isNear l &&
    (if isTcm l then (l - Config.tcmBase) / Config.tcmBytes else (l - Config.localBase) / Config.localBytes) == core
  if locs.all own then 1 else if locs.all isNear then 2 else 3

/-- The current strand forks `work` with a release at the scope of number `n`: its counter rises and it goes on (R268, R287,
R323). The thread reads what the strand has written toward that scope or a wider one; what went toward less is in the release. -/
def State.fork (s : State) (n : Nat) (work : OpWork) (vas : List Nat) (flag : Option (List Nat × BitVec 32)) (cn : CReg) : Out :=
  let r := s.release s.cur allHues n
  let t := r.1.me
  let op : EngOp :=
    { id := s.opNo, work := work, uid := t.uid, core := s.myCore, launch := t.launch, ctx := t.ctx,
      rel := r.2, started := false, vas := vas, flag := flag, snap := [],
      snapBad := s.poison, seen := [], tileOld := [], written := [], stop := false, counters := [(t.uid, cn)] }
  let s := r.1
  let op := { op with snap := s.seenOp s.myCore }
  let s := { s with opNo := s.opNo + 1, ops := s.ops ++ [op] }
  .next (s.setMe (t.setC cn (t.cr cn + 1)).done).settleOps

/-- Check a range in the current strand's context; `k` goes on with its locations (R268). -/
def State.engRange (s : State) (a n : Nat) (acc : Acc) (k : State → List Nat → Out) : Out :=
  match s.range s.myCore s.me a n acc with
  | (s, .error (.bad l, _)) => s.meet (.bad l) 0
  | (s, .error (.cause _, b)) => s.trap .engaddr (BitVec.ofNat 64 b)
  | (s, .ok ls) => k s ls

/-- The flag word at `fa`, when there is one. -/
def State.engFlag (s : State) (on : Bool) (fa : Nat) (v : BitVec 32) (k : State → Option (List Nat × BitVec 32) → Out) :
    Out :=
  if on then s.engRange fa 8 .write fun s ls => k s (some (ls, v)) else k s none

/-! ### `copy` (R267-R270) -/

/-- FADDR: the first 8-byte boundary at or after `a`. -/
def flagAddr (a : Word) : Nat := ((a + 7) &&& ~~~7).toNat

def execCopy (d a b : XReg) (c : CReg) (s : State) : Out :=
  let t := s.me
  let dst := t.xr d
  let src := t.xr a
  let w := t.xr b
  let n := natBits w.toNat 31 0
  let fval : BitVec 32 := BitVec.ofNat 32 (natBits w.toNat 62 32)
  let fa := flagAddr (dst + BitVec.ofNat 64 n)
  if t.cr c = 255 || decide (16 ≤ s.copiesIn (sheafOf s.myCore)) then s.wait .again
  else
    s.engRange src.toNat n .read fun s sl =>
    s.engRange dst.toNat n .write fun s dl =>
    s.engFlag (w.getLsbD 63) fa fval fun s flag =>
    s.meshTest ((dst.toNat, n) :: if w.getLsbD 63 then [(fa, 8)] else [])
      (s.fork (forkScope s.myCore (sl ++ dl ++ (flag.map (·.1)).getD [])) (.copy sl dl)
        (pagesOf src.toNat n ++ pagesOf dst.toNat n ++ if w.getLsbD 63 then [fa] else []) flag c)

/-! ### Gang descriptors (R275, R276) -/

def GangDesc.k (g : GangDesc) : Nat := natBits g.shape.toNat 11 0 + 1
def GangDesc.nb (g : GangDesc) : Nat := (g.k + 31) / 32
def GangDesc.mode (g : GangDesc) : Nat := natBits g.shape.toNat 21 20
def GangDesc.fa (g : GangDesc) : Nat := natBits g.shape.toNat 23 22
def GangDesc.fb (g : GangDesc) : Nat := natBits g.shape.toNat 25 24
def GangDesc.mask (g : GangDesc) : BitVec 16 := BitVec.ofNat 16 (natBits g.shape.toNat 47 32)
def GangDesc.srcb (g : GangDesc) : Nat := natBits g.shape.toNat 49 48
def GangDesc.zero (g : GangDesc) : Bool := natBits g.shape.toNat 50 50 == 1
def descOff (w : Word) : Nat := natBits w.toNat 17 0
def descPitch (w : Word) : Nat := natBits w.toNat 35 18
def descScale (w : Word) : Nat := natBits w.toNat 53 36

/-- The format a code 0-2 names. -/
def nFmtOf (n : Nat) : NFmt :=
  match n with
  | 0 => .t8
  | 1 => .t6
  | _ => .t4

/-- The descriptor at ed 4g of a strand. -/
def Strand.gangDesc (t : Strand) (g : EGroup) : GangDesc :=
  let r (i : Nat) : Word := t.edr (BitVec.ofNat 5 (4 * g.toNat + i))
  { shape := r 0, a := r 1, b := r 2, x := r 3 }

/-- Which of the four registers first fails step 2 of R279. -/
def GangDesc.badReg (g : GangDesc) (lut : Bool) : Option Nat :=
  let w := g.shape.toNat
  if natBits w 63 51 ≠ 0 ∨ natBits w 31 26 ≠ 0 ∨ natBits w 19 12 ≠ 0 ∨ g.srcb = 3 ∨ g.fb = 3 ∨ g.fa = 3 ∨ 2 ≤ g.mode ∨
      (lut = true ∧ (g.mode ≠ 0 ∨ g.fb ≠ 0)) ∨ (g.mode = 1 ∧ g.k % 32 ≠ 0) then some 0
  else if natBits g.a.toNat 63 54 ≠ 0 then some 1
  else if natBits g.b.toNat 63 54 ≠ 0 then some 2
  else if natBits g.x.toNat 63 18 ≠ 0 then some 3
  else none

/-- The sheaf that SRCB names for sheaf `h`. -/
def srcSheaf (h srcb : Nat) : Option Nat :=
  match srcb with
  | 0 => some h
  | 1 => if h % 8 = 0 then none else some (h - 1)
  | _ => if h % 8 = 7 then none else some (h + 1)

/-- Bytes of a row of A, and of a column of B. -/
def GangDesc.aBytes (g : GangDesc) : Nat := (g.k * nBits (nFmtOf g.fa) + 7) / 8
def GangDesc.bBytes (g : GangDesc) (lut : Bool) : Nat :=
  if lut then (g.k + 7) / 8 else if g.mode = 1 then g.nb * nBits (nFmtOf g.fb) else (g.k * nBits (nFmtOf g.fb) + 7) / 8

/-- The items of R276 as start and length, in the order of R279. -/
def GangDesc.items (g : GangDesc) (lut : Bool) : List (Nat × Nat) :=
  let words (base : Nat) : List (Nat × Nat) := (List.range (8 * g.nb)).map fun i => (base + 4 * i, 4)
  let lines (w : Word) (n : Nat) : List (Nat × Nat) := (List.range 8).map fun i => (descOff w + i * descPitch w, n)
  lines g.a g.aBytes ++ words (descScale g.a) ++ lines g.b (g.bBytes lut) ++ words (descScale g.b) ++
    (if g.mode = 1 then words (descOff g.x) else [])

/-- The first failing offset of step 4. -/
def GangDesc.badOff (g : GangDesc) (lut : Bool) : Option Nat :=
  (g.items lut).findSome? fun i =>
    if i.1 % 4 ≠ 0 then some i.1 else if 0x40000 < i.1 + i.2 then some (max i.1 0x40000) else none

/-! ### Gang issue (R278-R281) -/

/-- How many members a mask has. -/
def maskCount (m : BitVec 16) : Nat := countBits (fun i => m.getLsbD i) 16

/-- A strand of the core has an arrival waiting at the wired barrier. -/
def Sheaf.waitsOn (h : Sheaf) (core : Nat) : Bool :=
  h.waiting.any fun g => g.arrivals.any fun a => coreOf a.sid == core

/-- The arrival `a` enters sheaf `h`: the groups after it and whether its group is complete; none when a waiting group
with another mask shares a member. -/
def Sheaf.arrive (h : Sheaf) (m : BitVec 16) (a : GangArrival) : Option (Sheaf × Bool) :=
  match h.waiting.find? fun g => g.mask == m with
  | some g =>
    let g' : GangGroup := { g with arrivals := g.arrivals ++ [a] }
    let rest := h.waiting.filter fun g => g.mask != m
    if g'.arrivals.length = maskCount m then some ({ h with waiting := rest, committed := h.committed ++ [g'] }, true)
    else some ({ h with waiting := rest ++ [g'] }, false)
  | none =>
    if h.waiting.any fun g => g.mask &&& m != 0 then none
    else
      let g : GangGroup := { mask := m, arrivals := [a] }
      if maskCount m = 1 then some ({ h with committed := h.committed ++ [g] }, true)
      else some ({ h with waiting := h.waiting ++ [g] }, false)

/-- The `gangto` counts of the members of a committed group stop. -/
def State.commitWaits (s : State) (m : BitVec 16) (g : GangGroup) : State :=
  g.arrivals.foldl (fun s a =>
    match s.slotOf a.uid with
    | none => s
    | some sid => s.setStrand sid { s.strand sid with wait := some (.gang m true) }) s

/-- `mgang` and `mlut` (R279). -/
def gangForm (lut : Bool) (t : AccReg) (k : EGroup) (cn : CReg) (s : State) : Out :=
  let me := s.me
  let c := s.myCore
  let h := sheafOf c
  let g := me.gangDesc k
  let m := g.mask
  if me.cr cn = 255 || decide (4 ≤ s.sliceCount c) || (s.sheaf h).waitsOn c then s.wait .again
  else
    match g.badReg lut with
    | some i => s.trap .engformat (BitVec.ofNat 64 (4 * k.toNat + i))
    | none =>
      if !(m.getLsbD (memberOf c)) then s.trap .engstate (m.zeroExtend 64)
      else
        match srcSheaf h g.srcb with
        | none => s.trap .engaddr (BitVec.ofNat 64 (0x10000 + descOff g.b))
        | some _ =>
          match g.badOff lut with
          | some o => s.trap .engaddr (BitVec.ofNat 64 (0x10000 + o))
          | none =>
            let a : GangArrival := { sid := s.cur, uid := me.uid, tile := t.toNat, cn := cn, lut := lut, grp := k }
            match (s.sheaf h).arrive m a with
            | none => s.trap .engstate (m.zeroExtend 64)
            | some (h', full) =>
              let s := (s.waitAt s.cur (.gang m full)).setSheaf h h'
              .next (if full then s.commitWaits m (h'.committed.getLastD { mask := m, arrivals := [] }) else s)

def execMgang (t : AccReg) (k : EGroup) (c : CReg) (s : State) : Out := gangForm false t k c s
def execMlut (t : AccReg) (k : EGroup) (c : CReg) (s : State) : Out := gangForm true t k c s

/-- The member an arrival becomes: what it latches (R274, R281). -/
def State.gangMember (s : State) (sid : Nat) (a : GangArrival) : GangMember :=
  let c := s.core (coreOf sid)
  { arr := a, desc := (s.strand sid).gangDesc a.grp, ctx := (s.strand sid).ctx, launch := (s.strand sid).launch, core := coreOf sid, qtab := c.qtab,
    qbase6 := c.qbase6, qbase4 := c.qbase4 }

/-- The oldest committed group of sheaf `h` forms (R280, R281): counters rise, the operation is forked, and the members go
on; a member whose wait a boundary cause has withdrawn (R369) is forked for all the same. A group with a member whose context
has ended is stopped as R382 stops a formed operation. -/
def execGangForm (h : Nat) (s : State) : Out :=
  match (s.sheaf h).committed with
  | [] => .next s
  | g :: rest =>
    let s := s.setSheaf h { s.sheaf h with committed := rest }
    let here := g.arrivals.filterMap fun a => (s.slotOf a.uid).map fun sid => (sid, a)
    let members := here.map fun e => s.gangMember e.1 e.2
    let lead := (members.find? fun m => members.all fun n => decide (memberOf m.core ≤ memberOf n.core))
    match lead with
    | none => .next s
    | some l =>
      let gone := here.length != g.arrivals.length
      let n := if l.desc.srcb = 0 then 2 else 3
      let r := here.foldl (fun (r : State × List Nat) e => ((r.1.release e.1 allHues n).1, r.2 ++ (r.1.release e.1 allHues n).2)) (s, [])
      let s := r.1
      let op : EngOp :=
        { id := s.opNo, work := .gang g.mask members, uid := l.arr.uid, core := l.core, launch := l.launch, ctx := l.ctx,
          rel := r.2, started := false, vas := [], flag := none, snap := [], snapBad := s.poison, seen := [],
          tileOld := [], written := [], stop := gone, counters := here.map fun e => (e.2.uid, e.2.cn) }
      let op := { op with snap := s.seenOp l.core }
      let s := { s with opNo := s.opNo + 1, ops := s.ops ++ [op] }
      let s := here.foldl (fun s e =>
        let t := s.strand e.1
        let t' := t.setC e.2.cn (t.cr e.2.cn + 1)
        s.setStrand e.1 (if t.wait == some (.gang g.mask true) then t'.done else t')) s
      .next (if gone then s.opsEnded else s.settleOps)

/-! ### What an operation reads (R269, R277, R323) -/

/-- The write among the first `k` to the source of an operation that gave location `l` its byte last. -/
def EngOp.lastWrite (o : EngOp) (k l : Nat) : Option Byte :=
  (o.seen.take k).reverse.findSome? fun w => (w.cells.reverse.find? fun c => c.1 == l).map (·.2)

/-- The byte at `l` as it stood at the fork and after `k` writes of others; with all of them it is the current one. -/
def EngOp.byteAt (o : EngOp) (k l : Nat) : Byte := (o.lastWrite k l).getD (o.snap.byte l)

/-- The word of `l` could not be read then. -/
def State.srcBad (s : State) (o : EngOp) (k l : Nat) : Bool :=
  if o.seen.length ≤ k then s.poisoned l || ((o.lastWrite k l).isNone && o.snapBad.contains (unitBase l))
  else ((if k = 0 then o.snapBad else ((o.seen[k - 1]?).map (·.bad)).getD [])).contains (unitBase l)

/-- The value that the operation reads after `k` of those writes rests on what `e` wrote: on a record of it among them, or in the
memory of the fork. -/
def EngOp.took (o : EngOp) (e : Early) (k : Nat) : Bool :=
  !(e.hidesOp o.core) && (!(o.seen.any fun w => w.seq == some e.seq) || (o.seen.take k).any fun w => w.seq == some e.seq)

/-- The operation reads at `locs`, `k l` of the writes done at `l`: what it reads there that some party did not read yet, all read from
now on (R317; log 18). -/
def State.opReads (s : State) (o : EngOp) (k : Nat → Nat) (locs : List Nat) : State :=
  s.lift fun e => locs.contains e.loc && o.took e (k e.loc)

/-- The choice for aligned word number `i` among many: digit `i` to a base of one more than the writes there have been, of which
the greatest is the current value. -/
def choiceAt (o : EngOp) (fresh i : Nat) : Nat := fresh / (o.seen.length + 1) ^ i % (o.seen.length + 1)

/-! ### Tokens (05, R100; log 35) -/

/-- The core that an access of the operation at `l` charges, and what it costs: local store 5 for 32 bytes, scratchpad 1, global
memory 4 for each of the `flits` that it takes. -/
def EngOp.accessCost (o : EngOp) (flits l : Nat) : Nat × Nat :=
  if isLocal l then ((l - Config.localBase) / Config.localBytes, 5)
  else (o.core, if isPad l then 1 else if isTcm l then 0 else 4 * flits)

/-- The accesses at `locs` are charged, one for each block of 32 bytes that none at `before` lay in. -/
def State.engCharge (s : State) (o : EngOp) (locs before : List Nat) : State :=
  let blocks := ((locs.map (· / 32)).dedup).filter fun b => !(before.any fun l => l / 32 == b)
  let cost (b : Nat) : Nat × Nat := o.accessCost (Config.accessFlits s.turnNo) (32 * b)
  blocks.foldl (fun s b => s.spend (cost b).1 (cost b).2) s

/-! ### The operation (R276, R277, R281, R282) -/

/-- What a gang operation reads: the operation, the value its aligned words take, the leader's sheaf. -/
structure GangMem where
  op : EngOp
  fresh : Nat
  home : Nat
deriving DecidableEq, Repr

/-- The choice for scratchpad offset `o` of sheaf `h`: word o / 4 for the leader's sheaf, 65,536 further for a neighbour's. -/
def GangMem.choice (m : GangMem) (h o : Nat) : Nat := choiceAt m.op m.fresh (o / 4 + if h = m.home then 0 else 65536)

/-- The byte at scratchpad offset `o` of sheaf `h`; past the scratchpad's end the spec gives no byte (log 83). -/
def GangMem.byte (m : GangMem) (h o : Nat) : Byte :=
  if o < Config.padBytes then m.op.byteAt (m.choice h o) (padLoc h o) else Config.pastPad m.op.id h o

/-- `n` bytes from offset `o` as a number. -/
def GangMem.num (m : GangMem) (h o n : Nat) : Nat := leNat ((List.range n).map fun i => m.byte h (o + i))

/-- The latched decode table of a member. -/
def GangMember.qt (g : GangMember) : QTab := { tab := g.qtab, base6 := g.qbase6.toNat, base4 := g.qbase4.toNat }

/-- A metadata word is well formed (R184). -/
def metaOk (w : Nat) : Bool :=
  decide (w < 2 ^ 24) && (List.range 4).all fun g => decide (natBits w (6 * g + 2) (6 * g) < natBits w (6 * g + 5) (6 * g + 3))

/-- K index in the block of stored element `i` of a sparse block. -/
def metaPos (w i : Nat) : Nat := 8 * (i / 2) + natBits w (3 * i + 2) (3 * i)

/-- One output element: member `g`, row `r`, column `j`, from the accumulator value `acc`. The member's EDB and EDX are taken as they
stand, with the K, formats and mode of the leader, which its own check at issue did not use (R281; log 83). -/
def gangElem (m : GangMem) (lead : GangDesc) (lut : Bool) (hb : Nat) (g : GangMember) (r j acc : Nat) : Nat :=
  let d := g.desc
  let fa := nFmtOf lead.fa
  let fb := nFmtOf lead.fb
  let nb := lead.nb
  let row := m.num m.home (descOff lead.a + r * descPitch lead.a) lead.aBytes
  let col := m.num hb (descOff d.b + j * descPitch d.b) (lead.bBytes lut)
  let av (k : Nat) : Fv := g.qt.val fa (codeAt fa row k)
  (List.range nb).foldl (fun acc b =>
    let sa := s20Value (m.num m.home (descScale lead.a + 4 * (r * nb + b)) 4)
    let sb := s20Value (m.num hb (descScale d.b + 4 * (j * nb + b)) 4)
    let n := min 32 (lead.k - 32 * b)
    let terms :=
      if lut then
        (List.range n).map fun i =>
          let v := av (32 * b + i)
          if col.testBit (32 * b + i) then v else v.negate
      else if lead.mode = 1 then
        let w := m.num m.home (descOff d.x + 4 * (j * nb + b)) 4
        (List.range 8).map fun i => codeTerm (av (32 * b + metaPos w i)) (g.qt.val fb (codeAt fb col (8 * b + i)))
      else
        (List.range n).map fun i => codeTerm (av (32 * b + i)) (g.qt.val fb (codeAt fb col (32 * b + i)))
    blockStep acc terms sa sb) acc

/-- Element `e` of tile `t`. -/
def accElem (acc : Table (BitVec 56)) (t e : Nat) : Nat := (Table.getD acc (64 * t + e) 0).toNat

/-- Tile `t` with the elements `vs`; entries that are 0 are not kept. -/
def Core.setTile (c : Core) (t : Nat) (vs : List Nat) : Core :=
  let put (acc : Table (BitVec 56)) (e : Nat × Nat) : Table (BitVec 56) :=
    if e.2 = 0 then Table.erase acc (64 * t + e.1) else Table.set acc (64 * t + e.1) (BitVec.ofNat 56 e.2)
  { c with acc := ((List.range 64).zip vs).foldl put c.acc }

/-- The members in increasing order. -/
def inOrder (ms : List GangMember) : List GangMember :=
  (List.range 16).filterMap fun i => ms.find? fun g => memberOf g.core == i

/-- The offset of the first ill-formed metadata word: blocks, then members, then columns, each in increasing order. -/
def metaBad (m : GangMem) (lead : GangDesc) (ms : List GangMember) : Option Nat :=
  if lead.mode ≠ 1 then none
  else
    (List.range lead.nb).findSome? fun b => (inOrder ms).findSome? fun g => (List.range 8).findSome? fun j =>
      let o := descOff g.desc.x + 4 * (j * lead.nb + b)
      if metaOk (m.num m.home o 4) then none else some o

/-- The bytes that the operation reads, as sheaf and scratchpad offset (R276). -/
def GangMem.reads (m : GangMem) (lead : GangDesc) (lut : Bool) (hb : Nat) (ms : List GangMember) : List (Nat × Nat) :=
  let range (h : Nat) (i : Nat × Nat) : List (Nat × Nat) :=
    ((locsFrom i.1 i.2).filter fun o => decide (o < Config.padBytes)).map fun o => (h, o)
  let words (h base : Nat) : List (Nat × Nat) := ((List.range (8 * lead.nb)).map fun i => range h (base + 4 * i, 4)).flatten
  let lines (h : Nat) (w : Word) (n : Nat) : List (Nat × Nat) :=
    ((List.range 8).map fun i => range h (descOff w + i * descPitch w, n)).flatten
  let shared := lines m.home lead.a lead.aBytes ++ words m.home (descScale lead.a)
  let own := (ms.map fun g => lines hb g.desc.b (lead.bBytes lut) ++ words hb (descScale g.desc.b) ++
    (if lead.mode = 1 then words m.home (descOff g.desc.x) else [])).flatten
  shared ++ own

/-- A byte that the operation reads and that could not be read when it took its value. -/
def State.gangPoison (s : State) (m : GangMem) (reads : List (Nat × Nat)) : Option Nat :=
  (reads.find? fun x => s.srcBad m.op (m.choice x.1 x.2) (padLoc x.1 x.2)).map fun x => padLoc x.1 x.2

/-- The choice for scratchpad location `l`. -/
def GangMem.choiceOf (m : GangMem) (l : Nat) : Nat :=
  m.choice ((l - Config.padBase) / Config.padBytes) ((l - Config.padBase) % Config.padBytes)

/-- Operation `id` has ended: its counters fall as R287 allows. -/
def State.endOp (s : State) (id : Nat) : State :=
  { s with ops := s.ops.map fun (o : EngOp) => if o.id = id then { o with stop := true } else o }.opsEnded

/-- The registers from which member `g` of a gang takes its work, those of the leader and its own (R275), keep what R279 checks of
them; an `ewr` in a handler may have rewritten them between the arrival and the formation (log 83). -/
def GangMember.formed (g lead : GangMember) : Bool :=
  ({ lead.desc with b := g.desc.b, x := g.desc.x }.badReg lead.arr.lut).isNone &&
    (srcSheaf (sheafOf lead.core) lead.desc.srcb).isSome

/-- The tiles of members whose registers do not keep it: no value is stated for them (log 83). -/
def freeTiles (id : Nat) (ms : List GangMember) (s : State) : State :=
  ms.foldl (fun s g => s.setCore g.core ((s.core g.core).setTile g.arr.tile
    ((List.range 64).map fun e => (Config.gangFree id g.core e).toNat))) s

/-- Every member's tile is written at one step. -/
def gangTiles (m : GangMem) (lead : GangMember) (hb : Nat) (ms : List GangMember) (s : State) : State :=
  ms.foldl (fun s g =>
    let c := s.core g.core
    let t := g.arr.tile
    let vs := (List.range 64).map fun e =>
      gangElem m lead.desc lead.arr.lut hb g (e / 8) (e % 8) (if lead.desc.zero then 0 else accElem c.acc t e)
    s.setCore g.core (c.setTile t vs)) s

/-- The operation ends. A poisoned word that it reads is met before any metadata word is judged: with both, no ENGFORMAT is raised
(R282 gives the two no order; log 72). -/
def execGangComplete (op freshWords : Nat) (s : State) : Out :=
  match s.ops.find? fun o => o.id == op with
  | none => .next s
  | some o =>
    match o.work with
    | .gang _ ms =>
      if !o.started || o.stop then .next s
      else
        match ms.find? fun g => g.core == o.core with
        | none => .next (s.endOp op)
        | some lead =>
          let home := sheafOf o.core
          let d := lead.desc
          let hb := (srcSheaf home d.srcb).getD home
          let m : GangMem := { op := o, fresh := freshWords, home := home }
          let good := ms.filter fun g => g.formed lead
          let reads := if good.isEmpty then [] else m.reads d lead.arr.lut hb good
          let s := s.opReads o m.choiceOf (reads.map fun x => padLoc x.1 x.2)
          match s.gangPoison m reads with
          | some l =>
            let tag := s.tagOf l
            .next ((s.endOp op).uncorr tag o.ctx o.launch)
          | none =>
            match metaBad m d good with
            | some off =>
              let s := ms.foldl (fun s g =>
                match s.slotOf g.arr.uid with
                | none => s
                | some sid => s.pendAt sid Cause.engformat.code (BitVec.ofNat 64 (0x10000 + off))) s
              .next (s.endOp op)
            | none =>
              let s := freeTiles op (ms.filter fun g => !(g.formed lead)) s
              .next ((gangTiles m lead hb good s).endOp op)
    | _ => .next s

/-- The `gangto` count of a waiting member expires (R280). -/
def execGangto (sid : Nat) (s : State) : Out :=
  let t := s.strand sid
  match t.wait with
  | some (.gang m false) =>
    if t.stat = SlotStat.live ∧ t.gangto.toNat ≤ t.waited then
      let arrivals := (((s.sheaf (sheafOf (coreOf sid))).waiting.find? fun g => g.mask == m).map (·.arrivals)).getD []
      let mask := ofBits (fun i => arrivals.any fun a => memberOf (coreOf a.sid) == i) 16
      .next (s.raiseAt sid .gangto (BitVec.ofNat 64 mask))
    else .next s
  | _ => .next s

/-! ### Tiles: `acl`, `ast`, `ald` (R284, R285) -/

/-- Operation `o` names tile `t` of core `c`. -/
def EngOp.names (o : EngOp) (c t : Nat) : Bool :=
  match o.work with
  | .copy _ _ => false
  | .gang _ ms => ms.any fun m => m.core == c && m.arr.tile == t
  | .ast tile _ _ _ => o.core == c && tile == t
  | .ald tile _ _ => o.core == c && tile == t

def execAcl (t : AccReg) (s : State) : Out :=
  let c := s.myCore
  if s.ops.any fun o => !o.stop && o.names c t.toNat then s.trap .engstate (t.zeroExtend 64)
  else State.finish (s.setCore c ((s.core c).setTile t.toNat (List.replicate 64 0))) s.me

/-- Element size of FMT. -/
def tileElem (fmt : Nat) : Nat :=
  match fmt with
  | 0 => 8
  | 1 => 4
  | _ => 2

/-- The 64 element addresses, increasing r and then j. -/
def tileAddrs (a pitch e : Nat) : List Nat :=
  (List.range 64).map fun i => a + i / 8 * pitch + i % 8 * e

/-- Check the elements in turn; `k` goes on with their locations. -/
def State.tileElems (s : State) (as : List Nat) (e : Nat) (acc : Acc) (done : List (List Nat))
    (k : State → List (List Nat) → Out) : Out :=
  match as with
  | [] => k s done
  | a :: t => s.engRange a e acc fun s ls => State.tileElems s t e acc (done ++ [ls]) k

/-- The step-1 stall of `ast` and `ald`. -/
def State.tileStall (s : State) (cn : CReg) : Bool :=
  s.me.cr cn == 255 || decide (16 ≤ s.copiesIn (sheafOf s.myCore)) || decide (4 ≤ s.sliceCount s.myCore)

def execAst (d : XReg) (t : AccReg) (b : XReg) (c : CReg) (s : State) : Out :=
  let w := s.me.xr b
  let a := s.me.xr d
  let fmt := natBits w.toNat 21 20
  let e := tileElem fmt
  let pitch := natBits w.toNat 19 0
  let flag := w.getLsbD 22
  let fa := flagAddr (a + BitVec.ofNat 64 (7 * pitch + 8 * e))
  let as := tileAddrs a.toNat pitch e
  let frm := s.me.frm
  if s.tileStall c then s.wait .again
  else if fmt = 3 ∨ natBits w.toNat 31 23 ≠ 0 then s.trap .engformat w
  else if a.toNat % e ≠ 0 ∨ pitch % e ≠ 0 then s.trap .engaddr a
  else
    s.tileElems as e .write [] fun s ls =>
    s.engFlag flag fa (BitVec.ofNat 32 (natBits w.toNat 63 32)) fun s fl =>
    s.meshTest ((as.map fun x => (x, e)) ++ if flag then [(fa, 8)] else [])
      (s.fork (forkScope s.myCore (ls.flatten ++ (fl.map (·.1)).getD [])) (.ast t.toNat fmt frm ls)
        (as ++ if flag then [fa] else []) fl c)

def execAld (t : AccReg) (a b : XReg) (c : CReg) (s : State) : Out :=
  let w := s.me.xr b
  let ad := s.me.xr a
  let fmt := natBits w.toNat 21 20
  let e := tileElem fmt
  let pitch := natBits w.toNat 19 0
  let as := tileAddrs ad.toNat pitch e
  if s.tileStall c then s.wait .again
  else if fmt = 3 ∨ natBits w.toNat 63 22 ≠ 0 then s.trap .engformat w
  else if ad.toNat % e ≠ 0 ∨ pitch % e ≠ 0 then s.trap .engaddr ad
  else s.tileElems as e .read [] fun s ls => s.fork (forkScope s.myCore ls.flatten) (.ald t.toNat fmt ls) as none c

/-! ### Steps of the threads (R269, R270, R285, R323) -/

/-- The bytes of element `e` of the tile an `ast` stores. -/
def astBytes (o : EngOp) (tile fmt : Nat) (frm : BitVec 3) (e : Nat) : List Byte :=
  let v := accElem o.tileOld tile e
  match fmt with
  | 0 => leBytes v 8
  | 1 => leBytes (fmtS.convert (rmOf frm) (fmtA56.decode v)).1 4
  | _ => leBytes (fmtH.convert (rmOf frm) (fmtA56.decode v)).1 2

/-- Payload writes of a copy: one for each aligned 4 bytes of its source that it reads. -/
def copyUnits (src : List Nat) : Nat := if src.isEmpty then 0 else (src.headD 0 % 4 + src.length + 3) / 4

/-- Positions in the payload of unit `u`. -/
def copyUnit (src : List Nat) (u : Nat) : List Nat :=
  (List.range src.length).filter fun i => (src.headD 0 % 4 + i) / 4 == u

/-- Payload writes of an operation. -/
def EngOp.units (o : EngOp) : Nat :=
  match o.work with
  | .copy src _ => copyUnits src
  | .ast _ _ _ _ => 64
  | _ => 0

/-- The source and destination locations of payload write `u`. -/
def EngOp.unitSrc (o : EngOp) (u : Nat) : List Nat :=
  match o.work with
  | .copy src _ => (copyUnit src u).map fun i => src.getD i 0
  | _ => []
def EngOp.unitDst (o : EngOp) (u : Nat) : List Nat :=
  match o.work with
  | .copy src dst => (copyUnit src u).map fun i => dst.getD i 0
  | .ast _ _ _ elems => elems.getD u []
  | _ => []

/-- Payload writes are made in any order among themselves (15, R323), but that an element of an `ast` does not go before one of a
lower number that it overlaps: the later store stands (R285; log 62). -/
def EngOp.mayWrite (o : EngOp) (u : Nat) : Bool :=
  match o.work with
  | .ast _ _ _ _ => (List.range u).all fun v => o.written.contains v || !((o.unitDst v).any fun l => (o.unitDst u).contains l)
  | _ => true

/-- Where the operation has written. -/
def EngOp.covered (o : EngOp) : List Nat := o.written.flatMap o.unitDst

/-- Writer of an operation (R251, R252). -/
def EngOp.writer (o : EngOp) (bad : Bool) : Writer :=
  { Writer.plain o.ctx with launch := some o.launch, core := o.core, op := some o.id, poison := bad, uid := o.uid,
                            cover := o.covered }

/-- The operation has written `cells`; the forking core loses its copies of those lines. -/
def State.engWrite (s : State) (o : EngOp) (bad : Bool) (cells : List Host.Cell) : State :=
  (s.write (o.writer bad) cells).dropLines o.core (cells.map (·.1))

def State.markWritten (s : State) (id unit : Nat) : State :=
  { s with ops := s.ops.map fun (o : EngOp) => if o.id = id then { o with written := o.written ++ [unit] } else o }

/-- The accesses of payload write `unit` are charged. -/
def State.unitCharge (s : State) (o : EngOp) (unit : Nat) : State :=
  (s.engCharge o (o.unitSrc unit) (o.written.flatMap o.unitSrc)).engCharge o (o.unitDst unit) o.covered

/-- Payload write `unit` of copy `o` takes its source after `k` of the writes of others. A source word that cannot be read is
written as poisoned, as much of it as lies in the range, and ends the copy (R270). -/
def State.copyWrite (s : State) (o : EngOp) (src dst : List Nat) (unit k : Nat) : State :=
  let cell (i : Nat) : Host.Cell := (dst.getD i 0, o.byteAt k (src.getD i 0))
  let idx := copyUnit src unit
  let s := s.opReads o (fun _ => k) (o.unitSrc unit)
  match idx.find? fun i => s.srcBad o k (src.getD i 0) with
  | none => (s.engWrite o false (idx.map cell)).markWritten o.id unit
  | some i =>
    let l := src.getD i 0
    let word := (List.range src.length).filter fun j => unitBase (src.getD j 0) == unitBase l
    ((s.engWrite o true (word.map cell)).endOp o.id).uncorr (s.tagOf l) o.ctx o.launch

/-- Payload write `unit` of the `ast` `o`, element r = unit / 8, j = unit % 8 (R285). A word that cannot be read and that the elements
stored so far do not cover whole keeps its poison and ends the operation (R252, R285; log 62). -/
def State.astWrite (s : State) (o : EngOp) (tile fmt : Nat) (frm : BitVec 3) (unit : Nat) : State :=
  let s' := s.engWrite o false ((o.unitDst unit).zip (astBytes o tile fmt frm unit))
  match (o.unitDst unit).find? s'.poisoned with
  | none => s'.markWritten o.id unit
  | some l => (s'.endOp o.id).uncorr (s.tagOf l) o.ctx o.launch

def execEnginePayloadWrite (op unit fresh : Nat) (s : State) : Out :=
  match s.ops.find? fun o => o.id == op with
  | none => .next s
  | some o =>
    if !o.started || o.stop || decide (o.units ≤ unit) || o.written.contains unit || !(o.mayWrite unit) then .next s
    else
      let s := s.unitCharge o unit
      match o.work with
      | .copy src dst => .next (s.copyWrite o src dst unit (min fresh o.seen.length))
      | .ast tile fmt frm _ => .next (s.astWrite o tile fmt frm unit)
      | _ => .next s

/-- The operation ends: its flag word is written and its counter falls. -/
def State.opEnd (s : State) (o : EngOp) : State :=
  let s := match o.flag with
    | some (ls, v) => (s.engCharge o ls []).engWrite o false (ls.zip (leBytes v.toNat 8))
    | none => s
  s.endOp o.id

/-- An operation of kind `isKind` that has made all its payload writes ends. -/
def State.completeOp (s : State) (op : Nat) (isKind : OpWork → Bool) : Out :=
  match s.ops.find? fun o => o.id == op with
  | none => .next s
  | some o =>
    if isKind o.work && o.started && !o.stop && o.written.length == o.units then .next (s.opEnd o) else .next s

def execCopyComplete (op : Nat) (s : State) : Out :=
  s.completeOp op fun w => match w with
    | .copy _ _ => true
    | _ => false

def execAstComplete (op : Nat) (s : State) : Out :=
  s.completeOp op fun w => match w with
    | .ast _ _ _ _ => true
    | _ => false

/-- The number an `ald` element holds in A56. -/
def aldValue (fmt n : Nat) : Nat :=
  match fmt with
  | 0 => n % 2 ^ 56
  | 1 => (fmtA56.convert .rne (fmtS.decode n)).1
  | _ => (fmtA56.convert .rne (fmtH.decode n)).1

/-- The choice for the byte an `ald` reads at `l`; `words` are its aligned 4 bytes in the order it first names them. -/
def aldChoice (o : EngOp) (fresh : Nat) (words : List Nat) (l : Nat) : Nat := choiceAt o fresh (words.idxOf (l / 4))

def execAldComplete (op freshWords : Nat) (s : State) : Out :=
  match s.ops.find? fun o => o.id == op with
  | none => .next s
  | some o =>
    match o.work with
    | .ald tile fmt elems =>
      if !o.started || o.stop then .next s
      else
        let s := s.engCharge o elems.flatten []
        let words := (elems.flatten.map fun l => l / 4).dedup
        let k := aldChoice o freshWords words
        let s := s.opReads o k elems.flatten
        match elems.flatten.find? fun l => s.srcBad o (k l) l with
        | some l =>
          let tag := s.tagOf l
          .next ((s.endOp op).uncorr tag o.ctx o.launch)
        | none =>
          let vs := elems.map fun ls => aldValue fmt (leNat (ls.map fun l => o.byteAt (k l) l))
          .next ((s.setCore o.core ((s.core o.core).setTile tile vs)).endOp op)
    | _ => .next s

end Sys2Proof.Machine
end

