-- ==== Sys2Proof/Machine/Message.lean ====
section
/-! DEFINITION. The message instructions (16, R343-R347). -/

namespace Sys2Proof.Machine

/-! ### `send` and `sendv` -/

/-- A send of `data` (R344): the payload and the release are those of the issue. -/
def sendForm (d a : XReg) (m : MBox) (nb : Bool) (len : Nat) (data : List Byte) (s : State) : Out :=
  let w := s.me.xr a
  if !(s.destOk w) then s.trap .msgaddr w
  else
    let r := s.release s.cur allHues (scopeNo (pairScope s.myCore (destCore w) (destExt w)))
    let msg := s.message s.cur w m len data r.2
    if (s.core s.myCore).sendRoom then State.finish (r.1.pushSend s.myCore msg) (r.1.me.setX d 0)
    else if nb then s.finish (s.me.setX d (-1))
    else r.1.wait (.send msg d)

def execSend (d a b : XReg) (m : MBox) (nb : Bool) (s : State) : Out :=
  sendForm d a m nb 8 (leBytes (s.me.xr b).toNat 8) s

/-- The 64 bytes of a group, in register order. -/
def Strand.groupBytes (t : Strand) (g : VGroup) : List Byte :=
  ((List.range 4).map fun i => leBytes (t.vr (groupReg g i)).toNat 16).flatten

def execSendv (d a : XReg) (b : VGroup) (m : MBox) (nb : Bool) (s : State) : Out :=
  sendForm d a m nb 64 (s.me.groupBytes b) s

/-! ### Receives -/

def execRecv (d : XReg) (b : VGroup) (m : MBox) (nb : Bool) (s : State) : Out :=
  match s.ringBad s.myCore m.toNat with
  | some l => .next (s.uncorr (s.tagOf l) s.me.ctx s.me.launch)
  | none =>
    match s.takeRing s.myCore m.toNat s.me.ctx with
    | some (h, bs, s) => .next (s.receive s.cur h bs d b)
    | none => if nb then s.finish (s.me.setX d (-1)) else s.wait (.recv m d b)

/-- The core in direction `dir` of `core` on this device (R342). -/
def neighbour (core dir : Nat) : Option Nat :=
  let c := core % 128
  let r := core / 128
  match dir with
  | 0 => if c = 0 then none else some (core - 1)
  | 1 => if c = 127 then none else some (core + 1)
  | 2 => if r = 0 then none else some (core - 128)
  | _ => if r = 71 then none else some (core + 128)

/-- The oldest entry of an edge mailbox, and the core without it. -/
def Core.takeEdge (c : Core) (dir : Nat) : Option (Header × List Byte × Core) :=
  match Table.getD c.edge dir [] with
  | [] => none
  | (h, bs) :: t => some (h, bs, { c with edge := Table.set c.edge dir t })

def execRecvn (d a : XReg) (b : VGroup) (c : XReg) (s : State) : Out :=
  let w := s.me.xr a
  let dir := w.toNat % 4
  match neighbour s.myCore dir with
  | none => s.trap .msgaddr w
  | some _ =>
    match (s.core s.myCore).takeEdge dir with
    | some (h, bs, k) => .next ((s.setCore s.myCore k).receive s.cur h bs d b)
    | none =>
      if s.me.xr c = 0 then s.finish (s.me.setX d (-2))
      else s.wait (.recvn dir (s.me.xr c).toNat d b)

/-- Some message of ring m came from a peer. -/
def State.ringPeer (s : State) (core m : Nat) : Bool :=
  (List.range (s.mboxCount core m)).any fun i =>
    (Table.get? (s.core core).hdr (64 * m + (s.mboxTail core m + i) % s.mboxSlots core m)).any fun h => h.scope == .system

def execMpoll (d : XReg) (m : MBox) (s : State) : Out :=
  match s.mboxBad s.myCore m.toNat with
  | some l => .next (s.uncorr (s.tagOf l) s.me.ctx s.me.launch)
  | none =>
  let n := s.mboxCount s.myCore m.toNat
  let s := if n = 0 then s
    else s.acquire s.myCore (if s.ringPeer s.myCore m.toNat then .system else .field)
  s.finish (s.me.setX d (BitVec.ofNat 64 n))

end Sys2Proof.Machine
end

