-- ==== Sys2Proof/Machine/Rendezvous.lean ====
section
/-! DEFINITION. Barrier points and keyed sections (16, R333-R338, R355-R358; 19, R392). -/

namespace Sys2Proof.Machine

/-! ### Barrier points -/

/-- The current strand's copy of point `b`, with its launch. -/
def State.myPoint (s : State) (b : BPoint) : Option (Launch × Point) :=
  (Table.get? s.launches s.me.launch).map fun la => (la, la.point (pointKey s.myCore b))

/-- The launch of the current strand with its copy of point `b` as `p`. -/
def State.setPoint (s : State) (la : Launch) (b : BPoint) (p : Point) : State :=
  { s with launches := Table.set s.launches s.me.launch { la with points := Table.set la.points (pointKey s.myCore b) p } }

/-- The greatest COUNT of a point (R334). -/
def pointLimit (b : BPoint) : Nat := if b.toNat < 16 then 64 else 36864

/-- Arrivals entered in phase `ph`. -/
def Point.entered (p : Point) (ph : BitVec 32) : Nat := (p.arrivals.filter fun a => a.phase == ph).length

def execBinit (a : XReg) (b : BPoint) (s : State) : Out :=
  let w := s.me.xr a
  let bad : Out := s.trap .barstate w
  if pointLimit b < w.toNat then bad
  else
    let count : Option Nat := if w = 0 then none else some w.toNat
    match s.myPoint b with
    | none => bad
    | some (la, p) =>
      if !p.init then State.finish (s.setPoint la b { init := true, count := count, phase := 0, arrivals := [] }) s.me
      else if p.count = count then s.finish s.me
      else if p.entered p.phase = 0 then State.finish (s.setPoint la b { p with count := count }) s.me
      else bad

/-- The phase an arrival enters (R337): with a number, the oldest phase not yet passed with room. -/
def Point.openPhase (p : Point) : BitVec 32 :=
  match p.count with
  | none => p.phase
  | some n =>
    (((List.range (p.arrivals.length + 1)).map fun i => p.phase + BitVec.ofNat 32 i).find? fun ph =>
      decide (p.entered ph < n)).getD p.phase

/-- The point number as a trap value. -/
def pointValue (b : BPoint) : Word := b.zeroExtend 64

def execBarr (d : XReg) (b : BPoint) (s : State) : Out :=
  let bad : Out := s.trap .barstate (pointValue b)
  let key := pointKey s.myCore b
  let t := s.me
  match s.myPoint b with
  | none => bad
  | some (la, p) =>
    let waits := recSstep la.bytes && pointIsField key
    if !p.init then bad
    else if waits && t.arrived.any (fun r => r.1 == key) then
      -- issued again after its wait was withdrawn: the arrival stands
      match t.arrived with
      | some (_, ph) => .next ((s.waitAt s.cur (.superstep t.launch key ph d)).testSuper s.cur)
      | none => bad
    else
      let ph := p.openPhase
      if p.count.isNone && p.arrivals.any (fun a => a.phase == ph && a.uid == t.uid) then bad
      else
        let r := s.release s.cur allHues (scopeNo (pointScope key))
        let s := r.1
        let t := s.me
        let set := r.2
        let arr : Arrival := { uid := t.uid, phase := ph, rel := set, counted := set.isEmpty }
        let s := s.setPoint la b { p with arrivals := p.arrivals ++ [arr] }
        let s := if waits then
            (s.setMe { t with arrived := some (key, ph) }).waitAt s.cur (.superstep t.launch key ph d)
          else s.setMe (t.setX d (ph.zeroExtend 64)).done
        .next (s.passPoint t.launch key (p.arrivals.length + 2))

def execBwait (a : XReg) (b : BPoint) (s : State) : Out :=
  let key := pointKey s.myCore b
  let old : BitVec 32 := (s.me.xr a).truncate 32
  match s.myPoint b with
  | none => s.trap .barstate (pointValue b)
  | some (_, p) =>
    if !p.init then s.trap .barstate (pointValue b)
    else if phasePassed p.phase old then State.finish (s.acquire s.myCore (pointScope key)) s.me
    else s.wait (.phase s.me.launch key old)

/-! ### Keys -/

/-- Entries in the table that would hold key `k`, and how many it holds (R355). -/
def State.keysThere (s : State) (core : Nat) (k : Word) : List KeyEntry :=
  s.keys.filter fun e => e.core == keyHome core k && (k.getLsbD 63 || keySlice e.key == keySlice k)
def State.keyRoom (s : State) (core : Nat) (k : Word) : Bool :=
  decide ((s.keysThere core k).length < if k.getLsbD 63 then 8 else 64)

/-- Places of the waiter queue in use: waiters, and numbers kept for waiters of ended contexts. -/
def KeyEntry.places (e : KeyEntry) : Nat := e.waiters.length + e.ctxSkips.length

/-- The waiter queue that serves key `k` has room. -/
def State.waiterRoom (s : State) (core : Nat) (k : Word) : Bool :=
  if k.getLsbD 63 then
    decide ((((s.keysThere core k).filter fun e => e.key == k).map KeyEntry.places).sum < 4)
  else decide (((s.keysThere core k).map KeyEntry.places).sum < 128)

/-- A new entry. -/
def KeyEntry.new (core : Nat) (k : Word) (next : BitVec 32) : KeyEntry :=
  { core := keyHome core k, key := k, next := next, holder := none, abandoned := false, skips := [], ctxSkips := [],
    waiters := [], leaving := none, skipping := [], made := false }

def execKinit (a b : XReg) (s : State) : Out :=
  let k := s.me.xr a
  let n : BitVec 32 := (s.me.xr b).truncate 32
  match s.keyIdx s.myCore k with
  | some i =>
    match s.keys[i]? with
    | none => s.finish s.me
    | some e =>
      if e.holder.isSome || !e.waiters.isEmpty then s.trap .keyorder k
      else State.finish { s with keys := s.keys.set i { e with next := n, skips := [], ctxSkips := [], made := false } } s.me
  | none =>
    if s.keyRoom s.myCore k then State.finish { s with keys := s.keys ++ [KeyEntry.new s.myCore k n] } s.me
    else s.wait (.keyRoom k)

/-- Keys that strand `uid` holds, and whether it awaits key `e` (R357). -/
def State.heldCount (s : State) (uid : Nat) : Nat := (s.keys.filter fun e => e.holder.any fun h => h.1 == uid).length
def KeyEntry.has (e : KeyEntry) (uid : Nat) : Bool :=
  (e.holder.any fun h => h.1 == uid) || e.waiters.any fun w => w.1 == uid

/-- The KEYORDER cases of `kenter`. -/
def State.enterBad (s : State) (e : KeyEntry) (uid : Nat) (n : BitVec 32) : Bool :=
  e.behind n || (e.holder.any fun h => h.2 == n) || (e.waiters.any fun w => w.2 == n) || e.skipped n || e.has uid ||
    decide (4 ≤ s.heldCount uid)

def execKenter (d a b : XReg) (s : State) : Out :=
  let k := s.me.xr a
  let n : BitVec 32 := (s.me.xr b).truncate 32
  let uid := s.me.uid
  let i := s.keyIdx s.myCore k
  let e := (i.bind fun i => s.keys[i]?).getD (KeyEntry.new s.myCore k 0)
  let put (e : KeyEntry) : State :=
    match i with
    | some i => { s with keys := s.keys.set i e }
    | none => { s with keys := s.keys ++ [e] }
  if s.enterBad e uid n then s.trap .keyorder k
  else if i.isNone && !(s.keyRoom s.myCore k) then s.wait (.keyRoom k)
  else if e.holder.isNone && e.next = n then
    let s := put { e with holder := some (uid, n), abandoned := false, made := false }
    let s := s.acquire s.myCore (keyScope k)
    s.finish (s.me.setX d (if e.abandoned then 1 else 0))
  else if s.waiterRoom s.myCore k then
    State.wait (put { e with waiters := e.waiters ++ [(uid, n)], made := e.made || i.isNone }) (.key k n d)
  else s.wait (.keyRoom k)

def execKleave (a : XReg) (s : State) : Out :=
  let k := s.me.xr a
  match s.keyIdx s.myCore k with
  | none => s.trap .keyorder k
  | some i =>
    match s.keys[i]? with
    | none => s.trap .keyorder k
    | some e =>
      if (e.holder.any fun h => h.1 == s.me.uid) && e.leaving.isNone then
        let r := s.release s.cur allHues (scopeNo (keyScope k))
        let set := r.2
        let s := r.1.setMe r.1.me.done
        .next (if set.isEmpty then s.leaveKey i e else { s with keys := s.keys.set i { e with leaving := some set } })
      else s.trap .keyorder k

def execKskip (a b : XReg) (s : State) : Out :=
  let k := s.me.xr a
  let n : BitVec 32 := (s.me.xr b).truncate 32
  match s.keyIdx s.myCore k with
  | none => s.trap .keyorder k
  | some i =>
    match s.keys[i]? with
    | none => s.trap .keyorder k
    | some e =>
      let e : KeyEntry := { e with made := false }
      if e.behind n || (e.holder.any fun h => h.2 == n) || (e.waiters.any fun w => w.2 == n) || e.skipped n then
        s.trap .keyorder k
      else if 8 ≤ e.skips.length + e.skipping.length then s.wait (.keyRoom k)
      else
        let r := s.release s.cur allHues (scopeNo (keyScope k))
        let set := r.2
        let uid := s.me.uid
        let s := r.1.setMe r.1.me.done
        .next (if set.isEmpty then s.skipKey i e n
          else { s with keys := s.keys.set i { e with skipping := e.skipping ++ [(uid, n, set)] } })

def execKfree (a : XReg) (s : State) : Out :=
  let k := s.me.xr a
  match s.keyIdx s.myCore k with
  | none => s.finish s.me
  | some i =>
    match s.keys[i]? with
    | none => s.finish s.me
    | some e =>
      if e.holder.isSome || !e.waiters.isEmpty || !e.skips.isEmpty || !e.ctxSkips.isEmpty || !e.skipping.isEmpty then
        s.trap .keyorder k
      else State.finish { s with keys := s.keys.eraseIdx i } s.me

end Sys2Proof.Machine
end

