-- ==== Sys2Proof/Machine/Delivery.lean ====
section
/-! DEFINITION. Delivery of messages: rings, edge mailboxes, control messages, links (16, R325, R339-R342; 19, R378-R380;
02, R34). -/

namespace Sys2Proof.Machine

/-! ### Entries of a send queue (R341) -/

/-- Two entries name the same destination core and mailbox. -/
def sameDest (a b : Msg) : Bool := a.dest == b.dest && a.ext == b.ext && a.mbox == b.mbox

/-- Entry `idx` of core `core`'s send queue, when its release has completed, no older entry names its destination, and it
is not waiting to be retried. -/
def State.deliverable (s : State) (core idx : Nat) : Option SendEntry :=
  match (s.core core).sendQ[idx]? with
  | none => none
  | some e =>
    if e.refused || !(s.drained e.msg.rel) || ((s.core core).sendQ.take idx).any (fun o => sameDest o.msg e.msg) then none
    else some e

/-- Entry `idx` has been accepted: it leaves the queue, and a waiting send takes the place. -/
def State.leaveQueue (s : State) (core idx : Nat) : State :=
  State.serveSend (s.setCore core { s.core core with sendQ := (s.core core).sendQ.eraseIdx idx }) core 8

/-- Entry `idx` as `f` of itself. -/
def State.mapSend (s : State) (core idx : Nat) (f : SendEntry → SendEntry) : State :=
  s.setCore core { s.core core with sendQ := (s.core core).sendQ.modify idx f }

/-- The direction of adjacent core `a` as seen from core `b`. -/
def edgeDir (a b : Nat) : Option Nat := (List.range 4).find? fun d => neighbour b d == some a

/-- A message that travels the direct edge link (R342): its direction at the destination. -/
def Msg.edge (m : Msg) (core : Nat) : Option Nat :=
  if m.mbox = 3 ∧ m.ext = none then edgeDir core m.dest.toNat else none

/-! ### Control messages (19, R379) -/

/-- The payload of an 8-byte message. -/
def Msg.payload (m : Msg) : Nat := leNat (m.data.take 8)

/-- A control message. -/
def Msg.isControl (m : Msg) : Bool :=
  m.mbox == 2 && m.len == 8 && natBits m.payload 63 60 == 15 && natBits m.payload 59 58 != 0

/-- The slot and operation of a well-formed control message. -/
def Msg.control (m : Msg) : Option (Nat × Nat) :=
  if m.isControl && natBits m.payload 57 2 == 0 then some (4 * m.dest.toNat + m.payload % 4, natBits m.payload 59 58) else none

/-- A control message of operation `op` from a strand of context `c` reaches slot `sid`: it acts on a parked strand of that
context, and is dropped otherwise. -/
def State.controlAct (s : State) (sid op : Nat) (c : BitVec 4) : State :=
  let t := s.strand sid
  match t.parked with
  | none => s
  | some p =>
    if t.stat = SlotStat.live && t.ctx == c then
      match op with
      | 1 => s.setStrand sid { t with parked := none, fenMask := p }
      | 2 => s.setStrand sid { t with parked := none }.done
      | _ => s.endContext t.ctx 0x0A
    else s

/-! ### Delivery into a ring (R340) -/

/-- Lines of the destination's local store that a delivery writes are logged for the SSTEP launches on that core (19,
R393). -/
def State.logDelivery (s : State) (core : Nat) (cells : List Host.Cell) : State :=
  (s.sstepOn core).foldl (fun s k => cells.foldl (fun s c => s.logLine k core c.1) s) s

/-- Ring `m` of core `core` takes a message: slot, header, HEAD; none when it is refused. -/
def State.ringTake (s : State) (core m : Nat) (h : Header) (data : List Byte) : Option State :=
  if !(s.mboxOk core m) || decide (s.mboxSlots core m ≤ s.mboxCount core m) then none
  else
    let head := s.mboxHead core m
    let slot := head % s.mboxSlots core m
    let w : Writer := { Writer.plain h.ctx with core := core }
    let bytes := cellsAt (localLoc core (s.mboxBase core m - 0x100000 + 64 * slot)) data
    let count := cellsAt (mboxLoc core m + 8) (leBytes ((head + 1) % 2 ^ 32) 4)
    let s := (s.logDelivery core (bytes ++ count)).write w bytes
    let s := s.setCore core { s.core core with hdr := Table.set (s.core core).hdr (64 * m + slot) h }
    some (s.write w count)

/-- A message arrives at its core: consumed, put in its ring, or refused (none). -/
def State.arrive (s : State) (m : Msg) (scope : Scope) : Option State :=
  if m.isControl then
    some (match m.control with
      | some (sid, op) => s.controlAct sid op m.ctx
      | none => s)
  else
    s.ringTake m.dest.toNat m.mbox.toNat
      { ctx := m.ctx, dev := m.dev, src := m.src, len := m.len, scope := scope } m.data

/-- A message that a peer sent (02, R33). -/
def peerMsg (p : PeerMsg) : Msg :=
  { dest := p.core, ext := none, mbox := p.mbox, ctx := p.ctx, dev := p.dev, src := p.src, len := p.len,
    data := (p.data.take p.len ++ List.replicate 64 0).take 64, rel := [], launch := 0 }

/-- Port of the link a message to device `d` takes, when its route is valid and the port is up (R34). -/
def State.routePort (s : State) (d : BitVec 4) : Option Nat :=
  let r := Table.getD s.routes d.toNat 0
  if r.getLsbD 2 && (s.link (r.toNat % 4)).up then some (r.toNat % 4) else none

/-- Mesh flits of a message: one for each 32 bytes of its header and payload (16, R417). -/
def Msg.flits (m : Msg) : Nat := (8 + m.len + 31) / 32

/-- What a message costs the core that sends or receives it through the mesh, and one whose ring takes it: the control block read,
a slot of 64 bytes and HEAD written (05, R100). -/
def Msg.meshTokens (m : Msg) : Nat := 4 * m.flits
def Msg.slotTokens (m : Msg) : Nat := if m.isControl then 0 else 20

/-- A word of the control block that the delivery of `m` reads and cannot (11, R252). -/
def State.blockBad (s : State) (m : Msg) : Option Nat := if m.isControl then none else s.mboxBad m.dest.toNat m.mbox.toNat

/-- The message of entry `idx` goes to its ring, or onto its link and then to its peer (log 27). One whose control block cannot be
read is not taken: the word is met for the sender's context (11, R252; log 81). -/
def State.deliverEntry (s : State) (core idx : Nat) : State :=
  match s.deliverable core idx with
  | none => s
  | some e =>
    match e.msg.ext with
    | some d =>
      if e.onLink then s.leaveQueue core idx
      else
        match s.routePort d with
        | some _ => (s.spend core e.msg.meshTokens).mapSend core idx fun e => { e with onLink := true }
        | none => s
    | none =>
      if (e.msg.edge core).isSome then s
      else
        let s := (s.spend core e.msg.meshTokens).spend e.msg.dest.toNat e.msg.meshTokens
        match s.blockBad e.msg with
        | some l =>
          (s.meets l e.msg.ctx ((s.launchOf e.msg.launch).getD 4096)).mapSend core idx fun e => { e with refused := true }
        | none =>
        match s.arrive e.msg (pairScope core e.msg.dest.toNat false) with
        | none => s.mapSend core idx fun e => { e with refused := true }
        | some s' =>
          -- a control message may have ended its own sender, and the entry with it
          let s' := s'.spend e.msg.dest.toNat e.msg.slotTokens
          match (s'.core core).sendQ.findIdx? fun x => x == e with
          | some i => s'.leaveQueue core i
          | none => s'

def execMessageDeliver (src : MsgFrom) (s : State) : Out :=
  match src with
  | .queue core idx => .next (s.deliverEntry core idx)
  | .peer port p =>
    if (s.link port).up && decide (port < 4) && decide (p.core.toNat ≤ 9215) && !(s.core p.core.toNat).failed &&
        (p.len == 8 || p.len == 16 || p.len == 64) then
      let m := peerMsg p
      match s.blockBad m with
      | some l => .next (s.meets l m.ctx 4096)
      | none => .next (((s.arrive m .system).map fun s' => s'.spend p.core.toNat (m.meshTokens + m.slotTokens)).getD s)
    else .next s

/-- A refused entry may be tried again (R341). -/
def execSendRetry (core idx : Nat) (s : State) : Out :=
  .next (s.mapSend core idx fun e => { e with refused := false })

/-! ### Edge mailboxes (R342, R346) -/

/-- Waiting `recvn`s of an edge mailbox are served in the order they began. -/
def State.serveEdge (s : State) (core dir : Nat) : Nat → State
  | 0 => s
  | n + 1 =>
    match s.firstWaiter (fun sid w => match w with
      | .recvn d' _ d b => if coreOf sid == core && d' == dir then some (d, b) else none
      | _ => none) with
    | none => s
    | some (sid, d, b) =>
      match (s.core core).takeEdge dir with
      | none => s
      | some (h, bs, k) => State.serveEdge ((s.setCore core k).receive sid h bs d b) core dir n

def execEdgeDeliver (core idx : Nat) (s : State) : Out :=
  match s.deliverable core idx with
  | none => .next s
  | some e =>
    match e.msg.edge core with
    | none => .next s
    | some dir =>
      let dest := e.msg.dest.toNat
      let c := s.core dest
      let q := Table.getD c.edge dir []
      if 8 ≤ q.length then .next (s.mapSend core idx fun e => { e with refused := true })
      else
        let h : Header := { ctx := e.msg.ctx, dev := e.msg.dev, src := e.msg.src, len := e.msg.len,
                            scope := pairScope core dest false }
        let s := s.setCore dest { c with edge := Table.set c.edge dir (q ++ [(h, e.msg.data)]) }
        .next ((s.leaveQueue core idx).serveEdge dest dir 4)

/-! ### Control messages as steps (19, R379) -/

/-- The queue entry that carries operation `op` from a strand of context `c` to slot `sid`, ready to be delivered. -/
def State.controlEntry (s : State) (sid op : Nat) (c : BitVec 4) : Option (Nat × Nat) :=
  s.cores.findSome? fun k =>
    ((List.range k.2.sendQ.length).find? fun i => (s.deliverable k.1 i).any fun e =>
      e.msg.ext == none && e.msg.ctx == c && e.msg.control == some (sid, op)).map fun i => (k.1, i)

/-- The control message is delivered. -/
def State.controlStep (s : State) (sid op : Nat) (c : BitVec 4) : Out :=
  match s.controlEntry sid op c with
  | none => .next s
  | some (core, i) => .next (s.deliverEntry core i)

def execControlResume (sid : Nat) (ctx : BitVec 4) (s : State) : Out := s.controlStep sid 1 ctx
def execControlSkip (sid : Nat) (ctx : BitVec 4) (s : State) : Out := s.controlStep sid 2 ctx
def execControlKill (sid : Nat) (ctx : BitVec 4) (s : State) : Out := s.controlStep sid 3 ctx

end Sys2Proof.Machine
end

