-- ==== Sys2Proof/Machine/Links.lean ====
section
/-! DEFINITION. The Apgauno links (02, R32-R35). -/

namespace Sys2Proof.Machine

/-- `s'` follows `s` by an event of port `p`: a change of its UP or DEG, or of HEALTH, signals vector 0. -/
def State.noteLink (s s' : State) (p : Nat) : State :=
  let a := s.link p
  let b := s'.link p
  if a.up == b.up && a.deg == b.deg && s.health == s'.health then s' else s'.signal 0

/-- Entry `e` is on the link of port `p`. -/
def State.onPort (s : State) (p : Nat) (e : SendEntry) : Bool :=
  e.onLink && e.msg.ext.any fun d => (Table.getD s.routes d.toNat 0).toNat % 4 == p

/-- Messages on the link of port `p` are discarded and counted in LOSTMSG (R34). -/
def State.loseMessages (s : State) (p : Nat) : State :=
  let lost := (s.cores.map fun e => (e.2.sendQ.filter (s.onPort p)).length).sum
  if lost = 0 then s
  else
    let l := s.link p
    let s' := s.setLink p { l with lost := l.lost + BitVec.ofNat 32 lost }
    let keep (_ : Nat) (k : Core) : Core := { k with sendQ := k.sendQ.filter fun e => !(s.onPort p e) }
    State.serveSends { s' with cores := Table.mapVals keep s'.cores }

/-- The port is taken down. -/
def State.takeDown (s : State) (p : Nat) : State :=
  let s := s.loseMessages p
  s.setLink p { s.link p with up := false, deg := false, lanes := 0, badLanes := false, begun := true }

/-- A port that can come up: enabled and down. -/
def Link.waits (l : Link) : Bool := l.en && !l.up

/-- TRAIN: a port that is enabled and down is in training once training has started, where HOLD holds it (log 41). -/
def Link.training (l : Link) : Bool := l.waits && l.begun

/-- PCTL.EN and PCTL.HOLD are written (R35). -/
def State.writePctl (s : State) (p : Nat) (en hold : Bool) : State :=
  if 4 ≤ p then s
  else
    let old := s.link p
    let s' := s.setLink p { old with en := en, hold := hold, begun := old.begun || en }
    s.noteLink (if !en || hold || !old.en || old.hold then s'.takeDown p else s') p

/-- A write of PCTL by the host: dropped before the link is up and in recovery (R38). -/
def State.hostPctl (s : State) (p : Nat) (en hold : Bool) : State := if s.barsUp then s.writePctl p en hold else s

def execLinkEnable (port : Nat) (s : State) : Out := .next (s.hostPctl port true (s.link port).hold)
def execLinkDisable (port : Nat) (s : State) : Out := .next (s.hostPctl port false (s.link port).hold)
def execLinkHold (port : Nat) (s : State) : Out := .next (s.hostPctl port (s.link port).en true)
def execLinkHoldRelease (port : Nat) (s : State) : Out := .next (s.hostPctl port (s.link port).en false)

/-- Training ends, on 8 lanes when a lane has failed it (R32). -/
def execLinkTrained (port : Nat) (peer : BitVec 4) (lanes : Nat) (s : State) : Out :=
  let l := s.link port
  if port < 4 ∧ l.waits ∧ l.hold = false ∧ lanes = (if l.badLanes then 8 else 16) then
    let l := { l with up := true, deg := l.badLanes, lanes := lanes, peerv := true, peer := peer, begun := true }
    .next (s.noteLink (s.setLink port l) port)
  else .next s

/-- A lane fails training and is removed. -/
def execLinkLaneFail (port : Nat) (s : State) : Out :=
  let l := s.link port
  if port < 4 ∧ l.waits ∧ l.hold = false then
    .next (s.setLink port { l with badLanes := true, begun := true })
  else .next s

/-- The link goes down; an enabled port trains again. -/
def execLinkDown (port : Nat) (s : State) : Out :=
  if port < 4 ∧ (s.link port).up then .next (s.noteLink (s.takeDown port) port) else .next s

/-- A received flit fails CRC-32 and is replayed. -/
def execFlitCrcFail (port : Nat) (s : State) : Out :=
  let l := s.link port
  if port < 4 ∧ l.up then .next (s.setLink port { l with crc := l.crc + 1, replay := l.replay + 1 }) else .next s

end Sys2Proof.Machine
end

