-- ==== Sys2Proof/Machine/HostRegs.lean ====
section
/-! DEFINITION. The host's side: BAR0, BAR2, configuration requests and the loads of field time (02, R24-R30, R47, R414; 05,
R109-R117; 11, R253; 13, R290; 16, R348; 19, R383, R387, R391; 21, R403). -/

namespace Sys2Proof.Machine

/-- Bytes of a 64-bit write at `off`, as far as they lie below `limit`. -/
def writeCells (off limit : Nat) (w : Word) : List Host.Cell :=
  (cellsAt off (leBytes w.toNat 8)).filter fun c => decide (c.1 < limit)

/-! ### Field time (R47) -/

/-- A write of FTCFG. One write that changes SRC and has ARM 1 cancels the load that was due and arms one under the new SRC: R47 waits
for ARM to be written 1 again, and that write is taken as one that does (log 87). -/
def State.writeFtcfg (s : State) (w : Word) : State :=
  let h := s.host
  let arm := w.getLsbD 0
  let src := w.getLsbD 1
  let kept := if arm && src == h.ftSrc && h.ftArm then h.ftDue else none
  let due := if arm && src then (match kept with
    | some d => some d
    | none => some ((s.ftime / 10 + 1) * 10, true)) else kept
  { s with host := { h with ftArm := arm, ftSrc := src, ftLoaded := h.ftLoaded && !(w.getLsbD 2), ftDue := due } }

/-- The identity block responds in recovery too (R38). -/
def execFtcfgWrite (val : Word) (s : State) : Out := if s.tch.pcieUp then .next (s.writeFtcfg val) else .next s

/-- A rising edge of FTSYNC: a load armed for it falls due 100 ns later. -/
def execFtsyncEdge (s : State) : Out :=
  let h := s.host
  if h.ftArm && !h.ftSrc && h.ftDue.isNone then .next { s with host := { h with ftDue := some (s.ftime + 100, false) } }
  else .next s

/-- Field time becomes `t`: periods, delays, waits and transfers under way run on, and the next tick is at the next multiple of
1,000 ns. -/
def State.shiftTime (s : State) (t : Nat) : State :=
  let since (a : Int) : Int := a + (t : Int) - (s.ftime : Int)
  let core (_ : Nat) (k : Core) : Core :=
    { k with idleSince := since k.idleSince, gatedSince := since k.gatedSince, visitFrom := since k.visitFrom,
             emits := k.emits.map fun (e : Emission) => { e with since := since e.since, behind := e.behind.map since } }
  let shift (_ : Nat) (r : RowGroup) : RowGroup := { r with periodAt := since r.periodAt }
  { s with ftime := t, gov := { s.gov with tick := (t + 999) / 1000 - 1 },
           cores := Table.mapVals core s.cores,
           strands := Table.mapVals (fun _ (x : Strand) =>
             { x with waitAt := since x.waitAt,
                      mid := x.mid.map fun (u : Underway) => { u with until' := u.until'.map since } }) s.strands,
           launches := Table.mapVals (fun _ (la : Launch) => { la with runAt := since la.runAt }) s.launches,
           husks := s.husks.map (fun (h : Husk) => { h with since := since h.since }),
           tiles := Table.mapVals (fun _ (x : Tile) => { x with groups := Table.mapVals shift x.groups }) s.tiles }

/-- Field time is loaded. -/
def State.loadTime (s : State) (t : Nat) : State :=
  let s := s.shiftTime t
  { s with host := { s.host with ftLoaded := true, ftArm := false, ftDue := none } }

/-- The 64-bit count wraps to 0 (R47): what is due after that moment is due by the new count. -/
def State.wrapTime (s : State) : State :=
  let core (_ : Nat) (k : Core) : Core :=
    { k with emits := k.emits.map fun (e : Emission) => { e with swapAt := e.swapAt % 2 ^ 64 } }
  let s := s.shiftTime 0
  { s with cores := Table.mapVals core s.cores,
           host := { s.host with ftDue := s.host.ftDue.map fun d => (d.1 % 2 ^ 64, d.2) } }

/-- A scheduled load falls due. -/
def execFtimeLoad (s : State) : Out :=
  match s.host.ftDue with
  | some (due, src) =>
    if due ≤ s.ftime then
      if s.host.ftArm && s.host.ftSrc == src then .next (s.loadTime s.host.ftload.toNat)
      else .next { s with host := { s.host with ftDue := none } }
    else .next s
  | none => .next s

/-! ### Writes of the identity block (R414) -/

def State.writeIdent (s : State) (off : Nat) (w : Word) : State :=
  let h := s.host
  let n := w.toNat
  let field (hi lo : Nat) : Word := BitVec.ofNat 64 (natBits n hi lo * 2 ^ lo)
  if off = 0x08 then { s with host := { h with freset := h.freset || w.getLsbD 0 } }
  else if off = 0x10 then
    s.noteHealth { s with tch := { s.tch with calfail := s.tch.calfail && !(w.getLsbD 8) } }
  else if off = 0x18 then { s with host := { h with devNext := BitVec.ofNat 4 (natBits n 7 4) } }
  else if off = 0x38 then { s with host := { h with ctxtab := w } }
  else if off = 0x40 then { s with host := { h with meshtab := field 47 9 } }
  else if off = 0x48 then { s with host := { h with wqtab := w } }
  else if off = 0x60 then { s with host := { h with ctxend := h.ctxend &&& ~~~(w.truncate 16) } }
  else if off = 0x68 then { s with host := { h with huskbase := field 47 16 ||| field 0 0 } }
  else if off = 0x70 then
    { s with host := { h with frame := max 1000 (natBits n 57 32), stepm1 := natBits n 9 0 } }
  else if off = 0x80 then { s with host := { h with ftload := w } }
  else if off = 0x88 then s.writeFtcfg w
  else s

/-! ### Queue ports (R27-R30) -/

/-- A write of QCFG. -/
def Port.config (p : Port) (ready : Bool) (w : Word) : Port :=
  let ctx : BitVec 4 := BitVec.ofNat 4 (natBits w.toNat 3 0)
  let vec := natBits w.toNat 13 8
  { p with note := w.getLsbD 14, vec := BitVec.ofNat 6 (if vec < 2 then 2 else vec), en := w.getLsbD 4 && ctx != 0 && ready,
           ctx := ctx }

/-- A write at offset `off` of port `q`. -/
def State.writePort (s : State) (q off : Nat) (w : Word) : State :=
  let p := s.port q
  if s.dbg.frozen then s.frzDrop
  else if off < 0x80 then
    let cells := writeCells off 0x80 w
    s.setPort q { p with staging := cells.foldl (fun bs c => bs.set c.1 c.2) p.staging }
  else if off = 0x80 then s.doorbell q (w.truncate 32)
  else if off = 0x90 then s.setPort q (p.config s.tch.ready w)
  else s

/-! ### MSI-X (R24; layout: log 34) -/

/-- A vector is unmasked: what was pending is signalled. -/
def State.unmask (s : State) (v : Nat) : State :=
  let h := s.host
  let s := { s with host := { h with msixMask := h.msixMask.erase v } }
  if h.msixPend.contains v then
    State.signal { s with host := { s.host with msixPend := s.host.msixPend.erase v } } v
  else s

/-- Double word `i` of the table is written. -/
def State.writeMsix (s : State) (i : Nat) (w : BitVec 32) : State :=
  if 256 ≤ i then s
  else if i % 4 = 3 then
    if w.getLsbD 0 then { s with host := { s.host with msixMask := insertNat (i / 4) s.host.msixMask } }
    else if s.host.msixMask.contains (i / 4) then s.unmask (i / 4)
    else s
  else
    let t := s.host.msixTable
    { s with host := { s.host with msixTable := if w = 0 then Table.erase t i else Table.set t i w } }

/-! ### Register writes -/

/-- Offsets of the power block that can be written (05, R109). -/
def powerWritable (off : Nat) : Bool :=
  off == 0x00 || off == 0x18 || off == 0x20 || off == 0x28 || off == 0x4800 ||
    (decide (0x8000 ≤ off ∧ off < 0x8400) && off % 8 == 0)

/-- A write of the Apgauno block (02, R34, R35). -/
def State.writeLink (s : State) (off : Nat) (w : Word) : State :=
  if off < 0x100 then (if off % 0x40 = 8 then s.writePctl (off / 0x40) (w.getLsbD 0) (w.getLsbD 1) else s)
  else if off < 0x180 ∧ off % 8 = 0 then
    let v : BitVec 3 := w.truncate 3
    let k := (off - 0x100) / 8
    { s with routes := if v = 0 then Table.erase s.routes k else Table.set s.routes k v }
  else s

/-- A write of `w` at BAR0 offset `off` (R25). -/
def State.writeBar0 (s : State) (off : Nat) (w : Word) : State :=
  if !s.tch.pcieUp then s
  else if off < 0x1000 then s.writeIdent off w
  else if off = 0x1000 then s.mbStart (w.truncate 8)
  else if 0x2000 ≤ off ∧ off < 0x3000 then
    { s with tch := { s.tch with buf := s.tch.buf.putAll (writeCells (off - 0x2000) 0x1000 w) } }
  else if s.tch.fwrecov then s
  else if 0x10000 ≤ off ∧ off < 0x14000 then s.writePort ((off - 0x10000) / 0x100) ((off - 0x10000) % 0x100) w
  else if 0x20000 ≤ off ∧ off < 0x20400 then
    let i := (off - 0x20000) / 4
    let s := s.writeMsix i (w.truncate 32)
    if off % 8 = 0 then s.writeMsix (i + 1) ((w >>> 32).truncate 32) else s
  else if 0x100000 ≤ off ∧ off < 0x110000 then
    if powerWritable (off - 0x100000) then
      { s with gov := { s.gov with writes := s.gov.writes ++ [(off - 0x100000, w)] } }
    else s
  else if 0x200000 ≤ off ∧ off < 0x201000 then s.writeLink (off - 0x200000) w
  else s

def execRegisterWrite (off : Nat) (val : Word) (s : State) : Out := .next (s.writeBar0 off val)

/-! ### Register reads (R25): what a host read of 64 bits at an offset returns -/

/-- GOVCFG, VFSEL, PWRCFG and THERMCFG read as written (00, R6). -/
def Governor.written (g : Governor) : Governor :=
  (g.writes.filter fun w => w.1 != 0x18 && decide (w.1 < 0x8000)).foldl (fun (g : Governor) w => g.take w.1 w.2) g

def State.readPower (s : State) (off : Nat) : Nat :=
  let g := s.gov
  let c := g.written
  if off = 0x00 then c.rampDn * 2 ^ 31 + c.rampUp * 2 ^ 22 + c.plim * 2 ^ 11
  else if off = 0x08 then g.spill.toNat * 2 ^ 32 + g.demand.floor.toNat * 2 ^ 11 + g.alloc.floor.toNat
  else if off = 0x10 then g.refTag.toNat * 2 ^ 32 + g.refCount.toNat * 2 ^ 16 + g.refCtx.toNat
  else if off = 0x18 then g.ocCount.toNat * 2 ^ 48 + g.ocTime.toNat * 2 ^ 16 + g.ocBits.toNat
  else if off = 0x20 then (if c.boostEn then 256 else 0) + c.pmax * 16 + c.pbase
  else if off = 0x28 then c.offDly * 2 ^ 32 + c.gateDly
  else if 0x100 ≤ off ∧ off < 0x180 ∧ off % 8 = 0 then
    match g.vf[(off - 0x100) / 8]? with
    | some (f, v, k) => f * 2 ^ 32 + v * 2 ^ 16 + k
    | none => 0
  else if 0x1000 ≤ off ∧ off < 0x2200 ∧ off % 8 = 0 then
    let h := (off - 0x1000) / 8
    let x := s.sheaf h
    x.chaff.toNat * 2 ^ 32 + x.droop.toNat * 2 ^ 16 + s.sheafReq h * 16 + x.point
  else if 0x4000 ≤ off ∧ off < 0x4480 ∧ off % 4 = 0 then
    let one (j : Nat) : Nat := (BitVec.ofInt 16 (s.temp j)).toNat + (if (s.sensor j).failed then 2 ^ 31 else 0)
    one ((off - 0x4000) / 4) + (if off % 8 = 0 then one ((off - 0x4000) / 4 + 1) * 2 ^ 32 else 0)
  else if off = 0x4800 then c.tboost * 2 ^ 16 + c.tthr * 2 ^ 8 + c.tshut + (if g.thermTrip then 2 ^ 31 else 0)
  else if 0x8000 ≤ off ∧ off < 0x8400 ∧ off % 8 = 0 then (Table.getD g.hbmerr ((off - 0x8000) / 8) 0).toNat
  else 0

def State.readIdent (s : State) (off : Nat) : Nat :=
  let h := s.host
  let fw := if s.tch.fwrecov then 0 else match s.tch.fieldFw with
    | some img => fieldAt img 4 4
    | none => Config.fwVersion.toNat
  if off = 0x00 then fw * 2 ^ 32 + Config.form.toNat * 2 ^ 20 + Config.stepping.toNat * 2 ^ 16 + 0x08C8
  else if off = 0x08 then (if h.freset then 1 else 0)
  else if off = 0x10 then s.health.toNat
  else if off = 0x18 then h.devNext.toNat * 16 + h.devId.toNat
  else if off = 0x20 then h.bar2drop.toNat
  else if off = 0x28 then h.ownmap.getD 0
  else if off = 0x30 then h.frzdrop.toNat
  else if off = 0x38 then h.ctxtab.toNat
  else if off = 0x40 then h.meshtab.toNat
  else if off = 0x48 then h.wqtab.toNat
  else if off = 0x50 then h.qrefuse.toNat
  else if off = 0x58 then h.ce.toNat * 2 ^ 32 + h.ue.toNat * 2 ^ 16 + h.rback.toNat * 2 ^ 8 + h.lastCtx.toNat
  else if off = 0x60 then h.ctxend.toNat
  else if off = 0x68 then h.huskbase.toNat
  else if off = 0x70 then h.frame * 2 ^ 32 + h.stepm1
  else if off = 0x78 then s.ftime % 2 ^ 64
  else if off = 0x80 then h.ftload.toNat
  else if off = 0x88 then (if h.ftLoaded then 4 else 0) + (if h.ftSrc then 2 else 0) + (if h.ftArm then 1 else 0)
  else if off = 0x90 then h.donedropCtx.toNat * 2 ^ 32 + h.donedrop.toNat
  else 0

def State.readPort (s : State) (q off : Nat) : Nat :=
  let p := s.port q
  let bit (b : Bool) (i : Nat) : Nat := if b then 2 ^ i else 0
  if s.dbg.frozen then 2 ^ 64 - 1
  else if off = 0x88 then p.tag.toNat * 2 ^ 32 + p.why.toNat * 2 ^ 8 + bit p.refused 1 + bit (s.queueFull q) 0
  else if off = 0x90 then bit p.note 14 + p.vec.toNat * 2 ^ 8 + bit p.en 4 + p.ctx.toNat
  else 0

def State.readMsix (s : State) (off : Nat) : Nat :=
  let one (i : Nat) : Nat :=
    if i % 4 = 3 then (if s.host.msixMask.contains (i / 4) then 1 else 0) else (Table.getD s.host.msixTable i 0).toNat
  if off < 0x400 then one (off / 4) + (if off % 8 = 0 then one (off / 4 + 1) * 2 ^ 32 else 0)
  else if off = 0x400 then (s.host.msixPend.map fun v => 2 ^ v).sum
  else 0

def State.readLink (s : State) (off : Nat) : Nat :=
  let bit (b : Bool) (i : Nat) : Nat := if b then 2 ^ i else 0
  let l := s.link (off / 0x40)
  if off < 0x100 then
    if off % 0x40 = 0x00 then
      bit l.peerv 20 + l.peer.toNat * 2 ^ 16 + l.lanes * 2 ^ 8 + bit l.training 2 + bit l.deg 1 + bit l.up 0
    else if off % 0x40 = 0x08 then bit l.hold 1 + bit l.en 0
    else if off % 0x40 = 0x10 then l.lost.toNat
    else if off % 0x40 = 0x18 then l.replay.toNat
    else if off % 0x40 = 0x20 then l.crc.toNat
    else 0
  else if off < 0x180 ∧ off % 8 = 0 then (Table.getD s.routes ((off - 0x100) / 8) 0).toNat
  else 0

/-- What a host read at BAR0 offset `off` returns. -/
def State.readBar0 (s : State) (off : Nat) : Word :=
  BitVec.ofNat 64 (
    if !s.tch.pcieUp then 0
    else if off < 0x1000 then s.readIdent off
    else if off = 0x1000 then s.tch.code.toNat
    else if off = 0x1008 then s.tch.result.toNat * 2 ^ 8 + (if s.tch.busy then 1 else 0)
    else if off = 0x1010 then s.tch.rlen
    else if 0x2000 ≤ off ∧ off < 0x3000 then leNat (s.tch.buf.bytes (off - 0x2000) (min 8 (0x3000 - off)))
    else if s.tch.fwrecov then 0
    else if 0x10000 ≤ off ∧ off < 0x14000 then s.readPort ((off - 0x10000) / 0x100) ((off - 0x10000) % 0x100)
    else if 0x20000 ≤ off ∧ off < 0x21000 then s.readMsix (off - 0x20000)
    else if 0x100000 ≤ off ∧ off < 0x110000 then s.readPower (off - 0x100000)
    else if 0x200000 ≤ off ∧ off < 0x201000 then s.readLink (off - 0x200000)
    else 0)

/-! ### BAR2 (R26, R45, R48; 15, R327; 19, R390) -/

/-- What the host's read returned, and whether it was refused or poisoned. -/
def State.hostGets (s : State) (bs : List Byte) (bad : Bool) : State :=
  { s with host := { s.host with hostData := bs, hostBad := bad } }

/-- A host read through BAR2. While frozen, R48 goes before the range check of R26 (log 69). -/
def execHostBar2Read (addr len : Nat) (s : State) : Out :=
  if !s.barsUp then .next (s.hostGets [] true)
  else if s.dbg.frozen then .next (s.frzDrop.hostGets (List.replicate len 0xFF) false)
  else if Config.hbmEnd < addr + len then .next (s.hostGets [] true)
  else
    let bad := (s.badUnits addr len).length
    let ue := s.host.ue.toNat + bad
    let s := { s with host := { s.host with ue := if 0xFFFF ≤ ue then 0xFFFF else BitVec.ofNat 16 ue } }
    .next (s.hostGets (s.seenHost.bytes addr len) (decide (0 < bad)))

/-- A host read of 64 bits of BAR0; of a queue port while frozen it is counted (R48). -/
def State.hostReads (s : State) (off : Nat) : State :=
  let v := leBytes (s.readBar0 off).toNat 8
  (if s.barsUp && s.dbg.frozen && decide (0x10000 ≤ off ∧ off < 0x14000) then s.frzDrop else s).hostGets v false

/-- A dropped write through BAR2 is counted. -/
def State.bar2Drop (s : State) : State := { s with host := { s.host with bar2drop := s.host.bar2drop + 1 } }

def execHostBar2Write (addr : Nat) (bytes : List Byte) (s : State) : Out :=
  if !s.barsUp then .next s
  else if s.dbg.frozen then .next s.frzDrop
  else if Config.hbmEnd < addr + bytes.length then .next s.bar2Drop
  else
    let cells := cellsAt addr bytes
    let s := if cells.any fun c => s.inOwnMap c.1 then s.bar2Drop else s
    .next (s.write Writer.host cells)

/-- A configuration request (R38): retried while the link is not up. -/
def execPcieConfigRequest (msix : Option Bool) (s : State) : Out :=
  if !s.tch.pcieUp then .next (s.hostGets [] true)
  else
    let s := s.hostGets [] false
    match msix with
    | some b => .next { s with host := { s.host with msixEn := b } }
    | none => .next s

end Sys2Proof.Machine
end

