-- ==== Sys2Proof/Machine/Debug.lean ====
section
/-! DEFINITION. Freeze and the debug port (02, R48-R50). -/

namespace Sys2Proof.Machine

/-- FREEZE is released, whichever source asserted it (log 69); sends that waited for a link message's place go on. -/
def State.resume (s : State) : State := s.thaw.serveSends

def execFreezeAssert (s : State) : Out := .next s.freeze
def execFreezeRelease (s : State) : Out := .next s.resume

/-- The instruction register holds `ir`; the port shifts `bs` out. -/
def State.shiftOut (s : State) (ir : BitVec 8) (bs : List Byte) : State := { s with dbg := { s.dbg with ir := ir, out := bs } }

/-- A captured register of `n` bytes: all ones while the device is not frozen. -/
def State.captured (s : State) (n : Nat) (bs : List Byte) : List Byte :=
  if s.dbg.frozen then fixLen n bs else List.replicate n 0xFF

/-- FRZ: captures whether the device is frozen, then asserts or releases. -/
def execDebugFrz (v : Bool) (s : State) : Out :=
  let s := s.shiftOut 0x20 [if s.dbg.frozen then 1 else 0]
  .next (if v then s.freeze else s.resume)

def execDebugShsel (v : BitVec 32) (s : State) : Out :=
  let s := s.shiftOut 0x21 (s.captured 4 (leBytes s.dbg.shsel.toNat 4))
  .next { s with dbg := { s.dbg with shsel := v &&& 0x00073FFF } }

/-- The core CSRs in address order. -/
def coreCsrs : List Nat := [0x200, 0x201, 0x204, 0x205, 0x206] ++ (List.range 256).map fun i => 0x300 + i

/-- Shadow chain `chain` of core `core`. -/
def State.shadow (s : State) (core chain : Nat) : List Byte :=
  if Config.cores ≤ core then []
  else if chain < 4 then
    let t := s.strand (4 * core + chain)
    if t.stat = SlotStat.live ∨ t.stat = SlotStat.bound then t.huskBytes true fullMasks else []
  else if chain = 4 then
    leBytes (s.core core).cycle.toNat 8 ++ coreCsrs.flatMap fun a => leBytes (s.csrRead (4 * core) a).toNat 8
  else if chain = 5 then
    (List.range 512).flatMap fun i => leBytes (Table.getD (s.core core).acc i 0).toNat 8
  else []

def execDebugShdata (s : State) : Out :=
  let sel := s.dbg.shsel.toNat
  .next (s.shiftOut 0x22 (s.captured 8192 (s.shadow (natBits sel 13 0) (natBits sel 18 16))))

/-- The first update of ARSEL in a freeze: the arrays switch to test read, and what was in flight is gone. -/
def State.testRead (s : State) : State :=
  if s.dbg.frozen && !s.dbg.arrayRead then
    { s with
      dbg := { s.dbg with arrayRead := true },
      strands := Table.mapVals (fun _ (t : Strand) => { t with buf := [] }) s.strands,
      cores := Table.mapVals (fun _ (k : Core) => { k with emits := k.emits.filter fun e => e.stage == 2 }) s.cores,
      ops := [] }
  else s

def execDebugArsel (v : Word) (s : State) : Out :=
  let s := (s.shiftOut 0x23 (s.captured 8 (leBytes s.dbg.arsel.toNat 8))).testRead
  .next { s with dbg := { s.dbg with arsel := v &&& 0x0000FFFFFFF33FFF } }

/-- Line `q` of HBM4, counted among those whose home is slice `h`: the number that R249 takes modulo 576 is `576 q + h`. -/
def homedLine (h q : Nat) : Nat :=
  let y := 576 * q + h
  y ^^^ (y >>> 12) ^^^ (y >>> 24)

/-- The HBM4 line that home slice `h` holds in line `n` of the part of its Granary that serves as cache: one of its own (11, R249;
log 33). -/
def heldLine (h n : Nat) : Nat :=
  let q := Config.cachedLine h n
  let l := homedLine h (q % 3728271)
  if l < Config.hbmEnd / 64 then l else homedLine h (q % 1864135)

/-- The location of byte `off` of the Granary of home slice `h`: line by line of the plain portion (11, R249), with the part that
serves as cache above it (log 33). -/
def State.sliceLoc (s : State) (h off : Nat) : Nat :=
  if off < (512 - s.tch.granC) * 1024 then Config.granaryBase + (off / 64 * 576 + h) * 64 + off % 64
  else heldLine h (off / 64) * 64 + off % 64

/-- Location of byte `off` of the selected array, none beyond it. -/
def State.arrayLoc (s : State) (core array off : Nat) : Option Nat :=
  if array = 3 then
    if core < 576 ∧ off < 0x80000 then some (s.sliceLoc core off) else none
  else if Config.cores ≤ core then none
  else if array = 0 then (if off < Config.tcmBytes then some (tcmLoc core off) else none)
  else if array = 1 then (if off < Config.localBytes then some (localLoc core off) else none)
  else if off < Config.padBytes then some (padLoc (sheafOf core) off)
  else none

/-- The 80 bits of the selected word: data, check bits, owner tag, poison. -/
def State.arrayWord (s : State) (sel : Nat) : List Byte :=
  match s.arrayLoc (natBits sel 13 0) (natBits sel 17 16) (8 * natBits sel 47 20) with
  | none => List.replicate 10 0
  | some l =>
    let d := s.mem.bytes l 8
    d ++ [Config.secded (BitVec.ofNat 64 (leNat d)), BitVec.ofNat 8 ((s.tagOf l).toNat + if s.poisoned l then 16 else 0)]

/-- ARDATA: captures the word, then the offset advances by 8. In a freeze in which ARSEL has not been updated it captures the word
that the kept selection names, and the device may still go on (log 69). -/
def execDebugArdata (s : State) : Out :=
  let sel := s.dbg.arsel
  let next := natBits sel.toNat 47 20 + 1
  let s := s.shiftOut 0x24 (s.captured 10 (s.arrayWord sel.toNat))
  let keep := sel.toNat - natBits sel.toNat 47 20 * 2 ^ 20
  .next { s with dbg := { s.dbg with arsel := BitVec.ofNat 64 (keep + next % 2 ^ 28 * 2 ^ 20) } }

/-! ### The instructions of IEEE 1149.1 (R50; logs 59 and 64) -/

/-- One scan with the instruction register at `ir`, `data` shifted in: an instruction of the table, EXTEST, SAMPLE/PRELOAD,
IDCODE, or BYPASS for every other code. -/
def State.scan (s : State) (ir : BitVec 8) (data : List Byte) : Out :=
  let n := leNat data
  if ir = 0x20 then execDebugFrz (n % 2 == 1) s
  else if ir = 0x21 then execDebugShsel (BitVec.ofNat 32 n) s
  else if ir = 0x22 then execDebugShdata s
  else if ir = 0x23 then execDebugArsel (BitVec.ofNat 64 n) s
  else if ir = 0x24 then execDebugArdata s
  else if ir = 0x00 ∨ ir = Config.irSample then
    let s := s.shiftOut ir (Config.boundaryPins s.turnNo)
    .next { s with dbg := { s.dbg with pins := data } }
  else if ir = Config.irIdcode then .next (s.shiftOut ir (leBytes Config.idcode.toNat 4))
  else .next (s.shiftOut ir [0])

end Sys2Proof.Machine
end

