-- ==== Sys2Proof/Machine/Direction.lean ====
section
/-! DEFINITION. The directional forms (10, R212-R226): exact vectors, renormalisation, and the fifteen DIR words. -/

namespace Sys2Proof.Machine

/-! ### Registers (R212-R214) -/

def DirReg.isZero (r : DirReg) : Bool := r.norm == 0x8000
def DirReg.isVoid (r : DirReg) : Bool := r.norm == 0x7FFF
def DirReg.ordinary (r : DirReg) : Bool := !r.isZero && !r.isVoid
/-- VOID. -/
def DirReg.void : DirReg := { lanes := Vector.replicate 7 0, norm := 0x7FFF }

/-- A lane as a signed number; a class other than ordinary reads as zero. -/
def DirReg.lane (r : DirReg) (i : Nat) : Int := if r.ordinary then (r.lanes.getD i 0).toInt else 0

/-- A register of `k` lanes by number, the rest zero. -/
def dirOf (k : Nat) (f : Nat → Int) (norm : Int) : DirReg :=
  { lanes := Vector.ofFn fun i => if i.val < k then BitVec.ofInt 16 (f i.val) else 0, norm := BitVec.ofInt 16 norm }

/-- `da` as a result: its code kept for ZERO and VOID, its active lanes otherwise. -/
def DirReg.copy (r : DirReg) (k : Nat) : DirReg :=
  if r.isZero then DirReg.zero else if r.isVoid then DirReg.void else dirOf k r.lane r.norm.toInt

/-- The active dimension. -/
def Strand.dim (t : Strand) : Nat := t.ddim.toNat

/-- `mag24` (R214). -/
def mag24 (l : Int) : Dy :=
  let i := l / 256
  let r := (l % 256).toNat
  if r = 0 then { n := 1, e := i }
  else
    let v := expSum (fixLn2.toNat * r / 256) 120 0 fixOne
    { n := ((v + 2 ^ (fixBits - 24)) / 2 ^ (fixBits - 23) : Nat), e := i - 23 }

/-- Component `i` of the vector value, and of the unit value (R214). -/
def DirReg.value (r : DirReg) (i : Nat) : Dy :=
  if r.ordinary then Dy.mul { n := r.lane i, e := -14 } (mag24 r.norm.toInt) else Dy.zero
def DirReg.unit (r : DirReg) (i : Nat) : Dy := { n := r.lane i, e := -14 }

/-! ### Renormalisation (R216) -/

/-- A format of 24 significant bits with room for every exponent. -/
def fmtR24 : Fmt := { eb := 24, mb := 23 }

/-- Σ f i for i below k. -/
def sumTo (f : Nat → Dy) : Nat → Dy
  | 0 => Dy.zero
  | k + 1 => (sumTo f k).add (f k)

/-- round_ne(128·log₂ S) for S > 0. -/
def normOf (x : Dy) : Int :=
  let m := x.n.toNat
  let b := sigBits m - 1
  let i : Int := x.e + b
  if m = 2 ^ b then 128 * i
  else
    let l : Int := 2 * atanhFrac (m - 2 ^ b) (m + 2 ^ b) * fixOne / fixLn2
    (128 * (i * fixOne + l) + fixOne / 2) / fixOne

def renorm (k : Nat) (x : Nat → Dy) : DirReg :=
  let ss := sumTo (fun i => (x i).mul (x i)) k
  if ss.n = 0 then DirReg.zero
  else
    let r := (fmtR24.decode (fmtR24.rsqF .rne (.fin false ss.n.toNat ss.e)).1).dy
    let l := normOf ss
    if 32766 < l then DirReg.void
    else dirOf k (fun i => roundNe (((x i).mul r).mul { n := 1, e := 14 })) (if l < -32767 then -32767 else l)

/-! ### Forms that build a direction (R219-R221) -/

def Dy.double (a : Dy) : Dy := { a with e := a.e + 1 }

/-- V(a)·u(b). -/
def dotVU (k : Nat) (a b : DirReg) : Dy := sumTo (fun i => (a.value i).mul (b.unit i)) k

/-- The current strand completes with `r` in dd. -/
def State.dirResult (s : State) (d : DReg) (r : DirReg) : Out := s.finish (s.me.setD d r)

/-- A form of two directions: VOID of a VOID operand, else `f` of the dimension. -/
def dir2 (f : Nat → DirReg → DirReg → DirReg) (d a b : DReg) (s : State) : Out :=
  let x := s.me.dr a
  let y := s.me.dr b
  s.dirResult d (if x.isVoid || y.isVoid then DirReg.void else f s.me.dim x y)

def execDadd (d a b : DReg) (s : State) : Out :=
  dir2 (fun k x y => renorm k fun i => (x.value i).add (y.value i)) d a b s
def execDsub (d a b : DReg) (s : State) : Out :=
  dir2 (fun k x y => renorm k fun i => (x.value i).sub (y.value i)) d a b s
def execDrefl (d a b : DReg) (s : State) : Out :=
  dir2 (fun k x y => if y.isZero then x.copy k
    else renorm k fun i => (x.value i).sub ((dotVU k x y).mul (y.unit i)).double) d a b s
def execDproj (d a b : DReg) (s : State) : Out :=
  dir2 (fun k x y => if y.isZero then x.copy k
    else renorm k fun i => (x.value i).sub ((dotVU k x y).mul (y.unit i))) d a b s

/-- Component `i` of a cross product. -/
def crossAt (x y : Nat → Dy) (i : Nat) : Dy :=
  let j := (i + 1) % 3
  let l := (i + 2) % 3
  ((x j).mul (y l)).sub ((x l).mul (y j))

def execDcross (d a b : DReg) (s : State) : Out :=
  dir2 (fun k x y => if k ≠ 3 then DirReg.void else renorm k (crossAt x.value y.value)) d a b s

def execDmix (d a b : DReg) (c : XReg) (s : State) : Out :=
  let t := fmtS.decode ((s.me.xr c).toNat % 2 ^ 32)
  dir2 (fun k x y => if t.isNan || t.isInf then DirReg.void
    else renorm k fun i => (((Dy.ofInt 1).sub t.dy).mul (x.value i)).add (t.dy.mul (y.value i))) d a b s

def execDnorm (d a : DReg) (s : State) : Out :=
  let x := s.me.dr a
  let k := s.me.dim
  s.dirResult d
    (if x.ordinary then
       let r := renorm k fun i => Dy.ofInt (x.lane i)
       if r.isZero then r else { r with norm := x.norm }
     else x.copy k)

/-- f16 lane `i` of a v register. -/
def f16Lane (v : V128) (i : Nat) : Fv := fmtH.decode (v.toNat / 2 ^ (16 * i) % 2 ^ 16)

def execDvec (d : DReg) (a : VReg) (s : State) : Out :=
  let v := s.me.vr a
  let k := s.me.dim
  s.dirResult d
    (if (List.range k).any fun i => (f16Lane v i).isNan || (f16Lane v i).isInf then DirReg.void
     else renorm k fun i => (f16Lane v i).dy)

/-! ### Forms that read, scale or copy (R222-R226) -/

def execDmov (d : VReg) (a : DReg) (s : State) : Out :=
  let x := s.me.dr a
  let lane (i : Nat) : Nat :=
    if i < s.me.dim then (if x.isVoid then fmtH.nan else (fmtH.roundDy .rne (x.value i)).1) else 0
  s.finish (s.me.setV d (BitVec.ofNat 128 ((List.range 8).map fun i => lane i * 2 ^ (16 * i)).sum))

/-- c clamped to [−1, 1]. -/
def clampOne (c : Dy) : Dy :=
  if c.lt (Dy.ofInt (-1)) then Dy.ofInt (-1) else if (Dy.ofInt 1).lt c then Dy.ofInt 1 else c

def execDdot (d : XReg) (a b : DReg) (s : State) : Out :=
  let x := s.me.dr a
  let y := s.me.dr b
  let r : Nat :=
    if x.isVoid || y.isVoid then fmtS.nan
    else if x.isZero || y.isZero then 0
    else (fmtS.roundDy .rne (clampOne (sumTo (fun i => (x.unit i).mul (y.unit i)) s.me.dim))).1
  s.finish (s.me.setX d (BitVec.ofNat 64 r))

def execDscl (d a : DReg) (b : XReg) (s : State) : Out :=
  let x := s.me.dr a
  let k := s.me.dim
  let n := x.norm.toInt + ((s.me.xr b).truncate 16 : BitVec 16).toInt
  s.dirResult d
    (if x.ordinary then
       if 32766 < n then DirReg.void else dirOf k x.lane (if n < -32767 then -32767 else n)
     else x.copy k)

def execDneg (d a : DReg) (s : State) : Out :=
  let x := s.me.dr a
  let k := s.me.dim
  s.dirResult d
    (if x.ordinary then dirOf k (fun i => if x.lane i = -32768 then 32767 else -(x.lane i)) x.norm.toInt else x.copy k)

def execDsetn (d a : DReg) (b : XReg) (s : State) : Out :=
  let x := s.me.dr a
  let k := s.me.dim
  let n : BitVec 16 := (s.me.xr b).truncate 16
  let r : DirReg := { x with norm := n }
  s.dirResult d (if x.ordinary then r.copy k else x.copy k)

def execDmovn (d : XReg) (a : DReg) (s : State) : Out :=
  s.finish (s.me.setX d ((s.me.dr a).norm.signExtend 64))

/-- Lane `i` as stored, whatever the class. -/
def DirReg.stored (r : DirReg) (i : Nat) : Int := (r.lanes.getD i 0).toInt

def execDtst (d : XReg) (a : DReg) (s : State) : Out :=
  let x := s.me.dr a
  let k := s.me.dim
  let sq := ((List.range k).map fun i => x.stored i * x.stored i).sum
  let incons := if x.ordinary then (List.range k).all fun i => x.stored i == 0
    else (List.range 7).any fun i => x.stored i != 0
  let stray := (List.range 7).any fun i => decide (k ≤ i) && x.stored i != 0
  let offunit := x.ordinary && decide (k * 2 ^ 15 < (sq - 2 ^ 28).natAbs)
  s.finish (s.me.setX d (BitVec.ofNat 64
    ((if x.isZero then 1 else 0) + (if x.isVoid then 2 else 0) + (if offunit then 4 else 0) +
     (if stray then 8 else 0) + (if incons then 16 else 0))))

end Sys2Proof.Machine
end

