-- ==== Sys2Proof/Machine/Events.lean ====
section
/-! DEFINITION. Steps of the strands' own units: boundary causes, drains, caches, releases that complete, probes, watchdogs
and timers (19, R369; 15, R315, R316; 06, R122, R123; 16, R331, R332, R337, R357, R359; 07, R166). -/

namespace Sys2Proof.Machine

/-! ### Boundary causes (19, R369, R380) -/

/-- Strand `sid` takes its lowest pending cause: its wait is withdrawn and its parking ends. An FPX message that waits
for an entry of the send queue stays there (R378). -/
def execBoundaryTrapTake (sid : Nat) (s : State) : Out :=
  let t := s.strand sid
  match t.pend with
  | [] => .next s
  | (code, value) :: rest =>
    if t.stat = SlotStat.live && !t.saving then
      let s := (s.setStrand sid { t with pend := rest, parked := none, fenMask := 0 }).withdraw sid
      .next (s.trapEntry sid code value true t.pc)
    else .next s

/-! ### Drains and caches -/

/-- An older entry of the buffer covers a byte of entry `seq`. -/
def heldBack (buf : List BufEntry) (e : BufEntry) : Bool :=
  (buf.takeWhile fun b => b.seq != e.seq).any fun b => b.cells.any fun c => e.cells.any fun d => d.1 == c.1

/-- An entry drains (R315), or, when it has drained toward some parties alone, toward the rest (R319; log 18). -/
def execStoreDrain (sid seq : Nat) (s : State) : Out :=
  let t := s.strand sid
  match t.buf.find? fun e => e.seq == seq with
  | none => .next (s.lift fun e => e.uid == t.uid && e.seq == seq).settle
  | some e => if heldBack t.buf e then .next s else .next (s.performEntry sid e)

/-- The machine removes a line of a core's L1 (R316). -/
def execL1LineRemove (core line : Nat) (s : State) : Out :=
  .next (s.setCore core { s.core core with l1 := (s.core core).l1.filter fun e => e.line != line })

/-- A new line in the instruction cache: 32 sets of four (R122; log 8). -/
def icacheAdd (l : List ILine) (e : ILine) : List ILine :=
  let rest := l.filter fun f => !(f.ctx == e.ctx && f.line == e.line)
  let same := rest.filter fun f => f.line % 32 == e.line % 32
  let out := (same.drop 3).map fun f => (f.ctx, f.line)
  e :: rest.filter fun f => !(out.contains (f.ctx, f.line))

/-- The line at physical address `p` as core `core` reads it at its home. -/
def State.iline (s : State) (core : Nat) (ctx : BitVec 4) (line p : Nat) : ILine :=
  { ctx := ctx, line := line, bytes := (s.seen core).bytes p 64, phys := p,
    bad := ((List.range 8).map (8 * ·)).filter fun o => s.poisoned (p + o) }

/-- Words of a line that the core's fetch buffers hold are read from it anew when it is filled (R122), for a strand that may fetch
them now (R119); an error that is recorded for one stands (R121). -/
def ILine.renew (e : ILine) (f : FetchWord) : FetchWord :=
  match f.res, e.word (f.addr.toNat % 64) with
  | .word _, .word w => if f.addr.toNat / 64 = e.line then { f with res := .word w } else f
  | _, _ => f
def State.refreshFetch (s : State) (core : Nat) (e : ILine) : State :=
  let fresh (sid : Nat) (t : Strand) : Strand :=
    if coreOf sid = core && t.ctx == e.ctx && t.fbuf.any (fun f => f.addr.toNat / 64 == e.line) then
      match (s.translate core t.ctx (t.mode == 0) (64 * e.line) .exec).2 with
      | .ok _ => { t with fbuf := t.fbuf.map e.renew }
      | .error _ => t
    else t
  { s with strands := Table.mapVals fresh s.strands }

/-- The line strand `sid` waits for arrives, with what cannot be corrected in it, and its flits are charged (05, R100). An address
that no longer translates is left to the strand's next fetch. -/
def execIcacheFill (sid : Nat) (s : State) : Out :=
  let t := s.strand sid
  match t.fetchWait with
  | none => .next s
  | some line =>
    let core := coreOf sid
    let s := s.setStrand sid { t with fetchWait := none }
    match s.translate core t.ctx (t.mode == 0) (64 * line) .exec with
    | (s, .error _) => .next s
    | (s, .ok (p, _)) =>
      let s := (s.touch core 0 (locsFrom p 64)).spend core (4 * Config.accessFlits s.turnNo)
      let e := s.iline core t.ctx line p
      .next ((s.setCore core { s.core core with icache := icacheAdd (s.core core).icache e }).refreshFetch core e)

/-- A parity error of an instruction-cache line: the line is gone, and is fetched again when a strand comes to it (R122). -/
def State.icacheParity (s : State) (core : Nat) (ctx : BitVec 4) (line : Nat) : State :=
  s.setCore core { s.core core with icache := (s.core core).icache.filter fun e => !(e.ctx == ctx && e.line == line) }

/-! ### Releases that complete (16, R337, R357) -/

/-- An arrival whose release has completed counts, and the phase may pass. -/
def execBarrierArrivalCount (launch point sheaf sid : Nat) (s : State) : Out :=
  let key := if point < 16 then sheaf * 32 + point else point
  match Table.get? s.launches launch with
  | none => .next s
  | some la =>
    let p := la.point key
    let uid := (s.strand sid).uid
    let p' := { p with arrivals := p.arrivals.map fun a =>
      if a.uid = uid then { a with counted := a.counted || s.drained a.rel } else a }
    let s := { s with launches := Table.set s.launches launch { la with points := Table.set la.points key p' } }
    .next (s.passPoint launch key (p.arrivals.length + 1))

/-- The effect of a `kleave` whose release has completed. -/
def execKeyLeaveEffect (sid : Nat) (key : Word) (s : State) : Out :=
  match s.keyIdx (coreOf sid) key with
  | none => .next s
  | some i =>
    match s.keys[i]? with
    | none => .next s
    | some e =>
      match e.leaving with
      | some set => if s.drained set then .next (s.leaveKey i e) else .next s
      | none => .next s

/-- The effect of a `kskip` whose release has completed. -/
def execKeySkipEffect (sid : Nat) (key : Word) (num : BitVec 32) (s : State) : Out :=
  match s.keyIdx (coreOf sid) key with
  | none => .next s
  | some i =>
    match s.keys[i]? with
    | none => .next s
    | some e =>
      match e.skipping.find? fun k => k.2.1 == num with
      | some k => if s.drained k.2.2 then .next (s.skipKey i { e with skipping := e.skipping.erase k } num) else .next s
      | none => .next s

/-! ### The probe for deadlock (16, R359) -/

/-- The strand that holds key `k` as a strand of core `core` names it, when it is itself waiting in `kenter`: its slot and
the key it waits for. -/
def State.probeNext (s : State) (core : Nat) (k : Word) : Option (Nat × Word) :=
  match (s.keyIdx core k).bind fun i => s.keys[i]? with
  | none => none
  | some e =>
    match e.holder.bind fun h => s.slotOf h.1 with
    | none => none
    | some sid =>
      match (s.strand sid).wait with
      | some (.key k' _ _) => some (sid, k')
      | _ => none

/-- Follow holders from `sid`, which waits for `k`, for at most `n` hops: the strands of the cycle, none without one. -/
def State.probe (s : State) (origin sid : Nat) (k : Word) (path : List Nat) : Nat → Option (List Nat)
  | 0 => none
  | n + 1 =>
    match s.probeNext (coreOf sid) k with
    | none => none
    | some (next, k') => if next = origin then some path else State.probe s origin next k' (path ++ [next]) n

/-- The strand of a cycle whose wait began last, the lowest strand id among equals. -/
def State.closer (s : State) (cycle : List Nat) : Nat :=
  cycle.foldl (fun best sid =>
    let a := (s.strand sid).waitAt
    let b := (s.strand best).waitAt
    if b < a ∨ (a = b ∧ sid < best) then sid else best) (cycle.headD 0)

def execKeyProbe (sid : Nat) (s : State) : Out :=
  let t := s.strand sid
  match t.wait with
  | some (.key k _ _) =>
    if t.stat = SlotStat.live ∧ t.kprobe ≠ 0 ∧ t.kprobe.toNat ≤ t.probed then
      let s := s.setStrand sid { t with probed := 0 }
      match s.probe sid sid k [sid] 64 with
      | none => .next s
      | some cycle =>
        let c := s.closer cycle
        (match (s.strand c).wait with
         | some (.key kc _ _) => .next (s.raiseAt c .keydl kc)
         | _ => .next s)
    else .next s
  | _ => .next s

/-! ### Watchdogs and timers -/

/-- The cause a watched wait raises (R331); a `recvn` that ends by itself first is not watched. -/
def Strand.watched (t : Strand) : Option Cause :=
  match t.wait with
  | some (.phase _ _ _) | some (.superstep _ _ _ _) | some (.recv _ _ _) | some (.send _ _) | some (.key _ _ _)
  | some (.pop _ _) | some (.word _ _) | some (.counter _ _) => some .stall
  | some (.recvn _ limit _ _) => if limit < t.stallto.toNat then none else some .stall
  | some (.push _ _ _ set) => if set.isEmpty then some .stall else none
  | some (.keyRoom _) => some .keyfull
  | _ => none

/-- A watched wait has lasted `stallto` core cycles (R332). -/
def execStall (sid : Nat) (s : State) : Out :=
  let t := s.strand sid
  match t.watched with
  | none => .next s
  | some c =>
    if t.stat = SlotStat.live ∧ t.stallto ≠ 0 ∧ t.stallto.toNat ≤ t.waited then .next (s.raiseAt sid c (t.word.zeroExtend 64))
    else .next s

/-- A waiting `recvn` ends by its own time-out (R346). -/
def execRecvnTimeout (sid : Nat) (s : State) : Out :=
  let t := s.strand sid
  match t.wait with
  | some (.recvn _ limit d _) =>
    if t.stat = SlotStat.live ∧ limit ≤ t.waited ∧ (t.stallto = 0 ∨ limit ≤ t.stallto.toNat) then
      .next (s.setStrand sid (t.setX d (-2)).done)
    else .next s
  | _ => .next s

/-- Field time has reached the wake time of a `nap` (R166). -/
def execNapWake (sid : Nat) (s : State) : Out :=
  let t := s.strand sid
  match t.wait with
  | some (.nap wake) => if t.stat = SlotStat.live ∧ wake ≤ s.ftime then .next (s.finishAt sid) else .next s
  | _ => .next s

end Sys2Proof.Machine
end

