-- ==== Sys2Proof/Machine/Int.lean ====
section
/-! DEFINITION. Integer, multiply and divide, bit-field and immediate instructions (07, R146-R151). -/

namespace Sys2Proof.Machine

/-- The template of R146: xd takes `v` of the two source registers. -/
def intOp (v : Word → Word → Word) (d a b : XReg) (s : State) : Out :=
  s.finish (s.me.setX d (v (s.me.xr a) (s.me.xr b)))

/-- 1 or 0. -/
def bit01 (b : Bool) : Word := if b then 1 else 0

/-- The shift count of a register: its low six bits. -/
def sh6 (b : Word) : Nat := b.toNat % 64

def execAdd (d a b : XReg) (s : State) : Out := intOp (fun x y => x + y) d a b s
def execSub (d a b : XReg) (s : State) : Out := intOp (fun x y => x - y) d a b s
def execAnd (d a b : XReg) (s : State) : Out := intOp (fun x y => x &&& y) d a b s
def execOr (d a b : XReg) (s : State) : Out := intOp (fun x y => x ||| y) d a b s
def execXor (d a b : XReg) (s : State) : Out := intOp (fun x y => x ^^^ y) d a b s
def execAndn (d a b : XReg) (s : State) : Out := intOp (fun x y => x &&& ~~~y) d a b s
def execSll (d a b : XReg) (s : State) : Out := intOp (fun x y => x <<< sh6 y) d a b s
def execSrl (d a b : XReg) (s : State) : Out := intOp (fun x y => x >>> sh6 y) d a b s
def execSra (d a b : XReg) (s : State) : Out := intOp (fun x y => x.sshiftRight (sh6 y)) d a b s
def execRol (d a b : XReg) (s : State) : Out := intOp (fun x y => x.rotateLeft (sh6 y)) d a b s
def execSlt (d a b : XReg) (s : State) : Out := intOp (fun x y => bit01 (x.slt y)) d a b s
def execSltu (d a b : XReg) (s : State) : Out := intOp (fun x y => bit01 (x.ult y)) d a b s
def execMin (d a b : XReg) (s : State) : Out := intOp (fun x y => if x.slt y then x else y) d a b s
def execMax (d a b : XReg) (s : State) : Out := intOp (fun x y => if x.slt y then y else x) d a b s
def execMinu (d a b : XReg) (s : State) : Out := intOp (fun x y => if x.ult y then x else y) d a b s
def execMaxu (d a b : XReg) (s : State) : Out := intOp (fun x y => if x.ult y then y else x) d a b s

/-- The template for one source. -/
def intOp1 (v : Word → Word) (d a : XReg) (s : State) : Out := s.finish (s.me.setX d (v (s.me.xr a)))

def clzW (x : Word) : Word := BitVec.ofNat 64 (64 - sigBits x.toNat)
def ctzW (x : Word) : Word := BitVec.ofNat 64 (lowBit x 0 64)
def popcW (x : Word) : Word := BitVec.ofNat 64 (countBits x.getLsbD 64)
def brevW (x : Word) : Word := BitVec.ofNat 64 (ofBits (fun i => x.getLsbD (63 - i)) 64)
def bswapW (x : Word) : Word := BitVec.ofNat 64 (leNat (leBytes x.toNat 8).reverse)
def dilvW (x : Word) : Word :=
  BitVec.ofNat 64 (ofBits (fun i => x.getLsbD (if i < 32 then 2 * i else 2 * (i - 32) + 1)) 64)
def dilv3W (x : Word) : Word := BitVec.ofNat 64 (ofBits (fun i => x.getLsbD (3 * (i % 21) + i / 21)) 63)
def ilvW (x y : Word) : Word :=
  BitVec.ofNat 64 (ofBits (fun i => if i % 2 = 0 then x.getLsbD (i / 2) else y.getLsbD (i / 2)) 64)
def ilv3W (x y z : Word) : Word :=
  BitVec.ofNat 64 (ofBits (fun i =>
    if i % 3 = 0 then x.getLsbD (i / 3) else if i % 3 = 1 then y.getLsbD (i / 3) else z.getLsbD (i / 3)) 63)

def execClz (d a : XReg) (s : State) : Out := intOp1 clzW d a s
def execCtz (d a : XReg) (s : State) : Out := intOp1 ctzW d a s
def execPopc (d a : XReg) (s : State) : Out := intOp1 popcW d a s
def execBrev (d a : XReg) (s : State) : Out := intOp1 brevW d a s
def execBswap (d a : XReg) (s : State) : Out := intOp1 bswapW d a s
def execDilv (d a : XReg) (s : State) : Out := intOp1 dilvW d a s
def execDilv3 (d a : XReg) (s : State) : Out := intOp1 dilv3W d a s
def execIlv (d a b : XReg) (s : State) : Out := intOp ilvW d a b s
def execIlv3 (d a b c : XReg) (s : State) : Out :=
  s.finish (s.me.setX d (ilv3W (s.me.xr a) (s.me.xr b) (s.me.xr c)))
def execSel (d a b c : XReg) (s : State) : Out :=
  s.finish (s.me.setX d (if s.me.xr c ≠ 0 then s.me.xr a else s.me.xr b))

/-- The low 32 bits, sign-extended. -/
def sextW (x : Word) : Word := (x.truncate 32).signExtend 64

def execAddw (d a b : XReg) (s : State) : Out := intOp (fun x y => sextW (x + y)) d a b s
def execSubw (d a b : XReg) (s : State) : Out := intOp (fun x y => sextW (x - y)) d a b s

/-! ### Multiply and divide (R148, R149) -/

def divS (x y : Word) : Word := if y = 0 then BitVec.allOnes 64 else BitVec.ofInt 64 (Int.tdiv x.toInt y.toInt)
def divU (x y : Word) : Word := if y = 0 then BitVec.allOnes 64 else BitVec.ofNat 64 (x.toNat / y.toNat)
def remS (x y : Word) : Word := if y = 0 then x else BitVec.ofInt 64 (Int.tmod x.toInt y.toInt)
def remU (x y : Word) : Word := if y = 0 then x else BitVec.ofNat 64 (x.toNat % y.toNat)

def execMul (d a b : XReg) (s : State) : Out := intOp (fun x y => x * y) d a b s
def execMulh (d a b : XReg) (s : State) : Out :=
  intOp (fun x y => BitVec.ofInt 64 (x.toInt * y.toInt / 2 ^ 64)) d a b s
def execMulhu (d a b : XReg) (s : State) : Out :=
  intOp (fun x y => BitVec.ofNat 64 (x.toNat * y.toNat / 2 ^ 64)) d a b s
def execMulw (d a b : XReg) (s : State) : Out := intOp (fun x y => sextW (x * y)) d a b s
def execDiv (d a b : XReg) (s : State) : Out := intOp divS d a b s
def execDivu (d a b : XReg) (s : State) : Out := intOp divU d a b s
def execRem (d a b : XReg) (s : State) : Out := intOp remS d a b s
def execRemu (d a b : XReg) (s : State) : Out := intOp remU d a b s
def execMadd (d a b c : XReg) (s : State) : Out :=
  s.finish (s.me.setX d (s.me.xr a * s.me.xr b + s.me.xr c))

/-! ### Bit fields (R147); `l` is LENM1 -/

def execExtr (d a : XReg) (p l : BitVec 6) (sg : Bool) (s : State) : Out :=
  let n := l.toNat + 1
  let f := (s.me.xr a).toNat / 2 ^ p.toNat % 2 ^ n
  s.finish (s.me.setX d (BitVec.ofNat 64 (if sg && decide (2 ^ (n - 1) ≤ f) then f + (2 ^ 64 - 2 ^ n) else f)))

def execInsf (d a : XReg) (p l : BitVec 6) (s : State) : Out :=
  let n := l.toNat + 1
  let m : Word := BitVec.ofNat 64 ((2 ^ n - 1) * 2 ^ p.toNat)
  s.finish (s.me.setX d ((s.me.xr d &&& ~~~m) ||| ((s.me.xr a <<< p.toNat) &&& m)))

/-! ### Immediates (R151) -/

def execAddi (d a : XReg) (i : BitVec 16) (s : State) : Out := s.finish (s.me.setX d (s.me.xr a + sext i))
def execAndi (d a : XReg) (i : BitVec 16) (s : State) : Out := s.finish (s.me.setX d (s.me.xr a &&& zext i))
def execOri (d a : XReg) (i : BitVec 16) (s : State) : Out := s.finish (s.me.setX d (s.me.xr a ||| zext i))
def execXori (d a : XReg) (i : BitVec 16) (s : State) : Out := s.finish (s.me.setX d (s.me.xr a ^^^ zext i))
def execSlli (d a : XReg) (n : BitVec 6) (s : State) : Out := s.finish (s.me.setX d (s.me.xr a <<< n.toNat))
def execSrli (d a : XReg) (n : BitVec 6) (s : State) : Out := s.finish (s.me.setX d (s.me.xr a >>> n.toNat))
def execSrai (d a : XReg) (n : BitVec 6) (s : State) : Out :=
  s.finish (s.me.setX d ((s.me.xr a).sshiftRight n.toNat))
def execRoli (d a : XReg) (n : BitVec 6) (s : State) : Out := s.finish (s.me.setX d ((s.me.xr a).rotateLeft n.toNat))
def execSlti (d a : XReg) (i : BitVec 16) (s : State) : Out :=
  s.finish (s.me.setX d (bit01 ((s.me.xr a).slt (sext i))))
def execSltiu (d a : XReg) (i : BitVec 16) (s : State) : Out :=
  s.finish (s.me.setX d (bit01 ((s.me.xr a).ult (sext i))))
def execLhi (d : XReg) (i : BitVec 16) (s : State) : Out := s.finish (s.me.setX d (sext i <<< 16))
def execAddpc (d : XReg) (o : BitVec 16) (s : State) : Out := s.finish (s.me.setX d (s.me.pc + wordOff o))

end Sys2Proof.Machine
end

