-- ==== Sys2Proof/Machine/Mem.lean ====
section
/-! DEFINITION. Loads and stores: scalar, vector, strided, gathered, directional (11, R259-R262). -/

namespace Sys2Proof.Machine

/-! ### One access (R259, R260, R262) -/

/-- Load `size` bytes at `a`; the strand completes as `f` of itself and the bytes. -/
def State.loadTo (s : State) (a : Word) (size : Nat) (f : Strand → List Byte → Strand) : Out :=
  s.reading a size fun s bs => s.finish (f s.me bs)

/-- Store `bs` at `a`; the strand completes as `f` of itself. A strand whose sixteen entries are taken is not ready. -/
def State.storeFrom (s : State) (a : Word) (bs : List Byte) (f : Strand → Strand) : Out :=
  if s.me.bufFull then s.wait .again
  else s.writing a bs.length .write fun s locs => s.buffer (f s.me) [a.toNat] (locs.zip bs)

def execLd (d a : XReg) (wd : LdWidth) (pi : Bool) (o : BitVec 12) (s : State) : Out :=
  s.loadTo (s.me.memAddr a pi o) (ldSize wd) fun t bs => (t.postInc a pi o).setX d (ldExtend wd (leNat bs))

def execLdx (d a b : XReg) (wd : LdWidth) (s : State) : Out :=
  s.loadTo (s.me.xr a + s.me.xr b) (ldSize wd) fun t bs => t.setX d (ldExtend wd (leNat bs))

def execSt (r a : XReg) (wd : StWidth) (pi : Bool) (o : BitVec 12) (s : State) : Out :=
  s.storeFrom (s.me.memAddr a pi o) (leBytes (s.me.xr r).toNat (stSize wd)) fun t => t.postInc a pi o

def execStx (r a b : XReg) (wd : StWidth) (s : State) : Out :=
  s.storeFrom (s.me.xr a + s.me.xr b) (leBytes (s.me.xr r).toNat (stSize wd)) id

def execVld (d : VReg) (a : XReg) (pi : Bool) (o : BitVec 12) (s : State) : Out :=
  s.loadTo (s.me.memAddr a pi o) 16 fun t bs => (t.postInc a pi o).setV d (BitVec.ofNat 128 (leNat bs))

def execVst (r : VReg) (a : XReg) (pi : Bool) (o : BitVec 12) (s : State) : Out :=
  s.storeFrom (s.me.memAddr a pi o) (leBytes (s.me.vr r).toNat 16) fun t => t.postInc a pi o

def execDld (d : DReg) (a : XReg) (pi : Bool) (o : BitVec 12) (s : State) : Out :=
  s.loadTo (s.me.memAddr a pi o) 16 fun t bs => (t.postInc a pi o).setD d (dirOfBytes bs)

def execDst (d : DReg) (a : XReg) (pi : Bool) (o : BitVec 12) (s : State) : Out :=
  s.storeFrom (s.me.memAddr a pi o) (s.me.dr d).bytes fun t => t.postInc a pi o

/-! ### Four elements (R261) -/

/-- Element `i` of a v register of 32-bit elements. -/
def elem32 (v : V128) (i : Nat) : BitVec 32 := (v >>> (32 * i)).truncate 32

/-- Addresses of a strided form, and of a gathered form. -/
def strided (a b : Word) : List Word := (List.range 4).map fun i => a + BitVec.ofNat 64 i * b
def gathered (a : Word) (v : V128) : List Word := (List.range 4).map fun i => a + (elem32 v i).signExtend 64

/-- The places of 4 bytes at every address in turn, each with its checks of R258 and its test of R293: MESHBOUND of a lower element is
raised before a check of a higher one (log 92). -/
def State.placeEach (s : State) (as : List Word) (acc : List Nat) (k : State → List Nat → Out) : Out :=
  match as with
  | [] => k s acc
  | a :: t => s.writing a 4 .write fun s locs => State.placeEach s t (acc ++ locs) k

/-- Four loads, every check made before the first. -/
def State.loadFour (s : State) (d : VReg) (as : List Word) : Out :=
  s.readAll { ReadKind.plain with ordered := true } (as.map fun a => (a, 4, a)) fun s bs => s.finish (s.me.setV d (BitVec.ofNat 128 (leNat bs)))

/-- The four elements are one entry; where two name the same byte the later cell stands. -/
def State.storeFour (s : State) (r : VReg) (as : List Word) : Out :=
  if s.me.bufFull then s.wait .again
  else s.placeEach as [] fun s locs =>
    s.buffer s.me (as.map (·.toNat)) (locs.zip (leBytes (s.me.vr r).toNat 16))

def execVlds (d : VReg) (a b : XReg) (s : State) : Out := s.loadFour d (strided (s.me.xr a) (s.me.xr b))
def execVsts (r : VReg) (a b : XReg) (s : State) : Out := s.storeFour r (strided (s.me.xr a) (s.me.xr b))
def execVldg (d : VReg) (a : XReg) (b : VReg) (s : State) : Out := s.loadFour d (gathered (s.me.xr a) (s.me.vr b))
def execVstg (r : VReg) (a : XReg) (b : VReg) (s : State) : Out := s.storeFour r (gathered (s.me.xr a) (s.me.vr b))

end Sys2Proof.Machine
end

