-- ==== Sys2Proof/Machine/Zstd.lean ====
section
/-! DEFINITION. The Zstandard frame of RFC 8878, which R307 names: entropy tables, literals, sequences, blocks, the formatted
dictionary and the content checksum (13, R307; log 10). -/

namespace Sys2Proof.Machine

/-! ### Bits read from the end of a stream (RFC 8878, 4.1 and 4.2) -/

/-- A stream that is read backwards: its bytes as a number, and how many of its bits are still to be read. -/
structure BackBits where
  n : Nat
  left : Nat
deriving DecidableEq, Repr

/-- The stream in `bs`: the highest bit set in the last byte ends it. -/
def backBits (bs : List Byte) : Option BackBits :=
  match bs.getLast? with
  | none => none
  | some b => if b = 0 then none else some { n := leNat bs, left := 8 * (bs.length - 1) + b.toNat.log2 }

/-- The next `k` bits, with zeros for those that there are not. -/
def BackBits.peek (s : BackBits) (k : Nat) : Nat :=
  if k ≤ s.left then s.n >>> (s.left - k) % 2 ^ k else (s.n % 2 ^ s.left) <<< (k - s.left)

/-- Read `k` bits; none when there are fewer. -/
def BackBits.read (s : BackBits) (k : Nat) : Option (Nat × BackBits) :=
  if k ≤ s.left then some (s.peek k, { s with left := s.left - k }) else none

/-! ### FSE tables (4.1) -/

/-- A cell of a decoding table: its symbol, how many bits are read, and what is added to them for the next state. -/
structure FseCell where
  symbol : Nat
  bits : Nat
  base : Nat
deriving DecidableEq, Repr

structure FseTable where
  log : Nat
  cells : List FseCell
deriving DecidableEq, Repr

def FseTable.cell (t : FseTable) (i : Nat) : FseCell := t.cells.getD i { symbol := 0, bits := 0, base := 0 }

/-- The table of one symbol that takes no bits. -/
def fseConst (symbol : Nat) : FseTable := { log := 0, cells := [{ symbol := symbol, bits := 0, base := 0 }] }

/-- The next place of a symbol: a step on, past the places at the top that are taken. -/
def fseNext (size high pos : Nat) : Nat → Nat
  | 0 => pos
  | f + 1 =>
    let p := (pos + size / 2 + size / 8 + 3) % size
    if p < high then p else fseNext size high p f

/-- The first `n` places from `pos` on. -/
def fsePlaces (size high pos : Nat) : Nat → List Nat
  | 0 => []
  | n + 1 => pos :: fsePlaces size high (fseNext size high pos size) n

/-- The symbol at each place, for the probabilities `ps`, of which 0 stands for "less than one" and n + 1 for n. -/
def fseSpread (size : Nat) (ps : List Nat) : List Nat :=
  let syms := List.range ps.length
  let low := syms.filter fun s => ps.getD s 1 == 0
  let high := size - low.length
  let rest := syms.flatMap fun s => List.replicate (ps.getD s 1 - 1) s
  let t := ((List.range low.length).zip low).foldl (fun t x => t.set (size - 1 - x.1) x.2) (List.replicate size 0)
  ((fsePlaces size high 0 rest.length).zip rest).foldl (fun t x => t.set x.1 x.2) t

/-- The cells in order; `seen` are the symbols of those before. -/
def fseCells (log : Nat) (ps seen : List Nat) : List Nat → List FseCell
  | [] => []
  | s :: rest =>
    let next := max 1 (ps.getD s 1 - 1) + seen.count s
    let bits := log - next.log2
    { symbol := s, bits := bits, base := next * 2 ^ bits - 2 ^ log } :: fseCells log ps (s :: seen) rest

def fseTable (log : Nat) (ps : List Nat) : FseTable := { log := log, cells := fseCells log ps [] (fseSpread (2 ^ log) ps) }

/-- How many zero probabilities a run of 2-bit repeat flags adds, and where it ends. -/
def fseZeros (n pos count : Nat) : Nat → Nat × Nat
  | 0 => (count, pos)
  | f + 1 =>
    let r := n >>> pos % 4
    if r = 3 then fseZeros n (pos + 2) (count + 3) f else (count + r, pos + 2)

/-- The probabilities of a table description, each one up, and the bit after them. `left`: what is left to be given out; `most`:
how many symbols there may be. -/
def fseProbs (n most : Nat) (pos left : Nat) (ps : List Nat) : Nat → Option (List Nat × Nat)
  | 0 => none
  | f + 1 =>
    if left = 0 then (if ps.length ≤ most then some (ps, pos) else none)
    else if most ≤ ps.length then none
    else
      let bits := (left + 1).log2 + 1
      let low := 2 ^ (bits - 1)
      let few := 2 ^ bits - 1 - (left + 1)
      let v := n >>> pos % 2 ^ bits
      let short := decide (v % low < few)
      let p := if short then v % low else if v < low then v else v - few
      let pos := pos + if short then bits - 1 else bits
      let cost := if p = 0 then 1 else p - 1
      if left < cost then none
      else if p = 1 then
        let z := fseZeros n pos 0 256
        fseProbs n most z.2 left (ps ++ List.replicate (z.1 + 1) 1) f
      else fseProbs n most pos (left - cost) (ps ++ [p]) f

/-- The table described at the head of `bs`, of at most `most` symbols and accuracy `maxLog`, and the bytes after it. -/
def fseHeader (most maxLog : Nat) (bs : List Byte) : Option (FseTable × List Byte) :=
  let n := leNat (bs.take 512)
  let log := n % 16 + 5
  if bs.isEmpty || decide (maxLog < log) then none
  else
    match fseProbs n most 4 (2 ^ log) [] 300 with
    | none => none
    | some (ps, pos) =>
      let used := (pos + 7) / 8
      if bs.length < used then none else some (fseTable log ps, bs.drop used)

/-! ### Huffman codes (4.2) -/

/-- A prefix code: the length of its longest code, and the symbol and length for each value of so many bits. -/
structure HuffTable where
  log : Nat
  cells : List (Nat × Nat)
deriving DecidableEq, Repr

/-- The code of the weights of all symbols but the last. -/
def huffTable (ws : List Nat) : Option HuffTable :=
  let sum := (ws.map fun w => if w = 0 then 0 else 2 ^ (w - 1)).sum
  let log := sum.log2 + 1
  let left := 2 ^ log - sum
  if sum = 0 ∨ 11 < log ∨ 2 ^ left.log2 ≠ left ∨ 255 < ws.length then none
  else
    let ws := ws ++ [left.log2 + 1]
    let group (w : Nat) : List (Nat × Nat) :=
      ((List.range ws.length).filter fun s => ws.getD s 0 == w).flatMap fun s => List.replicate (2 ^ (w - 1)) (s, log + 1 - w)
    some { log := log, cells := (List.range 12).flatMap fun w => if w = 0 then [] else group w }

/-- The weights of a stream that two states of table `t` read in turn; the state `a` comes next. -/
def huffWeights (t : FseTable) (a b : Nat) (s : BackBits) (ws : List Nat) : Nat → Option (List Nat)
  | 0 => none
  | f + 1 =>
    let c := t.cell a
    match s.read c.bits with
    | none => some (ws ++ [c.symbol, (t.cell b).symbol])
    | some (v, s) => huffWeights t b (c.base + v) s (ws ++ [c.symbol]) f

/-- The Huffman code described at the head of `bs`, and the bytes after it. -/
def huffHeader (bs : List Byte) : Option (HuffTable × List Byte) :=
  match bs with
  | [] => none
  | h :: rest =>
    let h := h.toNat
    if 128 ≤ h then
      let n := h - 127
      let used := (n + 1) / 2
      if rest.length < used then none
      else
        let nib (i : Nat) : Nat := let b := (rest.getD (i / 2) 0).toNat; if i % 2 = 0 then b / 16 else b % 16
        (huffTable ((List.range n).map nib)).map fun t => (t, rest.drop used)
    else if h = 0 ∨ rest.length < h then none
    else
      match fseHeader 256 6 (rest.take h) with
      | none => none
      | some (t, stream) =>
        match backBits stream with
        | none => none
        | some s =>
          match s.read t.log with
          | none => none
          | some (a, s) =>
            match s.read t.log with
            | none => none
            | some (b, s) => ((huffWeights t a b s [] 256).bind huffTable).map fun t => (t, rest.drop h)

/-- `n` symbols of a stream, latest first after `acc`; the stream must be at its end then. -/
def huffSymbols (t : HuffTable) (s : BackBits) (acc : List Byte) : Nat → Option (List Byte)
  | 0 => if s.left = 0 then some acc.reverse else none
  | n + 1 =>
    let c := t.cells.getD (s.peek t.log) (0, 0)
    match s.read c.2 with
    | none => none
    | some (_, s) => huffSymbols t s (BitVec.ofNat 8 c.1 :: acc) n

def huffStream (t : HuffTable) (n : Nat) (bs : List Byte) : Option (List Byte) := (backBits bs).bind fun s => huffSymbols t s [] n

/-- Four streams after their jump table, or one. -/
def huffStreams (t : HuffTable) (four : Bool) (n : Nat) (bs : List Byte) : Option (List Byte) :=
  if !four then huffStream t n bs
  else
    let a := fieldAt bs 0 2
    let b := fieldAt bs 2 2
    let c := fieldAt bs 4 2
    let q := (n + 3) / 4
    if bs.length < 6 + a + b + c ∨ n < 3 * q then none
    else
      let bs := bs.drop 6
      match huffStream t q (bs.take a), huffStream t q ((bs.drop a).take b), huffStream t q ((bs.drop (a + b)).take c),
        huffStream t (n - 3 * q) (bs.drop (a + b + c)) with
      | some w, some x, some y, some z => some (w ++ x ++ y ++ z)
      | _, _, _, _ => none

/-! ### What one block leaves to the next (3.1.1) -/

/-- The last Huffman code, the last tables of literal lengths, offsets and match lengths, and the three repeat offsets. -/
structure Entropy where
  huff : Option HuffTable
  ll : Option FseTable
  off : Option FseTable
  ml : Option FseTable
  rep : Nat × Nat × Nat
deriving DecidableEq, Repr

/-- At the start of a frame without a dictionary. -/
def Entropy.start : Entropy := { huff := none, ll := none, off := none, ml := none, rep := (1, 4, 8) }

/-! ### Literals (3.1.1.3.1) -/

/-- The literals section at the head of `bs`: the literals, the code for the next block, and the bytes after the section. `most`:
the longest that a block may be. -/
def zLiterals (e : Entropy) (most : Nat) (bs : List Byte) : Option (List Byte × Option HuffTable × List Byte) :=
  let h := leNat (bs.take 5)
  let kind := h % 4
  let form := h / 4 % 4
  if kind < 2 then
    let head := if form % 2 = 0 then 1 else if form = 1 then 2 else 3
    let n := if form % 2 = 0 then h / 8 % 32 else if form = 1 then h / 16 % 2 ^ 12 else h / 16 % 2 ^ 20
    let stored := if kind = 1 then 1 else n
    if bs.length < head + stored ∨ most < n then none
    else
      let data := (bs.drop head).take stored
      some (if kind = 1 then List.replicate n (data.headD 0) else data, e.huff, bs.drop (head + stored))
  else
    let head := if form < 2 then 3 else form + 2
    let w := if form < 2 then 10 else if form = 2 then 14 else 18
    let n := h / 16 % 2 ^ w
    let size := h / 2 ^ (4 + w) % 2 ^ w
    if bs.length < head + size ∨ most < n then none
    else
      let data := (bs.drop head).take size
      let code := if kind = 2 then huffHeader data else e.huff.map fun t => (t, data)
      match code with
      | none => none
      | some (t, streams) => (huffStreams t (form != 0) n streams).map fun l => (l, some t, bs.drop (head + size))

/-! ### Sequences (3.1.1.3.2) -/

/-- Base value and extra bits of the literal length codes and of the match length codes. -/
def llCode (c : Nat) : Nat × Nat :=
  if c < 16 then (c, 0)
  else [(16, 1), (18, 1), (20, 1), (22, 1), (24, 2), (28, 2), (32, 3), (40, 3), (48, 4), (64, 6), (128, 7), (256, 8), (512, 9),
    (1024, 10), (2048, 11), (4096, 12), (8192, 13), (16384, 14), (32768, 15), (65536, 16)].getD (c - 16) (0, 0)
def mlCode (c : Nat) : Nat × Nat :=
  if c < 32 then (c + 3, 0)
  else [(35, 1), (37, 1), (39, 1), (41, 1), (43, 2), (47, 2), (51, 3), (59, 3), (67, 4), (83, 4), (99, 5), (131, 7), (259, 8),
    (515, 9), (1027, 10), (2051, 11), (4099, 12), (8195, 13), (16387, 14), (32771, 15), (65539, 16)].getD (c - 32) (0, 0)

/-- The default tables (3.1.1.3.2.2), by their probabilities, each one up. -/
def llDefault : FseTable :=
  fseTable 6 ([5, 4] ++ List.replicate 11 3 ++ [2, 2, 2] ++ List.replicate 9 3 ++ [4, 3] ++ List.replicate 5 2 ++ List.replicate 4 0)
def mlDefault : FseTable :=
  fseTable 6 ([2, 5, 4] ++ List.replicate 6 3 ++ List.replicate 37 2 ++ List.replicate 7 0)
def offDefault : FseTable :=
  fseTable 5 (List.replicate 6 2 ++ [3, 3, 3] ++ List.replicate 15 2 ++ List.replicate 5 0)

/-- The table of mode `mode` at the head of `bs`, and the bytes after it. -/
def zTable (mode : Nat) (dflt : FseTable) (last : Option FseTable) (most maxLog : Nat) (bs : List Byte) :
    Option (FseTable × List Byte) :=
  match mode with
  | 0 => some (dflt, bs)
  | 1 =>
    match bs with
    | [] => none
    | b :: rest => if b.toNat < most then some (fseConst b.toNat, rest) else none
  | 2 => fseHeader most maxLog bs
  | _ => last.map fun t => (t, bs)

/-- A sequence: literal length, offset value, match length. -/
structure ZSeq where
  lits : Nat
  off : Nat
  len : Nat
deriving DecidableEq, Repr

/-- `n` sequences of a stream from states `a` (literal lengths), `b` (offsets) and `c` (match lengths). -/
def zSeqs (ll off ml : FseTable) (a b c : Nat) (s : BackBits) (acc : List ZSeq) : Nat → Option (List ZSeq)
  | 0 => if s.left = 0 then some acc.reverse else none
  | n + 1 =>
    let x := ll.cell a
    let y := off.cell b
    let z := ml.cell c
    match s.read y.symbol with
    | none => none
    | some (ov, s) =>
      match s.read (mlCode z.symbol).2 with
      | none => none
      | some (mv, s) =>
        match s.read (llCode x.symbol).2 with
        | none => none
        | some (lv, s) =>
          let acc := { lits := (llCode x.symbol).1 + lv, off := 2 ^ y.symbol + ov, len := (mlCode z.symbol).1 + mv } :: acc
          if n = 0 then zSeqs ll off ml a b c s acc n
          else
            match s.read x.bits with
            | none => none
            | some (u, s) =>
              match s.read z.bits with
              | none => none
              | some (w, s) =>
                match s.read y.bits with
                | none => none
                | some (v, s) => zSeqs ll off ml (x.base + u) (y.base + v) (z.base + w) s acc n

/-- The sequences of a section after its tables. -/
def zStream (ll off ml : FseTable) (n : Nat) (bs : List Byte) : Option (List ZSeq) :=
  match backBits bs with
  | none => none
  | some s =>
    match s.read ll.log with
    | none => none
    | some (a, s) =>
      match s.read off.log with
      | none => none
      | some (b, s) =>
        match s.read ml.log with
        | none => none
        | some (c, s) => zSeqs ll off ml a b c s [] n

/-- The sequences section that `bs` is, and the tables for the next block. -/
def zSequences (e : Entropy) (bs : List Byte) : Option (List ZSeq × Entropy) :=
  let b (i : Nat) : Nat := (bs.getD i 0).toNat
  let n := if b 0 < 128 then b 0 else if b 0 < 255 then (b 0 - 128) * 256 + b 1 else b 1 + 256 * b 2 + 0x7F00
  let head := if b 0 < 128 then 1 else if b 0 < 255 then 2 else 3
  if bs.length < head then none
  else if n = 0 then (if bs.length = head then some ([], e) else none)
  else if bs.length ≤ head ∨ b head % 4 ≠ 0 then none
  else
    let m := b head
    match zTable (m / 64) llDefault e.ll 36 9 (bs.drop (head + 1)) with
    | none => none
    | some (ll, r) =>
      match zTable (m / 16 % 4) offDefault e.off 32 8 r with
      | none => none
      | some (off, r) =>
        match zTable (m / 4 % 4) mlDefault e.ml 53 9 r with
        | none => none
        | some (ml, r) => (zStream ll off ml n r).map fun q => (q, { e with ll := some ll, off := some off, ml := some ml })

/-! ### Matches (3.1.1.4, 3.1.1.5) -/

/-- The offset that an offset value names after a run of `lits` literals, and the repeat offsets after it. -/
def zOffset (rep : Nat × Nat × Nat) (v lits : Nat) : Nat × (Nat × Nat × Nat) :=
  if 3 < v then (v - 3, (v - 3, rep.1, rep.2.1))
  else
    match v - 1 + if lits = 0 then 1 else 0 with
    | 0 => (rep.1, rep)
    | 1 => (rep.2.1, (rep.2.1, rep.1, rep.2.2))
    | 2 => (rep.2.2, (rep.2.2, rep.1, rep.2.1))
    | _ => (rep.1 - 1, (rep.1 - 1, rep.1, rep.2.1))

/-- `n` bytes, each the one `off` back, before `back`, the latest byte first. -/
def zCopy (off : Nat) (back : List Byte) : Nat → List Byte
  | 0 => back
  | n + 1 => zCopy off (back.getD (off - 1) 0 :: back) n

/-- The sequences performed: what stands before is `back`, latest first, its last `dict` bytes those of the dictionary, which can
be reached until more than the window has been decoded. -/
def zPerform (window dict : Nat) (rep : Nat × Nat × Nat) (lits back : List Byte) (len : Nat) :
    List ZSeq → Option (List Byte × Nat × (Nat × Nat × Nat))
  | [] => some (lits.reverse ++ back, len + lits.length, rep)
  | q :: rest =>
    let r := zOffset rep q.off q.lits
    let at' := len + q.lits
    if lits.length < q.lits ∨ r.1 = 0 ∨ (if at' ≤ window then at' + dict < r.1 else window < r.1) then none
    else
      let back := zCopy r.1 ((lits.take q.lits).reverse ++ back) q.len
      zPerform window dict r.2 (lits.drop q.lits) back (at' + q.len) rest

/-- A compressed block: the bytes so far with what it gives, and what it leaves to the next. -/
def zBlock (window dict most : Nat) (e : Entropy) (back : List Byte) (len : Nat) (bs : List Byte) :
    Option (List Byte × Nat × Entropy) :=
  match zLiterals e most bs with
  | none => none
  | some (lits, huff, r) =>
    match zSequences { e with huff := huff } r with
    | none => none
    | some (qs, e) =>
      match zPerform window dict e.rep lits back len qs with
      | none => none
      | some (back, len', rep) => if len + most < len' then none else some (back, len', { e with rep := rep })

/-! ### Dictionaries (5) -/

/-- What a formatted dictionary holds: its entropy tables with the repeat offsets, and its content. -/
def zDict (bs : List Byte) : Option (Entropy × List Byte) :=
  if leNat (bs.take 4) ≠ 0xEC30A437 ∨ bs.length < 8 then none
  else
    match huffHeader (bs.drop 8) with
    | none => none
    | some (huff, r) =>
      match fseHeader 32 8 r with
      | none => none
      | some (off, r) =>
        match fseHeader 53 9 r with
        | none => none
        | some (ml, r) =>
          match fseHeader 36 9 r with
          | none => none
          | some (ll, r) =>
            let rep := (fieldAt r 0 4, fieldAt r 4 4, fieldAt r 8 4)
            let content := r.drop 12
            let ok (n : Nat) : Bool := decide (0 < n ∧ n ≤ content.length)
            if r.length < 12 ∨ !(ok rep.1 && ok rep.2.1 && ok rep.2.2) then none
            else some ({ huff := some huff, ll := some ll, off := some off, ml := some ml, rep := rep }, content)

/-! ### The content checksum: XXH64 with seed 0, its low 4 bytes (3.1.1) -/

def xxP1 : Word := 0x9E3779B185EBCA87
def xxP2 : Word := 0xC2B2AE3D27D4EB4F
def xxP3 : Word := 0x165667B19E3779F9
def xxP4 : Word := 0x85EBCA77C2B2AE63
def xxP5 : Word := 0x27D4EB2F165667C5

def xxRound (a w : Word) : Word := (a + w * xxP2).rotateLeft 31 * xxP1
def xxMerge (h v : Word) : Word := (h ^^^ xxRound 0 v) * xxP1 + xxP4
def xxWord (bs : List Byte) : Word := BitVec.ofNat 64 (leNat (bs.take 8))

/-- The stripes of 32 bytes of `bs`, `n` of them. -/
def xxStripes (v : Word × Word × Word × Word) (bs : List Byte) : Nat → Word × Word × Word × Word
  | 0 => v
  | n + 1 =>
    xxStripes (xxRound v.1 (xxWord bs), xxRound v.2.1 (xxWord (bs.drop 8)), xxRound v.2.2.1 (xxWord (bs.drop 16)),
      xxRound v.2.2.2 (xxWord (bs.drop 24))) (bs.drop 32) n

def xxEights (h : Word) (bs : List Byte) : Nat → Word
  | 0 => h
  | n + 1 => xxEights ((h ^^^ xxRound 0 (xxWord bs)).rotateLeft 27 * xxP1 + xxP4) (bs.drop 8) n

def xxBytes (h : Word) : List Byte → Word
  | [] => h
  | b :: rest => xxBytes ((h ^^^ (b.zeroExtend 64 * xxP5)).rotateLeft 11 * xxP1) rest

def xxh64 (bs : List Byte) : Word :=
  let n := bs.length
  let v := xxStripes (xxP1 + xxP2, xxP2, 0, 0 - xxP1) bs (n / 32)
  let h : Word :=
    if n < 32 then xxP5
    else
      xxMerge (xxMerge (xxMerge (xxMerge
        (v.1.rotateLeft 1 + v.2.1.rotateLeft 7 + v.2.2.1.rotateLeft 12 + v.2.2.2.rotateLeft 18) v.1) v.2.1) v.2.2.1) v.2.2.2
  let r := bs.drop (n / 32 * 32)
  let h := xxEights (h + BitVec.ofNat 64 n) r (n % 32 / 8)
  let r := r.drop (n % 32 / 8 * 8)
  let h := if 4 ≤ r.length then (h ^^^ (BitVec.ofNat 64 (leNat (r.take 4)) * xxP1)).rotateLeft 23 * xxP2 + xxP3 else h
  let h := xxBytes h (if 4 ≤ r.length then r.drop 4 else r)
  let h := (h ^^^ (h >>> 33)) * xxP2
  let h := (h ^^^ (h >>> 29)) * xxP3
  h ^^^ (h >>> 32)

/-! ### Frames (3.1.1) and the codes of R307 -/

/-- The blocks of a frame in `bs`, none longer than `most`: the bytes decoded, latest first, and the bytes after them. -/
def frameBlocks (window dict most : Nat) (e : Entropy) (back : List Byte) (len : Nat) (bs : List Byte) :
    Nat → Except Nat (List Byte × Nat × List Byte)
  | 0 => .error 6
  | f + 1 =>
    let h := leNat (bs.take 3)
    let size := h / 8
    let kind := h / 2 % 4
    let stored := if kind = 1 then 1 else size
    if bs.length < 3 + stored ∨ most < size ∨ kind = 3 then .error 6
    else
      let block := (bs.drop 3).take stored
      let r : Option (List Byte × Nat × Entropy) :=
        if kind = 0 then some (block.reverse ++ back, len + size, e)
        else if kind = 1 then some (List.replicate size (block.headD 0) ++ back, len + size, e)
        else zBlock window dict most e back len block
      match r with
      | none => .error 6
      | some (back, len, e) =>
        if h % 2 = 1 then .ok (back, len, bs.drop (3 + stored))
        else frameBlocks window dict most e back len (bs.drop (3 + stored)) f

/-- One frame decoded to a page, or the code of R307. -/
def framePage (dict : Option (Nat × List Byte)) (bs : List Byte) : Except Nat (List Byte) :=
  let fhd := (bs.getD 4 0).toNat
  let single := natBits fhd 5 5 = 1
  let didSize := [0, 1, 2, 4].getD (natBits fhd 1 0) 0
  let fcsSize := if natBits fhd 7 6 = 0 then (if single then 1 else 0) else 2 ^ natBits fhd 7 6
  let didAt := if single then 5 else 6
  let head := didAt + didSize + fcsSize
  if leNat (bs.take 4) ≠ 0xFD2FB528 ∨ bs.length < 5 ∨ bs.length < head ∨ natBits fhd 3 3 = 1 then .error 1
  else
    let fcs := fieldAt bs (didAt + didSize) fcsSize + if fcsSize = 2 then 256 else 0
    let wd := (bs.getD 5 0).toNat
    let window := if single then fcs else 2 ^ (10 + wd / 8) + 2 ^ (7 + wd / 8) * (wd % 8)
    let did := fieldAt bs didAt didSize
    if 2 ^ 20 < window then .error 2
    else if did ≠ 0 ∧ dict.all (fun d => d.1 != did) then .error 4
    else
      match (if did = 0 then some (Entropy.start, []) else dict.bind fun d => zDict d.2) with
      | none => .error 6
      | some (e, content) =>
        match frameBlocks window content.length (min window 131072) e content.reverse 0 (bs.drop head) bs.length with
        | .error c => .error c
        | .ok (back, len, rest) =>
          let page := (back.take len).reverse
          let sum := natBits fhd 2 2 = 1
          if len ≠ 65536 ∨ (fcsSize ≠ 0 ∧ fcs ≠ 65536) then .error 3
          else if sum ∧ leNat (rest.take 4) ≠ (xxh64 page).toNat % 2 ^ 32 then .error 5
          else if rest.length ≠ (if sum then 4 else 0) then .error 1
          else .ok page

end Sys2Proof.Machine
end

