-- ==== Sys2Proof/Machine/Mesh.lean ====
section
/-! DEFINITION. The primitive assembler, the trays, the streaming engine's answer, the scrubber and the vertical tester
(13, R290-R299, R307; 11, R245, R246, R252; 19, R391). -/

namespace Sys2Proof.Machine

/-! ### The primitive assembler (R291, R294, R295) -/

/-- What the assembler counts: PRIMNO, DISC, CULL. -/
structure MeshCounts where
  prim : BitVec 32
  disc : BitVec 32
  cull : BitVec 32
deriving DecidableEq, Repr

/-- A mesh slot as the assembler reads it. -/
structure MeshData where
  nv : Nat
  np : Nat
  fin : Bool
  vertex : Nat → List Byte
  prim : Nat → Nat

/-- floor (x / 64) of a finite coordinate. -/
def floor64 (x : Dy) : Int := if 6 ≤ x.e then x.n * 2 ^ (x.e - 6).toNat else x.n / 2 ^ (6 - x.e).toNat

def clampInt (lo hi x : Int) : Int := max lo (min hi x)

def dyMin (a b : Dy) : Dy := if b.lt a then b else a
def dyMax (a b : Dy) : Dy := if a.lt b then b else a
def dyLeast (l : List Dy) : Dy := l.foldl dyMin (l.headD Dy.zero)
def dyMost (l : List Dy) : Dy := l.foldl dyMax (l.headD Dy.zero)

/-- The box of a triangle misses the field. -/
def boxMisses (xs ys : List Dy) : Bool :=
  (dyMost xs).lt Dy.zero || (Dy.ofInt 8192).le (dyLeast xs) || (dyMost ys).lt Dy.zero || (Dy.ofInt 4608).le (dyLeast ys)

/-- The tiles of a triangle's box, in increasing tile id. -/
def boxTiles (xs ys : List Dy) : List Nat :=
  let c (x : Dy) : Nat := (clampInt 0 127 (floor64 x)).toNat
  let r (y : Dy) : Nat := (clampInt 0 71 (floor64 y)).toNat
  ((List.range 72).filter fun k => decide (r (dyLeast ys) ≤ k ∧ k ≤ r (dyMost ys))).flatMap fun k =>
    ((List.range 128).filter fun j => decide (c (dyLeast xs) ≤ j ∧ j ≤ c (dyMost xs))).map fun j => k * 128 + j

/-- The 128 bytes of a tray record. -/
def trayBytes (prim : BitVec 32) (tile : Nat) (fin : Bool) (ctx : BitVec 4) (slot index : Nat) (vs : List Byte) :
    List Byte :=
  leBytes prim.toNat 4 ++ leBytes tile 2 ++ leBytes (if fin then 1 else 0) 1 ++ leBytes ctx.toNat 1 ++ leBytes slot 4 ++
    leBytes index 4 ++ (vs ++ List.replicate 96 0).take 96 ++ List.replicate 16 0

/-- A record sent toward a tile, with the core that owns the tile; a dark tile receives nothing (R296). -/
def State.toward (s : State) (tile : Nat) (r : TrayRecord) : List (Nat × TrayRecord) :=
  match s.owner tile with
  | none => []
  | some c => [(c, r)]

/-- Primitive `j` of slot `i`: the records so far, each with its tile, and the counts. -/
def assemblePrim (ctx : BitVec 4) (i : Nat) (d : MeshData) (acc : List (Nat × TrayRecord) × MeshCounts)
    (j : Nat) : List (Nat × TrayRecord) × MeshCounts :=
  let k := acc.2
  let n := k.prim
  let k := { k with prim := k.prim + 1 }
  let w := d.prim j
  let idx := [natBits w 9 0, natBits w 19 10, natBits w 29 20]
  if idx.any fun v => decide (d.nv ≤ v) then (acc.1, { k with disc := k.disc + 1 })
  else
    let vs := idx.map d.vertex
    let xs := vs.map fun v => fmtS.decode (fieldAt v 0 4)
    let ys := vs.map fun v => fmtS.decode (fieldAt v 4 4)
    if (xs ++ ys).any fun x => x.isNan || x.isInf then (acc.1, { k with cull := k.cull + 1 })
    else
      let xs := xs.map Fv.dy
      let ys := ys.map Fv.dy
      if boxMisses xs ys then (acc.1, { k with cull := k.cull + 1 })
      else
        (acc.1 ++ (boxTiles xs ys).map fun t =>
          (t, { ctx := ctx, bytes := trayBytes n t false ctx i j vs.flatten }), k)

/-- The slot at `va` with the capacities of its context; an ended strand's slot holds nothing. -/
def State.meshData (s : State) (c : BitVec 4) (va : Nat) (empty : Bool) : MeshData :=
  let vslot := s.meshField c 0x0C 2
  let pslot := s.meshField c 0x0E 2
  let num (off n : Nat) : Nat := leNat (s.unitBytes c (va + off) n 2)
  { nv := if empty then 0 else min (num 0 4) vslot,
    np := if empty then 0 else min (num 4 4) pslot,
    fin := num 8 4 % 2 == 1,
    vertex := fun v => s.unitBytes c (va + 0x10 + 32 * v) 32 2,
    prim := fun j => num (0x10 + 32 * vslot + 4 * j) 4 }

/-- The slot's strand has retired and its stores have drained. -/
def State.slotDone (s : State) (m : MeshSlot) : Bool :=
  m.retired && !(s.strands.any fun e => e.2.stat == SlotStat.draining && e.2.launch == m.launch && e.2.ordinal == m.ordinal &&
    !e.2.spawned)

/-- The records of slot `m` of context `c` in order, each with its tile, and the counts after it. -/
def State.sendings (s : State) (c : BitVec 4) (m : MeshSlot) : List (Nat × TrayRecord) × MeshCounts :=
  let d := s.meshData c (s.meshBase c + s.meshZ c * m.slot) m.empty
  let k : MeshCounts := { prim := BitVec.ofNat 32 (s.meshField c 0x10 4), disc := BitVec.ofNat 32 (s.meshField c 0x14 4),
                          cull := BitVec.ofNat 32 (s.meshField c 0x18 4) }
  let r := (List.range d.np).foldl (assemblePrim c m.slot d) ([], k)
  let last := if d.fin then
      (List.range 9216).map fun t =>
        (t, { ctx := c, bytes := trayBytes r.2.prim t true c m.slot (Config.endIndex s.turnNo).toNat [] })
    else []
  (r.1 ++ last, r.2)

/-- What the assembler makes of slot `m` of context `c`: its records toward the cores that own their tiles, and the counts. -/
def State.assembled (s : State) (c : BitVec 4) (m : MeshSlot) : Assembly :=
  let r := s.sendings c m
  { ctx := c, prim := r.2.prim, disc := r.2.disc, cull := r.2.cull, left := r.1.flatMap fun x => s.toward x.1 x.2 }

/-- The tree passes records on to input queues with room: 16 records each, in the order they were sent, those of a core after
each other (R296). What is left is held. -/
def State.feed (s : State) (held : List Nat) : List (Nat × TrayRecord) → State × List (Nat × TrayRecord)
  | [] => (s, [])
  | (c, r) :: rest =>
    if held.contains c || decide (16 ≤ (s.core c).trayQ.length) then
      let x := State.feed s (c :: held) rest
      (x.1, (c, r) :: x.2)
    else State.feed (s.setCore c { s.core c with trayQ := (s.core c).trayQ ++ [r] }) held rest

/-- The assembler goes on with a slot: its records move down the tree; once the last has left, the counts are written and the
slot is free (R294). -/
def State.assembleOn (s : State) (a : Assembly) : State :=
  let x := s.feed [] a.left
  if !x.2.isEmpty then { x.1 with tree := some { a with left := x.2 } }
  else
    let s := x.1.write (Writer.plain a.ctx) (cellsAt (s.meshEntry a.ctx + 0x10)
      (leBytes a.prim.toNat 4 ++ leBytes a.disc.toNat 4 ++ leBytes a.cull.toNat 4))
    let drop (_ : Nat) (r : MeshRing) : MeshRing := { r with slots := r.slots.drop 1 }
    { s with tree := none, rings := Table.mapVals (fun k r => if k = a.ctx.toNat then drop k r else r) s.rings }

/-- The assembler reads a slot: what it cannot read of the context's mesh table entry, of the tables and of the slot is met, and then
what it cannot read of the ownership map for the records (11, R252). -/
def State.slotMeets (s : State) (c : BitVec 4) (m : MeshSlot) : State :=
  let t := s.meshMeets c m.launch
  let t := if m.empty then t else t.meetUnit c m.launch (s.meshBase c + s.meshZ c * m.slot) (s.meshZ c)
  if t.met.length = s.met.length then
    match (s.sendings c m).1.findSome? fun r => s.mapBad r.1 with
    | some l => t.meets l c m.launch
    | none => t
  else t

/-- The assembler begins the next slot of a context's ring, or goes on with the slot it is at. -/
def execSlotAssemble (ctx : Nat) (s : State) : Out :=
  match s.tree with
  | some a => if a.ctx.toNat = ctx then .next (s.assembleOn a) else .next s
  | none =>
    match (Table.get? s.rings ctx).bind fun r => r.slots.head? with
    | none => .next s
    | some m =>
      let c : BitVec 4 := BitVec.ofNat 4 ctx
      if !(s.slotDone m) then .next s
      else
        let t := s.slotMeets c m
        if t.met.length = s.met.length then .next (s.assembleOn (s.assembled c m)) else .next t

/-! ### Trays (R297-R299) -/

/-- A write of the delivery unit. -/
def State.trayWrite (s : State) (core : Nat) (tag : BitVec 4) (cells : List Host.Cell) : State :=
  (s.logDelivery core (cells.filter fun c => isNear c.1)).write { Writer.plain tag with core := core } cells

/-- A field of the control block is written: one access of local store (05, R100). -/
def State.traySet (s : State) (core : Nat) (tag : BitVec 4) (off n v : Nat) : State :=
  (s.spend core 5).trayWrite core tag (cellsAt (trayLoc core + off) (leBytes v n))

/-- Tokens of a record written at tray address `a`: four accesses of local store, or the flits to global memory (05, R100; log
35). -/
def State.trayTokens (s : State) (a : Nat) : Nat := 4 * s.accessTokens (BitVec.ofNat 64 a)

/-- The cells of a record at tray address `a` (log 30: bytes that no local store or mapped page holds are lost). -/
def State.trayCells (s : State) (core : Nat) (tag : BitVec 4) (a : Nat) (bs : List Byte) : List Host.Cell :=
  if 0x100000 ≤ a ∧ a < 0x120000 then
    (cellsAt (localLoc core (a - 0x100000)) bs).filter fun c => decide (c.1 < localLoc core Config.localBytes)
  else
    match s.unitPhys tag a leafAny with
    | some p => cellsAt p bs
    | none => []

/-- Record `r` is written and HEAD rises: the unit counts by itself, and its block follows (R297, R298). A table entry that cannot
be read is met (11, R252). -/
def State.trayPut (s : State) (core : Nat) (r : TrayRecord) : State :=
  let head := (s.core core).trayHead
  let a := s.trayField core 0x00 8 + 128 * (head % s.trayField core 0x08 4)
  let s := s.meetWalk r.ctx 4096 a
  let cells := s.trayCells core r.ctx a r.bytes
  let s := s.trayWrite core r.ctx cells
  let next := (head + 1) % 2 ^ 64
  let s := s.setCore core { s.core core with trayHead := next, trayQ := (s.core core).trayQ.drop 1 }
  let s := if cells.isEmpty then s else s.spend core (s.trayTokens a)
  s.traySet core r.ctx 0x10 8 next

/-- TRAYFULL in the owner strand, when it is live (R299). -/
def State.trayFull (s : State) (core owner : Nat) (head : Nat) : State :=
  let sid := 4 * core + owner
  if (s.strand sid).stat = SlotStat.live then s.pendAt sid Cause.trayfull.code (BitVec.ofNat 64 head) else s

/-- A word of the tray control block that the unit reads and cannot (11, R252). -/
def State.trayBad (s : State) (core : Nat) : Option Nat :=
  ([0x00, 0x08, 0x18, 0x20].map fun o => trayLoc core + o).find? s.poisoned

/-- The unit tests its oldest record. One for which it cannot read its block is lost with the contexts that end for it (log 81). A
distance HEAD − TAIL above SLOTS has no row in the table of R298: such a record is held and nothing is set (log 85). The reads of the
block are charged with what the unit does for them, and a record that is held costs nothing (log 35). -/
def execTrayRecordDeliver (core : Nat) (s : State) : Out :=
  match (s.core core).trayQ with
  | [] => .next s
  | r :: rest =>
    match s.trayBad core with
    | some l => .next (State.meets (s.setCore core { s.core core with trayQ := rest }) l r.ctx 4096)
    | none =>
    let cfg := s.trayField core 0x0C 4
    let head := (s.core core).trayHead
    let tail := s.trayField core 0x18 8
    let slots := s.trayField core 0x08 4
    let held := (head + 2 ^ 64 - tail) % 2 ^ 64
    let compat := natBits cfg 1 1 == 1
    let full := natBits cfg 4 4 == 1
    let t := s.spend core 5
    let setFull (s : State) (b : Bool) : State :=
      s.traySet core r.ctx 0x0C 4 (cfg / 32 * 32 + cfg % 16 + if b then 16 else 0)
    if natBits cfg 0 0 = 0 then
      let s := (t.spend core 5).traySet core r.ctx 0x24 4 (s.trayField core 0x24 4 + 1)
      .next (s.setCore core { s.core core with trayQ := rest })
    else if !compat then
      if held < slots then .next (t.trayPut core r)
      else if held = slots ∧ !full then .next ((setFull t true).trayFull core (natBits cfg 3 2) head)
      else .next s
    else if full then
      if tail = head then .next ((setFull t false).trayPut core r) else .next s
    else if held < slots then .next (t.trayPut core r)
    else if held = slots then
      let s := setFull t true
      let n := ((s.core core).trayPartials + 1) % 2 ^ 32
      .next ((s.setCore core { s.core core with trayPartials := n }).traySet core r.ctx 0x20 4 n)
    else .next s

/-! ### The streaming engine (R307) -/

/-- The decoded page, or a failure code. -/
def PageReq.decode (q : PageReq) (resp : Option (List Byte)) : Except Nat (List Byte) :=
  match resp with
  | none => .error 7
  | some bs => framePage q.dict bs

/-- STATUS of a page's STREAM entry. -/
def State.pageStatus (s : State) (q : PageReq) (v : Nat) : State :=
  s.write (Writer.plain q.ctx) (cellsAt (q.entryLoc + 12) (leBytes v 4))

/-- Lines of the 64 KiB page at `p` leave every L1. -/
def State.dropPage (s : State) (p : Nat) : State :=
  { s with cores := Table.mapVals (fun _ (c : Core) =>
      { c with l1 := c.l1.filter (fun e => !(decide (p / 64 ≤ e.line ∧ e.line < p / 64 + 1024))) }) s.cores }

/-- A page has come (R307). The word with its RESMAP bit is read to set it: one that cannot be read is met, and the bit stays clear
(11, R252). -/
def execPageFetchComplete (req : Nat) (resp : Option (List Byte)) (s : State) : Out :=
  match s.pages.find? fun q => q.id == req with
  | none => .next s
  | some q =>
    if resp.any fun bs => bs.length != q.clen then .next s
    else
      let s := { s with pages := s.pages.filter fun r => r.id != req }
      match q.decode resp with
      | .error c => .next (s.pageStatus q (0x80000000 + c))
      | .ok page =>
        let s := (s.write (Writer.plain q.ctx) (cellsAt q.pageLoc page)).dropPage q.pageLoc
        let s := s.pageStatus q 2
        if s.poisoned q.resLoc then .next (s.meets q.resLoc q.ctx 4096)
        else
          let b := s.mem.byte q.resLoc ||| BitVec.ofNat 8 (2 ^ q.resBit)
          .next (s.write (Writer.plain q.ctx) [(q.resLoc, b)])

/-! ### The scrubber and the vertical tester -/

/-- A saturating field of `n` bits at bit `off`, one up. -/
def bumpField (w off n : Nat) : Nat := if natBits w (off + n - 1) off = 2 ^ n - 1 then w else w + 2 ^ off

/-- A count of HBMERR0 (`reg` 0) or HBMERR1 (1) of the channel of `l` goes up: `n` bits at bit `off` (R117). -/
def State.bumpHbm (s : State) (l reg off n : Nat) : State :=
  let k := 2 * (Config.hbmChannel (l / 64)).val + reg
  let w := (Table.getD s.gov.hbmerr k 0).toNat
  { s with gov := { s.gov with hbmerr := Table.set s.gov.hbmerr k (BitVec.ofNat 64 (bumpField w off n)) } }

/-- RDCE (48), RDUE (32), WRPAR (16), CAPAR (0). -/
def State.countHbm (s : State) (l off : Nat) : State := s.bumpHbm l 0 off 16
/-- RETRY. -/
def State.countRetry (s : State) (l : Nat) : State := s.bumpHbm l 1 32 32

/-- A transfer meets a flaw (R117, R118, R391): what is counted for it. -/
def State.meetFlaw (s : State) (x : Nat × Flaw) : State :=
  let ce : State := { s with host := { s.host with ce := s.host.ce + 1 } }
  match x.2, isHbm x.1 with
  | .corrected, hbm => if hbm then ce.countHbm x.1 48 else ce
  | _, false => s
  | .uncorrectable, true => s.countHbm x.1 32
  | .wrpar, true => (s.countHbm x.1 16).countRetry x.1
  | .capar, true => (s.countHbm x.1 0).countRetry x.1
  | .retry, true => s.countRetry x.1
  | .readFailed, true | .writeFailed, true => (s.countRetry x.1).bumpHbm x.1 1 16 16

/-- The scrubber finds the unit at `l` uncorrectable: it is poisoned and counted (R252, R391, R117). -/
def State.scrubBad (s : State) (l : Nat) : State :=
  let s := { s with poison := insertNat (unitBase l) s.poison,
                    host := { s.host with ue := if s.host.ue = 0xFFFF then 0xFFFF else s.host.ue + 1 } }
  if isHbm l then s.countHbm l 32 else s

def execScrubPass (corrected : List Nat) (bad : List Nat) (s : State) : Out :=
  let s := corrected.foldl (fun s l => if isHbm l then s.countHbm l 48 else s) s
  let s := { s with host := { s.host with ce := s.host.ce + BitVec.ofNat 32 corrected.length } }
  .next ((bad.filter fun l => isNear l || s.physOk l).foldl State.scrubBad s)

/-- The tester visits the path of a core, once every millisecond, and tries again 100 us after it has given way (R245). -/
def execVerticalTestVisit (core : Nat) (aborted : Bool) (mismatches : Nat) (s : State) : Out :=
  let c := s.core core
  if s.ftime < c.visitFrom then .next s
  else if aborted then .next (s.setCore core { c with aborts := c.aborts + 1, visitFrom := s.ftime + 100000 })
  else .next (s.setCore core { c with visits := c.visits + 1, visitFrom := s.ftime + 1000000,
                                      mismatches := c.mismatches + BitVec.ofNat 32 mismatches })

end Sys2Proof.Machine
end

