-- ==== Sys2Proof/Machine/Ray.lean ====
section
/-! DEFINITION. The ray test unit (10, R228-R237): both forms in exact rational arithmetic. -/

namespace Sys2Proof.Machine

/-! ### Extended rationals -/

/-- −∞, n/d, or +∞. -/
inductive Ext
  | ninf
  | fin (n : Dy) (d : Nat)
  | pinf
deriving DecidableEq, Repr

def Ext.lt : Ext → Ext → Bool
  | .ninf, .ninf => false
  | .ninf, _ => true
  | _, .ninf => false
  | .pinf, _ => false
  | _, .pinf => true
  | .fin n d, .fin m c => (n.mul (Dy.ofInt c)).lt (m.mul (Dy.ofInt d))
def Ext.max (a b : Ext) : Ext := if a.lt b then b else a
def Ext.min (a b : Ext) : Ext := if b.lt a then b else a

/-- A value that is no NaN. -/
def Fv.ext : Fv → Ext
  | .inf n => if n then .ninf else .pinf
  | v => .fin v.dy 1

/-- (v − o)·2^14/q for an integer q that is not 0. -/
def slabT (v : Fv) (o : Dy) (q : Int) : Ext :=
  match v with
  | .inf n => if n != decide (q < 0) then .ninf else .pinf
  | v =>
    let x := (v.dy.sub o).mul { n := if q < 0 then -1 else 1, e := 14 }
    .fin x q.natAbs

/-- m·2^e/d rounded to `f`. -/
def Fmt.roundRat (f : Fmt) (rm : Rm) (m : Nat) (e : Int) (d : Nat) : Nat :=
  if m = 0 then 0
  else
    let r := quotient m d (f.mb + 4)
    (f.round rm false r.1 (e - r.2.1) r.2.2).1

/-! ### The ray and the record (R231-R234) -/

structure Ray where
  org : Nat → Fv
  tmax : Fv
  dir : DirReg

/-- The ray of va and db. -/
def Strand.ray (t : Strand) (a : VReg) (b : DReg) : Ray :=
  let lane (i : Nat) : Fv := fmtS.decode ((t.vr a).toNat / 2 ^ (32 * i) % 2 ^ 32)
  { org := lane, tmax := lane 3, dir := t.dr b }

/-- BADRAY (R233). -/
def Ray.bad (r : Ray) : Bool :=
  !r.dir.ordinary || r.tmax.isNan || (List.range 3).any fun i => (r.org i).isNan || (r.org i).isInf

/-- The record lies in range (R231). -/
def Strand.inBound (t : Strand) (a z : Nat) : Bool :=
  t.bvhhi == 0 || decide (t.bvhlo.toNat ≤ a ∧ a + z ≤ t.bvhhi.toNat)

/-- binary32 field at an offset of a record. -/
def f32At (bs : List Byte) (off : Nat) : Fv := fmtS.decode (fieldAt bs off 4)

def fInf : Nat := 0x7F800000

/-- A ray form (R234): `hit` gives the low 35 bits from the record, whose fields are of 4 bytes, and of 8 from offset `refs` on: each is
read old or new as a whole (R228, R235). -/
def rayForm (z align refs : Nat) (hit : Ray → List Byte → Nat) (d : XReg) (a : VReg) (b : DReg) (c : XReg) (s : State) : Out :=
  let r := s.me.ray a b
  let x := s.me.xr c
  let bad := if r.bad then 2 ^ 36 else 0
  if !(s.me.inBound x.toNat z) then s.finish (s.me.setX d (BitVec.ofNat 64 (bad + 2 ^ 35 + fInf)))
  else if x.toNat % align ≠ 0 then s.trap .align x
  else s.readAll { ReadKind.plain with size := 4, wide := some (x.toNat + refs) } (recordReads x (z / 16)) fun s bs =>
    s.finish (s.me.setX d (BitVec.ofNat 64 (bad + if r.bad then fInf else hit r bs)))

/-! ### `rbox` (R236) -/

/-- One axis: the interval narrowed, or a miss. -/
def slab (r : Ray) (bs : List Byte) (off : Nat) (acc : Option (Ext × Ext)) (i : Nat) : Option (Ext × Ext) :=
  match acc with
  | none => none
  | some (tn, tf) =>
    let lo := f32At bs (off + 4 * i)
    let hi := f32At bs (off + 12 + 4 * i)
    let o := r.org i
    let q := r.dir.lane i
    if q = 0 then (if o.lt lo || hi.lt o then none else some (tn, tf))
    else
      let t0 := slabT lo o.dy q
      let t1 := slabT hi o.dy q
      some (tn.max (t0.min t1), tf.min (t0.max t1))

/-- The entry distance of a child, none for a miss. -/
def childEntry (r : Ray) (bs : List Byte) (off ref : Nat) : Option Ext :=
  let bad := (List.range 3).any fun i =>
    let lo := f32At bs (off + 4 * i)
    let hi := f32At bs (off + 12 + 4 * i)
    lo.isNan || hi.isNan || hi.lt lo
  if fieldAt bs ref 8 = 0 || bad then none
  else
    match (List.range 3).foldl (slab r bs off) (some (Ext.fin Dy.zero 1, r.tmax.ext)) with
    | some (.fin n d, tf) => if tf.lt (.fin n d) then none else some (.fin n d)
    | _ => none

/-- An entry distance as binary32, rounded toward −∞. -/
def entryBits : Ext → Nat
  | .fin n d => fmtS.roundRat .rdn n.n.toNat n.e d
  | _ => fInf

def rboxHit (r : Ray) (bs : List Byte) : Nat :=
  match childEntry r bs 0 0x30, childEntry r bs 0x18 0x38 with
  | none, none => fInf
  | some e, none => 2 ^ 32 + entryBits e
  | none, some e => 2 ^ 34 + 2 ^ 33 + entryBits e
  | some e0, some e1 =>
    if e1.lt e0 then 2 ^ 34 + 2 ^ 33 + 2 ^ 32 + entryBits e1 else 2 ^ 33 + 2 ^ 32 + entryBits e0

def execRbox (d : XReg) (a : VReg) (b : DReg) (c : XReg) (s : State) : Out := rayForm 64 64 0x30 rboxHit d a b c s

/-! ### `rtri` (R237) -/

def dot3 (x y : Nat → Dy) : Dy := sumTo (fun i => (x i).mul (y i)) 3

def rtriHit (r : Ray) (bs : List Byte) : Nat :=
  let v (j i : Nat) : Fv := f32At bs (12 * j + 4 * i)
  if (List.range 9).any fun i => (f32At bs (4 * i)).isNan || (f32At bs (4 * i)).isInf then fInf
  else
    let dir (i : Nat) : Dy := r.dir.unit i
    let e1 (i : Nat) : Dy := (v 1 i).dy.sub (v 0 i).dy
    let e2 (i : Nat) : Dy := (v 2 i).dy.sub (v 0 i).dy
    let o (i : Nat) : Dy := (r.org i).dy.sub (v 0 i).dy
    let p := crossAt dir e2
    let q := crossAt o e1
    let det := dot3 e1 p
    if det.n = 0 then fInf
    else
      let sg (x : Dy) : Dy := if det.n < 0 then x.negate else x
      let dd := sg det
      let b1 := sg (dot3 o p)
      let b2 := sg (dot3 dir q)
      let t := sg (dot3 e2 q)
      let inMax := match r.tmax with
        | .inf n => !n
        | m => t.le (m.dy.mul dd)
      if 0 ≤ b1.n && 0 ≤ b2.n && (b1.add b2).le dd && 0 < t.n && inMax then
        let tb := fmtS.roundRat .rne t.n.toNat (t.e - dd.e) dd.n.toNat
        let mb := match r.tmax with
          | .inf _ => fInf
          | m => (fmtS.ofFv .rne m).1
        min tb mb + 2 ^ 32 + if det.n < 0 then 2 ^ 33 else 0
      else fInf

def execRtri (d : XReg) (a : VReg) (b : DReg) (c : XReg) (s : State) : Out := rayForm 48 16 48 rtriHit d a b c s

end Sys2Proof.Machine
end

