-- ==== Sys2Proof/Machine/Raster.lean ====
section
/-! DEFINITION. Setup, coverage, interpolation and texels (13, R300-R307). -/

namespace Sys2Proof.Machine

/-! ### Snapping (R301) -/

/-- Field `f` of vertex `i` of the 96 vertex bytes: x, y, z, q, a0 to a3. -/
def vertexField (bs : List Byte) (i f : Nat) : Fv := f32At bs (32 * i + 4 * f)

/-- Snapped vertices: X and Y of the three, none for a coordinate that cannot be snapped. -/
def snapCoord (v : Fv) : Option Int :=
  if v.isNan || v.isInf then none
  else
    let n := roundNe (v.dy.mul { n := 1, e := 8 })
    if 2 ^ 23 ≤ n.natAbs then none else some n

structure Tri where
  x : List Int
  y : List Int
deriving DecidableEq, Repr

def Tri.xi (t : Tri) (e : Nat) : Int := t.x.getD (e % 3) 0
def Tri.yi (t : Tri) (e : Nat) : Int := t.y.getD (e % 3) 0
def Tri.a (t : Tri) (e : Nat) : Int := t.yi e - t.yi (e + 1)
def Tri.b (t : Tri) (e : Nat) : Int := t.xi (e + 1) - t.xi e
def Tri.c (t : Tri) (e : Nat) : Int := t.xi e * t.yi (e + 1) - t.xi (e + 1) * t.yi e
/-- Eₑ(X, Y). -/
def Tri.edge (t : Tri) (e : Nat) (x y : Int) : Int := t.a e * x + t.b e * y + t.c e
/-- Twice the signed area. -/
def Tri.area (t : Tri) : Int := t.edge 0 (t.xi 2) (t.yi 2)

/-- The triangle of the vertex bytes, none when it is EMPTY. -/
def snapTri (bs : List Byte) : Option Tri :=
  let xs := (List.range 3).filterMap fun i => snapCoord (vertexField bs i 0)
  let ys := (List.range 3).filterMap fun i => snapCoord (vertexField bs i 1)
  let t : Tri := { x := xs, y := ys }
  if xs.length = 3 ∧ ys.length = 3 ∧ t.area ≠ 0 then some t else none

/-! ### `tsetup` and `tcover` (R302, R303) -/

/-- A register of C, B and A. -/
def edgeReg (a b c : Int) : V128 :=
  BitVec.ofNat 128 (wrapInt 32 a + wrapInt 32 b * 2 ^ 32 + wrapInt 64 c * 2 ^ 64)

/-- The four registers of a set-up triangle in tile `tile`. -/
def setupRegs (bs : List Byte) (tile primno : Nat) : List V128 :=
  match snapTri bs with
  | none => [0, 0, 0, BitVec.ofNat 128 (primno * 2 ^ 96 + 2 ^ 64)]
  | some t =>
    let ox : Int := 16384 * (tile % 128 : Nat)
    let oy : Int := 16384 * (tile / 128 : Nat)
    let back := decide (t.area < 0)
    let reg (e : Nat) : V128 :=
      let sg (n : Int) : Int := if back then -n else n
      let a := sg (t.a e)
      let b := sg (t.b e)
      let c := sg (t.edge e ox oy)
      edgeReg a b (if 0 < a ∨ (a = 0 ∧ 0 < b) then c else c - 1)
    [reg 0, reg 1, reg 2,
     BitVec.ofNat 128 (primno * 2 ^ 96 + (if back then 2 ^ 65 else 0) + t.area.natAbs % 2 ^ 64)]

/-- `tsetup`: the vertex bytes are the load at xa + 0x10 and PRIMNO is one at xa; each has its own address as `tval`, and the vertex
bytes are checked first (log 49). -/
def execTsetup (d : VGroup) (a b : XReg) (s : State) : Out :=
  let x := s.me.xr a
  if x.toNat % 16 ≠ 0 then s.trap .align x
  else s.readAll { ReadKind.plain with size := 4 } (recordReads (x + 16) 6 ++ [(x, 4, x)]) fun s bs =>
    let rs := setupRegs (bs.take 96) ((s.me.xr b).toNat % 2 ^ 14) (leNat (bs.drop 96))
    s.finish ((List.range 4).foldl (fun t i => t.setV (groupReg d i) (rs.getD i 0)) s.me)

def execTcover (d : XReg) (a : VGroup) (b : XReg) (s : State) : Out :=
  let blk := (s.me.xr b).toNat % 64
  let reg (i : Nat) : V128 := s.me.vr (groupReg a i)
  let empty := (reg 3).getLsbD 64
  let inside (e : Nat) (x y : Int) : Bool :=
    let v := (reg e).toNat
    decide (0 ≤ intElem true 32 (v % 2 ^ 32) * x + intElem true 32 (v / 2 ^ 32 % 2 ^ 32) * y +
      intElem true 64 (v / 2 ^ 64))
  let covered (i : Nat) : Bool :=
    let x : Int := 256 * (8 * (blk % 8) + i % 8 : Nat) + 128
    let y : Int := 256 * (8 * (blk / 8) + i / 8 : Nat) + 128
    !empty && inside 0 x y && inside 1 x y && inside 2 x y
  s.finish (s.me.setX d (BitVec.ofNat 64 (ofBits covered 64)))

/-! ### `tinterp` (R304) -/

/-- An exact sum of values. -/
def sumFv (ts : List Fv) : Fv :=
  if ts.any Fv.isNan then .nan false
  else
    let pinf := ts.any fun t => t == .inf false
    let ninf := ts.any fun t => t == .inf true
    if pinf && ninf then .nan false
    else if pinf then .inf false
    else if ninf then .inf true
    else
      let x := ts.foldl (fun a t => a.add t.dy) Dy.zero
      .fin (decide (x.n < 0)) x.n.natAbs x.e

/-- A product, NaN for ∞·0 and for a NaN operand. -/
def mulFv (a b : Fv) : Fv := (termOf a b).1

/-- a/b as binary32, +0 for an exact zero. -/
def quotS (a b : Fv) : Nat :=
  if a.isNan || b.isNan then fmtS.nan
  else if a.isZero && !b.isZero then 0
  else (fmtS.divF .rne a b).1

def intFv (n : Int) : Fv := .fin (decide (n < 0)) n.natAbs 0

/-- z and the four attributes at field point (X, Y). -/
def interpolate (bs : List Byte) (t : Tri) (x y : Int) : List Nat :=
  let lam (i : Nat) : Fv := intFv (t.edge ((i + 1) % 3) x y)
  let z := sumFv ((List.range 3).map fun i => mulFv (lam i) (vertexField bs i 2))
  let lq (i : Nat) : Fv := mulFv (lam i) (vertexField bs i 3)
  let w := sumFv ((List.range 3).map lq)
  let attr (j : Nat) : Nat :=
    let n := sumFv ((List.range 3).map fun i => mulFv (lq i) (vertexField bs i (4 + j)))
    if w.isZero then fmtS.nan else quotS n w
  [quotS z (intFv t.area), attr 0, attr 1, attr 2, attr 3]

def execTinterp (d : VReg) (a b : XReg) (s : State) : Out :=
  let x := s.me.xr a
  let w := s.me.xr b
  if x.toNat % 16 ≠ 0 then s.trap .align x
  else if w.toNat / 2 ^ 27 ≠ 0 then s.trap .access w
  else s.readRecord 4 (x + 16) 6 fun s bs =>
      let k := natBits w.toNat 11 0
      let tile := natBits w.toNat 25 12
      let r := match snapTri bs with
        | none => List.replicate 4 fmtS.nan
        | some t =>
          let px : Int := 16384 * (tile % 128 : Nat) + 256 * (k % 64 : Nat) + 128
          let py : Int := 16384 * (tile / 128 : Nat) + 256 * (k / 64 : Nat) + 128
          let v := interpolate bs t px py
          if w.getLsbD 26 then [v.getD 4 0, 0, 0, 0] else v.take 4
      s.finish (s.me.setV d (ofElems 4 r))

/-! ### Texture descriptors (R305) -/

structure TexDesc where
  base : Nat
  logw : Nat
  logh : Nat
  nlev : Nat
  half : Bool
  clampU : Bool
  clampV : Bool
  resmap : Nat
  stream : Nat
  dict : Nat
deriving DecidableEq, Repr

def texDesc (bs : List Byte) : TexDesc :=
  let b := fieldAt bs 0 8
  { base := b / 65536 * 65536, logw := natBits b 3 0, logh := natBits b 7 4, nlev := natBits b 11 8,
    half := natBits b 12 12 = 1, clampU := natBits b 13 13 = 1, clampV := natBits b 14 14 = 1,
    resmap := fieldAt bs 8 8, stream := fieldAt bs 16 8, dict := fieldAt bs 24 8 }

/-- Reserved bits and ranges of a descriptor. -/
def texOk (bs : List Byte) : Bool :=
  let d := texDesc bs
  natBits (fieldAt bs 0 8) 15 15 == 0 && decide (d.logw ≤ 14 ∧ d.logh ≤ 14 ∧ 1 ≤ d.nlev ∧ d.nlev ≤ max d.logw d.logh + 1)

def TexDesc.w (d : TexDesc) (l : Nat) : Nat := 2 ^ (d.logw - l)
def TexDesc.h (d : TexDesc) (l : Nat) : Nat := 2 ^ (d.logh - l)
def TexDesc.bpt (d : TexDesc) : Nat := if d.half then 8 else 4
/-- LOFF of a level. -/
def TexDesc.loff (d : TexDesc) : Nat → Nat
  | 0 => 0
  | l + 1 => d.loff l + (d.w l * d.h l * d.bpt + 65535) / 65536 * 65536

/-! ### Sampling (R306) -/

def Dy.floor (a : Dy) : Int := if 0 ≤ a.e then a.n * 2 ^ a.e.toNat else a.n / 2 ^ (-a.e).toNat

/-- A texel coordinate wrapped or clamped. -/
def texCoord (clamp : Bool) (n : Int) (size : Nat) : Nat :=
  if clamp then (max 0 (min ((size : Int) - 1) n)).toNat else (n % size).toNat

/-- A texel that takes part: its offset from BASE and its weight. -/
structure Texel where
  off : Nat
  weight : Dy
deriving DecidableEq, Repr

/-- The texels of level `m` at (u, v) whose weight is not zero. One whose weight is zero takes no part at all: its page is not among
those the sample asks for, and is not requested (R306; log 49). -/
def TexDesc.texels (d : TexDesc) (u v : Dy) (m : Nat) : List Texel :=
  let half : Dy := { n := 1, e := -1 }
  let s := (u.mul (Dy.ofInt (d.w m))).sub half
  let t := (v.mul (Dy.ofInt (d.h m))).sub half
  let i0 := s.floor
  let j0 := t.floor
  let fs := s.sub (Dy.ofInt i0)
  let ft := t.sub (Dy.ofInt j0)
  let one := Dy.ofInt 1
  let at' (di dj : Nat) : Texel :=
    let i := texCoord d.clampU (i0 + di) (d.w m)
    let j := texCoord d.clampV (j0 + dj) (d.h m)
    { off := d.loff m + (j * d.w m + i) * d.bpt,
      weight := (if di = 0 then one.sub fs else fs).mul (if dj = 0 then one.sub ft else ft) }
  [at' 0 0, at' 1 0, at' 0 1, at' 1 1].filter fun x => x.weight.n != 0

/-- Channel `c` of the sum of texels. A sum of RGBA16F texels that is exactly zero is −0 when every term is −0 and +0 otherwise (log
91). -/
def texChannel (half : Bool) (ts : List Texel) (data : List (List Byte)) (c : Nat) : Nat :=
  if half then
    let terms := (ts.zip data).map fun x =>
      mulFv (.fin false x.1.weight.n.natAbs x.1.weight.e) (fmtH.decode (fieldAt x.2 (2 * c) 2))
    if terms.any Fv.isNan then fmtH.nan else (fmtH.sumRound .rne terms).1
  else
    let x := (ts.zip data).foldl (fun a x => a.add (x.1.weight.mul (Dy.ofInt (fieldAt x.2 c 1)))) Dy.zero
    fmtH.roundRat .rne x.n.toNat x.e 255

/-- The register of a sampled level. -/
def texResult (half : Bool) (ts : List Texel) (data : List (List Byte)) (m l : Nat) : V128 :=
  ofElems 2 ((List.range 4).map (texChannel half ts data) ++
    [(fmtH.ofIntF .rne m).1, 0, 0, if m = l then 0x3C00 else 0])

/-- The read of the texels of a level, one load each, and of the residency bits of pages, each at its home. -/
def texelReads (base size : Nat) (ts : List Texel) : List ReadAt :=
  ts.map fun t => (BitVec.ofNat 64 (base + t.off), size, BitVec.ofNat 64 (base + t.off))
def pageReads (resmap : Nat) (ps : List Nat) : List ReadAt :=
  ps.map fun p => (BitVec.ofNat 64 (resmap + p / 8), 1, BitVec.ofNat 64 (resmap + p / 8))

/-- The pages of `ps` whose bit is clear in the bytes read. -/
def pagesOut (ps : List Nat) (bs : List Byte) : List Nat :=
  ((ps.zip bs).filter fun x => !(x.2.toNat.testBit (x.1 % 8))).map (·.1)

/-! ### Requests (R307) -/

/-- The location of the first of `n` bytes at a virtual address of the current strand's context, if all are there. -/
def State.virtLoc (s : State) (a n : Nat) : Option (List Nat) :=
  match s.range s.myCore { s.me with mode := 2 } a n .read with
  | (_, .ok ls) => some ls
  | (_, .error _) => none

/-- A word of the tables on the way to it that cannot be read (11, R252). -/
def State.virtBad (s : State) (a n : Nat) : Option Nat :=
  match s.range s.myCore { s.me with mode := 2 } a n .read with
  | (_, .error (.bad l, _)) => some l
  | _ => none

/-- The residency bits of pages, by location and number. -/
def State.residency (s : State) (resmap : Nat) (ps : List Nat) : List (Nat × Nat) :=
  ps.filterMap fun p => (s.virtLoc (resmap + p / 8) 1).map fun ls => (ls.headD 0, p % 8)

/-- The dictionary a descriptor names, if all of it is there: the locations of its entry and of its bytes. -/
def State.dictLocs (s : State) (dict : Nat) : Option (List Nat × List Nat) :=
  if dict = 0 then none
  else
    (s.virtLoc dict 16).bind fun ls =>
      let e := ls.map s.far.byte
      (s.virtLoc (fieldAt e 0 8) (min (fieldAt e 8 4) 65536)).map fun ds => (ls, ds)

/-- A word of the tables on the way to the dictionary, or of its entry, that cannot be read. -/
def State.dictBad (s : State) (dict : Nat) : Option Nat :=
  if dict = 0 then none
  else
    match s.virtLoc dict 16 with
    | none => s.virtBad dict 16
    | some ls =>
      let e := ls.map s.far.byte
      (ls.find? s.poisoned).orElse fun _ => s.virtBad (fieldAt e 0 8) (min (fieldAt e 8 4) 65536)

/-- Its id and bytes. -/
def State.texDict (s : State) (dict : Nat) : Option (Nat × List Byte) :=
  (s.dictLocs dict).map fun d => (fieldAt (d.1.map s.far.byte) 12 4, d.2.map s.far.byte)

/-- The streaming engine takes a request for page `p`: `cas` 0 → 1 on STATUS; a request that finds it nonzero, or whose
entry, page or bitmap is not mapped, is dropped (log 17), and so is one whose entry or dictionary, or a table on the way to them,
cannot be read, which is met (11, R252). -/
def State.requestPage (s : State) (d : TexDesc) (p : Nat) : State :=
  if d.stream = 0 then s
  else
    match [(d.stream + 16 * p, 16), (d.base + 65536 * p, 1), (d.resmap + p / 8, 1)].findSome? fun r => s.virtBad r.1 r.2 with
    | some l => s.meets l s.me.ctx s.me.launch
    | none =>
    match s.virtLoc (d.stream + 16 * p) 16, s.virtLoc (d.base + 65536 * p) 1, s.virtLoc (d.resmap + p / 8) 1 with
    | some el, some pl, some rl =>
      let e := el.map s.far.byte
      let taken := !(el.any s.poisoned) && leNat ((el.drop 12).map s.mem.byte) != 0
      let bad := (el.find? s.poisoned).orElse fun _ => (s.dictBad d.dict).orElse fun _ =>
        (s.dictLocs d.dict).bind fun x => x.2.find? s.poisoned
      match (if taken then none else bad) with
      | some l => s.meets l s.me.ctx s.me.launch
      | none =>
        if taken then s
        else
          let req : PageReq :=
            { id := s.reqNo, ctx := s.me.ctx, entryLoc := el.headD 0, pageLoc := pl.headD 0, resLoc := rl.headD 0,
              resBit := p % 8, host := BitVec.ofNat 64 (fieldAt e 0 8), clen := fieldAt e 8 4, dict := s.texDict d.dict }
          { s with reqNo := s.reqNo + 1, pages := s.pages ++ [req] }.write (Writer.plain s.me.ctx)
            (cellsAt (el.headD 0 + 12) [1, 0, 0, 0])
    | _, _, _ => s

/-- The levels from `m` up (R306), each a batch of residency bits and one of texels; `u` is the read under way, `done` the
batches before. The pages `ask` that level `l` lacks are requested once the sample has been taken: a read that fails leaves no
request behind (R9). -/
def State.texLevels (s : State) (under : Option Underway) (done : List (List Byte)) (d : VReg) (x : TexDesc) (u v : Dy)
    (l m : Nat) (ask : List Nat) : Nat → Out
  | 0 =>
    let s := ask.foldl (fun s p => s.requestPage x p) s
    s.finish (s.me.setV d 0)
  | n + 1 =>
    let ts := x.texels u v m
    let ps := (ts.map fun t => t.off / 65536).dedup
    let kind : ReadKind := { ReadKind.plain with bits := s.residency x.resmap ps }
    s.batch under done { kind with home := true } (pageReads x.resmap ps) fun s bits =>
      let out := pagesOut ps bits
      if out.isEmpty then
        s.batch under (done ++ [bits]) kind (texelReads x.base x.bpt ts) fun s bs =>
          let s := ask.foldl (fun s p => s.requestPage x p) s
          let data := (List.range ts.length).map fun i => (bs.drop (x.bpt * i)).take x.bpt
          s.finish (s.me.setV d (texResult x.half ts data m l))
      else State.texLevels s under (done ++ [bits]) d x u v l (m + 1) (if m = l then out else ask) n

/-- A coordinate: NaN and infinite are taken as 0. -/
def texArg (v : Fv) : Dy := if v.isNan || v.isInf then Dy.zero else v.dy

/-- The level `lod` names. -/
def texLod (nlev : Nat) (v : Fv) : Nat :=
  match v with
  | .nan _ => 0
  | .inf n => if n then 0 else nlev - 1
  | v => (max 0 (min ((nlev : Int) - 1) (roundNe v.dy))).toNat

def execTexld (d a : VReg) (b : XReg) (s : State) : Out :=
  let w := s.me.xr b
  if w.toNat % 32 ≠ 0 then s.trap .align w
  else
    s.unmid.1.batch s.unmid.2 [] ReadKind.plain (recordReads w 2) fun t bs =>
      if !(texOk bs) then t.trap .engformat w
      else
        let x := texDesc bs
        let lane (i : Nat) : Fv := fmtS.decode ((t.me.vr a).toNat / 2 ^ (32 * i) % 2 ^ 32)
        let l := texLod x.nlev (lane 2)
        t.texLevels s.unmid.2 [bs] d x (texArg (lane 0)) (texArg (lane 1)) l l [] (x.nlev - l)

end Sys2Proof.Machine
end

