-- ==== Sys2Proof/Machine/ScalarFp.lean ====
section
/-! DEFINITION. Scalar floating point (07, R157-R162). -/

namespace Sys2Proof.Machine

def precFmt : Prec → Fmt
  | .single => fmtS
  | .double => fmtD

/-- The operand of precision `p` in a register: its low bits (R157). -/
def Strand.fbits (t : Strand) (p : Prec) (r : XReg) : Nat :=
  match p with
  | .single => (t.xr r).toNat % 2 ^ 32
  | .double => (t.xr r).toNat

def Strand.fval (t : Strand) (p : Prec) (r : XReg) : Fv := (precFmt p).decode (t.fbits p r)

/-- A result and its events go to xd under R164. -/
def State.fpResult (s : State) (d : XReg) (r : Nat × Events) : Out :=
  s.fpEnd (s.me.setX d (BitVec.ofNat 64 r.1)) r.2

def fp2 (op : Fmt → Rm → Fv → Fv → Nat × Events) (d a b : XReg) (p : Prec) (s : State) : Out :=
  s.fpResult d (op (precFmt p) (rmOf s.me.frm) (s.me.fval p a) (s.me.fval p b))

def execFadd (d a b : XReg) (p : Prec) (s : State) : Out := fp2 Fmt.addF d a b p s
def execFsub (d a b : XReg) (p : Prec) (s : State) : Out := fp2 Fmt.subF d a b p s
def execFmul (d a b : XReg) (p : Prec) (s : State) : Out := fp2 Fmt.mulF d a b p s
def execFdiv (d a b : XReg) (p : Prec) (s : State) : Out := fp2 Fmt.divF d a b p s
def execFsqrt (d a : XReg) (p : Prec) (s : State) : Out :=
  s.fpResult d ((precFmt p).sqrtF (rmOf s.me.frm) (s.me.fval p a))
def execFmin (d a b : XReg) (p : Prec) (s : State) : Out :=
  s.fpResult d ((precFmt p).pick true (s.me.fbits p a) (s.me.fbits p b))
def execFmax (d a b : XReg) (p : Prec) (s : State) : Out :=
  s.fpResult d ((precFmt p).pick false (s.me.fbits p a) (s.me.fbits p b))

def fpCmp (c : Fcmp) (d a b : XReg) (p : Prec) (s : State) : Out :=
  let r := fcompare c (s.me.fval p a) (s.me.fval p b)
  s.fpResult d (if r.1 then 1 else 0, r.2)

def execFeq (d a b : XReg) (p : Prec) (s : State) : Out := fpCmp .eq d a b p s
def execFlt (d a b : XReg) (p : Prec) (s : State) : Out := fpCmp .lt d a b p s
def execFle (d a b : XReg) (p : Prec) (s : State) : Out := fpCmp .le d a b p s
def execFclass (d a : XReg) (p : Prec) (s : State) : Out :=
  s.finish (s.me.setX d (BitVec.ofNat 64 ((precFmt p).classWord (s.me.fbits p a))))

/-- `fsgn` (R160): the bits of xa with another sign. -/
def execFsgn (d a b : XReg) (v : SgnVariant) (p : Prec) (s : State) : Out :=
  let f := precFmt p
  let x := s.me.fbits p a
  let sx := x / f.signBit % 2 = 1
  let sy := s.me.fbits p b / f.signBit % 2 = 1
  let neg : Bool := match v with
    | .take => sy
    | .inv => !sy
    | .xor => decide sx != decide sy
    | .abs => false
  s.finish (s.me.setX d (BitVec.ofNat 64 (x % f.signBit + if neg then f.signBit else 0)))

/-- Range of an integer variant (R161). -/
def intLo : IntVariant → Int
  | .sl => -(2 ^ 63) | .ul => 0 | .sw => -(2 ^ 31) | .uw => 0
def intHi : IntVariant → Int
  | .sl => 2 ^ 63 - 1 | .ul => 2 ^ 64 - 1 | .sw => 2 ^ 31 - 1 | .uw => 2 ^ 32 - 1

def execFcvti (d a : XReg) (v : IntVariant) (p : Prec) (s : State) : Out :=
  let r := toIntF (rmOf s.me.frm) (intLo v) (intHi v) (s.me.fval p a)
  s.fpEnd (s.me.setX d (BitVec.ofInt 64 r.1)) r.2

/-- The integer an integer variant reads. -/
def intOf (v : IntVariant) (w : Word) : Int :=
  match v with
  | .sl => w.toInt
  | .ul => w.toNat
  | .sw => (w.truncate 32).toInt
  | .uw => (w.truncate 32 : BitVec 32).toNat

def execFcvtf (d a : XReg) (v : IntVariant) (p : Prec) (s : State) : Out :=
  s.fpResult d ((precFmt p).ofIntF (rmOf s.me.frm) (intOf v (s.me.xr a)))

def otherPrec : Prec → Prec
  | .single => .double
  | .double => .single

def execFcvtp (d a : XReg) (v : FmtVariant) (p : Prec) (s : State) : Out :=
  let rm := rmOf s.me.frm
  s.fpResult d
    (match v with
     | .other => (precFmt p).convert rm (s.me.fval (otherPrec p) a)
     | .fromh => (precFmt p).convert rm (fmtH.decode ((s.me.xr a).toNat % 2 ^ 16))
     | .toh => fmtH.convert rm (s.me.fval p a))

/-! ### Fused forms (R162) -/

/-- (−1)^np · a·b + (−1)^nc · c, rounded once. -/
def fused (np nc : Bool) (d a b c : XReg) (p : Prec) (s : State) : Out :=
  let x := s.me.fval p a
  let z := s.me.fval p c
  s.fpResult d ((precFmt p).fmaF (rmOf s.me.frm) (if np then x.negate else x) (s.me.fval p b)
    (if nc then z.negate else z))

def execFma (d a b c : XReg) (p : Prec) (s : State) : Out := fused false false d a b c p s
def execFms (d a b c : XReg) (p : Prec) (s : State) : Out := fused false true d a b c p s
def execFnma (d a b c : XReg) (p : Prec) (s : State) : Out := fused true true d a b c p s
def execFnms (d a b c : XReg) (p : Prec) (s : State) : Out := fused true false d a b c p s

end Sys2Proof.Machine
end

