-- ==== Sys2Proof/Machine/Work.lean ====
section
/-! DEFINITION. Work queues, the sheaf-local launch path and `spawn` (16, R348-R354; 04, R85, R94). -/

namespace Sys2Proof.Machine

/-! ### Queue operands (R349) -/

/-- A work queue that the current strand may name. -/
def State.workOk (s : State) (w : Word) : Bool :=
  decide (64 ≤ w.toNat ∧ w.toNat < 1024) && s.wqValid w.toNat && (s.me.mode != 0 || s.wqCtx w.toNat == s.me.ctx)

/-- A word of the entry of the work queue that an operand names, when it cannot be read (11, R252). -/
def State.workBad (s : State) (w : Word) : Option Nat :=
  if 64 ≤ w.toNat ∧ w.toNat < 1024 then s.wqBad w.toNat else none

/-- A queue that `qpush` may name. -/
def State.pushOk (s : State) (w : Word) : Bool := decide (w.toNat < 64) || s.workOk w

/-! ### `qpop` and `qclose` (R352, R353) -/

/-- A TAKEN slot of the strand becomes FREE when the form issues (R348), and stays so when it then waits and its wait is withdrawn
(R9 would have no effect remain: log 67). -/
def execQpop (d a : XReg) (nb : Bool) (s : State) : Out :=
  let w := s.me.xr a
  match s.workBad w with
  | some l => s.meet (.bad l) w
  | none =>
  if !(s.workOk w) then s.trap .access w
  else
    let q := w.toNat
    let s := s.freeTaken [s.me.uid]
    match s.wqOldest q with
    | some i => .next (s.wqTake s.cur q i d)
    | none =>
      if s.wqClosed q then .next (s.wqEnd s.cur d)
      else if nb then s.finish (s.me.setX d (-2))
      else s.wait (.pop q d)

def execQclose (a : XReg) (s : State) : Out :=
  let w := s.me.xr a
  match s.workBad w with
  | some l => s.meet (.bad l) w
  | none =>
  if !(s.workOk w) then s.trap .access w
  else
    let r := s.release s.cur allHues 3
    let set := r.2
    let uid := s.me.uid
    let s := r.1.setMe r.1.me.done
    .next (if set.isEmpty then s.wqClose w.toNat else { s with closes := s.closes ++ [(w.toNat, uid, set)] })

/-! ### `qpush` (R351) -/

/-- The FREE slot the next record goes to: the first from PUSHED mod SLOTS (log 24). -/
def State.wqFree (s : State) (q : Nat) : Option Nat :=
  let n := s.wqSlots q
  ((List.range n).map fun i => (s.wqField q 0x10 8 + i) % n).find? fun i => (Table.get? (Table.getD s.wq q []) i).isNone

/-- A record is appended to slot `i` of work queue `q`: slot FULL, PUSHED + 1, and a waiting `qpop` served. A slot that is
not mapped takes no bytes. -/
def State.wqPush (s : State) (q i : Nat) (tag : BitVec 4) (record : List Byte) : State :=
  let s := match s.unitPhys (s.wqCtx q) (s.wqBase q + 128 * i) leafAny with
    | some p => s.write (Writer.plain tag) (cellsAt p record)
    | none => s.meetWalk (s.wqCtx q) 4096 (s.wqBase q + 128 * i)
  let s := { s with seqNo := s.seqNo + 1, wq := Table.set s.wq q (Table.set (Table.getD s.wq q []) i (.full s.seqNo)) }
  let s := s.wqWrite q 0x10 8 (s.wqField q 0x10 8 + 1)
  s.wqServe q (s.strands.length + 1)

/-- The token reserve of a core in 1/256 token: what its store holds up to `tokres` (log 25). -/
def Core.reserve (c : Core) : Nat := min c.tokens (256 * c.tokres)

/-- POWER of a record in units of 10 mW (05, R103). -/
def recDraw (r : List Byte) : Nat := if recPower r = 0 then recTotal r else recPower r

/-- Hand out ordinals `n`, n + 1, ... of launch `k` to free slots of the sheaf; the cores used are gathered. Free slots are
taken without regard to launches of higher priority that wait elsewhere (log 61). None when no free slot of the sheaf suits the launch
(R77, R333), be the record one that meets the six conditions of R94: it takes the ordinary path then (log 88). -/
def State.localBind (s : State) (k h n : Nat) (used : List Nat) : Nat → Option (State × List Nat)
  | 0 => some (s, used)
  | f + 1 =>
    match Table.get? s.launches k with
    | none => none
    | some la =>
      match s.chooseCore k la (sheafCores h) with
      | none => none
      | some c =>
        match s.freeSlot c with
        | none => none
        | some sid =>
          if (s.imageBad la c false).isSome then none
          else
          let s := (s.copyImages k la c false).bindStrand k la sid n none
          match Table.get? s.launches k with
          | none => none
          | some la =>
            let c' := s.core c
            let s := if c'.power.up then s else s.setCore c { c' with admitted := true, waking := true }
            State.localBind { s with launches := Table.set s.launches k (la.took n) } k h (n + 1) (insertNat c used) f

/-- The sheaf-local path (R94), when the record qualifies. `src` is where it lies. -/
def State.localLaunch (s : State) (m : Submitted) (src : Nat) : Option State :=
  let r := m.bytes
  let h := sheafOf s.myCore
  if !(decide (src < 0x8000 ∨ 0x10000 ≤ src ∧ src < 0x90000)) || recPinned r then none
  else
    match Table.get? s.launches s.me.launch, s.freeEntry with
    | some own, some k =>
      match s.wellRecord r (if s.me.mode = 0 then some s.me.ctx else none) with
      | (_, false) => none
      | (s, true) =>
        let la := Launch.new r m.origin 0
        let o := s.objOf la
        if !(sameCode la own) || o.sheaf.2 != 0 || o.loc.2 != 0 ||
            decide (((sheafCores h).map s.freeCount).sum < recTotal r) then none
        else
          let s := s.enterLaunch k m
          if (Table.get? s.launches k).any fun l => l.state == LState.ready then
            match (s.run k).localBind k h 0 [] (recTotal r) with
            | none => none
            | some (s, used) =>
              if recDraw r * 10000 * 256 ≤ (used.map fun c => (s.core c).reserve).sum then some s else none
          else none
    | _, _ => none

/-- A record is submitted to launch queue `q` by the current strand (R85, R94). -/
def State.submit (s : State) (q : Nat) (record : List Byte) (src : Word) : State :=
  let t := s.me
  let m : Submitted := { bytes := record, origin := .strand s.cur t.uid t.ctx t.mode src, ctx := t.ctx }
  match s.localLaunch m src.toNat with
  | some s => s
  | none => s.pushQueue q m

/-- The append, once the release has completed. -/
def State.append (s : State) (d : XReg) (nb : Bool) (q : Nat) (record : List Byte) (src : Word) : Out :=
  let full : Out := if nb then s.finish (s.me.setX d 1) else s.wait (.push q record src [])
  if q < 64 then
    if s.queueFull q then full
    else
      let s := s.submit q record src
      s.finish (s.me.setX d 0)
  else
    match s.wqBad q with
    | some l => s.meet (.bad l) 0
    | none =>
      if s.wqClosed q then s.finish (s.me.setX d 2)
      else
        match s.wqFree q with
        | none => full
        | some i =>
          let s := s.wqPush q i s.me.ctx record
          s.finish (s.me.setX d 0)

def execQpush (d a b : XReg) (nb : Bool) (s : State) : Out :=
  match s.me.wait with
  | some (.push q record src set) =>
    if s.drained set then
      -- the watched wait begins once the release has completed (R331)
      State.append (if set.isEmpty then s else s.setMe { s.me with wait := none }) d nb q record src
    else s.wait (.push q record src set)
  | _ =>
    let w := s.me.xr a
    let src := s.me.xr b
    match s.workBad w with
    | some l => s.meet (.bad l) w
    | none =>
    if !(s.pushOk w) then s.trap .access w
    else if src.toNat % 128 ≠ 0 then s.trap .align src
    else s.readRecord 8 src 8 fun s record =>
      let r := s.release s.cur allHues 3
      if r.2.isEmpty then r.1.append d nb w.toNat record src else r.1.wait (.push w.toNat record src r.2)

/-! ### `spawn` (R354) -/

/-- The slot `spawn` finds: one of the issuing core, else of the lowest member of the sheaf that is awake or
clock-gated; launches that wait for it are not regarded (log 61). -/
def State.spawnSlot (s : State) (la : Launch) : Option Nat :=
  let own := s.myCore
  if s.fits s.me.launch la own then s.freeSlot own
  else
    ((sheafCores (sheafOf own)).find? fun c => c != own && (s.core c).power.up && s.fits s.me.launch la c).bind s.freeSlot

/-- The strand that `spawn` starts in slot `sid` (log 26: it has no ordinal and no index of its own). -/
def State.spawned (s : State) (la : Launch) (sid : Nat) (pc arg : Word) : Strand :=
  let me := s.me
  let t := s.newStrand me.launch la sid 0 none
  let t := if (s.objOf la).far then (t.setX 2 0).setX 3 0 else t
  let t := (((t.setX 5 arg).setX 6 (BitVec.ofNat 64 s.cur)).setX 7 0).setX 8 (-1)
  { t with stat := .live, fresh := false, pc := pc, stage := me.stage, index := 0, prio := me.prio, eff := me.prio, spawned := true,
           startRel := s.relSet s.cur allHues 2, startAcq := true }

def execSpawn (d a b : XReg) (s : State) : Out :=
  let pc := s.me.xr a
  if pc.toNat % 4 ≠ 0 then s.trap .align pc
  else
    let none' : Out := s.finish (s.me.setX d (-1))
    match Table.get? s.launches s.me.launch with
    | none => none'
    | some la =>
      match s.spawnSlot la with
      | none => none'
      | some sid =>
        let s := s.owe s.cur allHues 2
        let t := s.spawned la sid pc (s.me.xr b)
        match s.imageBad la (coreOf sid) false with
        | some l => s.meet (.bad l) 0
        | none =>
        let s := s.copyImages s.me.launch la (coreOf sid) false
        match Table.get? s.launches s.me.launch with
        | none => none'
        | some la =>
          let s := { s with uidNo := s.uidNo + 1, launches := Table.set s.launches s.me.launch { la with total := la.total + 1 } }
          let s := ((s.setStrand sid t).busy (coreOf sid)).markUnits s.me.launch (coreOf sid)
          s.finish (s.me.setX d (BitVec.ofNat 64 sid))

end Sys2Proof.Machine
end

