-- ==== Sys2Proof/Machine/Dispatch.lean ====
section
/-! DEFINITION. One arm per row of the opcode table: each instruction word and each step of the device is one call of its
meaning. -/

namespace Sys2Proof.Machine

/-- The meaning of an instruction word at the strand `s.cur`, or of a step of the device. -/
def exec (i : Instr) (s : State) : Host.Outcome State Fault Refusal :=
  match i with
  | .trap a => Sys2Proof.Machine.execTrap a s
  | .sysc => Sys2Proof.Machine.execSysc s
  | .kret => Sys2Proof.Machine.execKret s
  | .brk n => Sys2Proof.Machine.execBrk n s
  | .nap a => Sys2Proof.Machine.execNap a s
  | .done => Sys2Proof.Machine.execDone s
  | .yield => Sys2Proof.Machine.execYield s
  | .fencei => Sys2Proof.Machine.execFencei s
  | .tlbinv a b sc => Sys2Proof.Machine.execTlbinv a b sc s
  | .sethue h => Sys2Proof.Machine.execSethue h s
  | .halt a => Sys2Proof.Machine.execHalt a s
  | .pwrh a => Sys2Proof.Machine.execPwrh a s
  | .add d a b => Sys2Proof.Machine.execAdd d a b s
  | .sub d a b => Sys2Proof.Machine.execSub d a b s
  | .and d a b => Sys2Proof.Machine.execAnd d a b s
  | .or d a b => Sys2Proof.Machine.execOr d a b s
  | .xor d a b => Sys2Proof.Machine.execXor d a b s
  | .andn d a b => Sys2Proof.Machine.execAndn d a b s
  | .sll d a b => Sys2Proof.Machine.execSll d a b s
  | .srl d a b => Sys2Proof.Machine.execSrl d a b s
  | .sra d a b => Sys2Proof.Machine.execSra d a b s
  | .rol d a b => Sys2Proof.Machine.execRol d a b s
  | .slt d a b => Sys2Proof.Machine.execSlt d a b s
  | .sltu d a b => Sys2Proof.Machine.execSltu d a b s
  | .min d a b => Sys2Proof.Machine.execMin d a b s
  | .max d a b => Sys2Proof.Machine.execMax d a b s
  | .minu d a b => Sys2Proof.Machine.execMinu d a b s
  | .maxu d a b => Sys2Proof.Machine.execMaxu d a b s
  | .clz d a => Sys2Proof.Machine.execClz d a s
  | .ctz d a => Sys2Proof.Machine.execCtz d a s
  | .popc d a => Sys2Proof.Machine.execPopc d a s
  | .brev d a => Sys2Proof.Machine.execBrev d a s
  | .bswap d a => Sys2Proof.Machine.execBswap d a s
  | .ilv d a b => Sys2Proof.Machine.execIlv d a b s
  | .ilv3 d a b c => Sys2Proof.Machine.execIlv3 d a b c s
  | .dilv d a => Sys2Proof.Machine.execDilv d a s
  | .dilv3 d a => Sys2Proof.Machine.execDilv3 d a s
  | .sel d a b c => Sys2Proof.Machine.execSel d a b c s
  | .addw d a b => Sys2Proof.Machine.execAddw d a b s
  | .subw d a b => Sys2Proof.Machine.execSubw d a b s
  | .mul d a b => Sys2Proof.Machine.execMul d a b s
  | .mulh d a b => Sys2Proof.Machine.execMulh d a b s
  | .mulhu d a b => Sys2Proof.Machine.execMulhu d a b s
  | .mulw d a b => Sys2Proof.Machine.execMulw d a b s
  | .div d a b => Sys2Proof.Machine.execDiv d a b s
  | .divu d a b => Sys2Proof.Machine.execDivu d a b s
  | .rem d a b => Sys2Proof.Machine.execRem d a b s
  | .remu d a b => Sys2Proof.Machine.execRemu d a b s
  | .madd d a b c => Sys2Proof.Machine.execMadd d a b c s
  | .extr d a p l sc => Sys2Proof.Machine.execExtr d a p l sc s
  | .insf d a p l => Sys2Proof.Machine.execInsf d a p l s
  | .csrr d c => Sys2Proof.Machine.execCsrr d c s
  | .csrw d a c => Sys2Proof.Machine.execCsrw d a c s
  | .csrs d a c => Sys2Proof.Machine.execCsrs d a c s
  | .csrc d a c => Sys2Proof.Machine.execCsrc d a c s
  | .addi d a im => Sys2Proof.Machine.execAddi d a im s
  | .andi d a im => Sys2Proof.Machine.execAndi d a im s
  | .ori d a im => Sys2Proof.Machine.execOri d a im s
  | .xori d a im => Sys2Proof.Machine.execXori d a im s
  | .slli d a n => Sys2Proof.Machine.execSlli d a n s
  | .srli d a n => Sys2Proof.Machine.execSrli d a n s
  | .srai d a n => Sys2Proof.Machine.execSrai d a n s
  | .roli d a n => Sys2Proof.Machine.execRoli d a n s
  | .slti d a im => Sys2Proof.Machine.execSlti d a im s
  | .sltiu d a im => Sys2Proof.Machine.execSltiu d a im s
  | .lhi d im => Sys2Proof.Machine.execLhi d im s
  | .addpc d o => Sys2Proof.Machine.execAddpc d o s
  | .beq b a o => Sys2Proof.Machine.execBeq b a o s
  | .bne b a o => Sys2Proof.Machine.execBne b a o s
  | .blt b a o => Sys2Proof.Machine.execBlt b a o s
  | .bge b a o => Sys2Proof.Machine.execBge b a o s
  | .bltu b a o => Sys2Proof.Machine.execBltu b a o s
  | .bgeu b a o => Sys2Proof.Machine.execBgeu b a o s
  | .jmp o => Sys2Proof.Machine.execJmp o s
  | .jal o => Sys2Proof.Machine.execJal o s
  | .jalr d a im => Sys2Proof.Machine.execJalr d a im s
  | .loop a l => Sys2Proof.Machine.execLoop a l s
  | .xrd d a => Sys2Proof.Machine.execXrd d a s
  | .xwr a b => Sys2Proof.Machine.execXwr a b s
  | .fadd d a b p => Sys2Proof.Machine.execFadd d a b p s
  | .fsub d a b p => Sys2Proof.Machine.execFsub d a b p s
  | .fmul d a b p => Sys2Proof.Machine.execFmul d a b p s
  | .fdiv d a b p => Sys2Proof.Machine.execFdiv d a b p s
  | .fsqrt d a p => Sys2Proof.Machine.execFsqrt d a p s
  | .fmin d a b p => Sys2Proof.Machine.execFmin d a b p s
  | .fmax d a b p => Sys2Proof.Machine.execFmax d a b p s
  | .feq d a b p => Sys2Proof.Machine.execFeq d a b p s
  | .flt d a b p => Sys2Proof.Machine.execFlt d a b p s
  | .fle d a b p => Sys2Proof.Machine.execFle d a b p s
  | .fclass d a p => Sys2Proof.Machine.execFclass d a p s
  | .fsgn d a b v p => Sys2Proof.Machine.execFsgn d a b v p s
  | .fcvti d a v p => Sys2Proof.Machine.execFcvti d a v p s
  | .fcvtf d a v p => Sys2Proof.Machine.execFcvtf d a v p s
  | .fcvtp d a v p => Sys2Proof.Machine.execFcvtp d a v p s
  | .fma d a b c p => Sys2Proof.Machine.execFma d a b c p s
  | .fms d a b c p => Sys2Proof.Machine.execFms d a b c p s
  | .fnma d a b c p => Sys2Proof.Machine.execFnma d a b c p s
  | .fnms d a b c p => Sys2Proof.Machine.execFnms d a b c p s
  | .ld d a wd im o => Sys2Proof.Machine.execLd d a wd im o s
  | .st sc a wd im o => Sys2Proof.Machine.execSt sc a wd im o s
  | .ldx d a b wd => Sys2Proof.Machine.execLdx d a b wd s
  | .stx sc a b wd => Sys2Proof.Machine.execStx sc a b wd s
  | .vld d a im o => Sys2Proof.Machine.execVld d a im o s
  | .vst sc a im o => Sys2Proof.Machine.execVst sc a im o s
  | .vlds d a b => Sys2Proof.Machine.execVlds d a b s
  | .vsts sc a b => Sys2Proof.Machine.execVsts sc a b s
  | .vldg d a b => Sys2Proof.Machine.execVldg d a b s
  | .vstg sc a b => Sys2Proof.Machine.execVstg sc a b s
  | .dld d a im o => Sys2Proof.Machine.execDld d a im o s
  | .dst d a im o => Sys2Proof.Machine.execDst d a im o s
  | .amoadd d a b k sc wd => Sys2Proof.Machine.execAmoadd d a b k sc wd s
  | .amoand d a b k sc wd => Sys2Proof.Machine.execAmoand d a b k sc wd s
  | .amoor d a b k sc wd => Sys2Proof.Machine.execAmoor d a b k sc wd s
  | .amoxor d a b k sc wd => Sys2Proof.Machine.execAmoxor d a b k sc wd s
  | .amomin d a b k sc wd => Sys2Proof.Machine.execAmomin d a b k sc wd s
  | .amomax d a b k sc wd => Sys2Proof.Machine.execAmomax d a b k sc wd s
  | .amominu d a b k sc wd => Sys2Proof.Machine.execAmominu d a b k sc wd s
  | .amomaxu d a b k sc wd => Sys2Proof.Machine.execAmomaxu d a b k sc wd s
  | .amoswap d a b k sc wd => Sys2Proof.Machine.execAmoswap d a b k sc wd s
  | .amofadd d a b k sc wd => Sys2Proof.Machine.execAmofadd d a b k sc wd s
  | .cas d a b c wd k sc => Sys2Proof.Machine.execCas d a b c wd k sc s
  | .fence k sc m => Sys2Proof.Machine.execFence k sc m s
  | .waitw a b => Sys2Proof.Machine.execWaitw a b s
  | .waitc c t => Sys2Proof.Machine.execWaitc c t s
  | .vadd d a b p t => Sys2Proof.Machine.execVadd d a b p t s
  | .vsub d a b p t => Sys2Proof.Machine.execVsub d a b p t s
  | .vmul d a b p t => Sys2Proof.Machine.execVmul d a b p t s
  | .vma d a b p t => Sys2Proof.Machine.execVma d a b p t s
  | .vmin d a b p t => Sys2Proof.Machine.execVmin d a b p t s
  | .vmax d a b p t => Sys2Proof.Machine.execVmax d a b p t s
  | .vand d a b p t => Sys2Proof.Machine.execVand d a b p t s
  | .vor d a b p t => Sys2Proof.Machine.execVor d a b p t s
  | .vxor d a b p t => Sys2Proof.Machine.execVxor d a b p t s
  | .vandn d a b p t => Sys2Proof.Machine.execVandn d a b p t s
  | .vshl d a b p t => Sys2Proof.Machine.execVshl d a b p t s
  | .vshr d a b p t => Sys2Proof.Machine.execVshr d a b p t s
  | .vabs d a p t => Sys2Proof.Machine.execVabs d a p t s
  | .vneg d a p t => Sys2Proof.Machine.execVneg d a p t s
  | .vsel d a b p t => Sys2Proof.Machine.execVsel d a b p t s
  | .vaddsat d a b p t => Sys2Proof.Machine.execVaddsat d a b p t s
  | .vsubsat d a b p t => Sys2Proof.Machine.execVsubsat d a b p t s
  | .vmulh d a b p t => Sys2Proof.Machine.execVmulh d a b p t s
  | .vdot4 d a b p t => Sys2Proof.Machine.execVdot4 d a b p t s
  | .vdot2 d a b p t => Sys2Proof.Machine.execVdot2 d a b p t s
  | .vbcast d a p t => Sys2Proof.Machine.execVbcast d a p t s
  | .vmovx d a b t => Sys2Proof.Machine.execVmovx d a b t s
  | .vextx d a b t => Sys2Proof.Machine.execVextx d a b t s
  | .vperm d a b p t => Sys2Proof.Machine.execVperm d a b p t s
  | .vrot d a b p t => Sys2Proof.Machine.execVrot d a b p t s
  | .vredadd d a p t => Sys2Proof.Machine.execVredadd d a p t s
  | .vredmin d a p t => Sys2Proof.Machine.execVredmin d a p t s
  | .vredmax d a p t => Sys2Proof.Machine.execVredmax d a p t s
  | .vcvt d a f sc p t => Sys2Proof.Machine.execVcvt d a f sc p t s
  | .vrcp d a p t => Sys2Proof.Machine.execVrcp d a p t s
  | .vrsq d a p t => Sys2Proof.Machine.execVrsq d a p t s
  | .vexp2 d a p t => Sys2Proof.Machine.execVexp2 d a p t s
  | .vlog2 d a p t => Sys2Proof.Machine.execVlog2 d a p t s
  | .vsin d a p t => Sys2Proof.Machine.execVsin d a p t s
  | .vcos d a p t => Sys2Proof.Machine.execVcos d a p t s
  | .venc12 d a b p => Sys2Proof.Machine.execVenc12 d a b p s
  | .vpack d a b t => Sys2Proof.Machine.execVpack d a b t s
  | .vunpack d a h t => Sys2Proof.Machine.execVunpack d a h t s
  | .vcmp d a b p t c => Sys2Proof.Machine.execVcmp d a b p t c s
  | .pand d a b => Sys2Proof.Machine.execPand d a b s
  | .por d a b => Sys2Proof.Machine.execPor d a b s
  | .pxor d a b => Sys2Proof.Machine.execPxor d a b s
  | .pnot d a => Sys2Proof.Machine.execPnot d a s
  | .pmov d a => Sys2Proof.Machine.execPmov d a s
  | .pget d a => Sys2Proof.Machine.execPget d a s
  | .pcnt d a => Sys2Proof.Machine.execPcnt d a s
  | .vqma d a b c na nb => Sys2Proof.Machine.execVqma d a b c na nb s
  | .vqdec d a n c nf ff => Sys2Proof.Machine.execVqdec d a n c nf ff s
  | .vqenc d a n c ff nf => Sys2Proof.Machine.execVqenc d a n c ff nf s
  | .dnorm d a => Sys2Proof.Machine.execDnorm d a s
  | .dvec d a => Sys2Proof.Machine.execDvec d a s
  | .ddot d a b => Sys2Proof.Machine.execDdot d a b s
  | .dadd d a b => Sys2Proof.Machine.execDadd d a b s
  | .dsub d a b => Sys2Proof.Machine.execDsub d a b s
  | .dscl d a b => Sys2Proof.Machine.execDscl d a b s
  | .dneg d a => Sys2Proof.Machine.execDneg d a s
  | .drefl d a b => Sys2Proof.Machine.execDrefl d a b s
  | .dcross d a b => Sys2Proof.Machine.execDcross d a b s
  | .dmix d a b c => Sys2Proof.Machine.execDmix d a b c s
  | .dmovn d a => Sys2Proof.Machine.execDmovn d a s
  | .dsetn d a b => Sys2Proof.Machine.execDsetn d a b s
  | .dtst d a => Sys2Proof.Machine.execDtst d a s
  | .dmov d a => Sys2Proof.Machine.execDmov d a s
  | .dproj d a b => Sys2Proof.Machine.execDproj d a b s
  | .rbox d a b c => Sys2Proof.Machine.execRbox d a b c s
  | .rtri d a b c => Sys2Proof.Machine.execRtri d a b c s
  | .tsetup d a b => Sys2Proof.Machine.execTsetup d a b s
  | .tcover d a b => Sys2Proof.Machine.execTcover d a b s
  | .tinterp d a b => Sys2Proof.Machine.execTinterp d a b s
  | .texld d a b => Sys2Proof.Machine.execTexld d a b s
  | .emit a b c => Sys2Proof.Machine.execEmit a b c s
  | .emitq d a => Sys2Proof.Machine.execEmitq d a s
  | .send d a b m n => Sys2Proof.Machine.execSend d a b m n s
  | .sendv d a b m n => Sys2Proof.Machine.execSendv d a b m n s
  | .recv d b m n => Sys2Proof.Machine.execRecv d b m n s
  | .recvn d a b c => Sys2Proof.Machine.execRecvn d a b c s
  | .mpoll d m => Sys2Proof.Machine.execMpoll d m s
  | .binit a c => Sys2Proof.Machine.execBinit a c s
  | .barr d c => Sys2Proof.Machine.execBarr d c s
  | .bwait a c => Sys2Proof.Machine.execBwait a c s
  | .kinit a b => Sys2Proof.Machine.execKinit a b s
  | .kenter d a b => Sys2Proof.Machine.execKenter d a b s
  | .kleave a => Sys2Proof.Machine.execKleave a s
  | .kskip a b => Sys2Proof.Machine.execKskip a b s
  | .kfree a => Sys2Proof.Machine.execKfree a s
  | .qpop d a n => Sys2Proof.Machine.execQpop d a n s
  | .qpush d a b n => Sys2Proof.Machine.execQpush d a b n s
  | .spawn d a b => Sys2Proof.Machine.execSpawn d a b s
  | .qclose a => Sys2Proof.Machine.execQclose a s
  | .ewr d a => Sys2Proof.Machine.execEwr d a s
  | .erd d a => Sys2Proof.Machine.execErd d a s
  | .copy d a b c => Sys2Proof.Machine.execCopy d a b c s
  | .mgang t k c => Sys2Proof.Machine.execMgang t k c s
  | .mlut t k c => Sys2Proof.Machine.execMlut t k c s
  | .acl t => Sys2Proof.Machine.execAcl t s
  | .ast d t b c => Sys2Proof.Machine.execAst d t b c s
  | .ald t a b c => Sys2Proof.Machine.execAld t a b c s
  | .boundaryTrapTake sid => Sys2Proof.Machine.execBoundaryTrapTake sid s
  | .controlResume sid ctx => Sys2Proof.Machine.execControlResume sid ctx s
  | .controlSkip sid ctx => Sys2Proof.Machine.execControlSkip sid ctx s
  | .controlKill sid ctx => Sys2Proof.Machine.execControlKill sid ctx s
  | .storeDrain sid seq => Sys2Proof.Machine.execStoreDrain sid seq s
  | .l1LineRemove core line => Sys2Proof.Machine.execL1LineRemove core line s
  | .icacheFill sid => Sys2Proof.Machine.execIcacheFill sid s
  | .enginePayloadWrite op unit fresh => Sys2Proof.Machine.execEnginePayloadWrite op unit fresh s
  | .copyComplete op => Sys2Proof.Machine.execCopyComplete op s
  | .gangForm sheaf => Sys2Proof.Machine.execGangForm sheaf s
  | .gangComplete op freshWords => Sys2Proof.Machine.execGangComplete op freshWords s
  | .gangto sid => Sys2Proof.Machine.execGangto sid s
  | .astComplete op => Sys2Proof.Machine.execAstComplete op s
  | .aldComplete op freshWords => Sys2Proof.Machine.execAldComplete op freshWords s
  | .messageDeliver src => Sys2Proof.Machine.execMessageDeliver src s
  | .sendRetry core idx => Sys2Proof.Machine.execSendRetry core idx s
  | .edgeDeliver core idx => Sys2Proof.Machine.execEdgeDeliver core idx s
  | .barrierArrivalCount launch point sheaf sid => Sys2Proof.Machine.execBarrierArrivalCount launch point sheaf sid s
  | .keyLeaveEffect sid key => Sys2Proof.Machine.execKeyLeaveEffect sid key s
  | .keySkipEffect sid key num => Sys2Proof.Machine.execKeySkipEffect sid key num s
  | .keyProbe sid => Sys2Proof.Machine.execKeyProbe sid s
  | .stall sid => Sys2Proof.Machine.execStall sid s
  | .recvnTimeout sid => Sys2Proof.Machine.execRecvnTimeout sid s
  | .napWake sid => Sys2Proof.Machine.execNapWake sid s
  | .queueDoorbell port tag => Sys2Proof.Machine.execQueueDoorbell port tag s
  | .registerWrite off val => Sys2Proof.Machine.execRegisterWrite off val s
  | .hostBar2Read addr len => Sys2Proof.Machine.execHostBar2Read addr len s
  | .hostBar2Write addr bytes => Sys2Proof.Machine.execHostBar2Write addr bytes s
  | .pcieConfigRequest msix => Sys2Proof.Machine.execPcieConfigRequest msix s
  | .coldReset b => Sys2Proof.Machine.execColdReset b s
  | .warmReset b => Sys2Proof.Machine.execWarmReset b s
  | .fieldReset b => Sys2Proof.Machine.execFieldReset b s
  | .calloadWaitTimeout => Sys2Proof.Machine.execCalloadWaitTimeout s
  | .attest => Sys2Proof.Machine.execAttest s
  | .fwstage => Sys2Proof.Machine.execFwstage s
  | .calload => Sys2Proof.Machine.execCalload s
  | .granset => Sys2Proof.Machine.execGranset s
  | .vtlog => Sys2Proof.Machine.execVtlog s
  | .endctx => Sys2Proof.Machine.execEndctx s
  | .kvec => Sys2Proof.Machine.execKvec s
  | .mbUnknownCommand code => Sys2Proof.Machine.execMbUnknownCommand code s
  | .mbCommandEnd => Sys2Proof.Machine.execMbCommandEnd s
  | .ftcfgWrite val => Sys2Proof.Machine.execFtcfgWrite val s
  | .ftsyncEdge => Sys2Proof.Machine.execFtsyncEdge s
  | .ftimeLoad => Sys2Proof.Machine.execFtimeLoad s
  | .ocCauseClear val => Sys2Proof.Machine.execOcCauseClear val s
  | .linkEnable port => Sys2Proof.Machine.execLinkEnable port s
  | .linkDisable port => Sys2Proof.Machine.execLinkDisable port s
  | .linkHold port => Sys2Proof.Machine.execLinkHold port s
  | .linkHoldRelease port => Sys2Proof.Machine.execLinkHoldRelease port s
  | .linkTrained port peer lanes => Sys2Proof.Machine.execLinkTrained port peer lanes s
  | .linkLaneFail port => Sys2Proof.Machine.execLinkLaneFail port s
  | .linkDown port => Sys2Proof.Machine.execLinkDown port s
  | .flitCrcFail port => Sys2Proof.Machine.execFlitCrcFail port s
  | .freezeAssert => Sys2Proof.Machine.execFreezeAssert s
  | .freezeRelease => Sys2Proof.Machine.execFreezeRelease s
  | .debugFrz v => Sys2Proof.Machine.execDebugFrz v s
  | .debugShsel v => Sys2Proof.Machine.execDebugShsel v s
  | .debugShdata => Sys2Proof.Machine.execDebugShdata s
  | .debugArsel v => Sys2Proof.Machine.execDebugArsel v s
  | .debugArdata => Sys2Proof.Machine.execDebugArdata s
  | .ocNAssert => Sys2Proof.Machine.execOcNAssert s
  | .sensorReading j raw => Sys2Proof.Machine.execSensorReading j raw s
  | .droopDetect sheaf => Sys2Proof.Machine.execDroopDetect sheaf s
  | .droopRecover sheaf => Sys2Proof.Machine.execDroopRecover sheaf s
  | .governorTick rails => Sys2Proof.Machine.execGovernorTick rails s
  | .vfTransitionDone sheaf => Sys2Proof.Machine.execVfTransitionDone sheaf s
  | .tokenStarve core => Sys2Proof.Machine.execTokenStarve core s
  | .corePowerGate core => Sys2Proof.Machine.execCorePowerGate core s
  | .corePowerOff core => Sys2Proof.Machine.execCorePowerOff core s
  | .coreWakeDone core => Sys2Proof.Machine.execCoreWakeDone core s
  | .launchAccept queue => Sys2Proof.Machine.execLaunchAccept queue s
  | .launchChoose => Sys2Proof.Machine.execLaunchChoose s
  | .strandHandout => Sys2Proof.Machine.execStrandHandout s
  | .strandStart sid => Sys2Proof.Machine.execStrandStart sid s
  | .launchComplete launch => Sys2Proof.Machine.execLaunchComplete launch s
  | .preemptRequest pinned => Sys2Proof.Machine.execPreemptRequest pinned s
  | .huskSave sid => Sys2Proof.Machine.execHuskSave sid s
  | .huskResume => Sys2Proof.Machine.execHuskResume s
  | .meshSlotReserve launch => Sys2Proof.Machine.execMeshSlotReserve launch s
  | .slotAssemble ctx => Sys2Proof.Machine.execSlotAssemble ctx s
  | .trayRecordDeliver core => Sys2Proof.Machine.execTrayRecordDeliver core s
  | .pageFetchComplete req resp => Sys2Proof.Machine.execPageFetchComplete req resp s
  | .emitTransferStart core freshWords => Sys2Proof.Machine.execEmitTransferStart core freshWords s
  | .emitArrival core => Sys2Proof.Machine.execEmitArrival core s
  | .emitSwap tile group => Sys2Proof.Machine.execEmitSwap tile group s
  | .scrubPass corrected bad => Sys2Proof.Machine.execScrubPass corrected bad s
  | .verticalTestVisit core aborted mismatches => Sys2Proof.Machine.execVerticalTestVisit core aborted mismatches s
  | .alwaysOnPowerLoss => Sys2Proof.Machine.execAlwaysOnPowerLoss s

end Sys2Proof.Machine
end

