-- ==== Sys2Proof/Machine/Issue.lean ====
section
/-! DEFINITION. One core cycle: fetch, the ready set, the choice of a strand, the charge and the issue (06, R119-R125; 05,
R98, R100, R108; 16, R332; 19, R369). And the passing of field time. -/

namespace Sys2Proof.Machine

/-! ### The next word of a strand -/

/-- Strand `sid` waits for the line of its pc (R123). -/
def State.missLine (s : State) (sid : Nat) : State :=
  s.setStrand sid { s.strand sid with fetchWait := some ((s.strand sid).pc.toNat / 64) }

/-- The current strand executes the word `w`; one that decodes to nothing raises ILLEGAL with the word (R119, R135). -/
def State.runDecoded (s : State) (w : BitVec 32) : Out :=
  match decodeWord w with
  | .ok i => exec i s
  | .error _ => s.trap .illegal (w.zeroExtend 64)

/-- Strand `sid` fetches, decodes and executes the word at its pc; a fetch fault has the pc as its `tval`. -/
def State.runWord (s : State) (sid : Nat) : Out :=
  match State.fetch { s with cur := sid } sid with
  | (s, some (.word w)) => (s.setStrand sid { (s.strand sid).capture w with word := w }).runDecoded w
  | (s, some (.fault c)) => s.trap c (s.strand sid).pc
  | (s, some (.bad l)) => .next (s.uncorr (s.tagOf l) (s.strand sid).ctx (s.strand sid).launch)
  | (s, none) => .next (s.missLine sid)

/-- Strand `sid` reads on with the load of which parts are left, the word last issued (R314). -/
def State.runPart (s : State) (sid : Nat) : Out :=
  let t := s.strand sid
  if t.stat == SlotStat.live && t.mid.isSome then State.runDecoded { s with cur := sid } t.word else .next s

/-- What strand `sid` does when it is chosen: it takes its lowest pending cause, or issues its word. -/
def State.runStrand (s : State) (sid : Nat) : Out :=
  if (s.strand sid).pend.isEmpty then s.runWord sid else exec (.boundaryTrapTake sid) { s with cur := sid }

/-! ### The ready set (R124) -/

/-- A wait whose instruction is issued again to see whether it can go on. -/
def Wait.retries : Wait → Bool
  | .again | .keyRoom _ | .push _ _ _ _ | .tlb _ _ _ | .drain _ | .emit => true
  | _ => false

/-- The strand takes part in the choice, its word aside: no load of it is under way, and it has a pending cause, or is not
parked, waits for no line and for no event, and what it starts after has drained. -/
def State.stands (s : State) (t : Strand) : Bool :=
  t.stat == SlotStat.live && !t.saving && t.mid.isNone &&
    (!t.pend.isEmpty || (t.parked.isNone && t.fetchWait.isNone && s.drained t.startRel && t.wait.all Wait.retries))

/-- A captured loop body is issued from the loop buffer and fetches nothing (R123). -/
def Strand.looping (t : Strand) : Bool := t.inLoop && t.loopBuf.any fun f => f.addr == t.pc

/-- The fetch buffer is filled with the words at pc to pc + 12; a miss at the pc takes the strand out of the ready set (R121,
R123). -/
def State.prefetch (s : State) (sid : Nat) : State :=
  let t := s.strand sid
  if s.stands t && t.pend.isEmpty && !t.looping then
    match s.fetch sid with
    | (s', none) => s'.missLine sid
    | _ => s.readAhead sid t.pc 4
  else s

/-- Strand `sid` is held in this cycle by a result that is pending or a unit that is busy (R124, R126; log 5). -/
def State.stalled (s : State) (sid : Nat) : Bool := s.choice.stalls.testBit (sid % 4)

/-- Strand `sid` is ready: issuing its word would not leave it where it stands, and no result it needs is pending. A cause that is
pending needs none. -/
def State.ready (s : State) (sid : Nat) : Bool :=
  let t := s.strand sid
  s.stands t && (!t.pend.isEmpty || !(s.stalled sid) && (match t.wait with
    | some (.drain set) => s.drained set
    | some w => (match s.runWord sid with
      | .next s' => (s'.strand sid).wait != some w
      | _ => true)
    | none => (match s.runWord sid with
      | .next s' => (s'.strand sid).wait != some .again
      | _ => true)))

/-- The slots of a core. -/
def coreSlots (c : Nat) : List Nat := [4 * c, 4 * c + 1, 4 * c + 2, 4 * c + 3]

/-- The ready slots; one whose last issue was `yield` counts only when there is no other (07, R168). -/
def State.readySlots (s : State) (c : Nat) : List Nat :=
  let r := (coreSlots c).filter s.ready
  let r' := r.filter fun i => !(s.strand i).yielded
  if r'.isEmpty then r else r'

/-! ### The choice (R125) -/

/-- The strand issued among `r`: of the highest `eff`, the first after `last`. -/
def State.choose (s : State) (c : Nat) (r : List Nat) : Option Nat :=
  let best := (r.map fun i => (s.strand i).eff).foldl max 0
  ((List.range 4).map fun k => 4 * c + ((s.core c).last + 1 + k) % 4).find? fun i => r.contains i && (s.strand i).eff == best

/-- `eff` and `wait` of a strand after a cycle. -/
def Strand.aged (t : Strand) (inR issued : Bool) : Strand :=
  let t := { t with yielded := false }
  if issued || !inR then { t with eff := t.prio, waitCnt := 0 }
  else if t.waitCnt + 1 = 4096 then { t with eff := min (t.eff + 1) 47, waitCnt := 0 }
  else { t with waitCnt := t.waitCnt + 1 }

/-- The accounts of R125 for the cycle; `who` is the slot issued. -/
def State.account (s : State) (c : Nat) (r : List Nat) (who : Option Nat) : State :=
  (coreSlots c).foldl (fun s i =>
    let t := s.strand i
    if t.stat = SlotStat.live then s.setStrand i (t.aged (r.contains i) (who == some i)) else s) s

/-! ### The charge (05, R100; log 35) -/

/-- Where an instruction accesses memory, for its charge: one address for each access. -/
def Strand.touches (t : Strand) : Instr → List Word
  | .ld _ a _ pi o | .st _ a _ pi o => [t.memAddr a pi o]
  | .vld _ a pi o | .vst _ a pi o => [t.memAddr a pi o]
  | .dld _ a pi o | .dst _ a pi o => [t.memAddr a pi o]
  | .ldx _ a b _ | .stx _ a b _ => [t.xr a + t.xr b]
  | .vlds _ a b | .vsts _ a b => strided (t.xr a) (t.xr b)
  | .vldg _ a b | .vstg _ a b => gathered (t.xr a) (t.vr b)
  | .amoadd _ a _ _ _ _ | .amoand _ a _ _ _ _ | .amoor _ a _ _ _ _ | .amoxor _ a _ _ _ _ | .amomin _ a _ _ _ _
  | .amomax _ a _ _ _ _ | .amominu _ a _ _ _ _ | .amomaxu _ a _ _ _ _ | .amoswap _ a _ _ _ _
  | .amofadd _ a _ _ _ _ => [t.xr a]
  | .cas _ a _ _ _ _ _ => [t.xr a]
  | .waitw _ b => [t.xr b]
  | .rbox _ _ _ c => (recordReads (t.xr c) 4).map (·.1)
  | .rtri _ _ _ c => (recordReads (t.xr c) 3).map (·.1)
  | .tsetup _ a _ => (recordReads (t.xr a + 16) 6).map (·.1) ++ [t.xr a]
  | .tinterp _ a _ => (recordReads (t.xr a + 16) 6).map (·.1)
  | .texld _ _ b => (recordReads (t.xr b) 2).map (·.1)
  | .qpush _ _ b _ => (recordReads (t.xr b) 8).map (·.1)
  | .recv _ _ m _ | .mpoll _ m => [BitVec.ofNat 64 (0x11FF80 + 16 * m.toNat)]
  | _ => []

/-- The instruction acts at a home slice: on a field point, a homed key, a work queue (16, R333, R348, R355). -/
def Strand.actsHome (t : Strand) : Instr → Bool
  | .binit _ b | .barr _ b | .bwait _ b => decide (16 ≤ b.toNat)
  | .kinit a _ | .kenter _ a _ | .kleave a | .kskip a _ | .kfree a => !((t.xr a).getLsbD 63)
  | .qpop _ _ _ | .qpush _ _ _ _ | .qclose _ => true
  | _ => false

/-- Tokens of what an instruction accesses, and of the flits to and from its home (05, R100). -/
def State.placeTokens (s : State) (t : Strand) (i : Instr) : Nat :=
  ((t.touches i).map s.accessTokens).sum + if t.actsHome i then 4 * Config.accessFlits s.turnNo else 0

/-- Tokens of a word by its major: vector 8, directional and ray 6, everything else 3. -/
def majorTokens (w : BitVec 32) : Nat :=
  let m := natBits w.toNat 31 26
  if 0x30 ≤ m ∧ m ≤ 0x36 then 8 else if m = 0x37 ∨ m = 0x38 then 6 else 3

/-- Tokens of the core's matrix slice while a gang operation is active on it. -/
def State.sliceTokens (s : State) (c : Nat) : Nat :=
  if s.ops.any fun o => o.started && !o.stop && o.array.isSome && o.slice c then 17 else 0

/-- Tokens of issuing strand `sid`, at SCALE 256. -/
def State.issueTokens (s : State) (sid : Nat) : Nat :=
  if !(s.strand sid).pend.isEmpty then 0
  else
    match (s.fetch sid).2 with
    | some (.word w) =>
      majorTokens w + match decodeWord w with
        | .ok i => s.placeTokens (s.strand sid) i
        | .error _ => 0
    | _ => 0

/-- Core `c` is clocked for a cycle in which it spends `tokens`, `paid` of them from its store. -/
def State.clocked (s : State) (c tokens paid : Nat) : State :=
  let k := s.core c
  s.setCore c { k with power := .awake, cycle := k.cycle + 1, tokens := k.tokens - paid, tickTok := k.tickTok + tokens,
                       tickCyc := k.tickCyc + 1 }

/-- A chaff operation (R108): the cycle is charged, and what the core has to burn is brought to its store to pay for it. All of
the cycle's charge that is paid so counts as burned, the clock's and the slice's too (R112; log 36). -/
def State.burn (s : State) (c : Nat) : State :=
  let n := 10 + s.sliceTokens c
  let k := s.core c
  let cost := s.charge c n
  let used := min k.chaff cost
  let s := (s.setCore c { k with chaff := k.chaff - used }).clocked c n (cost - used)
  let h := s.sheaf (sheafOf c)
  let t := h.chaffTok + used
  s.setSheaf (sheafOf c) { h with chaffTok := t % 0x1000000, chaff := h.chaff + BitVec.ofNat 32 (t / 0x1000000) }

/-! ### The cycle -/

/-- Waiting strands of the core count the cycle (16, R332). -/
def State.countWaits (s : State) (c : Nat) : State :=
  (coreSlots c).foldl (fun s i =>
    let t := s.strand i
    if t.stat = SlotStat.live && t.wait.isSome then
      s.setStrand i { t with waited := t.waited + 1, probed := t.probed + 1 }
    else s) s

/-- The first issue of a spawned strand makes its acquire (16, R354). -/
def State.startAcquire (s : State) (sid : Nat) : State :=
  let t := s.strand sid
  if t.startAcq then (s.acquire (coreOf sid) .sheaf).setStrand sid { t with startAcq := false, startRel := [] } else s

/-- Core `c` spends `tokens` in a cycle without its clock, or starves (R100). -/
def State.gatedCycle (s : State) (c tokens : Nat) : Out :=
  let k := s.core c
  let cost := s.charge c tokens
  if k.tokens < cost then execTokenStarve c (s.setCore c { k with owed := cost })
  else .next (s.setCore c { k with power := .clockGated, tokens := k.tokens - cost, tickTok := k.tickTok + tokens,
                                   tickCyc := if tokens = 0 then k.tickCyc else k.tickCyc + 1 })

/-- Chaff and store of core `c` cover the charge of a cycle with a chaff operation (R100). -/
def State.coversBurn (s : State) (c : Nat) : Bool :=
  decide (s.charge c (10 + s.sliceTokens c) ≤ (s.core c).chaff + (s.core c).tokens)

/-- Nothing is ready: the core burns chaff, or gates its clock (R98), with its slice running on (12, R273). -/
def State.idleCycle (s : State) (c : Nat) : Out :=
  let s := s.account c [] none
  if (s.core c).chaff = 0 then s.gatedCycle c (s.sliceTokens c)
  else if s.coversBurn c then .next (s.burn c)
  else execTokenStarve c (s.setCore c { s.core c with owed := s.charge c (10 + s.sliceTokens c) })

/-- Core `c` issues one of `r`; when its store cannot cover the charge it gates itself. The core is clocked before the strand runs: a
read of `cycle` (R144) counts the cycle of its own issue (log 89). -/
def State.issueFrom (s : State) (c : Nat) (r : List Nat) : Out :=
  match s.choose c r with
  | none => s.idleCycle c
  | some sid =>
    let n := 2 + s.issueTokens sid + s.sliceTokens c
    let cost := s.charge c n
    if (s.core c).tokens < cost then execTokenStarve c (s.setCore c { s.core c with owed := cost })
    else
      let s := (s.account c r (some sid)).clocked c n cost
      let s := s.setCore c { s.core c with last := sid % 4 }
      (s.startAcquire sid).runStrand sid

/-- One cycle of core `c`. One whose store has run out burns the chaff it carries, and is clocked for it, while chaff and store
cover the charge (R98, R100, R108, R144; log 71). -/
def State.cycle (s : State) (c : Nat) : Out :=
  let s := s.countWaits c
  if !(s.core c).power.up || decide (Config.cores ≤ c) then .next s
  else if (s.core c).starved then .next (if 0 < (s.core c).chaff && s.coversBurn c then s.burn c else s)
  else
    let s := (coreSlots c).foldl (fun s i => (s.pauseStop i).prefetch i) s
    s.issueFrom c (s.readySlots c)

/-! ### Field time (02, R47, R48) -/

/-- The next time at which something must happen before time goes on: a tick, a swap, an arrival, a load of `ftime`, the last read of a
page that has been evicted (13, R308); and the time at which the 64-bit count wraps. -/
def State.dues (s : State) : List Nat :=
  [1000 * (s.gov.tick + 1), 2 ^ 64] ++ (s.cores.filterMap fun e => e.2.arriveBy s.gov) ++
  (s.cores.flatMap fun e => (e.2.emits.filter fun m => m.stage == 2).map fun m => m.swapAt) ++
  (s.strands.filterMap fun e => (e.2.mid.bind (·.due)).map Int.toNat) ++
  (match s.host.ftDue with
   | some d => [d.1]
   | none => [])

/-- `n` nanoseconds pass, or as many as there are until the next of those times. -/
def State.passTime (s : State) (n : Nat) : State :=
  let t := max s.ftime (s.dues.foldl min (s.ftime + n))
  let busy (c : Nat) (k : Core) : Core := if s.idle c then k else { k with idleSince := t }
  let s := { s with ftime := t, cores := Table.mapVals busy s.cores }
  if t = 2 ^ 64 then s.wrapTime else s

/-! ### What moves while frozen (02, R48) -/

/-- A mailbox command that needs a stopped domain ends only once the device runs again: FWSTAGE with SRC 0 and CALLOAD, which read
HBM4, VTLOG, which reads a core's counts, and ENDCTX. The others act on the Tchimen's own state (log 40). -/
def State.mbStopped (s : State) : Bool :=
  match s.tch.running with
  | some code => (code == 0x02 && s.mbNum 13 1 == 0) || code == 0x03 || code == 0x05 || code == 0x06
  | none => false

/-- Steps of the host, the Tchimen, the links and the debug port. A field reset runs core test, and is taken only once the device
runs again (log 39). -/
def runsFrozen (s : State) : Instr → Bool
  | .queueDoorbell _ _ | .registerWrite _ _ | .hostBar2Read _ _ | .hostBar2Write _ _ | .pcieConfigRequest _ => true
  | .coldReset _ | .warmReset _ | .calloadWaitTimeout | .alwaysOnPowerLoss => true
  | .attest | .fwstage | .calload | .granset | .vtlog | .endctx | .kvec | .mbUnknownCommand _ => true
  | .mbCommandEnd => !s.mbStopped
  | .ftcfgWrite _ | .ocCauseClear _ => true
  | .linkEnable _ | .linkDisable _ | .linkHold _ | .linkHoldRelease _ | .linkTrained _ _ _ | .linkLaneFail _ | .linkDown _
  | .flitCrcFail _ => true
  | .freezeAssert | .freezeRelease | .debugFrz _ | .debugShsel _ | .debugShdata | .debugArsel _ | .debugArdata => true
  | .ocNAssert | .sensorReading _ _ => true
  | _ => false

/-- A step of the device may be taken on its own: it is no instruction word, and a boundary cause is taken only by an
issue. -/
def Instr.standsAlone : Instr → Bool
  | .boundaryTrapTake _ => false
  | i => i.isWord == false

/-- Steps in which a unit of the field reads global memory. -/
def Instr.readsFar : Instr → Bool
  | .coldReset _ | .warmReset _ | .fieldReset _ | .mbCommandEnd => true
  | .launchAccept _ | .launchChoose | .strandHandout | .strandStart _ | .launchComplete _ | .preemptRequest _ => true
  | .huskSave _ | .huskResume | .meshSlotReserve _ | .slotAssemble _ | .trayRecordDeliver _ | .pageFetchComplete _ _ => true
  | _ => false

/-- A unit of the field goes to read memory: what has been written toward the field is read by all (log 18). -/
def State.forUnit (s : State) (i : Instr) : State := if Instr.readsFar i then s.lift fun e => e.scope == 3 else s

/-- One turn. While frozen the field, the store and the base die stand still (02, R48), and so does the firmware on the
cores. -/
def State.take (s : State) : Turn → Out
  | .issue c => if s.dbg.frozen then .next s else s.cycle c
  | .part sid => if s.dbg.frozen then .next s else s.runPart sid
  | .beats core fresh => if s.dbg.frozen then .next s else .next (s.moreBeats core fresh)
  | .act i => if Instr.standsAlone i && (!s.dbg.frozen || runsFrozen s i) then exec i (s.forUnit i) else .next s
  | .pass n => if s.dbg.frozen then .next s else .next (s.passTime n)
  | .read off => if s.tch.pcieUp then .next (s.hostReads off) else .next (s.hostGets [] true)
  | .parity core ctx line => if s.dbg.frozen then .next s else .next (s.icacheParity core ctx line)
  | .tlbParity kind unit entry => if s.dbg.frozen then .next s else .next (s.tlbParity kind unit entry)
  | .vfPoint p mhz mv => if s.dbg.frozen then .next s else .next { s with gov := s.gov.setPoint p mhz mv }
  | .tripClear => if s.dbg.frozen then .next s else .next { s with gov := { s.gov with thermTrip := false } }
  | .scan ir data => s.scan ir data

/-! ### A word to be run next (the host's probe) -/

/-- Strand 0 made able to issue the word at its pc, before its core's others. -/
def State.seat (s : State) : State :=
  let t := s.strand 0
  let pc : Word := if t.pc.toNat < 0x8000 && t.pc.toNat % 4 == 0 then t.pc else 0
  let t := { t with stat := .live, pc := pc, mid := none, wait := none, parked := none, pend := [], saving := false,
                    preempt := none, fetchWait := none, fbuf := [], loopBuf := [], startRel := [], startAcq := false, eff := 64,
                    yielded := false }
  let s := s.setStrand 0 t
  let k := s.core 0
  let s := s.setCore 0 { k with power := .awake, starved := false, tokens := tokenCap }
  { s with agenda := (Choice.plain, .issue 0) :: s.agenda, dbg := { s.dbg with frozen := false } }

/-- The `n` bytes of `w` at the pc of strand 0. -/
def State.placeWord (s : State) (n w : Nat) : State :=
  let l := tcmLoc 0 (s.strand 0).pc.toNat
  { s with mem := s.mem.putAll (cellsAt l (leBytes w n)), poison := s.poison.filter fun p => p != unitBase l }

end Sys2Proof.Machine
end

