-- ==== Sys2Proof/Machine/Step.lean ====
section
/-! DEFINITION. The step: the machine chooses one enabled step of one part and performs it (15, R313; log 1). -/

namespace Sys2Proof.Machine

/-- The turn that comes next and what it leaves open: the head of the agenda, or what the schedule says. -/
def State.nextTurn (s : State) : Choice × Turn := s.agenda.headD (Config.nextTurn s.turnNo)

/-- HBM4 lines that are not cached carry no owner tag (11, R251). -/
def State.uncache (s : State) : State := { s with tags := s.tags.filter fun e => !(isHbm (64 * e.1)) || s.cachedNow e.1 }

/-- The state once the turn has been drawn: its choices stand, and what its transfers meet is counted. -/
def State.drawn (s : State) : State :=
  let c := s.nextTurn.1
  c.flaws.foldl State.meetFlaw { s with agenda := s.agenda.tail, turnNo := s.turnNo + 1, choice := c }.uncache

/-- How a step ends that began at `s`: releases that have completed on the way take their effect (R318), and what units have met is
handled (19, R390). -/
def State.closing (s t : State) : State := State.settleMet (if t.early.length < s.early.length then t.settle else t) 64

/-- An outcome, with the step's end. -/
def State.closed (s : State) : Out → Out
  | .next t => .next (s.closing t)
  | o => o

/-- One step. -/
def step (s : State) : Host.Outcome State Fault Refusal := s.drawn.closed (s.drawn.take s.nextTurn.2)

/-- `s` with the word `w` where the next step fetches (log 4). -/
def State.withFetchWord (s : State) (nbits w : Nat) : State := s.seat.placeWord (max 4 (nbits / 8)) w

end Sys2Proof.Machine
end

