-- ==== Sys2Proof/Safety.lean ====
section
/-! DEFINITION. What claims are stated in: steps and runs, the invariants, and the ways an instruction completes with the
frame of what it leaves alone. -/

namespace Sys2Proof.Machine

/-! ### Runs and invariants -/

/-- `s'` follows `s` in one step. -/
def Steps (s s' : State) : Prop := step s = .next s'

/-- `s'` follows `s` in any number of steps. -/
inductive Runs : State → State → Prop
  | stay (s : State) : Runs s s
  | go (s s' s'' : State) : Runs s s' → Steps s' s'' → Runs s s''

/-- Memory is in canonical form (log 2). -/
def State.canonical (s : State) : Bool := s.mem.wf

/-- After an array read-out the device stays frozen (02, R49). -/
def State.readOutHolds (s : State) : Bool := !s.dbg.arrayRead || s.dbg.frozen

/-! ### Frames -/

/-- Nothing outside strand `s.cur` differs between `s` and `s'`: no other strand, no byte of memory, no core, no sheaf, and
no other part of the machine. -/
structure OnlyMe (s s' : State) : Prop where
  mem : ∀ l, s'.mem.byte l = s.mem.byte l
  strand : ∀ i, i ≠ s.cur → s'.strand i = s.strand i
  core : ∀ c, s'.core c = s.core c
  sheaf : ∀ h, s'.sheaf h = s.sheaf h
  rest : s' = { s with strands := s'.strands }

/-- Nothing but strand `s.cur` and core `c` differs. -/
structure OnlyMeAndCore (c : Nat) (s s' : State) : Prop where
  mem : ∀ l, s'.mem.byte l = s.mem.byte l
  strand : ∀ i, i ≠ s.cur → s'.strand i = s.strand i
  core : ∀ k, k ≠ c → s'.core k = s.core k
  rest : s' = { s with strands := s'.strands, cores := s'.cores }

/-- The fields of a strand that every completion may change, taken from `t'`: the pc, the fetch buffer that follows it (06,
R121) and the loop step (07, R154), `instret` (07, R144), ENTRY (19, R370), the pre-emption count (19, R385) and the marks of a
wait or of a read that has ended. -/
def Strand.marksOf (t t' : Strand) : Strand :=
  { t with
    pc := t'.pc, lpc := t'.lpc, fbuf := t'.fbuf, loopBuf := t'.loopBuf, instret := t'.instret, entry := t'.entry, preempt := t'.preempt,
    wait := t'.wait, waited := t'.waited, probed := t'.probed, fenMask := t'.fenMask, yielded := t'.yielded, mid := t'.mid }

/-- The last word of a hardware loop's body is at the pc (07, R154). -/
def Strand.atBodyEnd (t : Strand) : Prop := t.lpc ≠ 0 ∧ t.pc = t.lpend - 4

/-- `t` with a mode that a strand has and, in every CSR, the value that a write of its word stores (07, R137, R139, R142, R143; log
79). -/
def Strand.asStored (t : Strand) : Strand :=
  { t with
    mode := if t.mode = 3 then 2 else t.mode, pmode := if t.pmode = 3 then 2 else t.pmode,
    frm := frmStore (t.frm.zeroExtend 64), xwin := xwinStore (t.xwin.zeroExtend 64), ddim := ddimStore (t.ddim.zeroExtend 64),
    skew := skewStore t.skew, fpxsup := fpxsupStore t.fpxsup, tvec := tvecStore t.tvec }

/-- `t'` has gone on from `t` in line: the next word, or the loop step at the end of a body, to an `lpstart` that is a multiple of
4 (log 74 has one that is not). -/
def Strand.InLine (t t' : Strand) : Prop :=
  (t.atBodyEnd ∧ t.lpc = 1 → t'.pc = t.lpend ∧ t'.lpc = 0) ∧
  (t.atBodyEnd ∧ t.lpc ≠ 1 → (t.lpstart &&& 3 = 0 → t'.pc = t.lpstart) ∧ t'.lpc = t.lpc - 1) ∧
  (¬ t.atBodyEnd → t'.pc = t.pc + 4 ∧ t'.lpc = t.lpc) ∧
  t'.instret = t.instret + 1 ∧ t'.entry = false ∧ t'.wait = none

/-- `t'` has gone on from `t` at `pc`, with `trips` trips of a loop due. -/
def Strand.GoneTo (pc trips : Word) (t t' : Strand) : Prop :=
  t'.pc = pc ∧ t'.lpc = trips ∧ t'.instret = t.instret + 1 ∧ t'.entry = false ∧ t'.wait = none

/-! ### How a register form completes -/

/-- The outcome `o` of the current strand's instruction in `s` is its completion in line: nothing outside the strand
changes, and the strand becomes one of which `P` holds. -/
def Completes (s : State) (o : Out) (P : Strand → Prop) : Prop :=
  ∃ s', o = .next s' ∧ OnlyMe s s' ∧ Strand.InLine s.me s'.me ∧ P s'.me

/-- The same, going on at `pc` with `trips` trips of a loop due. -/
def LeavesFor (s : State) (o : Out) (pc trips : Word) (P : Strand → Prop) : Prop :=
  ∃ s', o = .next s' ∧ OnlyMe s s' ∧ Strand.GoneTo pc trips s.me s'.me ∧ P s'.me

/-- The same, with no loop step: the trips that were due are still due. -/
def JumpsTo (s : State) (o : Out) (pc : Word) (P : Strand → Prop) : Prop := LeavesFor s o pc s.me.lpc P

/-- `t'` is `t` gone on, with no register written. -/
def Strand.Same (t t' : Strand) : Prop := t' = t.marksOf t'

/-- `t'` is `t` gone on with `w` in x[d]; x0 keeps 0 (06, R129). -/
def Strand.GotX (d : XReg) (w : Word) (t t' : Strand) : Prop :=
  t'.xr d = (if d = 0 then 0 else w) ∧ (∀ r, r ≠ d → t'.xr r = t.xr r) ∧ t' = { t.marksOf t' with x := t'.x }

/-- With `w` in v[d]. -/
def Strand.GotV (d : VReg) (w : V128) (t t' : Strand) : Prop :=
  t'.vr d = w ∧ (∀ r, r ≠ d → t'.vr r = t.vr r) ∧ t' = { t.marksOf t' with v := t'.v }

/-- With `w` in p[d]; p0 keeps 0xFFFF (06, R129). -/
def Strand.GotP (d : PReg) (w : BitVec 16) (t t' : Strand) : Prop :=
  t'.pr d = (if d = 0 then 0xFFFF else w) ∧ (∀ r, r ≠ d → t'.pr r = t.pr r) ∧ t' = { t.marksOf t' with p := t'.p }

/-- With `w` in d[d]. -/
def Strand.GotD (d : DReg) (w : DirReg) (t t' : Strand) : Prop :=
  t'.dr d = w ∧ (∀ r, r ≠ d → t'.dr r = t.dr r) ∧ t' = { t.marksOf t' with d := t'.d }

/-- With `w` in ed[d]. -/
def Strand.GotEd (d : EReg) (w : Word) (t t' : Strand) : Prop :=
  t'.edr d = w ∧ (∀ r, r ≠ d → t'.edr r = t.edr r) ∧ t' = { t.marksOf t' with ed := t'.ed }

/-- The instruction leaves `w` in x[d] and changes nothing else. -/
def GivesX (s : State) (o : Out) (d : XReg) (w : Word) : Prop := Completes s o (Strand.GotX d w s.me)
def GivesV (s : State) (o : Out) (d : VReg) (w : V128) : Prop := Completes s o (Strand.GotV d w s.me)
def GivesP (s : State) (o : Out) (d : PReg) (w : BitVec 16) : Prop := Completes s o (Strand.GotP d w s.me)
def GivesD (s : State) (o : Out) (d : DReg) (w : DirReg) : Prop := Completes s o (Strand.GotD d w s.me)

/-! ### Entering a handler (19, R369-R372) -/

/-- The strand has entered no wait that something outside it keeps a note of: a key or the wired barrier. -/
def Strand.waitsAlone (t : Strand) : Prop :=
  (∀ k n d, t.wait ≠ some (.key k n d)) ∧ (∀ m c, t.wait ≠ some (.gang m c))

/-- `t'` is `t` in its handler (19, R370, R155): what `trap_entry` writes, its wait withdrawn, and nothing else. -/
def Strand.Entered (code : Nat) (value epc : Word) (t t' : Strand) : Prop :=
  t' = { t with
    elpc := t.lpc, elpstart := t.lpstart, elpend := t.lpend, lpc := 0, epc := epc, tval := value,
    cause := BitVec.ofNat 9 code, pmode := t.mode, mode := if t.mode = 0 then 1 else t.mode, entry := true, pc := t.tvec,
    loopBuf := [], fbuf := [], fenMask := 0, wait := none, waited := t'.waited, probed := t'.probed }

/-- The current instruction raises the faulting cause `c`: it takes no effect, and the strand enters its handler with `epc`
its own address (19, R369, R370); with no handler, or in a handler that has completed nothing, its context ends instead
(R372). -/
def Faults (s : State) (o : Out) (c : Cause) (value : Word) : Prop :=
  s.me.waitsAlone →
    (s.me.tvec ≠ 0 → s.me.entry = false →
      ∃ s', o = .next s' ∧ OnlyMe s s' ∧ Strand.Entered c.code value s.me.pc s.me s'.me) ∧
    (s.me.tvec = 0 ∨ s.me.entry = true → o = .next ((s.withdraw s.cur).endContext s.me.ctx c.code))

/-- The current instruction raises the completing cause `c`: it completes with no register written, loop step included, and
then the handler is entered with `epc` the pc it leaves (19, R369, R375). -/
def TrapsAfter (s : State) (o : Out) (c : Cause) (value : Word) : Prop :=
  ∃ t : Strand, Strand.InLine s.me t ∧ Strand.Same s.me t ∧
    (s.me.tvec ≠ 0 → ∃ s', o = .next s' ∧ OnlyMe s s' ∧ Strand.Entered c.code value t.pc t s'.me) ∧
    (s.me.tvec = 0 → o = .next ((s.setMe t).endContext s.me.ctx c.code))

/-- The word of `i` as a `tval` (19, R373). -/
def wordValue (i : Instr) : Word := BitVec.ofNat 64 (encode i).toNat

/-! ### Accesses to memory (11, R258, R259; 15, R314) -/

/-- Nothing but the current strand and the translations and L1 lines that an access may fill differs between `s` and `s'`. -/
structure OnlyMeAndViews (s s' : State) : Prop where
  mem : ∀ l, s'.mem.byte l = s.mem.byte l
  strand : ∀ i, i ≠ s.cur → s'.strand i = s.strand i
  core : ∀ c, s'.core c = { s.core c with utlb := (s'.core c).utlb, l1 := (s'.core c).l1 }
  sheaf : ∀ h, s'.sheaf h = { s.sheaf h with tlb := (s'.sheaf h).tlb }
  rest : s' = { s with strands := s'.strands, cores := s'.cores, sheafs := s'.sheafs, walks := s'.walks, seqNo := s'.seqNo }

/-- Every write has reached all parties (15, R319; log 18). -/
def State.level (s : State) : Prop := s.early = []

/-- No load of the current strand is under way, the step takes all parts of one (15, R314; log 59), and every write has reached all
parties. -/
def State.whole (s : State) : Prop := s.me.mid = none ∧ s.choice.cut = 0 ∧ s.level

/-- The single-copy atomic parts of reads, each of a size at an address, none when a check of R258 fails: every check comes
before the first access. -/
def State.partsOf (s : State) (m : ReadKind) (ps : List Part) : List (Word × Nat) → Option (State × List Part)
  | [] => some (s, ps)
  | r :: t => match s.access s.cur r.1 r.2 .read with
    | (s1, .ok p) =>
      if (if m.home then p.locs.find? s1.poisoned else s1.loadBad s1.cur p).isSome then none
      else State.partsOf s1 m (ps ++ s1.me.parts (m.sizeAt r.1.toNat) r.1.toNat m.home p) t
    | (_, .error _) => none

/-- The bytes that a batch of reads, each of a size at an address, takes, one after the other (10, R234; 11, R261; 13, R306): the
state after them and the bytes, none when a check of R258 fails or a word cannot be read. -/
def State.takesBy (s : State) (m : ReadKind) (rs : List (Word × Nat)) : Option (State × List Byte) :=
  match s.partsOf m [] rs with
  | some (s1, ps) => match State.loadParts { s1 with seqNo := s1.seqNo + 1 } s1.cur (fun _ => true) [] 0 ps with
    | (s2, .ok ps) => some (s2, (ps.filterMap (·.got)).flatten)
    | (_, .error _) => none
  | none => none

/-- A batch in parts of 8 bytes, through the buffers and the L1 view. -/
def State.takesAll (s : State) (rs : List (Word × Nat)) : Option (State × List Byte) := s.takesBy ReadKind.plain rs

/-- The bytes that reads of `size` bytes at each of several addresses take. -/
def State.takesEach (s : State) (size : Nat) (as : List Word) : Option (State × List Byte) :=
  s.takesAll (as.map fun a => (a, size))

/-- The bytes that a load of the current strand takes at `a`. -/
def State.takes (s : State) (a : Word) (size : Nat) : Option (State × List Byte) := s.takesEach size [a]

/-- The places that a store of the current strand goes to, none when a check of R258 or R293 fails. -/
def State.goesTo (s : State) (a : Word) (size : Nat) : Option (State × List Nat) :=
  match s.access s.cur a size .write with
  | (s1, .ok p) => if s1.meshMay s1.me a.toNat size then some (s1, p.locs) else none
  | (_, .error _) => none

/-- `goesTo` of 4 bytes at each of several addresses, in order (11, R261). -/
def State.goesToEach (s : State) (ls : List Nat) : List Word → Option (State × List Nat)
  | [] => some (s, ls)
  | a :: t => match s.goesTo a 4 with
    | some (s1, l) => State.goesToEach s1 (ls ++ l) t
    | none => none

/-- The first of accesses of `size` bytes that a check of R258, or of R293 for a store, turns away with a cause: the state then,
the cause and its `tval`. -/
def State.turnedAway (s : State) (size : Nat) (k : Acc) : List Word → Option (State × Cause × Word)
  | [] => none
  | a :: t => match s.access s.cur a size k with
    | (s1, .error (.cause c)) => some (s1, c, a)
    | (_, .error (.bad _)) => none
    | (s1, .ok _) =>
      if k = .write then
        match s1.meshDark s1.me a.toNat size, s1.meshBad s1.me a.toNat size with
        | some _, _ => none
        | none, some b => some (s1, .meshbound, BitVec.ofNat 64 b)
        | none, none => State.turnedAway s1 size k t
      else State.turnedAway s1 size k t

/-- The leaf that the tables in memory hold for an address (11, R253-R256), none where an entry on its path is not valid or
not well formed. -/
def State.tableLeaf (s : State) (ctx : BitVec 4) (va : Nat) : Option TlbEntry :=
  let entry (l : Nat) : Word := BitVec.ofNat 64 (leNat (s.mem.bytes l 8))
  let root := entry (s.ctxTable + 16 * ctx.toNat)
  let p1 := entry (natBits root.toNat 47 16 * 65536 + 8 * natBits va 47 37)
  let p2 := entry (ptePpn p1 + 8 * natBits va 36 26)
  let p3 := entry (ptePpn p2 + 8 * natBits va 25 16)
  if ctx = 0 ∨ root.getLsbD 0 = false ∨ ptePointer p1 = false then none
  else if pteLeaf p2 true = true then some { ctx := ctx, big := true, vpn := va / 2 ^ 26, pte := p2 }
  else if ptePointer p2 = true ∧ pteLeaf p3 false = true then some { ctx := ctx, big := false, vpn := va / 2 ^ 16, pte := p3 }
  else none

/-- The address of an M form, and its post-increment of xa (06, R127; 11, R259). -/
def Strand.mAddr (t : Strand) (a : XReg) (pi : Bool) (o : BitVec 12) : Word :=
  if pi then t.xr a else t.xr a + BitVec.ofInt 64 o.toInt
def Strand.mBase (t : Strand) (a : XReg) (pi : Bool) (o : BitVec 12) : Word :=
  if pi && a != 0 then t.xr a + BitVec.ofInt 64 o.toInt else t.xr a

/-- The loaded number `n` of width `wd`, extended (06, R130). -/
def loadedWord (wd : LdWidth) (n : Nat) : Word :=
  match wd with
  | .b => BitVec.ofInt 64 (BitVec.ofNat 8 n).toInt
  | .h => BitVec.ofInt 64 (BitVec.ofNat 16 n).toInt
  | .w => BitVec.ofInt 64 (BitVec.ofNat 32 n).toInt
  | .d => BitVec.ofNat 64 n
  | .bz => BitVec.ofNat 64 (n % 2 ^ 8)
  | .hz => BitVec.ofNat 64 (n % 2 ^ 16)
  | .wz => BitVec.ofNat 64 (n % 2 ^ 32)

/-- The load takes `bs`: the strand completes in line, its registers as `P` says, and nothing but it and the views changes. -/
def Loads (s : State) (o : Out) (P : Strand → Prop) : Prop :=
  ∃ s', o = .next s' ∧ OnlyMeAndViews s s' ∧ Strand.InLine s.me s'.me ∧ P s'.me

/-- The instruction reads on by batches (13, R306): the strand completes in line, its registers as `P` says, and nothing but it, the
views and what its core has spent on the later reads (05, R100) changes. -/
def Fetches (s : State) (o : Out) (P : Strand → Prop) : Prop :=
  ∃ s', o = .next s' ∧ Strand.InLine s.me s'.me ∧ P s'.me ∧ (∀ l, s'.mem.byte l = s.mem.byte l) ∧
    (∀ i, i ≠ s.cur → s'.strand i = s.strand i) ∧ (∀ h, s'.sheaf h = { s.sheaf h with tlb := (s'.sheaf h).tlb }) ∧
    (∀ c, s'.core c = { s.core c with
      utlb := (s'.core c).utlb, l1 := (s'.core c).l1, tokens := (s'.core c).tokens, tickTok := (s'.core c).tickTok,
      starved := (s'.core c).starved, power := (s'.core c).power }) ∧
    (∀ c, c ≠ s.myCore → (s'.core c).tokens = (s.core c).tokens) ∧
    s' = { s with strands := s'.strands, cores := s'.cores, sheafs := s'.sheafs, walks := s'.walks, seqNo := s'.seqNo }

/-- The store of `cells` at the virtual addresses `vas` is buffered: one new entry, the youngest, in the buffer of the current
hue, owing no release yet (R319); no byte of memory changes yet; the strand completes in line, with `base` in xa. -/
def Buffers (s : State) (o : Out) (vas : List Nat) (cells : List Host.Cell) (a : XReg) (base : Word) : Prop :=
  ∃ s', o = .next s' ∧ OnlyMeAndViews s s' ∧ s'.seqNo = s.seqNo + 1 ∧ Strand.InLine s.me s'.me ∧
    s'.me.buf = s.me.buf ++ [{ seq := s.seqNo, hue := s.me.hue, vas := vas, cells := cells, owed := 0 }] ∧
    s'.me.xr a = (if a = 0 then 0 else base) ∧ (∀ r, r ≠ a → s'.me.xr r = s.me.xr r) ∧
    s'.me = { s.me.marksOf s'.me with x := s'.me.x, buf := s'.me.buf }

/-- Memory is canonical, and nothing in `s` hangs on a write to `locs` or on a release but what the write does itself: no
superstep is logged (19, R393), the ownership map, the mailbox blocks and the tray blocks are not touched (02, R45; 16, R339; 13,
R297), no strand waits for a word there (11, R271) or is at a read that rests on a residency bit there (13, R308), no `qclose` is
under way, and every write has reached all parties (15, R319). -/
def State.quiet (s : State) (locs : List Nat) : Prop :=
  s.canonical = true ∧
    (∀ k la, Table.get? s.launches k = some la → recSstep la.bytes = false) ∧ (∀ l, l ∈ locs → s.inOwnMap l = false) ∧
    mboxTouched (locs.map fun l => (l, 0)) = [] ∧ trayTouched (locs.map fun l => (l, 0)) = [] ∧ s.closes = [] ∧
    s.level ∧ (∀ e ∈ s.strands, ∀ u, e.2.mid = some u → ∀ b ∈ u.bits, b.1 ∉ locs) ∧
    ∀ e ∈ s.strands, ∀ ls v, e.2.wait = some (.word ls v) → ∀ l ∈ locs, l ∉ ls

/-- The AMO at `a` of `n` bytes, which carries a release or not, completes: it writes `new old` when that is some number, as one
step, over `old` (11, R263, R264; 15, R322); xd takes `res old`; no other byte changes; the strand completes in line. -/
def AmoCompletes (s : State) (o : Out) (d : XReg) (a : Word) (n : Nat) (rel : Bool) (new : Nat → Option Nat)
    (res : Nat → Word) : Prop :=
  ∀ s1 p, s.access s.cur a n .both = (s1, .ok p) → p.locs.Nodup → s.quiet p.locs → s.me.wait = none →
    (n = 8 → s.me.inTile a.toNat = false) → (∀ l, l ∈ p.locs → s.poisoned l = false) →
    s.meshMay s.me a.toNat n = true →
    (if rel then s.me.buf = [] else s.me.covering p.locs = []) →
    let old := leNat (p.locs.map s.mem.byte)
    ∃ t, o = .next t ∧ Strand.InLine s.me t.me ∧ t.me.xr d = (if d = 0 then 0 else res old) ∧
      (∀ r, r ≠ d → t.me.xr r = s.me.xr r) ∧ t.me = { s.me.marksOf t.me with x := t.me.x } ∧
      (∀ l, l ∉ p.locs → t.mem.byte l = s.mem.byte l) ∧
      leNat (p.locs.map t.mem.byte) = (match new old with
        | some v => v % 2 ^ (8 * n)
        | none => old)

/-! ### Instructions that act on a unit (16; 12; 21) -/

/-- The instruction completes in line; no byte of memory and no other strand changes; `P` holds of the new state. -/
def Ends (s : State) (o : Out) (P : State → Prop) : Prop :=
  ∃ s', o = .next s' ∧ s'.cur = s.cur ∧ Strand.InLine s.me s'.me ∧ (∀ l, s'.mem.byte l = s.mem.byte l) ∧
    (∀ i, i ≠ s.cur → s'.strand i = s.strand i) ∧ P s'

/-- `t` with a release at the scope of number `n` taken of all that its buffers hold (15, R318): each entry owes it. -/
def Strand.owing (t : Strand) (n : Nat) : Strand := { t with buf := t.buf.map fun e => { e with owed := max e.owed n } }

/-- The strand stands at its instruction, in wait `w` (16, R331); nothing else changes but the number of the wait. -/
def Waits (s : State) (o : Out) (w : Wait) : Prop :=
  ∃ t n, o = .next (State.setMe { s with waitNo := n } t) ∧ t.wait = some w ∧
    t = { s.me with wait := t.wait, waitNo := t.waitNo, waited := t.waited, probed := t.probed, waitAt := t.waitAt }

/-- Ring (core, m) can be read and has room for a message, and nothing hangs on its delivery but what the delivery does itself: no strand waits,
no message waits for a place in a send queue, no superstep is logged, and the ownership map holds no byte that it writes (02,
R45; 16, R340). -/
def State.RingOpen (s : State) (core m : Nat) : Prop :=
  let at' := localLoc core (s.mboxBase core m - 0x100000 + 64 * (s.mboxHead core m % s.mboxSlots core m))
  m < 4 ∧ s.mboxBad core m = none ∧ s.mboxOk core m = true ∧ s.mboxCount core m < s.mboxSlots core m ∧ s.canonical = true ∧
    (∀ x ∈ s.strands, x.2.wait = none) ∧ (∀ k, (s.core k).fpx = []) ∧
    (∀ k la, Table.get? s.launches k = some la → recSstep la.bytes = false) ∧
    (∀ i, i < 64 → s.inOwnMap (at' + i) = false) ∧ ∀ i, i < 4 → s.inOwnMap (mboxLoc core m + 8 + i) = false

/-- `s'` follows `s` by the delivery of a message into ring (core, m): its 64 bytes at slot HEAD mod SLOTS, its header, and
HEAD up by one (16, R340). -/
def State.RingTook (s s' : State) (core m : Nat) (h : Header) (data : List Byte) : Prop :=
  let slot := s.mboxHead core m % s.mboxSlots core m
  s'.mem.bytes (localLoc core (s.mboxBase core m - 0x100000 + 64 * slot)) 64 = data ∧
    s'.mboxHead core m = (s.mboxHead core m + 1) % 2 ^ 32 ∧ s'.mboxTail core m = s.mboxTail core m ∧
    Table.get? (s'.core core).hdr (64 * m + slot) = some h

/-- The locations of each of several ranges that the current strand may access, none when a check of R268 fails: the state
after the checks and the locations. -/
def State.reach (s : State) (k : Acc) (ls : List (List Nat)) : List (Nat × Nat) → Option (State × List (List Nat))
  | [] => some (s, ls)
  | r :: t => match s.range s.myCore s.me r.1 r.2 k with
    | (s1, .ok l) => State.reach s1 k (ls ++ [l]) t
    | (_, .error _) => none

/-- The first of ranges of bytes, each with the access it is for, that a check of R268 turns away with a cause: the state then, and
the address of the first byte that fails. -/
def State.reachFails (s : State) : List (Acc × Nat × Nat) → Option (State × Nat)
  | [] => none
  | r :: t => match s.range s.myCore s.me r.2.1 r.2.2 r.1 with
    | (s1, .ok _) => State.reachFails s1 t
    | (s1, .error (.cause _, b)) => some (s1, b)
    | (_, .error (.bad _, _)) => none

/-- The current strand forks an operation of work `w` (12, R287; 15, R323): its counter `c` rises by one, it completes in
line, and the operation joins the others with the entries it must wait for, which owe a release at the scope of number `n`. -/
def Forks (s : State) (o : Out) (n : Nat) (w : OpWork) (flag : Option (List Nat × BitVec 32)) (c : CReg) : Prop :=
  s.level → Ends s o fun s' =>
    s'.me.cr c = s.me.cr c + 1 ∧ (∀ r, r ≠ c → s'.me.cr r = s.me.cr r) ∧
      s'.me.buf = s.me.buf.map (fun e => { e with owed := max e.owed n }) ∧
      s'.me = { s.me.marksOf s'.me with c := s'.me.c, buf := s'.me.buf } ∧
      s'.opNo = s.opNo + 1 ∧ s'.ops.length = s.ops.length + 1 ∧
      ∃ op ∈ s'.ops, op.id = s.opNo ∧ op.work = w ∧ op.flag = flag ∧ op.uid = s.me.uid ∧ op.core = s.myCore ∧
        op.ctx = s.me.ctx ∧ op.rel = s.me.buf.map (fun e => e.seq) ∧ op.counters = [(s.me.uid, c)] ∧ op.stop = false ∧
        op.seen = [] ∧ op.written = []

/-! ### Floating-point values (07, R157) -/

/-- The number a finite value stands for. -/
def Fv.rat : Fv → ℚ
  | .fin neg m e => (if neg then -1 else 1) * (m : ℚ) * 2 ^ e
  | _ => 0

/-- The magnitude that the bits `k` below the sign stand for in format `f`, read as if the top exponent were no infinity. -/
def Fmt.mag (f : Fmt) (k : Nat) : ℚ :=
  if k / 2 ^ f.mb = 0 then (k : ℚ) * 2 ^ f.qmin
  else ((k % 2 ^ f.mb + 2 ^ f.mb : Nat) : ℚ) * 2 ^ (f.qmin + (k / 2 ^ f.mb : Nat) - 1)

/-- The value `a` lies below `b`, neither a NaN. -/
def Fv.Less : Fv → Fv → Prop
  | .inf p, .inf q => p = true ∧ q = false
  | .inf p, _ => p = true
  | _, .inf q => q = false
  | a, b => a.rat < b.rat

/-- `r` is (−1)^neg · x, for an x above 0, rounded to `f` (07, R143, R157): when it does not overflow, x or the neighbour of it
that `rm` names, a tie going to the even one or away from zero, with NX exactly when it is not x; when it does, x lies beyond
the largest finite number. -/
def Fmt.IsRounding (f : Fmt) (rm : Rm) (neg : Bool) (x : ℝ) (r : Nat × Events) : Prop :=
  let k := r.1 % f.signBit
  r.1 = k + (if neg then f.signBit else 0) ∧
  (r.2 &&& evOF ≠ 0 → (f.mag (f.infBits - 1) : ℝ) < x ∧ (k = f.infBits ∨ k + 1 = f.infBits)) ∧
  (r.2 &&& evOF = 0 →
    k < f.infBits ∧ (r.2 &&& evNX ≠ 0 ↔ (f.mag k : ℝ) ≠ x) ∧
    (rm = .rtz ∨ (rm = .rup ∧ neg = true) ∨ (rm = .rdn ∧ neg = false) → (f.mag k : ℝ) ≤ x ∧ x < f.mag (k + 1)) ∧
    ((rm = .rup ∧ neg = false) ∨ (rm = .rdn ∧ neg = true) → x ≤ f.mag k ∧ (k ≠ 0 → (f.mag (k - 1) : ℝ) < x)) ∧
    (rm = .rne ∨ rm = .rmm → |x - f.mag k| ≤ |x - f.mag (k + 1)| ∧ (k ≠ 0 → |x - f.mag k| ≤ |x - f.mag (k - 1)|)) ∧
    (rm = .rne → |x - f.mag k| = |x - f.mag (k + 1)| ∨ (k ≠ 0 ∧ |x - f.mag k| = |x - f.mag (k - 1)|) → k % 2 = 0) ∧
    (rm = .rmm → |x - f.mag k| ≠ |x - f.mag (k + 1)|))

/-- `k` is `x` rounded to an integer as `rm` says. -/
def IntRounding (rm : Rm) (x : ℚ) (k : Int) : Prop :=
  match rm with
  | .rtz => |(k : ℚ)| ≤ |x| ∧ |x| < |(k : ℚ)| + 1 ∧ 0 ≤ (k : ℚ) * x
  | .rup => x ≤ k ∧ (k : ℚ) < x + 1
  | .rdn => (k : ℚ) ≤ x ∧ x < k + 1
  | .rne => |x - k| ≤ 1 / 2 ∧ (|x - k| = 1 / 2 → k % 2 = 0)
  | .rmm => |x - k| ≤ 1 / 2 ∧ (|x - k| = 1 / 2 → |x| < |(k : ℚ)|)

/-- The number `x` is `r` when it is rounded to `f`. -/
def Fmt.RoundsTo (f : Fmt) (rm : Rm) (x : ℚ) (r : Nat × Events) : Prop :=
  ∃ (m : Nat) (e : Int), |x| = (m : ℚ) * 2 ^ e ∧ r = f.round rm (decide (x < 0)) m e false

/-- A sum of any number of terms in format `f` (09, R197, R200): exact and rounded once when every term is finite and it is not
zero; a zero sum of −0 terms alone is −0, and any other the zero of the mode; infinities of one sign give that infinity, of both
NaN with NV; a NaN term gives the canonical NaN, with NV exactly when one is signalling or infinities of both signs stand beside
it. -/
def Fmt.SumsOnce (f : Fmt) (rm : Rm) : Prop :=
  ∀ ts : List Fv,
    let finite : Prop := ∀ x ∈ ts, x.isNan = false ∧ x.isInf = false
    let sum : ℚ := (ts.map Fv.rat).sum
    let both : Prop := Fv.inf false ∈ ts ∧ Fv.inf true ∈ ts
    (finite → sum ≠ 0 → f.RoundsTo rm sum (f.sumTerms rm ts)) ∧
    (finite → sum = 0 → ((∀ x ∈ ts, x.isZero = true ∧ x.neg? = true) → f.sumTerms rm ts = (f.signBit, 0)) ∧
      (¬ (∀ x ∈ ts, x.isZero = true ∧ x.neg? = true) → f.sumTerms rm ts = (if rm = .rdn then f.signBit else 0, 0))) ∧
    ((∀ x ∈ ts, x.isNan = false) → (both → f.sumTerms rm ts = (f.nan, evNV)) ∧
      (¬ both → Fv.inf false ∈ ts → f.sumTerms rm ts = (f.infBits, 0)) ∧
      (¬ both → Fv.inf true ∈ ts → f.sumTerms rm ts = (f.signBit + f.infBits, 0))) ∧
    ((∃ x ∈ ts, x.isNan = true) → (f.sumTerms rm ts).1 = f.nan ∧
      ((∃ x ∈ ts, x.isSnan = true) ∨ both → (f.sumTerms rm ts).2 = evNV) ∧
      (¬ (∃ x ∈ ts, x.isSnan = true) → ¬ both → (f.sumTerms rm ts).2 = 0))

/-! ### Rays, triangles and texels, in rational numbers (10, R228-R237; 13, R301-R306) -/

/-- The number a dyadic value stands for. -/
def Dy.rat (x : Dy) : ℚ := x.n * 2 ^ x.e

/-- A single at an offset of a record is a finite number. -/
def finiteAt (bs : List Byte) (off : Nat) : Prop := (f32At bs off).isNan = false ∧ (f32At bs off).isInf = false

/-- Component `i` of the ray's direction, taken as unit (10, R214). -/
def Ray.along (r : Ray) (i : Nat) : ℚ := (r.dir.lane i : ℚ) / 2 ^ 14

/-- At `t`, from 0 to tmax, the ray is in the box of a child whose minimum is at `off` (10, R236). -/
def Ray.inBox (r : Ray) (bs : List Byte) (off ref : Nat) (t : ℚ) : Prop :=
  fieldAt bs ref 8 ≠ 0 ∧ 0 ≤ t ∧ t ≤ r.tmax.rat ∧
    ∀ i, i < 3 → (f32At bs (off + 4 * i)).rat ≤ (r.org i).rat + t * r.along i ∧
      (r.org i).rat + t * r.along i ≤ (f32At bs (off + 12 + 4 * i)).rat

/-- Component `i` of the normal of a triangle record (10, R230). -/
def triNormal (bs : List Byte) (i : Nat) : ℚ :=
  let v (j k : Nat) : ℚ := (f32At bs (12 * j + 4 * (k % 3))).rat
  (v 1 (i + 1) - v 0 (i + 1)) * (v 2 (i + 2) - v 0 (i + 2)) - (v 1 (i + 2) - v 0 (i + 2)) * (v 2 (i + 1) - v 0 (i + 1))

/-- The direction times the normal. -/
def Ray.facing (r : Ray) (bs : List Byte) : ℚ := ((List.range 3).map fun i => r.along i * triNormal bs i).sum

/-- The ray meets the triangle at `t` (10, R237). -/
def Ray.meetsTri (r : Ray) (bs : List Byte) (t : ℚ) : Prop :=
  let v (j k : Nat) : ℚ := (f32At bs (12 * j + 4 * k)).rat
  r.facing bs ≠ 0 ∧ 0 < t ∧ t ≤ r.tmax.rat ∧ ∃ b1 b2 : ℚ, 0 ≤ b1 ∧ 0 ≤ b2 ∧ b1 + b2 ≤ 1 ∧
    ∀ i, i < 3 → (r.org i).rat + t * r.along i = v 0 i + b1 * (v 1 i - v 0 i) + b2 * (v 2 i - v 0 i)

/-- `X` and `Y` are the snapped vertices of the record (13, R301). -/
def Snapped (bs : List Byte) (X Y : Nat → Int) : Prop :=
  ∀ i, i < 3 → finiteAt bs (32 * i) ∧ finiteAt bs (32 * i + 4) ∧ IntRounding .rne (256 * (f32At bs (32 * i)).rat) (X i) ∧
    IntRounding .rne (256 * (f32At bs (32 * i + 4)).rat) (Y i) ∧ |X i| < 2 ^ 23 ∧ |Y i| < 2 ^ 23

/-- `r` is `x` rounded to nearest in `f`: +0 for 0. -/
def Fmt.NearestTo (f : Fmt) (x : ℚ) (r : Nat) : Prop :=
  (x = 0 → r = 0) ∧ (x ≠ 0 → ∃ ev, f.IsRounding .rne (decide (x < 0)) |(x : ℝ)| (r, ev))

/-! ### Forms with floating-point events (07, R143, R164) -/

/-- The events `e` raise nothing in the current strand: none of them is enabled, or it is masked for this issue (19, R379). -/
def State.eventsPass (s : State) (e : Events) : Prop := e &&& (s.me.fen &&& ~~~s.me.fenMask) = 0

/-- When its events pass, the instruction leaves `w` in x[d], gathers them in `fflags`, and changes nothing else. -/
def GivesFpX (s : State) (o : Out) (d : XReg) (w : Word) (e : Events) : Prop :=
  s.eventsPass e → Completes s o fun t =>
    t.fflags = s.me.fflags ||| e ∧ t.xr d = (if d = 0 then 0 else w) ∧ (∀ r, r ≠ d → t.xr r = s.me.xr r) ∧
      t = { s.me.marksOf t with x := t.x, fflags := t.fflags }

/-- The current strand's form raised the events `e`, one of them enabled: it writes nothing but `fflags` (07, R164). With no
supervisor, or one that cannot be reached, it raises FPX_LOCAL with the events; otherwise the strand parks at its pc, and its
FPX message (19, R378) takes an entry of the send queue, or waits for one. -/
def FpStops (s : State) (o : Out) (e : Events) : Prop :=
  let s1 := s.setMe { s.me with fflags := s.me.fflags ||| e }
  let sup := s.me.fpxsup
  let c := s.core s.myCore
  (sup.getLsbD 31 = false ∨ s.destOk (sup &&& 0x7FFFF) = false → Faults s1 o .fpxLocal (BitVec.ofNat 64 e.toNat)) ∧
  (sup.getLsbD 31 = true → s.destOk (sup &&& 0x7FFFF) = true →
    ∃ (s' : State) (m : Msg), o = .next s' ∧ s'.me = { s1.me with parked := some e } ∧
      (∀ i, i ≠ s.cur → s'.strand i = s.strand i) ∧ (∀ l, s'.mem.byte l = s.mem.byte l) ∧
      (∀ k, k ≠ s.myCore → s'.core k = s.core k) ∧
      m.mbox = 2 ∧ m.len = 16 ∧ m.ctx = s.me.ctx ∧ m.dev = s.host.devId ∧ m.src = BitVec.ofNat 16 s.cur ∧ m.rel = [] ∧
      m.dest = BitVec.ofNat 14 sup.toNat ∧ m.ext = (if sup.getLsbD 18 then some (BitVec.ofNat 4 (sup.toNat / 2 ^ 14)) else none) ∧
      m.data = leBytes s.me.pc.toNat 8 ++ leBytes s.cur 2 ++ leBytes s.host.devId.toNat 1 ++ leBytes s.me.ctx.toNat 1 ++
        leBytes e.toNat 1 ++ leBytes s1.me.fflags.toNat 1 ++ List.replicate 50 0 ∧
      (c.sendQ.length < 8 → s'.core s.myCore =
        { c with sendQ := c.sendQ ++ [{ msg := m, refused := false, onLink := false }] }) ∧
      (8 ≤ c.sendQ.length → s'.core s.myCore = { c with fpx := c.fpx ++ [(s.waitNo, m)] }))

/-- `i` ends as a form with floating-point events does. The events it raises are those it gathers with none enabled; when they
pass it completes so, with them in `fflags`; otherwise it stops. -/
def FpEnds (s : State) (i : Instr) : Prop :=
  ∃ t, exec i (s.setMe { s.me with fen := 0, fflags := 0 }) = .next t ∧
    let e := t.me.fflags
    (s.eventsPass e →
      Completes s (exec i s) fun u => u = { t.me with fen := s.me.fen, fflags := s.me.fflags ||| e }) ∧
    (¬ s.eventsPass e → FpStops s (exec i s) e)

/-- Bits lo+len−1:lo of a number. -/
def bitsAt (n lo len : Nat) : Nat := n / 2 ^ lo % 2 ^ len

/-- Element `e` of `w` bytes of a v register. -/
def vElem (w e : Nat) (v : V128) : Nat := v.toNat / 2 ^ (8 * w * e) % 2 ^ (8 * w)

/-- The union of the events that the active ones of `n` elements raise. -/
def unionEvents (n : Nat) (act : Nat → Bool) (ev : Nat → Events) : Events :=
  (List.range n).foldl (fun acc e => if act e then acc ||| ev e else acc) 0

/-- An element-wise form of destination width `w` under predicate `p` (09, R192, R195): when its events pass, every active
element of v[d] is what `op` makes at its position, every other keeps its value, and nothing else changes. -/
def GivesElems (s : State) (o : Out) (d : VReg) (p : PReg) (w : Nat) (op : Nat → Nat × Events) : Prop :=
  let act (e : Nat) : Bool := (s.me.pr p).getLsbD (w * e)
  let ev := unionEvents (16 / w) act fun e => (op e).2
  s.eventsPass ev → Completes s o fun t =>
    (∀ e, e < 16 / w → vElem w e (t.vr d) = if act e then (op e).1 % 2 ^ (8 * w) else vElem w e (s.me.vr d)) ∧
      t.fflags = s.me.fflags ||| ev ∧ (∀ r, r ≠ d → t.vr r = s.me.vr r) ∧
      t = { s.me.marksOf t with v := t.v, fflags := t.fflags }

end Sys2Proof.Machine
end

