-- ==== Sys2Proof/Certificates/Slice0/Obligations.lean ====
section
/-! DEFINITION. The statements for the provers. A statement of several clauses says them of instructions of one kind. -/

section

open Sys2Proof Sys2Proof.Machine

/-- 06, R127-R135: the words that the spec works out, and one of each of a few families, stand for their instructions; and
three words of R135 and R136 that are no instructions. -/
def Obligations.SpecWordsDecode : Prop :=
  decodeWord 0xC04219C0#32 = .ok (.vadd 2 2 3 1 .f16) ∧
  decodeWord 0x81ED5004#32 = .ok (.ld 15 13 .w true 4) ∧
  decodeWord 0x440E0003#32 = .ok (.beq 0 14 3) ∧
  decodeWord 0xBC200101#32 = .ok (.waitc 1 1) ∧
  decodeWord 0x84006000#32 = .ok (.st 0 0 .d false 0) ∧
  decodeWord 0x680E0002#32 = .ok (.loop 14 2) ∧
  decodeWord 0x20A50001#32 = .ok (.addi 5 5 1) ∧
  decodeWord 0x000D0001#32 = .ok (.trap 13) ∧
  decodeWord 0x00000144#32 = .ok (.brk 5) ∧
  decodeWord 0x0005000B#32 = .ok (.halt 5) ∧
  decodeWord 0x00000000#32 = .error .unassignedSelector ∧
  decodeWord 0x04000040#32 = .error .reservedField ∧
  decodeWord 0x8400E000#32 = .error .badCode

/-- 06, R127-R134: decoding is the inverse of encoding, on every well-formed instruction that is a word, at every value of
every operand. -/
def Obligations.DecodeInvertsEncode : Prop :=
  ∀ i : Instr, i.isWord = true → i.wellFormed = true → decodeWord (encode i) = .ok i

/-- 06, R127-R135: a word that decodes is the encoding of what it decodes to, which is a well-formed instruction word: no bit
of a word is ignored, and no two words mean the same. -/
def Obligations.EncodeInvertsDecode : Prop :=
  ∀ (w : BitVec 32) (i : Instr), decodeWord w = .ok i → i.isWord = true ∧ i.wellFormed = true ∧ encode i = w

/-- The turn that comes next is a cycle of an awake core whose strand `sid` is chosen, holds no pending cause and starts with
no acquire, its store covers the charge, and the word at its pc decodes: then the step is the execution of that instruction
in the state in which the core has been clocked and charged for it, the strand's age and the core's last slot are noted (06,
R124, R125), and the word is captured by the loop buffer (07, R154). The turn that comes next goes on with a load of which
parts are still to be taken (15, R314; log 59): the step is the execution of that instruction. The turn is a step of the
device and the device is not frozen: it is that step. The model's own names say what goes around `exec`; the schedule that
chooses the turn is the model's (log 1). What goes after it: releases that have completed on the way take their effect, and
words that units have met and that cannot be read are handled (`State.closed`); a step in which there is neither ends as
`exec` does. -/
def Obligations.StepRunsDecoded : Prop :=
  (∀ (s : State) (c sid : Nat) (w : BitVec 32) (i : Instr),
    let d := s.drawn.countWaits c
    let s0 := (coreSlots c).foldl (fun s i => (s.pauseStop i).prefetch i) d
    let n := 2 + s0.issueTokens sid + s0.sliceTokens c
    let s1 := (s0.account c (s0.readySlots c) (some sid)).clocked c n (s0.charge c n)
    let s2 := State.startAcquire (s1.setCore c { s1.core c with last := sid % 4 }) sid
    let s3 := State.fetch { s2 with cur := sid } sid
    s.nextTurn.2 = .issue c → s.drawn.dbg.frozen = false → c < Config.cores →
    (d.core c).power.up = true → (d.core c).starved = false →
    s0.choose c (s0.readySlots c) = some sid → ¬ (s0.core c).tokens < s0.charge c n →
    (s2.strand sid).pend = [] → s3.2 = some (.word w) → decodeWord w = .ok i →
    step s = s.drawn.closed (exec i (s3.1.setStrand sid { (s3.1.strand sid).capture w with word := w }))) ∧
  (∀ (s : State) (sid : Nat) (i : Instr),
    s.nextTurn.2 = .part sid → s.drawn.dbg.frozen = false → (s.drawn.strand sid).stat = .live →
    (s.drawn.strand sid).mid ≠ none → decodeWord (s.drawn.strand sid).word = .ok i →
    step s = s.drawn.closed (exec i { s.drawn with cur := sid })) ∧
  (∀ (s : State) (i : Instr), s.nextTurn.2 = .act i → i.isWord = false → (∀ sid, i ≠ .boundaryTrapTake sid) →
    s.drawn.dbg.frozen = false → step s = s.drawn.closed (exec i (s.drawn.forUnit i))) ∧
  (∀ (s : State) (i : Instr), s.level → s.forUnit i = s) ∧
  (∀ s t : State, t.met = [] → s.early.length ≤ t.early.length → s.closed (.next t) = .next t)

/-- Every step answers a next state: no program and no input stops the machine (the model raises no fault and makes no
refusal; log 4 says how a program comes to run). -/
def Obligations.EveryStepAnswers : Prop := ∀ s : State, ∃ t, step s = .next t

/-- Memory is in canonical form at reset (log 2).

07, R139, R141, R143, R144; 02, R38: what reset leaves. Every slot is empty and holds the Start values of its CSRs, every
core holds the reset values of its CSRs, no launch, husk, key, queue entry or engine operation exists, and bring-up has taken
no step. (Registers with no reset value in the spec read 0 by the model's choice, log 3; they are not named here.) -/
def Obligations.ResetState : Prop :=
  (State.reset.canonical = true) ∧
  ((∀ sid, (State.reset.strand sid).stat = .free) ∧
  (∀ sid a, a ∈ [0x001, 0x002, 0x003, 0x008, 0x009, 0x00A, 0x00C, 0x011, 0x012, 0x013, 0x020, 0x044, 0x0C0, 0x0C1, 0x100,
      0x101, 0x102, 0x103, 0x104, 0x105, 0x108, 0x109, 0x10A, 0x201, 0x204, 0x205, 0x206] →
    State.reset.csrRead sid a = 0) ∧
  (∀ sid, State.reset.csrRead sid 0x010 = 3 ∧ State.reset.csrRead sid 0x021 = 15 ∧
    State.reset.csrRead sid 0x040 = 0x04000000 ∧ State.reset.csrRead sid 0x041 = 4096 ∧
    State.reset.csrRead sid 0x042 = 65536 ∧ State.reset.csrRead sid 0x043 = 16384 ∧
    State.reset.csrRead sid 0x200 = 16384) ∧
  (∀ sid i, i < 256 → State.reset.csrRead sid (0x300 + i) = 0) ∧
  (∀ sid, (State.reset.strand sid).pr 0 = 0xFFFF ∧ (State.reset.strand sid).xr 0 = 0) ∧
  State.reset.launches = [] ∧ State.reset.husks = [] ∧ State.reset.keys = [] ∧ State.reset.wq = [] ∧
  State.reset.queues = [] ∧ State.reset.ops = [] ∧
  State.reset.tch.stage = 0 ∧ State.reset.tch.ready = false ∧ State.reset.tch.fwrecov = false ∧
  State.reset.dbg.frozen = false)

/-- Every step keeps memory in canonical form: equal memories stay equal data (log 2). -/
def Obligations.StepKeepsCanonical : Prop :=
  ∀ s t : State, s.canonical = true → step s = .next t → t.canonical = true

/-- 02, R49: after an array read-out the device stays frozen until a warm or cold reset. -/
def Obligations.ArrayReadOutStaysFrozen : Prop :=
  ∀ s t : State, s.dbg.frozen = true → s.dbg.arrayRead = true → step s = .next t →
    (t.dbg.frozen = true ∧ t.dbg.arrayRead = true) ∨
      ∃ b, s.nextTurn.2 = .act (.coldReset b) ∨ s.nextTurn.2 = .act (.warmReset b)

/-- The forms of R146 that R146 gives as arithmetic: what they leave in xd, the exact result read by its low 64 bits, and
that they change nothing else. The shift count is the low six bits of xb.

The multiplications of R148: low and high halves of the exact product. -/
def Obligations.IntegerForms : Prop :=
  (∀ (d a b c : XReg) (s : State),
    let x := s.me.xr a
    let y := s.me.xr b
    let sh := y.toNat % 64
    GivesX s (exec (.add d a b) s) d (BitVec.ofNat 64 (x.toNat + y.toNat)) ∧
    GivesX s (exec (.sub d a b) s) d (BitVec.ofInt 64 (x.toInt - y.toInt)) ∧
    GivesX s (exec (.sll d a b) s) d (BitVec.ofNat 64 (x.toNat * 2 ^ sh)) ∧
    GivesX s (exec (.srl d a b) s) d (BitVec.ofNat 64 (x.toNat / 2 ^ sh)) ∧
    GivesX s (exec (.sra d a b) s) d (BitVec.ofInt 64 (x.toInt / 2 ^ sh)) ∧
    GivesX s (exec (.slt d a b) s) d (if x.toInt < y.toInt then 1 else 0) ∧
    GivesX s (exec (.sltu d a b) s) d (if x.toNat < y.toNat then 1 else 0) ∧
    GivesX s (exec (.min d a b) s) d (BitVec.ofInt 64 (min x.toInt y.toInt)) ∧
    GivesX s (exec (.max d a b) s) d (BitVec.ofInt 64 (max x.toInt y.toInt)) ∧
    GivesX s (exec (.minu d a b) s) d (BitVec.ofNat 64 (min x.toNat y.toNat)) ∧
    GivesX s (exec (.maxu d a b) s) d (BitVec.ofNat 64 (max x.toNat y.toNat)) ∧
    GivesX s (exec (.sel d a b c) s) d (if s.me.xr c ≠ 0 then x else y) ∧
    GivesX s (exec (.addw d a b) s) d (BitVec.ofInt 64 (BitVec.ofInt 32 (x.toInt + y.toInt)).toInt) ∧
    GivesX s (exec (.subw d a b) s) d (BitVec.ofInt 64 (BitVec.ofInt 32 (x.toInt - y.toInt)).toInt)) ∧
  (∀ (d a b c : XReg) (s : State),
    let x := s.me.xr a
    let y := s.me.xr b
    GivesX s (exec (.mul d a b) s) d (BitVec.ofInt 64 (x.toInt * y.toInt)) ∧
    GivesX s (exec (.mulh d a b) s) d (BitVec.ofInt 64 (x.toInt * y.toInt / 2 ^ 64)) ∧
    GivesX s (exec (.mulhu d a b) s) d (BitVec.ofNat 64 (x.toNat * y.toNat / 2 ^ 64)) ∧
    GivesX s (exec (.mulw d a b) s) d (BitVec.ofInt 64 (BitVec.ofInt 32 (x.toInt * y.toInt)).toInt) ∧
    GivesX s (exec (.madd d a b c) s) d (BitVec.ofNat 64 (x.toNat * y.toNat + (s.me.xr c).toNat)))

/-- The bitwise forms of R146, bit by bit: the logical ones, the rotation, and the reversals.

The bit counts of R146: `clz` and `ctz` of zero give 64; otherwise each names the nearest one bit; `popc` counts.

The interleaving forms of R146, and that `dilv3` undoes `ilv3` and `dilv` undoes `ilv` on the bits they read. -/
def Obligations.BitForms : Prop :=
  (∀ (d a b : XReg) (s : State),
    let x := s.me.xr a
    let y := s.me.xr b
    (∃ w, GivesX s (exec (.and d a b) s) d w ∧ ∀ i, i < 64 → w.getLsbD i = (x.getLsbD i && y.getLsbD i)) ∧
    (∃ w, GivesX s (exec (.or d a b) s) d w ∧ ∀ i, i < 64 → w.getLsbD i = (x.getLsbD i || y.getLsbD i)) ∧
    (∃ w, GivesX s (exec (.xor d a b) s) d w ∧ ∀ i, i < 64 → w.getLsbD i = (x.getLsbD i != y.getLsbD i)) ∧
    (∃ w, GivesX s (exec (.andn d a b) s) d w ∧ ∀ i, i < 64 → w.getLsbD i = (x.getLsbD i && !y.getLsbD i)) ∧
    (∃ w, GivesX s (exec (.rol d a b) s) d w ∧
      ∀ i, i < 64 → w.getLsbD ((i + y.toNat % 64) % 64) = x.getLsbD i) ∧
    (∃ w, GivesX s (exec (.brev d a) s) d w ∧ ∀ i, i < 64 → w.getLsbD i = x.getLsbD (63 - i)) ∧
    (∃ w, GivesX s (exec (.bswap d a) s) d w ∧
      ∀ i j, i < 8 → j < 8 → w.getLsbD (8 * i + j) = x.getLsbD (8 * (7 - i) + j))) ∧
  (∀ (d a : XReg) (s : State),
    let x := s.me.xr a
    (∃ w : Word, GivesX s (exec (.clz d a) s) d w ∧ (x = 0 → w = 64) ∧
      (x ≠ 0 → w.toNat < 64 ∧ x.getLsbD (63 - w.toNat) = true ∧ ∀ i, 63 - w.toNat < i → x.getLsbD i = false)) ∧
    (∃ w : Word, GivesX s (exec (.ctz d a) s) d w ∧ (x = 0 → w = 64) ∧
      (x ≠ 0 → w.toNat < 64 ∧ x.getLsbD w.toNat = true ∧ ∀ i, i < w.toNat → x.getLsbD i = false)) ∧
    (∃ w : Word, GivesX s (exec (.popc d a) s) d w ∧
      w.toNat = ((List.range 64).filter fun i => x.getLsbD i).length)) ∧
  (∀ (d a b c : XReg) (s : State),
    let x := s.me.xr a
    let y := s.me.xr b
    let z := s.me.xr c
    (∃ w, GivesX s (exec (.ilv d a b) s) d w ∧
      ∀ i, i < 32 → w.getLsbD (2 * i) = x.getLsbD i ∧ w.getLsbD (2 * i + 1) = y.getLsbD i) ∧
    (∃ w, GivesX s (exec (.ilv3 d a b c) s) d w ∧ w.getLsbD 63 = false ∧
      ∀ i, i < 21 → w.getLsbD (3 * i) = x.getLsbD i ∧ w.getLsbD (3 * i + 1) = y.getLsbD i ∧
        w.getLsbD (3 * i + 2) = z.getLsbD i) ∧
    (∃ w, GivesX s (exec (.dilv d a) s) d w ∧
      ∀ i, i < 32 → w.getLsbD i = x.getLsbD (2 * i) ∧ w.getLsbD (32 + i) = x.getLsbD (2 * i + 1)) ∧
    (∃ w, GivesX s (exec (.dilv3 d a) s) d w ∧ w.getLsbD 63 = false ∧
      ∀ i, i < 21 → w.getLsbD i = x.getLsbD (3 * i) ∧ w.getLsbD (21 + i) = x.getLsbD (3 * i + 1) ∧
        w.getLsbD (42 + i) = x.getLsbD (3 * i + 2)) ∧
    dilvW (ilvW x y) = BitVec.ofNat 64 (x.toNat % 2 ^ 32 + 2 ^ 32 * (y.toNat % 2 ^ 32)) ∧
    dilv3W (ilv3W x y z) =
      BitVec.ofNat 64 (x.toNat % 2 ^ 21 + 2 ^ 21 * (y.toNat % 2 ^ 21) + 2 ^ 42 * (z.toNat % 2 ^ 21)))

/-- 07, R148, R149: no division traps; a divisor of zero gives all ones and the dividend, the one overflow gives −2⁶³ and 0;
otherwise the quotient is rounded toward zero and the remainder takes the sign of the dividend, less than the divisor in
magnitude; and on every pair dividend = quotient · divisor + remainder mod 2⁶⁴. -/
def Obligations.Divisions : Prop :=
  ∀ (d a b : XReg) (s : State),
    let x := s.me.xr a
    let y := s.me.xr b
    ∃ q r qu ru : Word,
      GivesX s (exec (.div d a b) s) d q ∧ GivesX s (exec (.rem d a b) s) d r ∧
      GivesX s (exec (.divu d a b) s) d qu ∧ GivesX s (exec (.remu d a b) s) d ru ∧
      q * y + r = x ∧ qu * y + ru = x ∧
      (y = 0 → q = BitVec.allOnes 64 ∧ qu = BitVec.allOnes 64 ∧ r = x ∧ ru = x) ∧
      (x = 0x8000000000000000#64 → y = BitVec.allOnes 64 → q = x ∧ r = 0) ∧
      (y ≠ 0 → ru.toNat < y.toNat ∧ qu.toNat * y.toNat + ru.toNat = x.toNat) ∧
      (y ≠ 0 → r.toInt.natAbs < y.toInt.natAbs ∧ (0 ≤ x.toInt → 0 ≤ r.toInt) ∧ (x.toInt ≤ 0 → r.toInt ≤ 0)) ∧
      (y ≠ 0 → ¬ (x = 0x8000000000000000#64 ∧ y = BitVec.allOnes 64) → q.toInt * y.toInt + r.toInt = x.toInt)

/-- 07, R147: `extr` takes the field xa[pos+len−1:pos], extended with zeros or with its top bit; `insf` puts the low bits of
xa there and keeps the other bits of xd. -/
def Obligations.BitFields : Prop :=
  ∀ (d a : XReg) (p l : BitVec 6) (s : State), p.toNat + l.toNat + 1 ≤ 64 →
    let x := s.me.xr a
    (∃ w, GivesX s (exec (.extr d a p l false) s) d w ∧
      ∀ i, i < 64 → w.getLsbD i = (decide (i ≤ l.toNat) && x.getLsbD (p.toNat + i))) ∧
    (∃ w, GivesX s (exec (.extr d a p l true) s) d w ∧
      ∀ i, i < 64 → w.getLsbD i = x.getLsbD (p.toNat + min i l.toNat)) ∧
    (∃ w, GivesX s (exec (.insf d a p l) s) d w ∧
      ∀ i, i < 64 → w.getLsbD i =
        if p.toNat ≤ i ∧ i ≤ p.toNat + l.toNat then x.getLsbD (i - p.toNat) else (s.me.xr d).getLsbD i)

/-- 07, R151: the immediate forms. Arithmetic immediates are sign-extended and logical ones zero-extended. -/
def Obligations.Immediates : Prop :=
  ∀ (d a : XReg) (i : BitVec 16) (n : BitVec 6) (s : State),
    let x := s.me.xr a
    GivesX s (exec (.addi d a i) s) d (BitVec.ofInt 64 (x.toInt + i.toInt)) ∧
    GivesX s (exec (.andi d a i) s) d (x &&& BitVec.ofNat 64 i.toNat) ∧
    GivesX s (exec (.ori d a i) s) d (x ||| BitVec.ofNat 64 i.toNat) ∧
    GivesX s (exec (.xori d a i) s) d (x ^^^ BitVec.ofNat 64 i.toNat) ∧
    GivesX s (exec (.slli d a n) s) d (BitVec.ofNat 64 (x.toNat * 2 ^ n.toNat)) ∧
    GivesX s (exec (.srli d a n) s) d (BitVec.ofNat 64 (x.toNat / 2 ^ n.toNat)) ∧
    GivesX s (exec (.srai d a n) s) d (BitVec.ofInt 64 (x.toInt / 2 ^ n.toNat)) ∧
    (∃ w, GivesX s (exec (.roli d a n) s) d w ∧ ∀ k, k < 64 → w.getLsbD ((k + n.toNat) % 64) = x.getLsbD k) ∧
    GivesX s (exec (.slti d a i) s) d (if x.toInt < i.toInt then 1 else 0) ∧
    GivesX s (exec (.sltiu d a i) s) d (if x.toNat < (BitVec.ofInt 64 i.toInt).toNat then 1 else 0) ∧
    GivesX s (exec (.lhi d i) s) d (BitVec.ofInt 64 (i.toInt * 2 ^ 16)) ∧
    GivesX s (exec (.addpc d i) s) d (BitVec.ofInt 64 (s.me.pc.toInt + 4 * i.toInt)) ∧
    [Instr.addi d a i, .andi d a i, .ori d a i, .xori d a i, .slli d a n, .srli d a n, .srai d a n, .roli d a n, .slti d a i,
      .sltiu d a i, .lhi d i, .addpc d i].map (fun i => bitsAt (encode i).toNat 26 6) =
      [0x08, 0x09, 0x0A, 0x0B, 0x0C, 0x0C, 0x0C, 0x0C, 0x0D, 0x0E, 0x0F, 0x10] ∧
    [Instr.slli d a n, .srli d a n, .srai d a n, .roli d a n].map (fun i => bitsAt (encode i).toNat 0 16) =
      [n.toNat, 64 + n.toNat, 128 + n.toNat, 192 + n.toNat]

/-- 06, R129: x0 reads zero and a write to it is discarded, p0 reads 0xFFFF; a write to any other register is read back, and
leaves the other registers alone. -/
def Obligations.HardWiredRegisters : Prop :=
  ∀ t : Strand,
    t.xr 0 = 0 ∧ t.pr 0 = 0xFFFF ∧ (∀ w, t.setX 0 w = t) ∧ (∀ w, t.setP 0 w = t) ∧
    (∀ r w, r ≠ 0 → (t.setX r w).xr r = w) ∧ (∀ r q w, q ≠ r → (t.setX r w).xr q = t.xr q) ∧
    (∀ r w, r ≠ 0 → (t.setP r w).pr r = w) ∧ (∀ r q w, q ≠ r → (t.setP r w).pr q = t.pr q)

/-- 07, R152: a taken branch goes on at pc + 4·offset and one not taken at pc + 4, and nothing else changes; in a loop body
every branch raises LOOPBODY (06, R135).

07, R153: the jumps. `jal` links in x1; `jalr` reads xa before it writes xd, and raises ALIGN with the target as `tval` when
the target is misaligned; in a loop body every jump raises LOOPBODY. -/
def Obligations.BranchesAndJumps : Prop :=
  (∀ (b a : XReg) (o : BitVec 16) (s : State),
    let x := s.me.xr a
    let y := s.me.xr b
    let far := s.me.pc + BitVec.ofInt 64 (4 * o.toInt)
    let near := s.me.pc + 4
    (s.me.inLoop = false →
      JumpsTo s (exec (.beq b a o) s) (if x = y then far else near) (Strand.Same s.me) ∧
      JumpsTo s (exec (.bne b a o) s) (if x ≠ y then far else near) (Strand.Same s.me) ∧
      JumpsTo s (exec (.blt b a o) s) (if x.toInt < y.toInt then far else near) (Strand.Same s.me) ∧
      JumpsTo s (exec (.bge b a o) s) (if y.toInt ≤ x.toInt then far else near) (Strand.Same s.me) ∧
      JumpsTo s (exec (.bltu b a o) s) (if x.toNat < y.toNat then far else near) (Strand.Same s.me) ∧
      JumpsTo s (exec (.bgeu b a o) s) (if y.toNat ≤ x.toNat then far else near) (Strand.Same s.me)) ∧
    (s.me.inLoop = true →
      Faults s (exec (.beq b a o) s) .loopbody (wordValue (.beq b a o)) ∧
      Faults s (exec (.bne b a o) s) .loopbody (wordValue (.bne b a o)) ∧
      Faults s (exec (.blt b a o) s) .loopbody (wordValue (.blt b a o)) ∧
      Faults s (exec (.bge b a o) s) .loopbody (wordValue (.bge b a o)) ∧
      Faults s (exec (.bltu b a o) s) .loopbody (wordValue (.bltu b a o)) ∧
      Faults s (exec (.bgeu b a o) s) .loopbody (wordValue (.bgeu b a o))) ∧
    [Instr.beq b a o, .bne b a o, .blt b a o, .bge b a o, .bltu b a o, .bgeu b a o].map (fun i => bitsAt (encode i).toNat 26 6) =
      [0x11, 0x12, 0x13, 0x14, 0x15, 0x16]) ∧
  (∀ (d a : XReg) (i : BitVec 16) (o : BitVec 26) (s : State),
    let far := s.me.pc + BitVec.ofInt 64 (4 * o.toInt)
    let t := s.me.xr a + BitVec.ofInt 64 i.toInt
    (s.me.inLoop = false →
      JumpsTo s (exec (.jmp o) s) far (Strand.Same s.me) ∧
      JumpsTo s (exec (.jal o) s) far (Strand.GotX 1 (s.me.pc + 4) s.me) ∧
      (t.toNat % 4 = 0 → JumpsTo s (exec (.jalr d a i) s) t (Strand.GotX d (s.me.pc + 4) s.me)) ∧
      (t.toNat % 4 ≠ 0 → Faults s (exec (.jalr d a i) s) .align t)) ∧
    (s.me.inLoop = true →
      Faults s (exec (.jmp o) s) .loopbody (wordValue (.jmp o)) ∧
      Faults s (exec (.jal o) s) .loopbody (wordValue (.jal o)) ∧
      Faults s (exec (.jalr d a i) s) .loopbody (wordValue (.jalr d a i))) ∧
    [Instr.jmp o, .jal o, .jalr d a i].map (fun i => bitsAt (encode i).toNat 26 6) = [0x17, 0x18, 0x19])

/-- 07, R154: `loop` with a count of zero skips the body; with any other it sets the loop registers and goes on at the body.
(The loop step is in `Strand.InLine`, of every instruction that completes in line.) In a loop body it raises LOOPBODY.

07, R154: a body of `n` instructions that complete in line, at an `lpstart` that is a multiple of 4 (log 74), is gone through
`count` times. The strand at the first word of its body, with `count` trips due, is after n·k completions of straight
instructions, k < `count`, at the first word again with `count` − k trips due, and after n·`count` at `lpend` with none
due. -/
def Obligations.Loops : Prop :=
  (∀ (a : XReg) (l : BitVec 5) (s : State),
    let fin := s.me.pc + 4 + 4 * BitVec.ofNat 64 l.toNat
    (s.me.inLoop = false →
      (s.me.xr a = 0 → JumpsTo s (exec (.loop a l) s) fin (Strand.Same s.me)) ∧
      (s.me.xr a ≠ 0 → LeavesFor s (exec (.loop a l) s) (s.me.pc + 4) (s.me.xr a) fun t =>
        t.lpstart = s.me.pc + 4 ∧ t.lpend = fin ∧
          t = { s.me.marksOf t with lpstart := t.lpstart, lpend := t.lpend })) ∧
    (s.me.inLoop = true → Faults s (exec (.loop a l) s) .loopbody (wordValue (.loop a l)))) ∧
  (∀ (t : Strand) (n : Nat), 1 ≤ n → n ≤ 16 → t.lpc ≠ 0 → t.pc = t.lpstart → t.lpstart &&& 3 = 0 →
    t.lpend = t.lpstart + 4 * BitVec.ofNat 64 n →
    (∀ k, k < t.lpc.toNat → (Strand.advance^[n * k] t).pc = t.lpstart ∧
      (Strand.advance^[n * k] t).lpc = t.lpc - BitVec.ofNat 64 k) ∧
    (Strand.advance^[n * t.lpc.toNat] t).pc = t.lpend ∧ (Strand.advance^[n * t.lpc.toNat] t).lpc = 0)

/-- 07, R142, R156: `xrd` and `xwr` reach register BASE + i of the window for 0 ≤ i < LEN, x0 included as R129 has it, and
raise WINDOW with the index as `tval` for every other index. -/
def Obligations.Window : Prop :=
  ∀ (d a b r : XReg) (s : State),
    let i := s.me.xr a
    let base := s.me.xwin.toNat % 32
    let len := s.me.xwin.toNat / 32
    (0 ≤ i.toInt → i.toInt < len → r.toNat = base + i.toNat →
      GivesX s (exec (.xrd d a) s) d (s.me.xr r) ∧ GivesX s (exec (.xwr a b) s) r (s.me.xr b)) ∧
    (i.toInt < 0 ∨ len ≤ i.toInt →
      Faults s (exec (.xrd d a) s) .window i ∧ Faults s (exec (.xwr a b) s) .window i)

/-- 19, R375: `trap`, `sysc` and `brk` complete, loop step included, and then enter the handler. -/
def Obligations.CompletingTraps : Prop :=
  ∀ (a : XReg) (n : BitVec 10) (s : State),
    TrapsAfter s (exec (.trap a) s) .trap (s.me.xr a) ∧
    TrapsAfter s (exec .sysc s) .sysc 0 ∧
    TrapsAfter s (exec (.brk n) s) .brk (BitVec.ofNat 64 n.toNat)

/-- 19, R376: `kret` in K or F mode goes on at `epc`, restores the loop registers, and takes the mode from PMODE; with a
misaligned `epc` it raises ALIGN; in a loop body it raises LOOPBODY.

19, R370, R376: a system call from U mode whose handler only returns: the strand is where the call left it, in U mode, with
its loop registers, and every register but the handler's own as it was. -/
def Obligations.KernelReturn : Prop :=
  (∀ s : State, s.me.mode ≠ 0 →
    (s.me.inLoop = false → s.me.epc.toNat % 4 = 0 → LeavesFor s (exec .kret s) s.me.epc
        (if s.me.elpstart.toNat ≤ s.me.epc.toNat ∧ s.me.epc.toNat < s.me.elpend.toNat then s.me.elpc else 0) fun t =>
      t.lpstart = s.me.elpstart ∧ t.lpend = s.me.elpend ∧ t.mode = s.me.pmode ∧ t.pmode = 0 ∧
      t = { s.me.marksOf t with lpstart := t.lpstart, lpend := t.lpend, mode := t.mode, pmode := t.pmode }) ∧
    (s.me.inLoop = false → s.me.epc.toNat % 4 ≠ 0 → Faults s (exec .kret s) .align s.me.epc) ∧
    (s.me.inLoop = true → Faults s (exec .kret s) .loopbody (wordValue .kret))) ∧
  (∀ s : State, s.me.mode = 0 → s.me.tvec ≠ 0 → s.me.pc.toNat % 4 = 0 → s.me.lpstart.toNat % 4 = 0 → s.me.lpend.toNat % 4 = 0 →
    ∃ s1 s2, exec .sysc s = .next s1 ∧ exec .kret s1 = .next s2 ∧
      s2.me.pc = s.me.advance.pc ∧ s2.me.mode = 0 ∧ s2.me.lpstart = s.me.lpstart ∧ s2.me.lpend = s.me.lpend ∧
      (s.me.advance.lpc = 0 ∨ s.me.lpstart.toNat ≤ s2.me.pc.toNat ∧ s2.me.pc.toNat < s.me.lpend.toNat →
        s2.me.lpc = s.me.advance.lpc) ∧
      s2.me.x = s.me.x ∧ s2.me.v = s.me.v ∧ s2.me.p = s.me.p ∧ s2.me.d = s.me.d ∧ s2.me.hue = s.me.hue ∧
      s2.me.buf = s.me.buf ∧ OnlyMe s s2)

/-- 06, R135; 07, R138: what U mode may not do raises PRIV with the word as `tval`, and changes nothing else: `kret`,
`tlbinv`, `halt`, reading a K-mode CSR, and writing a CSR that only K and F write.

19, R370: whatever word runs, the strand that issues it has after it a mode that is legal and no lower right than the spec
gives: U mode becomes K mode only by entering the handler, and F mode is never entered from U mode. For every word
instruction and every state whose strand is in U mode and in which no word is poisoned or uncorrectable (such a word can roll
a strand back to a checkpoint, 19, R394): the strand after it is gone, or is in U mode, or is in K mode with ENTRY set, its
pc at `tvec`. -/
def Obligations.UserModeIsConfined : Prop :=
  (∀ (d a b : XReg) (sc : Scope) (c : BitVec 12) (s : State), s.me.mode = 0 →
    Faults s (exec .kret s) .priv (wordValue .kret) ∧
    Faults s (exec (.tlbinv a b sc) s) .priv (wordValue (.tlbinv a b sc)) ∧
    Faults s (exec (.halt a) s) .priv (wordValue (.halt a)) ∧
    (c.toNat ∈ [0x100, 0x101, 0x102, 0x103, 0x104, 0x105, 0x108, 0x109, 0x10A] →
      Faults s (exec (.csrr d c) s) .priv (wordValue (.csrr d c)) ∧
      Faults s (exec (.csrw d a c) s) .priv (wordValue (.csrw d a c)) ∧
      Faults s (exec (.csrs d a c) s) .priv (wordValue (.csrs d a c)) ∧
      Faults s (exec (.csrc d a c) s) .priv (wordValue (.csrc d a c))) ∧
    ((0x040 ≤ c.toNat ∧ c.toNat ≤ 0x044) ∨ c.toNat = 0x200 →
      Faults s (exec (.csrw d a c) s) .priv (wordValue (.csrw d a c)) ∧
      (a ≠ 0 → Faults s (exec (.csrs d a c) s) .priv (wordValue (.csrs d a c)) ∧
        Faults s (exec (.csrc d a c) s) .priv (wordValue (.csrc d a c))))) ∧
  (∀ (i : Instr) (s t : State), i.isWord = true → s.poison = [] → s.choice.flaws = [] → s.me.mode = 0 → s.me.stat = .live → exec i s = .next t →
    (t.strand s.cur).uid = s.me.uid → (t.strand s.cur).stat = .live →
    (t.strand s.cur).mode = 0 ∨
      ((t.strand s.cur).mode = 1 ∧ (t.strand s.cur).entry = true ∧ (t.strand s.cur).pc = s.me.tvec))

/-- 07, R166, R168-R170; 15, R320: `nap` whose time has come, `yield`, `fencei`, `sethue` and `pwrh` complete in line.
`fencei` empties the strand's fetch buffer and its core's instruction cache; `yield` makes the strand give way once.

07, R166: `nap` before its time waits at its own address, with its wake time; it completes in the step in which field time
has reached it, and not before.

11, R266: `tlbinv` in K or F mode. Every translation of the named contexts that covers the page, or every one of them with
ALLVA, is gone from the micro-TLBs and the sheaf TLBs of the scope; every other stays; at field and system scope every
walk-cache pointer of the named contexts on the path of xa, of level 1 or of level 2, is gone too, or with ALLVA every one of
them, and every other stays. The strand goes on at once when nothing in the scope used a removed entry, and otherwise waits
for the entries, operations and reads that did. Stated where every write has reached all parties. -/
def Obligations.StrandControl : Prop :=
  (∀ (a : XReg) (h : BitVec 3) (s : State),
    ((s.me.xr a).toNat ≤ s.ftime → Completes s (exec (.nap a) s) (Strand.Same s.me)) ∧
    Completes s (exec .yield s) (fun t => Strand.Same s.me t ∧ t.yielded = true) ∧
    (∃ s', exec .fencei s = .next s' ∧ OnlyMeAndCore s.myCore s s' ∧ Strand.InLine s.me s'.me ∧
      s'.core s.myCore = { s.core s.myCore with icache := [] } ∧ s'.me = { s.me.marksOf s'.me with fbuf := [] }) ∧
    Completes s (exec (.sethue h) s) (fun t => t = { s.me.marksOf t with hue := h }) ∧
    Completes s (exec (.pwrh a) s) (fun t => t = { s.me.marksOf t with pwrreq := BitVec.ofNat 4 (min (s.me.xr a).toNat 15) })) ∧
  (∀ (a : XReg) (s : State), s.ftime < (s.me.xr a).toNat → s.me.wait = none → s.me.stat = .live →
    ∃ s1, exec (.nap a) s = .next s1 ∧ s1.me.wait = some (.nap (s.me.xr a).toNat) ∧ s1.me.pc = s.me.pc ∧
      s1.me.instret = s.me.instret ∧ (∀ l, s1.mem.byte l = s.mem.byte l) ∧
      ∀ u : State, u.strand s.cur = s1.me →
        (u.ftime < (s.me.xr a).toNat → exec (.napWake s.cur) u = .next u) ∧
        ((s.me.xr a).toNat ≤ u.ftime → ∃ u', exec (.napWake s.cur) u = .next u' ∧
          Strand.InLine s.me (u'.strand s.cur) ∧ (u'.strand s.cur).x = s.me.x ∧ ∀ i, i ≠ s.cur → u'.strand i = u.strand i)) ∧
  (∀ (a b : XReg) (sc : Scope) (s : State), s.me.mode ≠ 0 → s.me.wait = none → s.level →
    let va := s.me.xr a
    let x := s.me.xr b
    let named (c : BitVec 4) : Prop := x.toNat % 16 = 0 ∨ x.toNat % 16 = c.toNat
    let gone (e : TlbEntry) : Prop := named e.ctx ∧ (x.getLsbD 4 = true ∨ e.hits e.ctx va.toNat = true)
    let onPath (w : WalkEntry) : Prop :=
      (w.level = 1 ∧ w.path = bitsAt va.toNat 37 11) ∨ (w.level = 2 ∧ w.path = bitsAt va.toNat 26 22)
    let users := s.tlbUsers sc s.myCore va x
    let none' : Prop := users.1 = [] ∧ users.2.1 = [] ∧ users.2.2 = []
    ∃ s', exec (.tlbinv a b sc) s = .next s' ∧
      (∀ c e, e ∈ (s'.core c).utlb ↔ e ∈ (s.core c).utlb ∧ ¬ (inTlbScope sc s.myCore c = true ∧ gone e)) ∧
      (∀ h e, e ∈ (s'.sheaf h).tlb ↔ e ∈ (s.sheaf h).tlb ∧
        ¬ (((sc = .sheaf ∧ h = sheafOf s.myCore) ∨ sc = .field ∨ sc = .system) ∧ gone e)) ∧
      (sc ≠ .field → sc ≠ .system → s'.walks = s.walks) ∧
      (sc = .field ∨ sc = .system → x.getLsbD 4 = true →
        ∀ k w, w ∈ Table.getD s'.walks k [] → ¬ named w.ctx) ∧
      (sc = .field ∨ sc = .system → x.getLsbD 4 = false →
        ∀ k w, w ∈ Table.getD s'.walks k [] → ¬ (named w.ctx ∧ onPath w)) ∧
      (sc = .field ∨ sc = .system → ∀ k w, w.level = 1 ∨ w.level = 2 →
        (w ∈ Table.getD s'.walks k [] ↔
          w ∈ Table.getD s.walks k [] ∧ ¬ (named w.ctx ∧ (x.getLsbD 4 = true ∨ onPath w)))) ∧
      (∀ l, s'.mem.byte l = s.mem.byte l) ∧ (∀ i, i ≠ s.cur → s'.strand i = s.strand i) ∧
      (none' → Strand.InLine s.me s'.me ∧ Strand.Same s.me s'.me) ∧
      (¬ none' → s'.me.wait = some (.tlb users.1 users.2.1 users.2.2) ∧ s'.me.pc = s.me.pc))

/-- 19, R377, R382: `halt` in K or F mode ends the strand's context with CAUSE xa[7:0]: no slot and no husk holds a strand of
it any more, every launch of it that had not come to its end (21, R402) is complete with that cause, every other launch stays
as far as it was, and its bit of CTXEND is set. Stated where no strand stands at the end of a superstep and every write has
reached all parties.

07, R167; 21, R401: `done` with no key held retires its strand: the slot is free, or drains when stores are left, which stay
in its buffers, with its registers standing there (14, R311), and `done` counts as an instruction of it (07, R144; 20, R400);
the launch counts it. With a key held it raises KEYORDER with the key and does not retire. -/
def Obligations.EndingStrandsAndContexts : Prop :=
  (∀ (a : XReg) (s : State), s.me.mode ≠ 0 → s.level →
    (∀ e ∈ s.strands, ∀ k key old d, e.2.wait ≠ some (.superstep k key old d)) →
    ∃ t, exec (.halt a) s = .next t ∧
      (∀ i, (t.strand i).ctx = s.me.ctx → (t.strand i).stat = .free) ∧
      (∀ h, h ∈ t.husks → h.strand.ctx ≠ s.me.ctx) ∧
      (∀ k la, Table.get? s.launches k = some la → recCtx la.bytes = s.me.ctx → la.over = false →
        ∃ la', Table.get? t.launches k = some la' ∧ la'.state = .complete ∧
          la'.ended = some (BitVec.ofNat 8 (s.me.xr a).toNat) ∧ la'.bytes = la.bytes) ∧
      (∀ k la, Table.get? s.launches k = some la → recCtx la.bytes ≠ s.me.ctx ∨ la.over = true →
        ∃ la', Table.get? t.launches k = some la' ∧ la'.state = la.state ∧ la'.ended = la.ended ∧ la'.bytes = la.bytes) ∧
      t.host.ctxend = s.host.ctxend ||| (1 <<< s.me.ctx.toNat)) ∧
  (∀ s : State,
    (s.heldKey s.me.uid = none → s.level → ∃ t, exec .done s = .next t ∧
      (s.me.buf = [] → (t.strand s.cur).stat = .free) ∧
      (s.me.buf ≠ [] → (t.strand s.cur).stat = .draining ∧ (t.strand s.cur).buf = s.me.buf) ∧
      (t.strand s.cur).x = s.me.x ∧ (t.strand s.cur).v = s.me.v ∧ (t.strand s.cur).d = s.me.d ∧
      (t.strand s.cur).instret = s.me.instret + 1 ∧
      (∀ la, Table.get? s.launches s.me.launch = some la →
        ∃ la', Table.get? t.launches s.me.launch = some la' ∧ la'.retired = la.retired + 1)) ∧
    (∀ k, s.heldKey s.me.uid = some k → Faults s (exec .done s) .keyorder k))

/-- The CSRs of these clauses are those of the map (07, R139): a word that names another does not decode (R138).

07, R138, R145: `csrr` reads a CSR that the mode may read; `csrs` and `csrc` with A = x0 do the same; nothing else changes.

07, R138, R145: where the write is allowed, `csrw` completes in line with the old value in xd. A write of a strand CSR
changes no core and no other strand; a write of a core CSR changes that core alone and no strand but the writer's xd; no byte
of memory changes; every CSR but the one written (and `lpc` and `instret`, which the completion steps) reads as before.

What a CSR reads after a write of `w` to it in K or F mode (07, R139, R141-R143; 08, R175; 10, R213, R231; 11, R242; 19,
R371; 21, R405).

11, R242: a write to `skew` keeps its fields, and stores EN 0 when the tile has no pitch or does not fit. -/
def Obligations.CsrAccesses : Prop :=
  (∀ (d : XReg) (c : BitVec 12) (s : State), csrMapped c = true → (s.me.mode ≠ 0 ∨ (csrRights c.toNat).uRead = true) →
    GivesX s (exec (.csrr d c) s) d (s.csrRead s.cur c.toNat) ∧
    GivesX s (exec (.csrs d 0 c) s) d (s.csrRead s.cur c.toNat) ∧
    GivesX s (exec (.csrc d 0 c) s) d (s.csrRead s.cur c.toNat)) ∧
  (∀ (d a : XReg) (c : BitVec 12) (s : State), csrMapped c = true → (csrRights c.toNat).kWrite = true →
    (s.me.mode ≠ 0 ∨ ((csrRights c.toNat).uRead = true ∧ (csrRights c.toNat).uWrite = true)) →
    ∃ s', exec (.csrw d a c) s = .next s' ∧ Strand.InLine s.me s'.me ∧ OnlyMeAndCore s.myCore s s' ∧
      (c.toNat < 0x200 → OnlyMe s s') ∧
      s'.me.xr d = (if d = 0 then 0 else s.csrRead s.cur c.toNat) ∧ (∀ r, r ≠ d → s'.me.xr r = s.me.xr r) ∧
      s'.me.v = s.me.v ∧ s'.me.p = s.me.p ∧ s'.me.d = s.me.d ∧ s'.me.c = s.me.c ∧ s'.me.ed = s.me.ed ∧
      s'.me.mode = s.me.mode ∧
      (∀ q, q ≠ c.toNat → q ≠ 0x008 → q ≠ 0x0C1 → s'.csrRead s.cur q = s.csrRead s.cur q)) ∧
  (∀ (a : XReg) (s : State), s.me.mode ≠ 0 →
    let w := s.me.xr a
    let reads (c : BitVec 12) (v : Nat) : Prop :=
      ∃ s', exec (.csrw 0 a c) s = .next s' ∧ s'.csrRead s.cur c.toNat = BitVec.ofNat 64 v
    reads 0x001 (w.toNat % 32) ∧ reads 0x002 (w.toNat % 32) ∧
    reads 0x003 (if 5 ≤ w.toNat % 8 then 0 else w.toNat % 8) ∧
    reads 0x00C (if w.toNat / 32 % 64 = 0 ∨ 32 < w.toNat % 32 + w.toNat / 32 % 64 then w.toNat % 32 else w.toNat % 2048) ∧
    reads 0x010 (if w.toNat % 8 < 2 then 2 else w.toNat % 8) ∧
    reads 0x012 (w.toNat % 2 ^ 48) ∧ reads 0x013 (w.toNat % 2 ^ 48) ∧
    reads 0x040 w.toNat ∧ reads 0x041 w.toNat ∧ reads 0x042 w.toNat ∧ reads 0x043 w.toNat ∧
    reads 0x044 (w.toNat % 2 ^ 19 + w.toNat / 2 ^ 31 % 2 * 2 ^ 31) ∧
    reads 0x100 (s.me.mode.toNat + 4 * (if s.me.mode = 2 then min (w.toNat / 4 % 4) 2 else min (w.toNat / 4 % 4) 1)) ∧
    reads 0x101 (w.toNat % 2 ^ 48 / 4 * 4) ∧ reads 0x102 w.toNat ∧ reads 0x103 (w.toNat % 512) ∧ reads 0x104 w.toNat ∧
    reads 0x105 w.toNat ∧ reads 0x108 w.toNat ∧ reads 0x109 w.toNat ∧ reads 0x10A w.toNat ∧
    reads 0x200 (min w.toNat 131072) ∧
    reads 0x201 (w.toNat % 2 + (if (s.core s.myCore).late = true ∧ w.getLsbD 16 = false then 2 ^ 16 else 0) +
      (s.core s.myCore).lates.toNat * 2 ^ 32) ∧
    reads 0x204 (w.toNat % 256) ∧ reads 0x205 (w.toNat % 256) ∧
    reads 0x206 (w.toNat % 2 ^ 14 + w.toNat / 2 ^ 16 % 16 * 2 ^ 16) ∧
    (∀ q : BitVec 12, 0x300 ≤ q.toNat → q.toNat ≤ 0x3FF → reads q (w.toNat % 2 ^ 19))) ∧
  (∀ (a : XReg) (s : State),
    let w := (s.me.xr a).toNat
    let base := w % 2 ^ 11
    let pitch := w / 2 ^ 11 % 2 ^ 11
    let rows := w / 2 ^ 24 % 2 ^ 11
    ∃ s', exec (.csrw 0 a 0x011) s = .next s' ∧
      s'.csrRead s.cur 0x011 = BitVec.ofNat 64 (base + pitch * 2 ^ 11 + rows * 2 ^ 24 +
        if pitch = 0 ∨ 2 ^ 18 < 128 * base + 128 * pitch * (rows + 1) then 0 else w / 2 ^ 63 * 2 ^ 63))

/-- 07, R145: with A ≠ x0, `csrs` is `csrw` of the old value with the bits of xa set, and `csrc` of the old value with them
cleared, save that a write-one-to-clear bit (LATE of `latepol`) is cleared by `csrs` only where xa names it and never by
`csrc`.

07, R138: a write to a CSR that is read only in every mode raises ILLEGAL with the word as `tval`. -/
def Obligations.CsrSetsAndClears : Prop :=
  (∀ (d a b : XReg) (c : BitVec 12) (s : State), csrMapped c = true → a ≠ 0 → (csrRights c.toNat).kWrite = true →
    (s.me.mode ≠ 0 ∨ ((csrRights c.toNat).uRead = true ∧ (csrRights c.toNat).uWrite = true)) →
    let old := s.csrRead s.cur c.toNat
    let x := s.me.xr a
    let w1c : Word := if c = 0x201 then 0x10000 else 0
    (s.me.xr b = ((old ||| x) &&& ~~~w1c) ||| (x &&& w1c) → exec (.csrs d a c) s = exec (.csrw d b c) s) ∧
    (s.me.xr b = old &&& ~~~x &&& ~~~w1c → exec (.csrc d a c) s = exec (.csrw d b c) s)) ∧
  (∀ (d a : XReg) (c : BitVec 12) (s : State),
    c.toNat ∈ [0x008, 0x009, 0x00A, 0x020, 0x021, 0x0C0, 0x0C1, 0x0C2, 0x0C3, 0x0C4] →
    Faults s (exec (.csrw d a c) s) .illegal (wordValue (.csrw d a c)) ∧
    (a ≠ 0 → Faults s (exec (.csrs d a c) s) .illegal (wordValue (.csrs d a c)) ∧
      Faults s (exec (.csrc d a c) s) .illegal (wordValue (.csrc d a c))))

/-- 07, R157: the one rounding of the model, on every positive dyadic number, in six formats (binary16, bfloat16, binary32,
binary64, A56 and W19). When it does not overflow, the result is the number exactly or one of its two neighbours in the
format, the one the rounding mode names (the nearer in the nearest modes, the one toward zero, up or down in the others), and
NX is raised exactly when it is not the number.

07, R157, R158: a value of a format rounds to its own bits with no event, in every mode. -/
def Obligations.Rounding : Prop :=
  (∀ f ∈ [fmtH, fmtB, fmtS, fmtD, fmtA56, fmtW19], ∀ (rm : Rm) (neg : Bool) (m : Nat) (e : Int), m ≠ 0 →
    let r := f.round rm neg m e false
    let k := r.1 % f.signBit
    let x : ℚ := m * 2 ^ e
    r.2 &&& evOF = 0 →
    k < f.infBits ∧ r.1 = k + (if neg then f.signBit else 0) ∧
    (r.2 &&& evNX ≠ 0 ↔ f.mag k ≠ x) ∧
    (rm = .rtz ∨ (rm = .rup ∧ neg = true) ∨ (rm = .rdn ∧ neg = false) → f.mag k ≤ x ∧ x < f.mag (k + 1)) ∧
    ((rm = .rup ∧ neg = false) ∨ (rm = .rdn ∧ neg = true) → x ≤ f.mag k ∧ (k ≠ 0 → f.mag (k - 1) < x)) ∧
    (rm = .rne ∨ rm = .rmm → |x - f.mag k| ≤ |x - f.mag (k + 1)| ∧ (k ≠ 0 → |x - f.mag k| ≤ |x - f.mag (k - 1)|))) ∧
  (∀ f ∈ [fmtH, fmtB, fmtS, fmtD, fmtA56, fmtW19], ∀ (rm : Rm) (w : Nat) (neg : Bool) (m : Nat) (e : Int),
    w < 2 * f.signBit → f.decode w = .fin neg m e → f.round rm neg m e false = (w, 0))

/-- 07, R157, R159, R162: on finite operands, a sum, difference, product or fused sum that is not zero is the exact one
rounded once; NaN operands give the canonical NaN, with NV exactly when one is signalling (and ∞ · 0 gives it too). -/
def Obligations.ArithmeticRoundsOnce : Prop :=
  ∀ f ∈ [fmtH, fmtS, fmtD], ∀ (rm : Rm) (a b c : Fv),
    (a.isNan = false → b.isNan = false → a.isInf = false → b.isInf = false →
      (a.rat + b.rat ≠ 0 → f.RoundsTo rm (a.rat + b.rat) (f.addF rm a b)) ∧
      (a.rat - b.rat ≠ 0 → f.RoundsTo rm (a.rat - b.rat) (f.subF rm a b)) ∧
      (a.rat * b.rat ≠ 0 → f.RoundsTo rm (a.rat * b.rat) (f.mulF rm a b)) ∧
      (c.isNan = false → c.isInf = false → a.rat * b.rat + c.rat ≠ 0 →
        f.RoundsTo rm (a.rat * b.rat + c.rat) (f.fmaF rm a b c))) ∧
    (a.isNan = true ∨ b.isNan = true →
      let nv : Events := if a.isSnan || b.isSnan then evNV else 0
      f.addF rm a b = (f.nan, nv) ∧ f.subF rm a b = (f.nan, nv) ∧ f.mulF rm a b = (f.nan, nv) ∧
        f.divF rm a b = (f.nan, nv)) ∧
    (a.isInf = true → b.isZero = true → f.mulF rm a b = (f.nan, evNV) ∧ f.fmaF rm a b c = (f.nan, evNV))

/-- 07, R159-R162, R164: the scalar forms. Each leaves the operation's result on its operands, rounded by `frm`, in xd, and
adds its events to `fflags`, when no event it raises is enabled; and it changes nothing else. Single operands are bits 31:0,
and results are zero-extended.

07, R159, R160: `fclass` and `fsgn` raise nothing. `fclass` sets one bit of 5:0 for the class and bit 8 for the sign; `fsgn`
gives xa with its sign taken, inverted, xored or cleared, its other bits kept.

07, R161: the conversion forms, their operand and their destination: to an integer, to a number of the type's range, a NaN to
its maximum with NV; from an integer, the integer rounded once; between formats. What the operations themselves give is said
of them: ArithmeticRoundsOnce, ConversionsAndQuotients. -/
def Obligations.ScalarFpForms : Prop :=
  (∀ (d a b c : XReg) (p : Prec) (s : State),
    let f := precFmt p
    let rm := rmOf s.me.frm
    let bits (r : XReg) : Nat := match p with
      | .single => (s.me.xr r).toNat % 2 ^ 32
      | .double => (s.me.xr r).toNat
    let x := f.decode (bits a)
    let y := f.decode (bits b)
    let z := f.decode (bits c)
    let gives (i : Instr) (r : Nat × Events) : Prop := GivesFpX s (exec i s) d (BitVec.ofNat 64 r.1) r.2
    let truth (q : Bool × Events) : Nat × Events := (if q.1 then 1 else 0, q.2)
    gives (.fadd d a b p) (f.addF rm x y) ∧ gives (.fsub d a b p) (f.subF rm x y) ∧
    gives (.fmul d a b p) (f.mulF rm x y) ∧ gives (.fdiv d a b p) (f.divF rm x y) ∧
    gives (.fsqrt d a p) (f.sqrtF rm x) ∧
    gives (.fmin d a b p) (f.pick true (bits a) (bits b)) ∧ gives (.fmax d a b p) (f.pick false (bits a) (bits b)) ∧
    gives (.feq d a b p) (truth (fcompare .eq x y)) ∧ gives (.flt d a b p) (truth (fcompare .lt x y)) ∧
    gives (.fle d a b p) (truth (fcompare .le x y)) ∧
    gives (.fma d a b c p) (f.fmaF rm x y z) ∧ gives (.fms d a b c p) (f.fmaF rm x y z.negate) ∧
    gives (.fnma d a b c p) (f.fmaF rm x.negate y z.negate) ∧ gives (.fnms d a b c p) (f.fmaF rm x.negate y z)) ∧
  (∀ (d a b : XReg) (p : Prec) (s : State),
    let f := precFmt p
    let n : Nat := f.eb + f.mb
    let x : Nat := (s.me.xr a).toNat % 2 ^ (n + 1)
    let y : Nat := (s.me.xr b).toNat % 2 ^ (n + 1)
    let e := x / 2 ^ f.mb % 2 ^ f.eb
    let m := x % 2 ^ f.mb
    let kind := if e = 2 ^ f.eb - 1 then (if m = 0 then 3 else if 2 ^ (f.mb - 1) ≤ m then 4 else 5)
      else if e = 0 then (if m = 0 then 0 else 1) else 2
    let sgn (q : Nat) : Nat := x % 2 ^ n + q % 2 * 2 ^ n
    GivesX s (exec (.fclass d a p) s) d (BitVec.ofNat 64 (2 ^ kind + 256 * (x / 2 ^ n))) ∧
    GivesX s (exec (.fsgn d a b .take p) s) d (BitVec.ofNat 64 (sgn (y / 2 ^ n))) ∧
    GivesX s (exec (.fsgn d a b .inv p) s) d (BitVec.ofNat 64 (sgn (y / 2 ^ n + 1))) ∧
    GivesX s (exec (.fsgn d a b .xor p) s) d (BitVec.ofNat 64 (sgn (x / 2 ^ n + y / 2 ^ n))) ∧
    GivesX s (exec (.fsgn d a b .abs p) s) d (BitVec.ofNat 64 (sgn 0))) ∧
  (∀ (d a : XReg) (v : IntVariant) (p : Prec) (s : State),
    let f := precFmt p
    let rm := rmOf s.me.frm
    let w := s.me.xr a
    let low (n : Nat) : Nat := w.toNat % 2 ^ n
    let own := f.decode (low (f.eb + f.mb + 1))
    let lo : Int := match v with
      | .sl => -(2 ^ 63) | .ul => 0 | .sw => -(2 ^ 31) | .uw => 0
    let hi : Int := match v with
      | .sl => 2 ^ 63 - 1 | .ul => 2 ^ 64 - 1 | .sw => 2 ^ 31 - 1 | .uw => 2 ^ 32 - 1
    let n : Int := match v with
      | .sl => w.toInt | .ul => w.toNat | .sw => (BitVec.ofNat 32 w.toNat).toInt | .uw => (low 32 : Nat)
    let other : Fmt := match p with
      | .single => fmtD | .double => fmtS
    let r := toIntF rm lo hi own
    GivesFpX s (exec (.fcvti d a v p) s) d (BitVec.ofInt 64 r.1) r.2 ∧
    lo ≤ r.1 ∧ r.1 ≤ hi ∧ (own.isNan = true → r = (hi, evNV)) ∧
    GivesFpX s (exec (.fcvtf d a v p) s) d (BitVec.ofNat 64 (f.ofIntF rm n).1) (f.ofIntF rm n).2 ∧
    (n ≠ 0 → f.RoundsTo rm n (f.ofIntF rm n)) ∧
    GivesFpX s (exec (.fcvtp d a .other p) s) d
      (BitVec.ofNat 64 (f.convert rm (other.decode (low (other.eb + other.mb + 1)))).1)
      (f.convert rm (other.decode (low (other.eb + other.mb + 1)))).2 ∧
    GivesFpX s (exec (.fcvtp d a .fromh p) s) d (BitVec.ofNat 64 (f.convert rm (fmtH.decode (low 16))).1)
      (f.convert rm (fmtH.decode (low 16))).2 ∧
    GivesFpX s (exec (.fcvtp d a .toh p) s) d (BitVec.ofNat 64 (fmtH.convert rm own).1) (fmtH.convert rm own).2)

/-- 07, R159-R162; 09, R193-R195: what the floating-point operations give. A quotient or square root of numbers above 0, and
of either sign for a quotient, is the exact one rounded once; their special values stand as IEEE 754 has them. `toIntF`
rounds by `rm`, saturates with NV, and raises NX for an inexact value in range; between formats a number is rounded, a NaN is
the canonical one, with NV when it is signalling. `pick` gives the lesser or greater number, −0 below +0, a number beside a
NaN; the comparisons order the numbers, and raise NV for a signalling NaN, or any NaN but for `eq`. -/
def Obligations.ConversionsAndQuotients : Prop :=
  ∀ f ∈ [fmtH, fmtB, fmtS, fmtD], ∀ (rm : Rm) (a b : Fv) (lo hi : Int) (x y : Nat) (p q : Bool) (m n : Nat) (u v : Int), lo ≤ hi →
    let sg (neg : Bool) : Nat := if neg then f.signBit else 0
    let fin (w : Fv) : Prop := w.isNan = false ∧ w.isInf = false
    (m ≠ 0 → n ≠ 0 →
      f.IsRounding rm (p != q) (((Fv.fin false m u).rat / (Fv.fin false n v).rat : ℚ) : ℝ) (f.divF rm (.fin p m u) (.fin q n v)) ∧
      f.IsRounding rm false (Real.sqrt ((Fv.fin false m u).rat : ℝ)) (f.sqrtF rm (.fin false m u)) ∧
      f.divF rm (.fin p m u) (.fin q 0 v) = (sg (p != q) + f.infBits, evDZ) ∧
      f.divF rm (.fin p 0 u) (.fin q n v) = (sg (p != q), 0) ∧
      f.sqrtF rm (.fin true m u) = (f.nan, evNV)) ∧
    f.divF rm (.fin p 0 u) (.fin q 0 v) = (f.nan, evNV) ∧ f.divF rm (.inf p) (.inf q) = (f.nan, evNV) ∧
    f.divF rm (.inf p) (.fin q n v) = (sg (p != q) + f.infBits, 0) ∧ f.divF rm (.fin p m u) (.inf q) = (sg (p != q), 0) ∧
    f.sqrtF rm (.fin p 0 u) = (sg p, 0) ∧ f.sqrtF rm (.inf false) = (f.infBits, 0) ∧ f.sqrtF rm (.inf true) = (f.nan, evNV) ∧
    f.sqrtF rm (.nan p) = (f.nan, if p then evNV else 0) ∧
    (fin a → ∃ k : Int, IntRounding rm a.rat k ∧
      toIntF rm lo hi a = if k < lo then (lo, evNV) else if hi < k then (hi, evNV)
        else (k, if (k : ℚ) = a.rat then 0 else evNX)) ∧
    toIntF rm lo hi (.inf p) = (if p then lo else hi, evNV) ∧ toIntF rm lo hi (.nan p) = (hi, evNV) ∧
    (fin a → (a.rat ≠ 0 → f.RoundsTo rm a.rat (f.convert rm a)) ∧ (a.rat = 0 → f.convert rm a = (sg a.neg?, 0))) ∧
    f.convert rm (.inf p) = (sg p + f.infBits, 0) ∧ f.convert rm (.nan p) = (f.nan, if p then evNV else 0) ∧
    (let c := f.decode x
     let d := f.decode y
     let r := f.pick p x y
     let w := f.decode r.1
     r.2 = (if c.isSnan || d.isSnan then evNV else 0) ∧
     (c.isNan = true → d.isNan = true → r.1 = f.nan) ∧ (c.isNan = true → d.isNan = false → r.1 = y) ∧
     (c.isNan = false → d.isNan = true → r.1 = x) ∧
     (c.isNan = false → d.isNan = false → (r.1 = x ∨ r.1 = y) ∧
       (p = true → ¬ c.Less w ∧ ¬ d.Less w) ∧ (p = false → ¬ w.Less c ∧ ¬ w.Less d) ∧
       (c.isZero = true → d.isZero = true → c.neg? ≠ d.neg? → w.neg? = p))) ∧
    (a.isNan = false → b.isNan = false →
      (∀ k ∈ [Fcmp.eq, .lt, .le], (fcompare k a b).2 = 0) ∧ ((fcompare .lt a b).1 = true ↔ a.Less b) ∧
      ((fcompare .le a b).1 = true ↔ ¬ b.Less a) ∧ ((fcompare .eq a b).1 = true ↔ ¬ a.Less b ∧ ¬ b.Less a)) ∧
    (a.isNan = true ∨ b.isNan = true → ∀ k ∈ [Fcmp.eq, .lt, .le],
      fcompare k a b = (false, if a.isSnan || b.isSnan || k != .eq then evNV else 0))

/-- 07, R164; 19, R378: every form with floating-point events, scalar or vector, ends alike. When none of the events it
raised is enabled (or it is masked for this issue by a RESUME, 19, R379) it completes and adds them to `fflags`. Otherwise it
writes no destination and adds them to `fflags`, and the strand stays at its pc: with no supervisor set, or one that cannot
be reached, it raises FPX_LOCAL with the set as `tval`; with one that can be reached it parks, and its FPX message joins the
send queue, or waits for an entry of it. -/
def Obligations.EnabledEventTraps : Prop :=
  (∀ (d a b c : XReg) (p : Prec) (iv : IntVariant) (fv : FmtVariant) (s : State),
    ∀ i ∈ [Instr.fadd d a b p, .fsub d a b p, .fmul d a b p, .fdiv d a b p, .fsqrt d a p, .fmin d a b p, .fmax d a b p,
      .feq d a b p, .flt d a b p, .fle d a b p, .fcvti d a iv p, .fcvtf d a iv p, .fcvtp d a fv p, .fma d a b c p,
      .fms d a b c p, .fnma d a b c p, .fnms d a b c p], FpEnds s i) ∧
  (∀ (d a b : VReg) (pd p : PReg) (xd xa : XReg) (t : VType) (k : Cond) (bf : Bool) (cc : BitVec 4) (n : BitVec 5) (nf : NFmt)
      (ff : FFmt) (s : State),
    (∀ i ∈ [Instr.vadd d a b p t, .vsub d a b p t, .vmul d a b p t, .vma d a b p t, .vmin d a b p t, .vmax d a b p t,
      .vabs d a p t, .vneg d a p t, .vrcp d a p t, .vrsq d a p t, .vexp2 d a p t, .vlog2 d a p t, .vsin d a p t, .vcos d a p t,
      .vdot2 d a b p t, .vredadd xd a p t, .vredmin xd a p t, .vredmax xd a p t, .vcvt d a bf cc p t, .vcmp pd a b p t k],
      FpEnds s i) ∧
    (n.toNat + ff.elems ≤ nf.elems → FpEnds s (.vqdec d a n xa nf ff)))

/-- 11, R258, R259, R260, R262: a load whose checks pass takes its bytes and completes; the address is xa + offset, or xa
with post-increment, which writes xa + offset back; the loaded value is written last. Nothing changes but the strand, and the
translations and the L1 line that the access may fill.

11, R261: the strided and gathered loads take four 4-byte elements, element i at xa + i·xb or xa + element i of vb.

15, R314: what a load takes, byte by byte: the youngest of the strand's own entries that covers the byte; else, of near
memory or through an NC page, the byte at its home; else the byte of the core's L1 line that holds it, or the home's when
none does.

11, R239, R261; 15, R314: a load of several single-copy atomic parts may take them in several steps. A step that takes some
of them (the choice is the model's, log 59) writes no register and leaves the strand at its instruction with the parts left;
the step that takes the last completes the load with all the bytes (a load has read no residency byte, which a texture sample
alone does: 13, R306). The elements of the strided and gathered loads are taken in their order. Stated where every write has
reached all parties (15, R319); a load of one part that finds one that has not reads it as its core does, and from then on
all do (log 18). -/
def Obligations.LoadForms : Prop :=
  (∀ (d a b : XReg) (vd : VReg) (dd : DReg) (wd : LdWidth) (pi : Bool) (o : BitVec 12) (s s2 : State) (bs : List Byte), s.whole →
    let ea := s.me.mAddr a pi o
    let base := s.me.mBase a pi o
    (s.takes ea (ldSize wd) = some (s2, bs) → Loads s (exec (.ld d a wd pi o) s) fun t =>
      t.xr d = (if d = 0 then 0 else loadedWord wd (leNat bs)) ∧ (a ≠ d → t.xr a = if a = 0 then 0 else base) ∧
        (∀ r, r ≠ d → r ≠ a → t.xr r = s.me.xr r) ∧ t = { s.me.marksOf t with x := t.x }) ∧
    (s.takes (s.me.xr a + s.me.xr b) (ldSize wd) = some (s2, bs) → Loads s (exec (.ldx d a b wd) s)
      (Strand.GotX d (loadedWord wd (leNat bs)) s.me)) ∧
    (s.takes ea 16 = some (s2, bs) → Loads s (exec (.vld vd a pi o) s) fun t =>
      t.vr vd = BitVec.ofNat 128 (leNat bs) ∧ (∀ r, r ≠ vd → t.vr r = s.me.vr r) ∧
        t.xr a = (if a = 0 then 0 else base) ∧ (∀ r, r ≠ a → t.xr r = s.me.xr r) ∧
        t = { s.me.marksOf t with x := t.x, v := t.v }) ∧
    (s.takes ea 16 = some (s2, bs) → Loads s (exec (.dld dd a pi o) s) fun t =>
      (∀ i : Fin 7, (t.dr dd).lanes[i] = BitVec.ofNat 16 (fieldAt bs (2 * i) 2)) ∧
        (t.dr dd).norm = BitVec.ofNat 16 (fieldAt bs 14 2) ∧ (∀ r, r ≠ dd → t.dr r = s.me.dr r) ∧
        t.xr a = (if a = 0 then 0 else base) ∧ (∀ r, r ≠ a → t.xr r = s.me.xr r) ∧
        t = { s.me.marksOf t with x := t.x, d := t.d })) ∧
  (∀ (d vb : VReg) (a b : XReg) (s s2 : State) (bs : List Byte), s.whole →
    let x := s.me.xr a
    let y := s.me.xr b
    let at' (i : Nat) : Word := x + BitVec.ofInt 64 (BitVec.ofNat 32 (vElem 4 i (s.me.vr vb))).toInt
    (s.takesEach 4 [x, x + y, x + 2 * y, x + 3 * y] = some (s2, bs) →
      Loads s (exec (.vlds d a b) s) (Strand.GotV d (BitVec.ofNat 128 (leNat bs)) s.me)) ∧
    (s.takesEach 4 [at' 0, at' 1, at' 2, at' 3] = some (s2, bs) →
      Loads s (exec (.vldg d a vb) s) (Strand.GotV d (BitVec.ofNat 128 (leNat bs)) s.me))) ∧
  (∀ (s : State) (a : Word) (size : Nat) (ls : List Nat), size ∈ [1, 2, 4, 8, 16] →
    a.toNat % size = 0 → a.toNat < 0x1000000 → nearLocs s.myCore s.me.skew a.toNat size = some ls →
    (∀ l, l ∈ ls → s.poisoned l = false) →
    (s.level → s.takes a size = some ({ s with seqNo := s.seqNo + 1 }, ls.map fun l => (forwarded s.me.buf l).getD (s.mem.byte l))) ∧
    (size ≤ 8 → s.me.inTile a.toNat = false → ∃ s2, s.takes a size = some (s2, ls.map fun l =>
      (forwarded s.me.buf l).getD (((s.touch s.myCore s.me.uid ls).seen s.myCore).byte l)))) ∧
  (∀ (s s1 : State) (a : Word) (size : Nat) (p : Place), size ∈ [1, 2, 4, 8, 16] → s.level → 0x1000000 ≤ a.toNat →
    s.access s.cur a size .read = (s1, .ok p) → (∀ l ∈ p.locs, s.poisoned l = false) →
    let source (l : Nat) : Byte :=
      match if p.direct then none else (s.core s.myCore).l1.find? fun e => e.line == l / 64 with
      | some e => e.bytes.getD (l % 64) 0
      | none => s.mem.byte l
    ∃ s2, s.takes a size = some (s2, p.locs.map fun l => (forwarded s.me.buf l).getD (source l))) ∧
  (∀ (d a b : XReg) (wd : LdWidth) (vd vb : VReg) (dd : DReg) (pi : Bool) (o : BitVec 12) (s s1 s2 : State) (ps ps' : List Part)
      (u : Underway), s.level →
    let ea := s.me.mAddr a pi o
    let base := s.me.mBase a pi o
    let x := s.me.xr a
    let y := s.me.xr b
    let at' (i : Nat) : Word := x + BitVec.ofInt 64 (BitVec.ofNat 32 (vElem 4 i (s.me.vr vb))).toInt
    let forms : List (Instr × Bool × List (Word × Nat)) :=
      [(.ld d a wd pi o, false, [(ea, ldSize wd)]), (.ldx d a b wd, false, [(x + y, ldSize wd)]), (.vld vd a pi o, false, [(ea, 16)]),
        (.dld dd a pi o, false, [(ea, 16)]), (.vlds vd a b, true, [x, x + y, x + 2 * y, x + 3 * y].map fun w => (w, 4)),
        (.vldg vd a vb, true, [at' 0, at' 1, at' 2, at' 3].map fun w => (w, 4))]
    let left : Prop := ∃ p ∈ ps', p.got = none
    let bs := (ps'.filterMap (·.got)).flatten
    let stays (i : Instr) : Prop := ∃ s', exec i s = .next s' ∧ OnlyMeAndViews s s' ∧
      s'.me = { s.me with mid := some { u with parts := ps' } }
    (s.me.mid = none → ∀ q ∈ forms, s.partsOf ReadKind.plain [] q.2.2 = some (s1, ps) →
      u = { no := s1.seqNo, done := [], parts := ps, ordered := q.2.1, bits := [], until' := none } →
      State.loadParts { s1 with seqNo := s1.seqNo + 1 } s.cur (s.picks u) [] 0 ps = (s2, .ok ps') → left → stays q.1) ∧
    (s.me.mid = some u → u.done = [] → u.bits = [] →
      State.loadParts (s.setMe { s.me with mid := none }) s.cur (s.picks u) [] 0 u.parts = (s2, .ok ps') →
      (left → ∀ q ∈ forms, stays q.1) ∧
      (¬ left →
        (Loads s (exec (.ld d a wd pi o) s) fun t =>
          t.xr d = (if d = 0 then 0 else loadedWord wd (leNat bs)) ∧ (a ≠ d → t.xr a = if a = 0 then 0 else base) ∧
            (∀ r, r ≠ d → r ≠ a → t.xr r = s.me.xr r) ∧ t = { s.me.marksOf t with x := t.x, mid := none }) ∧
        (Loads s (exec (.ldx d a b wd) s) (Strand.GotX d (loadedWord wd (leNat bs)) s.me)) ∧
        (Loads s (exec (.vld vd a pi o) s) fun t =>
          t.vr vd = BitVec.ofNat 128 (leNat bs) ∧ (∀ r, r ≠ vd → t.vr r = s.me.vr r) ∧
            t.xr a = (if a = 0 then 0 else base) ∧ (∀ r, r ≠ a → t.xr r = s.me.xr r) ∧
            t = { s.me.marksOf t with x := t.x, v := t.v, mid := none }) ∧
        (Loads s (exec (.dld dd a pi o) s) fun t =>
          (∀ i : Fin 7, (t.dr dd).lanes[i] = BitVec.ofNat 16 (fieldAt bs (2 * i) 2)) ∧
            (t.dr dd).norm = BitVec.ofNat 16 (fieldAt bs 14 2) ∧ (∀ r, r ≠ dd → t.dr r = s.me.dr r) ∧
            t.xr a = (if a = 0 then 0 else base) ∧ (∀ r, r ≠ a → t.xr r = s.me.xr r) ∧
            t = { s.me.marksOf t with x := t.x, d := t.d, mid := none }) ∧
        ∀ i ∈ [Instr.vlds vd a b, .vldg vd a vb], Loads s (exec i s) fun t =>
          t.vr vd = BitVec.ofNat 128 (leNat bs) ∧ (∀ r, r ≠ vd → t.vr r = s.me.vr r) ∧
            t = { s.me.marksOf t with v := t.v, mid := none }))) ∧
  (∀ (s : State) (u : Underway) (i j : Nat), u.ordered = true → i ≤ j → s.picks u j = true → s.picks u i = true)

/-- 11, R259, R260, R262; 15, R314: a store whose checks pass, in a strand with room, becomes one entry of its buffers, with
the bytes of its source register as they stand at issue; memory does not change yet.

11, R261: the strided and scattered stores buffer four 4-byte elements; where two name one byte the higher element's is the
later cell. That the four are ONE entry is the model's reading (log 16). Stated where every write has reached all parties. -/
def Obligations.StoreForms : Prop :=
  (∀ (r a b : XReg) (vr : VReg) (dr : DReg) (wd : StWidth) (pi : Bool) (o : BitVec 12) (s s1 : State) (ls : List Nat),
    let ea := s.me.mAddr a pi o
    let base := s.me.mBase a pi o
    s.level → s.me.buf.length < 16 →
    (s.goesTo ea (stSize wd) = some (s1, ls) → Buffers s (exec (.st r a wd pi o) s) [ea.toNat]
      (ls.zip (leBytes (s.me.xr r).toNat (stSize wd))) a base) ∧
    (s.goesTo (s.me.xr a + s.me.xr b) (stSize wd) = some (s1, ls) → Buffers s (exec (.stx r a b wd) s)
      [(s.me.xr a + s.me.xr b).toNat] (ls.zip (leBytes (s.me.xr r).toNat (stSize wd))) a (s.me.xr a)) ∧
    (s.goesTo ea 16 = some (s1, ls) → Buffers s (exec (.vst vr a pi o) s) [ea.toNat]
      (ls.zip (leBytes (s.me.vr vr).toNat 16)) a base) ∧
    (s.goesTo ea 16 = some (s1, ls) → Buffers s (exec (.dst dr a pi o) s) [ea.toNat]
      (ls.zip ((List.range 7).flatMap (fun i => leBytes ((s.me.dr dr).lanes.toList.getD i 0).toNat 2) ++
        leBytes (s.me.dr dr).norm.toNat 2)) a base)) ∧
  (∀ (r vb : VReg) (a b : XReg) (s s1 : State) (ls : List Nat),
    let x := s.me.xr a
    let y := s.me.xr b
    let at' (i : Nat) : Word := x + BitVec.ofInt 64 (BitVec.ofNat 32 (vElem 4 i (s.me.vr vb))).toInt
    s.level → s.me.buf.length < 16 →
    (s.goesToEach [] [x, x + y, x + 2 * y, x + 3 * y] = some (s1, ls) → Buffers s (exec (.vsts r a b) s)
      ([x, x + y, x + 2 * y, x + 3 * y].map fun w => w.toNat)
      (ls.zip (leBytes (s.me.vr r).toNat 16)) 0 0) ∧
    (s.goesToEach [] [at' 0, at' 1, at' 2, at' 3] = some (s1, ls) → Buffers s (exec (.vstg r a vb) s)
      ([at' 0, at' 1, at' 2, at' 3].map fun w => w.toNat)
      (ls.zip (leBytes (s.me.vr r).toNat 16)) 0 0))

/-- 15, R314: a strand reads back what it has just stored to near memory, before it drains: the low bytes of the register.

15, R315: an entry that no older entry covering its bytes holds back drains: its bytes are in memory, every other byte is as
it was, and it is gone from the buffer; one that is held back stays. Stated where nothing else hangs on the write
(`State.quiet`). -/
def Obligations.StoreOrder : Prop :=
  (∀ (r d a : XReg) (wd : StWidth) (o : BitVec 12) (s : State) (ls : List Nat),
    let ea := s.me.mAddr a false o
    let load : LdWidth := match wd with
      | .b => .bz | .h => .hz | .w => .wz | .d => .d
    s.whole → s.me.buf.length < 16 → ea.toNat % stSize wd = 0 → ea.toNat < 0x1000000 →
    nearLocs s.myCore s.me.skew ea.toNat (stSize wd) = some ls → ls.Nodup → s.meshMay s.me ea.toNat (stSize wd) = true →
    ∃ s1 s2, exec (.st r a wd false o) s = .next s1 ∧ exec (.ld d a load false o) s1 = .next s2 ∧
      s2.me.xr d = (if d = 0 then 0 else BitVec.ofNat 64 ((s.me.xr r).toNat % 2 ^ (8 * stSize wd))) ∧
      ∀ l, s2.mem.byte l = s.mem.byte l) ∧
  (∀ (sid seq : Nat) (s : State) (e : BufEntry), (s.strand sid).buf.find? (fun e => e.seq == seq) = some e →
    (heldBack (s.strand sid).buf e = true → exec (.storeDrain sid seq) s = .next s) ∧
    (heldBack (s.strand sid).buf e = false → s.quiet (e.cells.map Prod.fst) →
      ∃ t, exec (.storeDrain sid seq) s = .next t ∧
        (∀ l, l ∉ e.cells.map Prod.fst → t.mem.byte l = s.mem.byte l) ∧
        (∀ l b, (e.cells.reverse.find? fun c => c.1 == l) = some (l, b) → t.mem.byte l = b) ∧
        ∀ f, f ∈ (t.strand sid).buf → f.seq ≠ seq))

/-- 11, R239, R258: a misaligned access of every scalar, vector and directional form raises ALIGN with its address, before
any other check, and takes no effect, xa included. A strand whose buffers are full checks a store only once it has room.

11, R258; 13, R293: a load or store, of one address or four, that a check turns away raises that check's cause, with the
address of the access as its `tval` (MESHBOUND: of the first byte that may not be written), and takes no effect; only
translations may have been filled. So do an AMO and `waitw`. Stated where every write has reached all parties.

11, R238, R247, R253-R258: which check turns an access away. A near address in a hole, an address past 2^48 and a physical
address that names no memory: ACCESS. A leaf without the right, or without U in U mode: PROT. With no translation held: PAGE
when the tables hold no leaf, and XLATE when a critical leaf has read differently the second time in each of three walks. -/
def Obligations.AccessFaults : Prop :=
  (∀ (d a b : XReg) (vd : VReg) (dd : DReg) (wl : LdWidth) (ws : StWidth) (pi : Bool) (o : BitVec 12) (s : State),
    let ea := s.me.mAddr a pi o
    let ex := s.me.xr a + s.me.xr b
    (s.me.mid = none →
      (ea.toNat % ldSize wl ≠ 0 → Faults s (exec (.ld d a wl pi o) s) .align ea) ∧
      (ex.toNat % ldSize wl ≠ 0 → Faults s (exec (.ldx d a b wl) s) .align ex) ∧
      (ea.toNat % 16 ≠ 0 →
        Faults s (exec (.vld vd a pi o) s) .align ea ∧ Faults s (exec (.dld dd a pi o) s) .align ea)) ∧
    (s.me.buf.length < 16 →
      (ea.toNat % stSize ws ≠ 0 → Faults s (exec (.st d a ws pi o) s) .align ea) ∧
      (ex.toNat % stSize ws ≠ 0 → Faults s (exec (.stx d a b ws) s) .align ex) ∧
      (ea.toNat % 16 ≠ 0 → Faults s (exec (.vst vd a pi o) s) .align ea ∧ Faults s (exec (.dst dd a pi o) s) .align ea))) ∧
  (∀ (d a b c' : XReg) (vd vb : VReg) (dd : DReg) (wl : LdWidth) (ws : StWidth) (wa : AmoWidth) (k : OrdKind) (sc : Scope)
      (pi : Bool) (o : BitVec 12) (s s1 : State) (c : Cause) (value : Word), s.level →
    let ea := s.me.mAddr a pi o
    let x := s.me.xr a
    let y := s.me.xr b
    let at' (i : Nat) : Word := x + BitVec.ofInt 64 (BitVec.ofNat 32 (vElem 4 i (s.me.vr vb))).toInt
    let four : List Word := [x, x + y, x + 2 * y, x + 3 * y]
    let some4 : List Word := [at' 0, at' 1, at' 2, at' 3]
    let stops (i : Instr) : Prop := OnlyMeAndViews s s1 ∧ s1.strands = s.strands ∧ Faults s1 (exec i s) c value
    (s.me.mid = none →
      ∀ q ∈ [(Instr.ld d a wl pi o, ldSize wl, [ea]), (.ldx d a b wl, ldSize wl, [x + y]), (.vld vd a pi o, 16, [ea]),
          (.dld dd a pi o, 16, [ea]), (.vlds vd a b, 4, four), (.vldg vd a vb, 4, some4)],
        s.turnedAway q.2.1 .read q.2.2 = some (s1, c, value) → stops q.1) ∧
    (s.me.buf.length < 16 →
      ∀ q ∈ [(Instr.st d a ws pi o, stSize ws, [ea]), (.stx d a b ws, stSize ws, [x + y]), (.vst vd a pi o, 16, [ea]),
          (.dst dd a pi o, 16, [ea]), (.vsts vd a b, 4, four), (.vstg vd a vb, 4, some4)],
        s.turnedAway q.2.1 .write q.2.2 = some (s1, c, value) → stops q.1) ∧
    (s.sstep = false ∨ x.toNat < 0x1000000 → s.turnedAway (amoSize wa) .both [x] = some (s1, c, value) →
      ∀ i ∈ [Instr.amoadd d a b k sc wa, .amoand d a b k sc wa, .amoor d a b k sc wa, .amoxor d a b k sc wa,
        .amomin d a b k sc wa, .amomax d a b k sc wa, .amominu d a b k sc wa, .amomaxu d a b k sc wa,
        .amoswap d a b k sc wa, .amofadd d a b k sc wa, .cas d a b c' wa k sc], stops i) ∧
    (s.turnedAway 8 .read [y] = some (s1, c, value) → stops (.waitw a b))) ∧
  (∀ (a : Word) (n : Nat) (k : Acc) (s s1 : State) (e : TlbEntry), a.toNat % n = 0 →
    let core := s.myCore
    let run := s.access s.cur a n k
    (a.toNat < 0x1000000 → nearLocs core s.me.skew a.toNat n = none → run = (s, .error (.cause .access))) ∧
    (2 ^ 48 ≤ a.toNat → run = (s, .error (.cause .access))) ∧
    (0x1000000 ≤ a.toNat → a.toNat < 2 ^ 48 →
      (∀ c, s.leafOf core s.me.ctx a.toNat = (s1, .error (.cause c)) → run = (s1, .error (.cause c))) ∧
      (s.leafOf core s.me.ctx a.toNat = (s1, .ok e) →
        let may : Prop := (k ≠ .write → k ≠ .exec → e.pte.getLsbD 1 = true) ∧ (k = .write ∨ k = .both → e.pte.getLsbD 2 = true) ∧
          (k = .exec → e.pte.getLsbD 3 = true) ∧ (s.me.mode = 0 → e.pte.getLsbD 6 = true)
        (¬ may → run = (s1, .error (.cause .prot))) ∧
        (may → s.physOk (e.phys a.toNat) = false → run = (s1, .error (.cause .access))) ∧
        (may → s.physOk (e.phys a.toNat) = true → ∃ p, run = (s1, .ok p) ∧ p.locs = locsFrom (e.phys a.toNat) n)))) ∧
  (∀ (core va : Nat) (ctx : BitVec 4) (s : State), s.poison = [] → s.choice.flaws = [] → s.level →
    (∀ e ∈ (s.core core).utlb, e.hits ctx va = false) → (∀ e ∈ (s.sheaf (sheafOf core)).tlb, e.hits ctx va = false) →
    Table.getD s.walks (walkSlice va) [] = [] →
    let leaf := (s.leafOf core ctx va).2
    let differs (n : Nat) : Prop := Config.critFlips s.turnNo n va ≠ 0
    (s.tableLeaf ctx va = none → leaf = .error (.cause .page)) ∧
    ∀ e, s.tableLeaf ctx va = some e →
      (e.pte.getLsbD 7 = true → differs 2 → differs 1 → differs 0 → leaf = .error (.cause .xlate)) ∧
      (e.pte.getLsbD 7 = false ∨ ¬ (differs 2 ∧ differs 1 ∧ differs 0) → leaf = .ok e))

/-- 11, R263, R264; 15, R322: each AMO and `cas` whose checks pass and whose older entries have drained reads and writes its
location as one step and leaves the old value in xd, sign-extended for .w, and zero-extended for `amofadd.w`. The entries
waited for are all of the strand's under a release, and those of the location alone under none; that a release at strand
scope counts as none is the model's reading of 15, R319 (log 18).

11, R265: in a strand of an SSTEP launch an AMO or `cas` at a global address raises ILLEGAL with the word as `tval`, before
any other check. -/
def Obligations.Atomics : Prop :=
  (∀ (d a b c : XReg) (k : OrdKind) (sc : Scope) (wd : AmoWidth) (s : State),
    let ea := s.me.xr a
    let n := amoSize wd
    let w : Nat := 8 * n
    let y := (s.me.xr b).toNat % 2 ^ w
    let z := (s.me.xr c).toNat % 2 ^ w
    let int (u : Nat) : Int := if 2 ^ (w - 1) ≤ u then (u : Int) - 2 ^ w else u
    let old (u : Nat) : Word := match wd with
      | .w => BitVec.ofInt 64 (BitVec.ofNat 32 u).toInt
      | .d => BitVec.ofNat 64 u
    let rel : Bool := (k == .rel || k == .acqrel) && sc != .strand
    let does (i : Instr) (f : Nat → Nat) : Prop := AmoCompletes s (exec i s) d ea n rel (fun u => some (f u)) old
    let fmt : Fmt := match wd with
      | .w => fmtS | .d => fmtD
    (s.sstep = false ∨ ea.toNat < 0x1000000) →
    does (.amoadd d a b k sc wd) (fun u => u + y) ∧ does (.amoand d a b k sc wd) (fun u => u &&& y) ∧
    does (.amoor d a b k sc wd) (fun u => u ||| y) ∧ does (.amoxor d a b k sc wd) (fun u => u ^^^ y) ∧
    does (.amomin d a b k sc wd) (fun u => if int u ≤ int y then u else y) ∧
    does (.amomax d a b k sc wd) (fun u => if int y ≤ int u then u else y) ∧
    does (.amominu d a b k sc wd) (fun u => min u y) ∧ does (.amomaxu d a b k sc wd) (fun u => max u y) ∧
    does (.amoswap d a b k sc wd) (fun _ => y) ∧
    AmoCompletes s (exec (.amofadd d a b k sc wd) s) d ea n rel
      (fun u => some (fmt.addF .rne (fmt.decode u) (fmt.decode y)).1) (fun u => BitVec.ofNat 64 u) ∧
    AmoCompletes s (exec (.cas d a b c wd k sc) s) d ea n rel (fun u => if u = z then some y else none) old) ∧
  (∀ (d a b c : XReg) (k : OrdKind) (sc : Scope) (wd : AmoWidth) (s : State),
    s.sstep = true → 0x1000000 ≤ (s.me.xr a).toNat →
    ∀ i ∈ [Instr.amoadd d a b k sc wd, .amoand d a b k sc wd, .amoor d a b k sc wd, .amoxor d a b k sc wd,
      .amomin d a b k sc wd, .amomax d a b k sc wd, .amominu d a b k sc wd, .amomaxu d a b k sc wd,
      .amoswap d a b k sc wd, .amofadd d a b k sc wd, .cas d a b c wd k sc],
      Faults s (exec i s) .illegal (wordValue i))

/-- 15, R318, R321: a fence. At strand scope it does nothing. A release whose hues hold no entry completes, and one whose
hues hold entries waits for exactly those, which owe it from then on; an acquire at sheaf scope or wider empties the core's
L1 view, and at core scope leaves it; `acq` and `full` make it as they complete: a full fence that waits makes it in the step
in which the last of its entries has drained, and completes then. Stated where every write has reached all parties (15,
R319).

11, R271; 12, R288: `waitw` completes when the 8-byte word equals xa, and otherwise waits on the word's locations; `waitc`
completes when the counter is at or below the threshold, and otherwise waits. -/
def Obligations.FencesAndWaits : Prop :=
  (∀ (k : FenceKind) (sc : Scope) (m : BitVec 8) (s : State), s.level →
    let set := (s.me.buf.filter fun e => m.getLsbD e.hue.toNat).map (·.seq)
    let acquires := (k = .acq ∨ k = .full) ∧ (sc = .sheaf ∨ sc = .field ∨ sc = .system)
    (sc = .strand → Completes s (exec (.fence k sc m) s) (Strand.Same s.me)) ∧
    (sc ≠ .strand → k = .acq ∨ set = [] →
      ∃ s', exec (.fence k sc m) s = .next s' ∧ OnlyMeAndCore s.myCore s s' ∧ Strand.InLine s.me s'.me ∧
        Strand.Same s.me s'.me ∧
        (acquires → s'.core s.myCore = { s.core s.myCore with l1 := [] }) ∧
        (¬ acquires → s'.core s.myCore = s.core s.myCore)) ∧
    (sc ≠ .strand → k ≠ .acq → set ≠ [] → s.me.wait = none →
      ∃ s', exec (.fence k sc m) s = .next s' ∧ s'.me.pc = s.me.pc ∧ s'.me.instret = s.me.instret ∧
        s'.core s.myCore = s.core s.myCore ∧
        s'.me.buf = s.me.buf.map (fun e => if m.getLsbD e.hue.toNat then { e with owed := max e.owed (scopeNo sc) } else e) ∧
        s'.me.wait = some (.fence set (if k = .full then some sc else none)))) ∧
  (∀ (s : State) (sid : Nat) (set : List Nat) (acq : Option Scope), s.strands = [(sid, s.strand sid)] →
    (s.strand sid).stat = .live → (s.strand sid).wait = some (.fence set acq) →
    (s.drained set = false → s.settleFences = s) ∧
    (s.drained set = true → Strand.InLine (s.strand sid) (s.settleFences.strand sid) ∧
      (∀ sc, acq = some sc → sc ≠ .strand → sc ≠ .core →
        s.settleFences.core (coreOf sid) = { s.core (coreOf sid) with l1 := [] }))) ∧
  (∀ (a b : XReg) (c : CReg) (thr : BitVec 8) (s : State),
    (∀ s1 p, s.access s.cur (s.me.xr b) 8 .read = (s1, .ok p) → s.me.inTile (s.me.xr b).toNat = false → s.level →
      (∀ l, l ∈ p.locs → s.poisoned l = false) →
      (leNat (p.locs.map s.mem.byte) = (s.me.xr a).toNat → Loads s (exec (.waitw a b) s) (Strand.Same s.me)) ∧
      (leNat (p.locs.map s.mem.byte) ≠ (s.me.xr a).toNat → ∃ s', exec (.waitw a b) s = .next s' ∧
        s'.me.wait = some (.word p.locs (s.me.xr a)) ∧ s'.me.pc = s.me.pc ∧ ∀ l, s'.mem.byte l = s.mem.byte l)) ∧
    ((s.me.cr c).toNat ≤ thr.toNat → Completes s (exec (.waitc c thr) s) (Strand.Same s.me)) ∧
    (thr.toNat < (s.me.cr c).toNat → ∃ s', exec (.waitc c thr) s = .next s' ∧ s'.me.wait = some (.counter c thr) ∧
      s'.me.pc = s.me.pc ∧ ∀ l, s'.mem.byte l = s.mem.byte l))

/-- 09, R191, R192, R195, R197: the element-wise forms on integers. Each active element of vd is the form's function of the
elements of va, vb and vd, reduced to its width; an inactive one keeps its value; no event is raised. -/
def Obligations.VectorIntegerForms : Prop :=
  ∀ (d a b : VReg) (p : PReg) (t : VType) (s : State), t.isFloat = false →
    let w := t.width
    let n := 8 * w
    let signed : Bool := t = .ib || t = .ih || t = .iw
    let u (r : VReg) (e : Nat) : Nat := vElem w e (s.me.vr r)
    let int (sg : Bool) (k : Nat) : Int := if sg && decide (2 ^ (n - 1) ≤ k) then (k : Int) - 2 ^ n else k
    let i (r : VReg) (e : Nat) : Int := int signed (u r e)
    let lo : Int := if signed then -(2 ^ (n - 1)) else 0
    let hi : Int := if signed then 2 ^ (n - 1) - 1 else 2 ^ n - 1
    let gives (j : Instr) (f : Nat → Int) : Prop :=
      GivesElems s (exec j s) d p w fun e => ((f e % 2 ^ n).toNat, 0)
    let dot (k : Nat) (e : Nat) : Nat × Events :=
      let sum : Int := ((List.range k).map fun j => i a (k * e + j) * i b (k * e + j)).sum
      ((((vElem 4 e (s.me.vr d) : Nat) + sum) % 2 ^ 32).toNat, 0)
    gives (.vadd d a b p t) (fun e => i a e + i b e) ∧ gives (.vsub d a b p t) (fun e => i a e - i b e) ∧
    gives (.vmul d a b p t) (fun e => i a e * i b e) ∧ gives (.vma d a b p t) (fun e => i d e + i a e * i b e) ∧
    gives (.vmin d a b p t) (fun e => min (i a e) (i b e)) ∧ gives (.vmax d a b p t) (fun e => max (i a e) (i b e)) ∧
    gives (.vand d a b p t) (fun e => (u a e &&& u b e : Nat)) ∧ gives (.vor d a b p t) (fun e => (u a e ||| u b e : Nat)) ∧
    gives (.vxor d a b p t) (fun e => (u a e ^^^ u b e : Nat)) ∧
    gives (.vandn d a b p t) (fun e => (u a e &&& (2 ^ n - 1 - u b e) : Nat)) ∧
    gives (.vshl d a b p t) (fun e => (u a e * 2 ^ (u b e % n) : Nat)) ∧
    gives (.vshr d a b p t) (fun e => i a e / 2 ^ (u b e % n)) ∧
    gives (.vabs d a p t) (fun e => ((int true (u a e)).natAbs : Int)) ∧ gives (.vneg d a p t) (fun e => -(u a e : Int)) ∧
    gives (.vaddsat d a b p t) (fun e => max lo (min hi (i a e + i b e))) ∧
    gives (.vsubsat d a b p t) (fun e => max lo (min hi (i a e - i b e))) ∧
    gives (.vmulh d a b p t) (fun e => i a e * i b e / 2 ^ n) ∧
    (w = 1 → GivesElems s (exec (.vdot4 d a b p t) s) d p 4 (dot 4)) ∧
    (w = 2 → GivesElems s (exec (.vdot2 d a b p t) s) d p 4 (dot 2))

/-- 09, R193, R195, R197, R202: the element-wise forms on floats, and the special functions; each active element takes the
operation's result, rounded by `frm`; the events of the active elements are gathered. `vdot2` sums its three terms exactly
and rounds once, as every sum of many terms does (the sign of a zero sum: log 19). The special cases of R202 stand as it
gives them (what the functions give elsewhere: log 11). -/
def Obligations.VectorFloatForms : Prop :=
  ∀ (d a b : VReg) (p : PReg) (t : VType) (s : State), t.isFloat = true →
    let w := t.width
    let n := 8 * w
    let f : Fmt := if t = .f16 then fmtH else fmtS
    let rm := rmOf s.me.frm
    let u (r : VReg) (e : Nat) : Nat := vElem w e (s.me.vr r)
    let x (r : VReg) (e : Nat) : Fv := f.decode (u r e)
    let gives (j : Instr) (op : Nat → Nat × Events) : Prop := GivesElems s (exec j s) d p w op
    gives (.vadd d a b p t) (fun e => f.addF rm (x a e) (x b e)) ∧
    gives (.vsub d a b p t) (fun e => f.subF rm (x a e) (x b e)) ∧
    gives (.vmul d a b p t) (fun e => f.mulF rm (x a e) (x b e)) ∧
    gives (.vma d a b p t) (fun e => f.fmaF rm (x a e) (x b e) (x d e)) ∧
    gives (.vmin d a b p t) (fun e => f.pick true (u a e) (u b e)) ∧
    gives (.vmax d a b p t) (fun e => f.pick false (u a e) (u b e)) ∧
    gives (.vabs d a p t) (fun e => (u a e % 2 ^ (n - 1), 0)) ∧
    gives (.vneg d a p t) (fun e => ((u a e + 2 ^ (n - 1)) % 2 ^ n, 0)) ∧
    gives (.vrcp d a p t) (fun e => f.divF rm (.fin false 1 0) (x a e)) ∧ gives (.vrsq d a p t) (fun e => f.rsqF rm (x a e)) ∧
    gives (.vexp2 d a p t) (fun e => f.exp2F rm (x a e)) ∧ gives (.vlog2 d a p t) (fun e => f.log2F rm (x a e)) ∧
    gives (.vsin d a p t) (fun e => f.sinF rm (x a e)) ∧ gives (.vcos d a p t) (fun e => f.cosF rm (x a e)) ∧
    (t = .f16 → GivesElems s (exec (.vdot2 d a b p t) s) d p 4 fun e =>
      let t0 := termOf (x a (2 * e)) (x b (2 * e))
      let t1 := termOf (x a (2 * e + 1)) (x b (2 * e + 1))
      let r := fmtS.sumTerms rm [fmtS.decode (vElem 4 e (s.me.vr d)), t0.1, t1.1]
      (r.1, r.2 ||| t0.2 ||| t1.2)) ∧
    f.SumsOnce rm ∧
    ∀ (neg : Bool) (m : Nat) (e : Int), 0 < m →
      let sg (q : Bool) : Nat := if q then f.signBit else 0
      let one : Nat := f.bias.toNat * 2 ^ f.mb
      f.rsqF rm (.fin neg 0 e) = (sg neg + f.infBits, evDZ) ∧ f.rsqF rm (.fin true m e) = (f.nan, evNV) ∧
      f.rsqF rm (.inf false) = (0, 0) ∧ f.exp2F rm (.fin neg 0 f.qmin) = (one, 0) ∧ f.exp2F rm (.inf true) = (0, 0) ∧
      f.exp2F rm (.inf false) = (f.infBits, 0) ∧ f.log2F rm (.fin neg 0 e) = (f.signBit + f.infBits, evDZ) ∧
      f.log2F rm (.fin true m e) = (f.nan, evNV) ∧ f.log2F rm (.fin false (2 ^ m) (-m)) = (0, 0) ∧
      f.log2F rm (.inf false) = (f.infBits, 0) ∧ f.sinF rm (.inf neg) = (f.nan, evNV) ∧
      f.cosF rm (.inf neg) = (f.nan, evNV) ∧ f.sinF rm (.fin neg 0 e) = (sg neg, 0) ∧ f.cosF rm (.fin neg 0 e) = (one, 0) ∧
      f.sinF rm (.fin neg m 0) = (0, 0) ∧ f.cosF rm (.fin neg m 0) = (one, 0) ∧
      f.sinF rm (.fin false 1 (-2)) = (one, 0) ∧ f.cosF rm (.fin false 1 (-1)) = (f.signBit + one, 0)

/-- 09, R196, R198, R199, R203, R204: the forms that move, pack and encode elements raise no event.

09, R200, R201: the reductions take the active elements alone, and add as `vdot2` does (the sign of a zero sum: log 19); the
conversions convert the elements that both types hold, and give 0 beyond. -/
def Obligations.VectorMovesAndReductions : Prop :=
  (∀ (d a b : VReg) (xd xa xb : XReg) (p : PReg) (t : VType) (half : BitVec 1) (s : State),
    let w := t.width
    let n := 16 / w
    let h := 4 * w
    let signed : Bool := t = .ib || t = .ih || t = .iw
    let u (r : VReg) (e : Nat) : Nat := vElem w e (s.me.vr r)
    let int (k m : Nat) : Int := if signed && decide (2 ^ (k - 1) ≤ m) then (m : Int) - 2 ^ k else m
    let low : Nat := (s.me.xr xa).toNat % 2 ^ (8 * w)
    let amount := (s.me.xr xb).toNat
    let lo : Int := if signed then -(2 ^ (h - 1)) else 0
    let hi : Int := if signed then 2 ^ (h - 1) - 1 else 2 ^ h - 1
    (∃ v, GivesV s (exec (.vsel d a b p t) s) d v ∧
      ∀ e, e < n → vElem w e v = if (s.me.pr p).getLsbD (w * e) then u a e else u b e) ∧
    GivesElems s (exec (.vbcast d xa p t) s) d p w (fun _ => (low, 0)) ∧
    (∃ v, GivesV s (exec (.vmovx d xa xb t) s) d v ∧ ∀ e, e < n → vElem w e v = if e = amount % n then low else u d e) ∧
    GivesX s (exec (.vextx xd a xb t) s) xd (BitVec.ofInt 64 (int (8 * w) (u a (amount % n)))) ∧
    GivesElems s (exec (.vperm d a b p t) s) d p w (fun e => (u a (u b e % n), 0)) ∧
    GivesElems s (exec (.vrot d a xb p t) s) d p w (fun e => (u a ((e + amount) % n), 0)) ∧
    (∃ v : V128, GivesV s (exec (.vpack d a b t) s) d v ∧ ∀ e, e < 2 * n →
      let from' := if e < n then u a e else u b (e - n)
      (bitsAt v.toNat (h * e) h : Int) = max lo (min hi (int (8 * w) from')) % 2 ^ h) ∧
    (∃ v, GivesV s (exec (.vunpack d a half t) s) d v ∧ ∀ e, e < n →
      (vElem w e v : Int) = int h (bitsAt (s.me.vr a).toNat (64 * half.toNat + h * e) h) % 2 ^ (8 * w)) ∧
    (∃ v : V128, GivesV s (exec (.venc12 d a b p) s) d v ∧ v.toNat / 2 ^ 96 = 0 ∧ ∀ i, i < 8 →
      bitsAt v.toNat (12 * i) 12 =
        if (s.me.pr p).getLsbD (2 * i) then
          roundE12 (mulAddExact (fmtH.decode (vElem 2 i (s.me.vr a))) (fmtH.decode (vElem 2 0 (s.me.vr b)))
            (fmtH.decode (vElem 2 1 (s.me.vr b))))
        else bitsAt (s.me.vr d).toNat (12 * i) 12)) ∧
  (∀ (xd : XReg) (d a : VReg) (p : PReg) (t : VType) (bf : Bool) (c : BitVec 4) (s : State),
    let w := t.width
    let f : Fmt := if t = .f16 then fmtH else fmtS
    let rm := rmOf s.me.frm
    let signed : Bool := t = .ib || t = .ih || t = .iw
    let bits : List Nat := ((List.range (16 / w)).filter fun e => (s.me.pr p).getLsbD (w * e)).map fun e => vElem w e (s.me.vr a)
    let ints : List Int := bits.map fun k => if signed && decide (2 ^ (8 * w - 1) ≤ k) then (k : Int) - 2 ^ (8 * w) else k
    let least : Int := if signed then -(2 ^ (8 * w - 1)) else 0
    let greatest : Int := if signed then 2 ^ (8 * w - 1) - 1 else 2 ^ (8 * w) - 1
    (t.isFloat = false →
      GivesX s (exec (.vredadd xd a p t) s) xd (BitVec.ofInt 64 ints.sum) ∧
      (∃ r : Int, GivesX s (exec (.vredmin xd a p t) s) xd (BitVec.ofInt 64 r) ∧ (∀ i ∈ ints, r ≤ i) ∧
        (r ∈ ints ∨ r = greatest)) ∧
      (∃ r : Int, GivesX s (exec (.vredmax xd a p t) s) xd (BitVec.ofInt 64 r) ∧ (∀ i ∈ ints, i ≤ r) ∧
        (r ∈ ints ∨ r = least))) ∧
    (t.isFloat = true →
      (∃ r, GivesFpX s (exec (.vredadd xd a p t) s) xd (BitVec.ofNat 64 r.1) r.2 ∧
        r = if bits = [] then (0, 0) else f.sumTerms rm (bits.map f.decode)) ∧ f.SumsOnce rm ∧
      (∃ r, GivesFpX s (exec (.vredmin xd a p t) s) xd (BitVec.ofNat 64 r.1) r.2 ∧ r = f.pickAll true bits ∧
        (bits = [] → r = (f.infBits, 0))) ∧
      (∃ r, GivesFpX s (exec (.vredmax xd a p t) s) xd (BitVec.ofNat 64 r.1) r.2 ∧ r = f.pickAll false bits ∧
        (bits = [] → r = (f.signBit + f.infBits, 0)))) ∧
    (let src := cvtSource c
     let dst : CvtType := if bf then .bf else .t t
     GivesElems s (exec (.vcvt d a bf c p t) s) d p dst.width fun e =>
       if e < min (16 / src.width) (16 / dst.width) then
         let k := vElem src.width e (s.me.vr a)
         match src.fmt?, dst.fmt? with
         | none, none => ((max (loInt dst.signed (8 * dst.width)) (min (hiInt dst.signed (8 * dst.width))
             (intElem src.signed (8 * src.width) k)) % 2 ^ (8 * dst.width)).toNat, 0)
         | none, some g => g.ofIntF rm (intElem src.signed (8 * src.width) k)
         | some g, some g' => if src = dst ∧ src ≠ .bf then (k, 0) else g'.convert rm (g.decode k)
         | some g, none =>
           let r := toIntF rm (loInt dst.signed (8 * dst.width)) (hiInt dst.signed (8 * dst.width)) (g.decode k)
           ((r.1 % 2 ^ (8 * dst.width)).toNat, r.2)
       else (0, 0)))

/-- 09, R205, R206: a compare sets every predicate bit of an element alike, and clears those of an inactive one; the
predicate forms. A condition on integers is the order of T's signedness and raises nothing; on floats it is the order of the
values, −0 equal to +0, and a NaN makes all but `ne` false, with NV for `lt` and `le` and for a signalling one.

09, R208-R211: the narrow forms. `vqma` adds to each accumulator one rounded partial (08, R183), the exact scaled sum when
every value is finite; `vqdec` and `vqenc` act on the elements from FIRST on, and raise ILLEGAL, with no effect, when these
exceed the register. A decoded code times the scale is rounded once.

08, R178, R179, R189, R190: the value of a scale; the code of a number is the nearest of a sorted window of numbers, the even
one of two that are as near in a window that rises, and a NaN takes the `qnan` code; at the ends of the search ±∞ and a
window of NaNs take the even code. -/
def Obligations.PredicateAndNarrowForms : Prop :=
  (∀ (d pa pb p : PReg) (xd xa : XReg) (a b : VReg) (t : VType) (c : Cond) (s : State),
    let w := t.width
    let q : Nat → Bool × Events := fun e => vCond t c (vElem w e (s.me.vr a)) (vElem w e (s.me.vr b))
    let act (e : Nat) : Bool := (s.me.pr p).getLsbD (w * e)
    let ev := unionEvents (16 / w) act fun e => (q e).2
    (s.eventsPass ev → Completes s (exec (.vcmp d a b p t c) s) fun t' =>
      t'.fflags = s.me.fflags ||| ev ∧
      (∀ e j, e < 16 / w → j < w → (t'.pr d).getLsbD (w * e + j) = (decide (d = 0) || (act e && (q e).1))) ∧
      (∀ r, r ≠ d → t'.pr r = s.me.pr r) ∧ t' = { s.me.marksOf t' with p := t'.p, fflags := t'.fflags }) ∧
    GivesP s (exec (.pand d pa pb) s) d (s.me.pr pa &&& s.me.pr pb) ∧
    GivesP s (exec (.por d pa pb) s) d (s.me.pr pa ||| s.me.pr pb) ∧
    GivesP s (exec (.pxor d pa pb) s) d (s.me.pr pa ^^^ s.me.pr pb) ∧
    GivesP s (exec (.pnot d pa) s) d (BitVec.allOnes 16 ^^^ s.me.pr pa) ∧
    GivesP s (exec (.pmov d xa) s) d (BitVec.ofNat 16 (s.me.xr xa).toNat) ∧
    GivesX s (exec (.pget xd pa) s) xd (BitVec.ofNat 64 (s.me.pr pa).toNat) ∧
    GivesX s (exec (.pcnt xd pa) s) xd
      (BitVec.ofNat 64 ((List.range 16).filter fun i => (s.me.pr pa).getLsbD i).length)) ∧
  (∀ (d a b : VReg) (c : XReg) (na nb nf : NFmt) (ff : FFmt) (n : BitVec 5) (s : State),
    let k := s.core s.myCore
    let bits (f : NFmt) : Nat := match f with
      | .t8 => 8 | .t6 => 6 | .t4 => 4
    let code (f : NFmt) (r : VReg) (i : Nat) : Nat := bitsAt (s.me.vr r).toNat (bits f * i) (bits f)
    let sa := s20Value (s.me.xr c).toNat
    let sb := s20Value ((s.me.xr c).toNat / 2 ^ 20)
    let f : Fmt := if ff = .f16 then fmtH else fmtS
    let m := if ff = .f16 then 8 else 4
    let size := if nf = .t4 then 32 else 16
    let terms (j : Nat) : List Fv := (List.range 16).map fun i =>
      codeTerm (k.qt.val na (code na a (if na = .t4 then 16 * j + i else i)))
        (k.qt.val nb (code nb b (if nb = .t4 then 16 * j + i else i)))
    (∃ v : V128, GivesV s (exec (.vqma d a b c na nb) s) d v ∧
      (∀ j, j < 2 → j = 0 ∨ na = .t4 ∨ nb = .t4 →
        bitsAt v.toNat (64 * j) 64 =
          (fmtA56.addF .rne (fmtA56.decode (bitsAt (s.me.vr d).toNat (64 * j) 56))
            (fmtA56.decode (blockPartial (terms j) sa sb))).1) ∧
      (na ≠ .t4 → nb ≠ .t4 → bitsAt v.toNat 64 64 = bitsAt (s.me.vr d).toNat 64 64)) ∧
    (∀ ts : List Fv, (∀ x, x ∈ sa :: sb :: ts → x.isNan = false ∧ x.isInf = false) →
      (ts.map Fv.rat).sum * sa.rat * sb.rat ≠ 0 →
        ∃ ev, fmtA56.RoundsTo .rne ((ts.map Fv.rat).sum * sa.rat * sb.rat) (blockPartial ts sa sb, ev)) ∧
    (n.toNat + m ≤ size →
      (let r (i : Nat) : Nat × Events := qdecElem f (rmOf s.me.frm) (k.qt.val nf (code nf a (n.toNat + i))) sa
       let ev := unionEvents m (fun _ => true) fun i => (r i).2
       s.eventsPass ev → Completes s (exec (.vqdec d a n c nf ff) s) fun t =>
         (∀ i, i < m → vElem (16 / m) i (t.vr d) = (r i).1 % 2 ^ (128 / m)) ∧ t.fflags = s.me.fflags ||| ev ∧
           (∀ q, q ≠ d → t.vr q = s.me.vr q) ∧ t = { s.me.marksOf t with v := t.v, fflags := t.fflags }) ∧
      (∃ v : V128, GivesV s (exec (.vqenc d a n c ff nf) s) d v ∧ (nf = .t6 → v.toNat / 2 ^ 96 = 0) ∧
        ∀ i, i < size → bitsAt v.toNat (bits nf * i) (bits nf) =
          if n.toNat ≤ i ∧ i < n.toNat + m then
            let y := qencArg (f.decode (vElem (16 / m) (i - n.toNat) (s.me.vr a))) sa
            encodeTn k nf y.1 y.2 % 2 ^ bits nf
          else code nf d i)) ∧
    (size < n.toNat + m →
      Faults s (exec (.vqdec d a n c nf ff) s) .illegal (wordValue (.vqdec d a n c nf ff)) ∧
      Faults s (exec (.vqenc d a n c ff nf) s) .illegal (wordValue (.vqenc d a n c ff nf)))) ∧
  (∀ (t : VType) (c : Cond) (x y : Nat), x < 2 ^ (8 * t.width) → y < 2 ^ (8 * t.width) →
    let r := vCond t c x y
    let signed : Bool := t = .ib || t = .ih || t = .iw
    let int (k : Nat) : Int := if signed && decide (2 ^ (8 * t.width - 1) ≤ k) then (k : Int) - 2 ^ (8 * t.width) else k
    let f : Fmt := if t = .f16 then fmtH else fmtS
    let a := f.decode x
    let b := f.decode y
    (t.isFloat = false → r.2 = 0 ∧ (r.1 = true ↔
      match c with
      | .eq => int x = int y
      | .ne => int x ≠ int y
      | .lt => int x < int y
      | .le => int x ≤ int y)) ∧
    (t.isFloat = true → a.isNan = false → b.isNan = false → r.2 = 0 ∧ (r.1 = true ↔
      match c with
      | .eq => ¬ a.Less b ∧ ¬ b.Less a
      | .ne => a.Less b ∨ b.Less a
      | .lt => a.Less b
      | .le => ¬ b.Less a)) ∧
    (t.isFloat = true → a.isNan = true ∨ b.isNan = true → (r.1 = true ↔ c = .ne) ∧
      (c = .lt ∨ c = .le ∨ a.isSnan = true ∨ b.isSnan = true → r.2 = evNV) ∧
      (c = .eq ∨ c = .ne → a.isSnan = false → b.isSnan = false → r.2 = 0))) ∧
  (∀ w : Nat,
    let g := s20Value w
    let e : Nat := w % 2 ^ 20 / 4096
    let q : ℚ := (w % 4096 : Nat)
    (e = 0 → g.isNan = false ∧ g.isInf = false ∧ g.rat = q / 4096 * 2 ^ (-126 : Int)) ∧
    (e ≠ 0 → e ≠ 255 → g.isNan = false ∧ g.isInf = false ∧ g.rat = (1 + q / 4096) * 2 ^ ((e : Int) - 127)) ∧
    (e = 255 → (w % 4096 = 0 → g = .inf false) ∧ (w % 4096 ≠ 0 → g.isNan = true))) ∧
  (∀ f ∈ [fmtH, fmtS], ∀ (rm : Rm) (y g : Fv),
    let r := qdecElem f rm y g
    let arg := qencArg y g
    let infinite (x : Fv) : Prop := x.isInf = true
    let term := codeTerm y g
    (y.isNan = true ∨ g.isNan = true → term.isNan = true) ∧
    (y.isNan = false → g.isNan = false →
      ((infinite y ∧ g.isZero = true) ∨ (infinite g ∧ y.isZero = true) → term.isNan = true) ∧
      (infinite y ∨ infinite g → y.isZero = false → g.isZero = false → term = .inf (y.neg? != g.neg?)) ∧
      (¬ infinite y → ¬ infinite g → term.isNan = false ∧ term.isInf = false ∧ term.rat = y.rat * g.rat)) ∧
    (y.isNan = true ∨ g.isNan = true → r = (f.nan, 0) ∧ arg.1.isNan = true) ∧
    (y.isNan = false → g.isNan = false →
      ((infinite y ∧ g.isZero = true) ∨ (infinite g ∧ y.isZero = true) → r = (f.nan, evNV)) ∧
      (infinite y ∨ infinite g → y.isZero = false → g.isZero = false →
        r = ((if y.neg? = g.neg? then 0 else f.signBit) + f.infBits, 0)) ∧
      (¬ infinite y → ¬ infinite g → y.rat * g.rat ≠ 0 → f.RoundsTo rm (y.rat * g.rat) r) ∧
      (g.isZero = true → (y.isZero = true → arg.1.isNan = true) ∧ (y.isZero = false → arg.1 = .inf y.neg?)) ∧
      (infinite g → (infinite y → arg.1.isNan = true) ∧ (¬ infinite y → arg.1.isZero = true ∧ arg.1.neg? = y.neg?)) ∧
      (¬ infinite g → g.isZero = false → arg.1 = y ∧ (arg.2.n : ℚ) * 2 ^ arg.2.e = g.rat))) ∧
  ∀ (k : Core) (nf : NFmt) (y : Fv) (sc : Dy), 0 < sc.n →
    let n := if nf = .t8 then 256 else if nf = .t6 then 64 else 16
    let val (c : Nat) : Fv := k.qt.val nf c
    let r := encodeTn k nf y sc
    let away (c : Nat) : ℚ := |y.rat - (val c).rat * (sc.n * 2 ^ sc.e)|
    let numbers : Prop := ∀ c, c < n → (val c).isNan = false ∧ (val c).isInf = false
    (y.isNan = true → r = match nf with
      | .t8 => k.qnan8.toNat
      | .t6 => k.qnan6.toNat
      | .t4 => k.qnan4.toNat) ∧
    (y.isNan = false → (∀ c, c < n → (val c).isNan = true) → r = n - 2) ∧
    (numbers → (y = .inf false → r = n - 2) ∧ (y = .inf true → r = 0)) ∧
    (numbers → y.isNan = false → y.isInf = false → (∀ c, c + 1 < n → (val c).rat ≤ (val (c + 1)).rat) →
      r < n ∧ (∀ c, c < n → away r ≤ away c) ∧
      ((∀ c, c + 1 < n → (val c).rat < (val (c + 1)).rat) → ∀ c, c < n → c ≠ r → away c = away r → r % 2 = 0))

/-- 10, R219-R221: the forms that build a direction. VOID first; `drefl` and `dproj` of a ZERO db copy da; `dcross` needs
dimension 3; otherwise the exact vector of R219 is renormalised (R216).

10, R222-R226: the forms that read, scale or copy a direction. -/
def Obligations.DirectionForms : Prop :=
  (∀ (d a b : DReg) (v : VReg) (c : XReg) (s : State),
    let k := s.me.dim
    let x := s.me.dr a
    let y := s.me.dr b
    let t := fmtS.decode ((s.me.xr c).toNat % 2 ^ 32)
    let void : Bool := x.isVoid || y.isVoid
    let dot : Dy := sumTo (fun i => (x.value i).mul (y.unit i)) k
    let lane (i : Nat) : Fv := fmtH.decode (vElem 2 i (s.me.vr v))
    let cross (i j : Nat) : Dy := ((x.value i).mul (y.value j)).sub ((x.value j).mul (y.value i))
    (void = true → ∀ i ∈ [Instr.dadd d a b, .dsub d a b, .drefl d a b, .dproj d a b, .dcross d a b, .dmix d a b c],
      GivesD s (exec i s) d DirReg.void) ∧
    (void = false →
      GivesD s (exec (.dadd d a b) s) d (renorm k fun i => (x.value i).add (y.value i)) ∧
      GivesD s (exec (.dsub d a b) s) d (renorm k fun i => (x.value i).sub (y.value i)) ∧
      (y.isZero = true → ∃ r, GivesD s (exec (.drefl d a b) s) d r ∧ GivesD s (exec (.dproj d a b) s) d r ∧
        r.norm = x.norm ∧ ∀ i, i < 7 → r.stored i = if i < k then x.lane i else 0) ∧
      (y.isZero = false →
        GivesD s (exec (.drefl d a b) s) d (renorm k fun i => (x.value i).sub (dot.mul (y.unit i)).double) ∧
        GivesD s (exec (.dproj d a b) s) d (renorm k fun i => (x.value i).sub (dot.mul (y.unit i)))) ∧
      (k ≠ 3 → GivesD s (exec (.dcross d a b) s) d DirReg.void) ∧
      (k = 3 → GivesD s (exec (.dcross d a b) s) d
        (renorm 3 fun i => if i = 0 then cross 1 2 else if i = 1 then cross 2 0 else cross 0 1)) ∧
      (t.isNan = true ∨ t.isInf = true → GivesD s (exec (.dmix d a b c) s) d DirReg.void) ∧
      (t.isNan = false → t.isInf = false → GivesD s (exec (.dmix d a b c) s) d
        (renorm k fun i => (((Dy.ofInt 1).sub t.dy).mul (x.value i)).add (t.dy.mul (y.value i))))) ∧
    ((∃ i, i < k ∧ ((lane i).isNan = true ∨ (lane i).isInf = true)) → GivesD s (exec (.dvec d v) s) d DirReg.void) ∧
    ((∀ i, i < k → (lane i).isNan = false ∧ (lane i).isInf = false) →
      GivesD s (exec (.dvec d v) s) d (renorm k fun i => (lane i).dy)) ∧
    ∃ r, GivesD s (exec (.dnorm d a) s) d r ∧
      (x.ordinary = false → r.norm = x.norm ∧ ∀ i, i < 7 → r.stored i = 0) ∧
      (x.ordinary = true → (∀ i, i < k → x.lane i = 0) → r = DirReg.zero) ∧
      (x.ordinary = true → (∃ i, i < k ∧ x.lane i ≠ 0) →
        r = { renorm k (fun i => Dy.ofInt (x.lane i)) with norm := x.norm })) ∧
  (∀ (d a b : DReg) (v : VReg) (xd xb : XReg) (s : State),
    let k := s.me.dim
    let x := s.me.dr a
    let y := s.me.dr b
    let low : BitVec 16 := BitVec.ofNat 16 (s.me.xr xb).toNat
    let sum : Int := x.norm.toInt + low.toInt
    let sq : Int := ((List.range k).map fun i => x.stored i * x.stored i).sum
    let lanesOf (r : DirReg) (f : Int → Int) : Prop := ∀ i, i < 7 → r.stored i = if i < k then f (x.stored i) else 0
    (x.ordinary = false → ∃ r, GivesD s (exec (.dscl d a xb) s) d r ∧ GivesD s (exec (.dneg d a) s) d r ∧
      GivesD s (exec (.dsetn d a xb) s) d r ∧ r.norm = x.norm ∧ ∀ i, i < 7 → r.stored i = 0) ∧
    (x.ordinary = true →
      (32766 < sum → GivesD s (exec (.dscl d a xb) s) d DirReg.void) ∧
      (sum ≤ 32766 → ∃ r, GivesD s (exec (.dscl d a xb) s) d r ∧ lanesOf r id ∧ r.norm.toInt = max (-32767) sum) ∧
      (∃ r, GivesD s (exec (.dneg d a) s) d r ∧ lanesOf r (fun q => min 32767 (-q)) ∧ r.norm = x.norm) ∧
      (∃ r, GivesD s (exec (.dsetn d a xb) s) d r ∧ r.norm = low ∧
        (low ≠ 0x8000 → low ≠ 0x7FFF → lanesOf r id) ∧ (low = 0x8000 ∨ low = 0x7FFF → lanesOf r fun _ => 0))) ∧
    GivesX s (exec (.dmovn xd a) s) xd (BitVec.ofInt 64 x.norm.toInt) ∧
    (∃ w : Word, GivesX s (exec (.dtst xd a) s) xd w ∧ w.toNat < 32 ∧ (w.getLsbD 0 = true ↔ x.norm = 0x8000) ∧
      (w.getLsbD 1 = true ↔ x.norm = 0x7FFF) ∧
      (w.getLsbD 2 = true ↔ x.ordinary = true ∧ (k : Int) * 2 ^ 15 < |sq - 2 ^ 28|) ∧
      (w.getLsbD 3 = true ↔ ∃ i, k ≤ i ∧ i < 7 ∧ x.stored i ≠ 0) ∧
      (w.getLsbD 4 = true ↔ (x.ordinary = false ∧ ∃ i, i < 7 ∧ x.stored i ≠ 0) ∨
        (x.ordinary = true ∧ ∀ i, i < k → x.stored i = 0))) ∧
    (∃ w : V128, GivesV s (exec (.dmov v a) s) v w ∧ ∀ i, i < 8 → vElem 2 i w =
      if i < k then (if x.isVoid then 0x7E00 else (fmtH.roundDy .rne (x.value i)).1) else 0) ∧
    (x.isVoid = true ∨ y.isVoid = true → GivesX s (exec (.ddot xd a b) s) xd 0x7FC00000) ∧
    (x.isVoid = false → y.isVoid = false → x.isZero = true ∨ y.isZero = true → GivesX s (exec (.ddot xd a b) s) xd 0) ∧
    (x.ordinary = true → y.ordinary = true →
      let c : ℚ := max (-1) (min 1 ((((List.range k).map fun i => x.stored i * y.stored i).sum : Int) / 2 ^ 28))
      ∃ r : Nat × Events, GivesX s (exec (.ddot xd a b) s) xd (BitVec.ofNat 64 r.1) ∧
        (c = 0 → r.1 = 0) ∧ (c ≠ 0 → fmtS.RoundsTo .rne c r)))

/-- 10, R212, R215: a result of renormalisation of the vectors that R219 to R221 form from registers is ZERO or VOID with all
its components zero, or its components meet the bound of R215 and those from k on are zero. The vectors are any whose
components are no longer than 2^300 and that are multiples of 2^-500: every vector of those rules is. -/
def Obligations.RenormalisedBound : Prop :=
  ∀ (k : Nat) (x : Nat → Dy), 2 ≤ k → k ≤ 7 → (∀ i, i < k → -500 ≤ (x i).e ∧ (x i).n.natAbs * 2 ^ ((x i).e + 500).toNat ≤ 2 ^ 800) →
    let r := renorm k x
    let sq : Int := ((List.range k).map fun i => r.stored i * r.stored i).sum
    (∀ i, k ≤ i → i < 7 → r.stored i = 0) ∧ (r.ordinary = false → ∀ i, i < 7 → r.stored i = 0) ∧
    (r.ordinary = true → |sq - 2 ^ 28| ≤ (k : Int) * 2 ^ 15) ∧
    ((∀ i, i < k → (x i).n = 0) ↔ r.isZero = true)

/-- 10, R231-R237: the ray forms. Out of range they report OOR and read nothing; misaligned in range they raise ALIGN; and
else they load the record, each field a read of its own, the child references of `rbox` of 8 bytes and every other of 4, and
write its result, and no hit when the ray is bad. An empty child is never hit. On finite operands a child is hit exactly when
the ray is in its box at some t from 0 to tmax, with the least such t, rounded down, as its entry; a triangle is hit exactly
when the ray meets it, at t rounded to nearest, or tmax when that is less, from behind when it runs with the normal.

13, R300-R305: `tsetup` and `tinterp` need a 16-byte-aligned record and load its vertices; `tcover` tests the 64 subpixel
centres of its block, exactly; a control word with a bit above 26 raises ACCESS. (That the record's alignment is checked
first, and a record's failure reports its address, is the model's reading, log 49.) The edges of a snapped triangle, and each
interpolated value as the exact quotient rounded once, are those of R301, R302 and R304.

13, R305, R306: `texld`. A misaligned descriptor raises ALIGN and a malformed one ENGFORMAT. When every page of the texels of
the level that lod names is resident, the sample of that level is written, with lane 7 at 1.0; when the last level is that
level, a page of it is absent and pages are never fetched, vd takes 0. The residency bits are read at their home, and the
texels after them. The texels and weights of a level are those of R306, and each channel is the weighted sum rounded once. -/
def Obligations.RayRasterAndTexelForms : Prop :=
  (∀ (d c : XReg) (a : VReg) (b : DReg) (s s1 : State) (bs : List Byte), s.whole →
    let w := s.me.xr c
    let r := s.me.ray a b
    let lane (i : Nat) : Fv := fmtS.decode (vElem 4 i (s.me.vr a))
    let isBad : Bool := !(s.me.dr b).ordinary || (lane 3).isNan ||
      (List.range 3).any fun i => (lane i).isNan || (lane i).isInf
    let badBit : Nat := if isBad then 2 ^ 36 else 0
    let inRange (z : Nat) : Prop :=
      s.me.bvhhi = 0 ∨ (s.me.bvhlo.toNat ≤ w.toNat ∧ w.toNat + z ≤ s.me.bvhhi.toNat)
    let out : Word := BitVec.ofNat 64 (badBit + 2 ^ 35 + 0x7F800000)
    let none' : Nat := 0x7F800000
    let fields (z : Nat) : ReadKind := { ReadKind.plain with size := 4, wide := some (w.toNat + z) }
    let at' (n : Nat) : List (Word × Nat) := (List.range n).map fun i => (w + BitVec.ofNat 64 (16 * i), 16)
    (¬ inRange 64 → GivesX s (exec (.rbox d a b c) s) d out) ∧ (¬ inRange 48 → GivesX s (exec (.rtri d a b c) s) d out) ∧
    (inRange 64 → w.toNat % 64 ≠ 0 → Faults s (exec (.rbox d a b c) s) .align w) ∧
    (inRange 48 → w.toNat % 16 ≠ 0 → Faults s (exec (.rtri d a b c) s) .align w) ∧
    (inRange 64 → w.toNat % 64 = 0 → s.takesBy (fields 0x30) (at' 4) = some (s1, bs) → Loads s (exec (.rbox d a b c) s)
      (Strand.GotX d (BitVec.ofNat 64 (badBit + if isBad then none' else rboxHit r bs)) s.me)) ∧
    (inRange 48 → w.toNat % 16 = 0 → s.takesBy (fields 48) (at' 3) = some (s1, bs) → Loads s (exec (.rtri d a b c) s)
      (Strand.GotX d (BitVec.ofNat 64 (badBit + if isBad then none' else rtriHit r bs)) s.me)) ∧
    ∀ rec : List Byte,
      (fieldAt rec 0x30 8 = 0 → (rboxHit r rec).testBit 32 = false) ∧
      (fieldAt rec 0x38 8 = 0 → (rboxHit r rec).testBit 33 = false) ∧
      ((rboxHit r rec).testBit 32 = false → (rboxHit r rec).testBit 33 = false → rboxHit r rec = none') ∧
      ((rtriHit r rec).testBit 32 = false → rtriHit r rec = none') ∧
      ((∀ i, i < 3 → (r.org i).isNan = false ∧ (r.org i).isInf = false) → r.tmax.isNan = false → r.tmax.isInf = false →
        ((∀ i, i < 12 → finiteAt rec (4 * i)) →
          let hit := rboxHit r rec
          let in0 := r.inBox rec 0 0x30
          let in1 := r.inBox rec 0x18 0x38
          hit < 2 ^ 35 ∧ (hit.testBit 32 = true ↔ ∃ t, in0 t) ∧ (hit.testBit 33 = true ↔ ∃ t, in1 t) ∧
          (hit.testBit 34 = true ↔ ∃ t, in1 t ∧ ∀ u, in0 u → t < u) ∧
          (∀ t, (if hit.testBit 34 = true then in1 else in0) t →
            ∃ e ev, (if hit.testBit 34 = true then in1 else in0) e ∧
              (∀ u, (if hit.testBit 34 = true then in1 else in0) u → e ≤ u) ∧
              fmtS.IsRounding .rdn false (e : ℝ) (hit % 2 ^ 32, ev))) ∧
        ((∀ i, i < 9 → finiteAt rec (4 * i)) →
          let hit := rtriHit r rec
          hit < 2 ^ 34 ∧ (hit.testBit 32 = true ↔ ∃ t, r.meetsTri rec t) ∧
          (hit.testBit 33 = true ↔ (∃ t, r.meetsTri rec t) ∧ 0 < r.facing rec) ∧
          ∀ t m, r.meetsTri rec t → m < fmtS.infBits → r.tmax = fmtS.decode m →
            ∃ k ev, fmtS.IsRounding .rne false (t : ℝ) (k, ev) ∧ hit % 2 ^ 32 = min k m))) ∧
  (∀ (vd : VReg) (g : VGroup) (d a b : XReg) (s s1 : State) (bs : List Byte), s.whole →
    let w := s.me.xr a
    let c := (s.me.xr b).toNat
    let vertices : List Word := (List.range 6).map fun i => w + 16 + BitVec.ofNat 64 (16 * i)
    let px : Int := 16384 * (c / 2 ^ 12 % 128 : Nat) + 256 * (c % 64 : Nat) + 128
    let py : Int := 16384 * (c / 2 ^ 19 % 128 : Nat) + 256 * (c / 64 % 64 : Nat) + 128
    let reg (i : Nat) : Nat := (s.me.vr (groupReg g i)).toNat
    let int (n bits : Nat) : Int := if bits < 2 ^ (n - 1) then bits else (bits : Int) - 2 ^ n
    (w.toNat % 16 ≠ 0 → Faults s (exec (.tsetup g a b) s) .align w ∧ Faults s (exec (.tinterp vd a b) s) .align w) ∧
    (w.toNat % 16 = 0 → 2 ^ 27 ≤ c → Faults s (exec (.tinterp vd a b) s) .access (s.me.xr b)) ∧
    (w.toNat % 16 = 0 → s.takesBy { ReadKind.plain with size := 4 } ((vertices.map fun v => (v, 16)) ++ [(w, 4)]) = some (s1, bs) →
      Loads s (exec (.tsetup g a b) s) fun t =>
        (∀ i, i < 4 → t.vr (groupReg g i) = (setupRegs (bs.take 96) (c % 2 ^ 14) (leNat (bs.drop 96))).getD i 0) ∧
        (∀ r, (∀ i, i < 4 → r ≠ groupReg g i) → t.vr r = s.me.vr r) ∧ t = { s.me.marksOf t with v := t.v }) ∧
    (∃ m : Word, GivesX s (exec (.tcover d g b) s) d m ∧ ∀ i, i < 64 →
      let x : Int := 256 * (8 * (c % 8) + i % 8 : Nat) + 128
      let y : Int := 256 * (8 * (c / 8 % 8) + i / 8 : Nat) + 128
      (m.getLsbD i = true ↔ (reg 3).testBit 64 = false ∧ ∀ e, e < 3 →
        0 ≤ int 32 (bitsAt (reg e) 0 32) * x + int 32 (bitsAt (reg e) 32 32) * y + int 64 (bitsAt (reg e) 64 64))) ∧
    (w.toNat % 16 = 0 → c < 2 ^ 27 → 
      s.takesBy { ReadKind.plain with size := 4 } (vertices.map fun v => (v, 16)) = some (s1, bs) →
      Loads s (exec (.tinterp vd a b) s) fun t => ∃ v : V128, Strand.GotV vd v s.me t ∧
        (snapTri bs = none → ∀ i, i < 4 → vElem 4 i v = 0x7FC00000) ∧
        ∀ q, snapTri bs = some q → ∀ i, i < 4 →
          vElem 4 i v = if c < 2 ^ 26 then (interpolate bs q px py).getD i 0 % 2 ^ 32
            else if i = 0 then (interpolate bs q px py).getD 4 0 % 2 ^ 32 else 0)) ∧
  (∀ (d a : VReg) (b : XReg) (s s1 s2 s3 : State) (bs bits data : List Byte), s.whole →
    let w := s.me.xr b
    let x := texDesc bs
    let lane (i : Nat) : Fv := fmtS.decode (vElem 4 i (s.me.vr a))
    let l := texLod x.nlev (lane 2)
    let ts := x.texels (texArg (lane 0)) (texArg (lane 1)) l
    let pages := (ts.map fun t => t.off / 65536).dedup
    let there : Prop := ∀ i, i < pages.length → (bits.getD i 0).getLsbD (pages.getD i 0 % 8) = true
    let run := exec (.texld d a b) s
    (w.toNat % 32 ≠ 0 → Faults s run .align w) ∧
    (w.toNat % 32 = 0 → s.takesEach 16 [w, w + 16] = some (s1, bs) →
      (texOk bs = false → s.me.waitsAlone → s.me.tvec ≠ 0 → s.me.entry = false →
        ∃ s', run = .next s' ∧ OnlyMeAndViews s s' ∧ Strand.Entered Cause.engformat.code w s.me.pc s.me s'.me) ∧
      (texOk bs = true →
        s1.takesBy { ReadKind.plain with home := true } (pages.map fun p => (BitVec.ofNat 64 (x.resmap + p / 8), 1)) =
          some (s2, bits) →
        (there → s2.takesEach x.bpt (ts.map fun t => BitVec.ofNat 64 (x.base + t.off)) = some (s3, data) →
          Fetches s run (Strand.GotV d
            (texResult x.half ts ((List.range ts.length).map fun i => (data.drop (x.bpt * i)).take x.bpt) l l) s.me)) ∧
        (¬ there → x.nlev = l + 1 → x.stream = 0 → Fetches s run (Strand.GotV d 0 s.me))))) ∧
  (∀ (bs : List Byte) (X Y : Nat → Int) (tile primno : Nat) (px py : Int),
    let n (e : Nat) : Nat := (e + 1) % 3
    let A (e : Nat) : Int := Y e - Y (n e)
    let B (e : Nat) : Int := X (n e) - X e
    let C (e : Nat) : Int := X e * Y (n e) - X (n e) * Y e
    let D : Int := A 0 * X 2 + B 0 * Y 2 + C 0
    let sg : Int := if D < 0 then -1 else 1
    let at' (e : Nat) (x y : Int) : Int := A e * x + B e * y + C e
    let regs := setupRegs bs tile primno
    let v (i f : Nat) : ℚ := (f32At bs (32 * i + 4 * f)).rat
    let lam (i : Nat) : ℚ := at' (n i) px py
    let sum (f : Nat → ℚ) : ℚ := f 0 + f 1 + f 2
    let out (q : Tri) (i : Nat) : Nat := (interpolate bs q px py).getD i 0
    primno < 2 ^ 32 →
    let far (o : Nat) : Prop := finiteAt bs o ∧ ∃ K, IntRounding .rne (256 * (f32At bs o).rat) K ∧ 2 ^ 23 ≤ |K|
    ((∃ i, i < 3 ∧ (¬ (finiteAt bs (32 * i) ∧ finiteAt bs (32 * i + 4)) ∨ far (32 * i) ∨ far (32 * i + 4))) ∨
        (Snapped bs X Y ∧ D = 0) →
      snapTri bs = none ∧ regs = [0, 0, 0, BitVec.ofNat 128 (primno * 2 ^ 96 + 2 ^ 64)]) ∧
    (Snapped bs X Y → D ≠ 0 →
      (∀ e, e < 3 →
        let r : Nat := (regs.getD e 0).toNat
        let c : Int := sg * at' e (16384 * (tile % 128 : Nat)) (16384 * (tile / 128 : Nat))
        let left : Prop := 0 < sg * A e ∨ (A e = 0 ∧ 0 < sg * B e)
        (bitsAt r 0 32 : Int) = sg * A e % 2 ^ 32 ∧ (bitsAt r 32 32 : Int) = sg * B e % 2 ^ 32 ∧
          (left → (bitsAt r 64 64 : Int) = c % 2 ^ 64) ∧ (¬ left → (bitsAt r 64 64 : Int) = (c - 1) % 2 ^ 64)) ∧
      (regs.getD 3 0).toNat = primno * 2 ^ 96 + (if D < 0 then 2 ^ 65 else 0) + D.natAbs ∧
      ∃ q, snapTri bs = some q ∧
        ((∀ i f, i < 3 → f < 8 → finiteAt bs (32 * i + 4 * f)) →
          fmtS.NearestTo (sum (fun i => lam i * v i 2) / D) (out q 0) ∧
          (sum (fun i => lam i * v i 3) = 0 → ∀ j, j < 4 → out q (1 + j) = 0x7FC00000) ∧
          (sum (fun i => lam i * v i 3) ≠ 0 → ∀ j, j < 4 →
            fmtS.NearestTo (sum (fun i => lam i * v i 3 * v i (4 + j)) / sum (fun i => lam i * v i 3)) (out q (1 + j)))))) ∧
  ∀ (x : TexDesc) (u v : Dy) (ts : List Texel) (data : List (List Byte)) (m l c : Nat), m < 16 → c < 4 →
    let W : Nat := 2 ^ (x.logw - m)
    let H : Nat := 2 ^ (x.logh - m)
    let s : ℚ := u.rat * W - 1 / 2
    let t : ℚ := v.rat * H - 1 / 2
    let coord (clamp : Bool) (n : Int) (size : Nat) : Nat :=
      (if clamp then max 0 (min ((size : Int) - 1) n) else n % size).toNat
    let one (di dj : Nat) : Nat × ℚ :=
      (x.loff m + (coord x.clampV (⌊t⌋ + dj) H * W + coord x.clampU (⌊s⌋ + di) W) * (if x.half then 8 else 4),
        (if di = 0 then 1 - (s - ⌊s⌋) else s - ⌊s⌋) * (if dj = 0 then 1 - (t - ⌊t⌋) else t - ⌊t⌋))
    let channel (half : Bool) : Nat := vElem 2 c (texResult half ts data m l)
    let sum (f : List Byte → ℚ) : ℚ := ((ts.zip data).map fun y => y.1.weight.rat * f y.2).sum
    let texel (bs : List Byte) : Fv := fmtH.decode (fieldAt bs (2 * c) 2)
    ((x.texels u v m).map fun y => (y.off, y.weight.rat)) =
      [one 0 0, one 1 0, one 0 1, one 1 1].filter (fun y => decide (y.2 ≠ 0)) ∧
    (∀ half : Bool, (fmtH.decode (vElem 2 4 (texResult half ts data m l))).rat = m ∧
      vElem 2 5 (texResult half ts data m l) = 0 ∧ vElem 2 6 (texResult half ts data m l) = 0 ∧
      vElem 2 7 (texResult half ts data m l) = if m = l then 0x3C00 else 0) ∧
    (ts.length = data.length → (∀ y ∈ ts, 0 < y.weight.n) →
      fmtH.NearestTo (sum fun bs => (fieldAt bs c 1 : ℚ) / 255) (channel false) ∧
      ((∀ bs ∈ data, (texel bs).isNan = false ∧ (texel bs).isInf = false) → sum (fun bs => (texel bs).rat) ≠ 0 →
        fmtH.NearestTo (sum fun bs => (texel bs).rat) (channel true)) ∧
      ((∃ bs ∈ data, (texel bs).isNan = true) → channel true = 0x7E00))

/-- 16, R341, R343, R344; 02, R33; 15, R325: a send to a destination that cannot be reached raises MSGADDR. With room in the
core's send queue it joins the queue and xd takes 0; with none, `.nb` gives −1 and the other form waits with the message of
its issue. A message takes a release at the smallest scope that holds both ends, which the strand's entries owe from then on,
and `mpoll` of a mailbox that holds one acquires. Stated where every write has reached all parties.

16, R339, R340, R342, R345-R347: `mpoll` counts the messages held. A receive from an empty mailbox waits, or gives −1 with
`.nb`; from one that holds a message it takes the oldest: the header to xd, the 64 bytes to the group, TAIL on by one and no
other byte of memory changed (stated where no strand waits for TAIL). These are stated for a control block that can be read
(11, R252). `recvn` names the neighbour in xa[1:0] and raises MSGADDR past an edge; on an empty edge mailbox it gives −2 for
a limit of 0 and waits for another. -/
def Obligations.Messages : Prop :=
  (∀ (d a b : XReg) (g : VGroup) (m : MBox) (nb : Bool) (s : State),
    let w := s.me.xr a
    let c := s.core s.myCore
    let group : List Byte := (List.range 4).flatMap fun i => leBytes (s.me.vr (groupReg g i)).toNat 16
    let dest := bitsAt w.toNat 0 14
    let n := if w.getLsbD 18 then 4 else if s.myCore = dest then 1 else if sheafOf s.myCore = sheafOf dest then 2 else 3
    s.level → ∀ q ∈ [(Instr.send d a b m nb, leBytes (s.me.xr b).toNat 8), (.sendv d a g m nb, group)],
      let run := exec q.1 s
      (s.destOk w = false → Faults s run .msgaddr w) ∧
      (s.destOk w = true → ∃ msg : Msg,
        msg.len = q.2.length ∧ msg.data = (q.2 ++ List.replicate 64 0).take 64 ∧ msg.mbox = m ∧ msg.ctx = s.me.ctx ∧
        msg.src = BitVec.ofNat 16 s.cur ∧ msg.dest = BitVec.ofNat 14 (bitsAt w.toNat 0 14) ∧
        msg.rel = s.me.buf.map (fun e => e.seq) ∧
        (c.sendQ.length < 8 → Ends s run fun s' => Strand.GotX d 0 (s.me.owing n) s'.me ∧ (∀ k, k ≠ s.myCore → s'.core k = s.core k) ∧
          s'.core s.myCore = { c with sendQ := c.sendQ ++ [{ msg := msg, refused := false, onLink := false }] }) ∧
        (8 ≤ c.sendQ.length → (nb = true → GivesX s run d (BitVec.allOnes 64)) ∧
          (nb = false → Waits (s.setMe (s.me.owing n)) run (.send msg d))))) ∧
  (∀ (d a c : XReg) (g : VGroup) (m : MBox) (nb : Bool) (s : State),
    let k := s.myCore
    let n := s.mboxCount k m.toNat
    let w := s.me.xr a
    let dir := w.toNat % 4
    let got (h : Header) (bs : List Byte) (t : Strand) : Prop :=
      t.xr d = (if d = 0 then 0 else BitVec.ofNat 64 (h.len + h.src.toNat * 2 ^ 16 + h.dev.toNat * 2 ^ 32 + h.ctx.toNat * 2 ^ 36)) ∧
        (∀ i, i < 4 → t.vr (groupReg g i) = BitVec.ofNat 128 (fieldAt bs (16 * i) 16)) ∧
        (∀ r, r ≠ d → t.xr r = s.me.xr r) ∧ (∀ r, (∀ i, i < 4 → r ≠ groupReg g i) → t.vr r = s.me.vr r) ∧
        t = { s.me.marksOf t with x := t.x, v := t.v }
    let blockOk : Prop := s.poisoned (mboxLoc k m.toNat) = false ∧ s.poisoned (mboxLoc k m.toNat + 8) = false
    (blockOk → Ends s (exec (.mpoll d m) s) fun s' => Strand.GotX d (BitVec.ofNat 64 n) s.me s'.me ∧
      (0 < n → s'.core k = { s.core k with l1 := [] }) ∧ (n = 0 → s'.core k = s.core k)) ∧
    (blockOk → n = 0 → nb = true → GivesX s (exec (.recv d g m nb) s) d (BitVec.allOnes 64)) ∧
    (blockOk → n = 0 → nb = false → Waits s (exec (.recv d g m nb) s) (.recv m d g)) ∧
    (∀ h, blockOk → n ≠ 0 →
      let slot := s.mboxTail k m.toNat % s.mboxSlots k m.toNat
      let at' := localLoc k (s.mboxBase k m.toNat - 0x100000 + 64 * slot)
      let tail (l : Nat) : Prop := mboxLoc k m.toNat + 12 ≤ l ∧ l < mboxLoc k m.toNat + 16
      Table.get? (s.core k).hdr (64 * m.toNat + slot) = some h → (∀ i, i < 8 → s.poisoned (at' + 8 * i) = false) →
      s.canonical = true → s.level → (∀ e ∈ s.strands, ∀ ls v, e.2.wait = some (.word ls v) → ∀ l, tail l → l ∉ ls) →
      (∀ l, tail l → s.inOwnMap l = false) →
      ∃ s', exec (.recv d g m nb) s = .next s' ∧ Strand.InLine s.me s'.me ∧ got h (s.mem.bytes at' 64) s'.me ∧
        s'.mboxTail k m.toNat = (s.mboxTail k m.toNat + 1) % 2 ^ 32 ∧
        ∀ l, ¬ tail l → s'.mem.byte l = s.mem.byte l) ∧
    (neighbour k dir = none → Faults s (exec (.recvn d a g c) s) .msgaddr w) ∧
    (neighbour k dir ≠ none →
      (∀ h bs t, Table.getD (s.core k).edge dir [] = (h, bs) :: t →
        Ends s (exec (.recvn d a g c) s) fun s' => got h bs s'.me ∧ Table.getD (s'.core k).edge dir [] = t) ∧
      (Table.getD (s.core k).edge dir [] = [] →
        (s.me.xr c = 0 → GivesX s (exec (.recvn d a g c) s) d (BitVec.ofInt 64 (-2))) ∧
        (s.me.xr c ≠ 0 → Waits s (exec (.recvn d a g c) s) (.recvn dir (s.me.xr c).toNat d g)))))

/-- 16, R334, R336-R338: `binit` sets a point that is not set, or that no arrival of the current phase has entered; it raises
BARSTATE otherwise, and for a count past the point's limit. `barr` gives the phase that it enters and raises BARSTATE at a
point that is not set, and at an AUTO point whose current phase the strand has entered before; an arrival that makes the
count complete passes the phase. `bwait` goes on, with an acquire, exactly when the phase has passed. An arrival takes a
release at the point's scope. Stated where no strand stands in a wait and every write has reached all parties.

16, R355-R357: the key forms, on a key whose table holds an entry `e` at place `i`, or none. `kinit` makes an entry or sets
NEXT of one that is neither held nor awaited. `kenter` at NEXT of a key that none holds is granted at once, with 1 in xd
exactly when the section was abandoned; ahead of NEXT it joins the waiters, of a new entry with NEXT 0 where there was none;
behind it, or with a number in use, it raises KEYORDER. `kleave` by the holder and `kskip` of NEXT move NEXT on, once the
entries that their release covers have drained; `kskip` ahead is kept; `kfree` drops an entry that nothing uses. -/
def Obligations.BarriersAndKeys : Prop :=
  (∀ (d a : XReg) (b : BPoint) (s : State) (la : Launch), Table.get? s.launches s.me.launch = some la →
    let key := pointKey s.myCore b
    let p := la.point key
    let w := s.me.xr a
    let limit := if b.toNat < 16 then 64 else 36864
    let count : Option Nat := if w = 0 then none else some w.toNat
    let same (q : Point) (s' : State) : Prop := Strand.Same s.me s'.me ∧ (∀ c, s'.core c = s.core c) ∧
      s'.launches = Table.set s.launches s.me.launch { la with points := Table.set la.points key q }
    let here : Nat := p.entered p.phase
    (limit < w.toNat → Faults s (exec (.binit a b) s) .barstate w) ∧
    (w.toNat ≤ limit →
      (p.init = false →
        Ends s (exec (.binit a b) s) (same { init := true, count := count, phase := 0, arrivals := [] })) ∧
      (p.init = true → p.count = count → Completes s (exec (.binit a b) s) (Strand.Same s.me)) ∧
      (p.init = true → p.count ≠ count → here = 0 → Ends s (exec (.binit a b) s) (same { p with count := count })) ∧
      (p.init = true → p.count ≠ count → here ≠ 0 → Faults s (exec (.binit a b) s) .barstate w)) ∧
    (p.init = false → Faults s (exec (.barr d b) s) .barstate (BitVec.ofNat 64 b.toNat) ∧
      Faults s (exec (.bwait a b) s) .barstate (BitVec.ofNat 64 b.toNat)) ∧
    (p.init = true → recSstep la.bytes = false → p.count = none → (∃ x ∈ p.arrivals, x.phase = p.phase ∧ x.uid = s.me.uid) →
      Faults s (exec (.barr d b) s) .barstate (BitVec.ofNat 64 b.toNat)) ∧
    (p.init = true → recSstep la.bytes = false → s.level → (∀ e ∈ s.strands, e.2.wait = none) →
      (p.count = none → ∀ x ∈ p.arrivals, x.phase = p.phase → x.uid ≠ s.me.uid) →
      ∃ ph : BitVec 32, (p.count = none → ph = p.phase) ∧ (∀ n, p.count = some n → here < n → ph = p.phase) ∧
        Ends s (exec (.barr d b) s) fun s' =>
          Strand.GotX d (BitVec.ofNat 64 ph.toNat) (s.me.owing (if b.toNat < 16 then 2 else 3)) s'.me ∧
          ∃ la', Table.get? s'.launches s.me.launch = some la' ∧
            (∀ n, p.count = some n → here + 1 < n →
              (la'.point key).phase = p.phase ∧ (la'.point key).arrivals.length = p.arrivals.length + 1) ∧
            (∀ n, p.count = some n → here + 1 = n → s.me.buf = [] →
              (∀ x ∈ p.arrivals, x.phase = p.phase ∧ x.counted = true) →
                (la'.point key).phase = p.phase + 1 ∧ (la'.point key).arrivals = [])) ∧
    (p.init = true →
      let gone := (p.phase - BitVec.ofNat 32 w.toNat).toNat
      (1 ≤ gone ∧ gone < 2 ^ 31 → Ends s (exec (.bwait a b) s) fun s' => Strand.Same s.me s'.me ∧
        s'.core s.myCore = { s.core s.myCore with l1 := [] }) ∧
      (gone = 0 ∨ 2 ^ 31 ≤ gone →
        Waits s (exec (.bwait a b) s) (.phase s.me.launch key (BitVec.ofNat 32 w.toNat))))) ∧
  (∀ (d a b : XReg) (s : State),
    let k := s.me.xr a
    let n := BitVec.ofNat 32 (s.me.xr b).toNat
    let u := s.me.uid
    let keys (l : List KeyEntry) (s' : State) : Prop := Strand.Same s.me s'.me ∧ s'.keys = l ∧ ∀ c, s'.core c = s.core c
    let kept (l : List KeyEntry) (s' : State) : Prop :=
      Strand.Same (s.me.owing (if k.getLsbD 63 then 1 else 3)) s'.me ∧ s'.keys = l ∧ ∀ c, s'.core c = s.core c
    (s.keyIdx s.myCore k = none →
      let e := KeyEntry.new s.myCore k n
      (s.keyRoom s.myCore k = true → Ends s (exec (.kinit a b) s) (keys (s.keys ++ [e]))) ∧
      (s.keyRoom s.myCore k = false → Waits s (exec (.kinit a b) s) (.keyRoom k)) ∧
      (s.keyRoom s.myCore k = true → n = 0 → s.heldCount u < 4 →
        Ends s (exec (.kenter d a b) s) fun s' => Strand.GotX d 0 s.me s'.me ∧
          s'.keys = s.keys ++ [{ e with holder := some (u, n) }]) ∧
      (s.keyRoom s.myCore k = true → n ≠ 0 → n.toNat < 2 ^ 31 → s.heldCount u < 4 → s.waiterRoom s.myCore k = true →
        ∃ s', exec (.kenter d a b) s = .next s' ∧ s'.me.wait = some (.key k n d) ∧ s'.me.pc = s.me.pc ∧
          s'.keys = s.keys ++ [{ KeyEntry.new s.myCore k 0 with waiters := [(u, n)], made := true }]) ∧
      Faults s (exec (.kleave a) s) .keyorder k ∧ Faults s (exec (.kskip a b) s) .keyorder k ∧
      Completes s (exec (.kfree a) s) (Strand.Same s.me)) ∧
    ∀ (i : Nat) (e : KeyEntry), s.keyIdx s.myCore k = some i → s.keys[i]? = some e →
      let used : Prop := e.behind n = true ∨ (∃ h, e.holder = some (h, n)) ∨ (∃ h, (h, n) ∈ e.waiters) ∨ n ∈ e.skips ∨
        n ∈ e.ctxSkips
      let mine : Prop := (∃ m, e.holder = some (u, m)) ∨ (∃ m, (u, m) ∈ e.waiters) ∨ 4 ≤ s.heldCount u
      (e.holder = none → e.waiters = [] →
        Ends s (exec (.kinit a b) s) (keys (s.keys.set i { e with next := n, skips := [], ctxSkips := [], made := false }))) ∧
      (e.holder ≠ none ∨ e.waiters ≠ [] → Faults s (exec (.kinit a b) s) .keyorder k) ∧
      (used ∨ mine → Faults s (exec (.kenter d a b) s) .keyorder k) ∧
      (¬ used → ¬ mine → e.holder = none → e.next = n → Ends s (exec (.kenter d a b) s) fun s' =>
        Strand.GotX d (if e.abandoned then 1 else 0) s.me s'.me ∧
          s'.keys = s.keys.set i { e with holder := some (u, n), abandoned := false, made := false } ∧
          (k.getLsbD 63 = false → s'.core s.myCore = { s.core s.myCore with l1 := [] })) ∧
      (¬ used → ¬ mine → e.holder ≠ none ∨ e.next ≠ n → s.waiterRoom s.myCore k = true →
        ∃ s', exec (.kenter d a b) s = .next s' ∧ s'.me.wait = some (.key k n d) ∧ s'.me.pc = s.me.pc ∧
          s'.keys = s.keys.set i { e with waiters := e.waiters ++ [(u, n)] }) ∧
      (¬ used → ¬ mine → e.holder ≠ none ∨ e.next ≠ n → s.waiterRoom s.myCore k = false →
        Waits s (exec (.kenter d a b) s) (.keyRoom k)) ∧
      (s.level → (∃ m, e.holder = some (u, m)) → e.leaving = none →
        (s.me.buf ≠ [] → Ends s (exec (.kleave a) s)
          (kept (s.keys.set i { e with leaving := some (s.me.buf.map fun q => q.seq) }))) ∧
        (s.me.buf = [] → e.skips = [] → e.ctxSkips = [] → (∀ x ∈ e.waiters, x.2 ≠ e.next + 1) → Ends s (exec (.kleave a) s)
          (keys (s.keys.set i { e with holder := none, leaving := none, next := e.next + 1 })))) ∧
      ((∀ m, e.holder ≠ some (u, m)) → Faults s (exec (.kleave a) s) .keyorder k) ∧
      (used → Faults s (exec (.kskip a b) s) .keyorder k) ∧
      (s.level → ¬ used → e.skips.length + e.skipping.length < 8 →
        (s.me.buf ≠ [] → Ends s (exec (.kskip a b) s)
          (kept (s.keys.set i { e with skipping := e.skipping ++ [(u, n, s.me.buf.map fun q => q.seq)], made := false }))) ∧
        (s.me.buf = [] → e.next ≠ n ∨ e.holder ≠ none → Ends s (exec (.kskip a b) s)
          (keys (s.keys.set i { e with skips := e.skips ++ [n], made := false }))) ∧
        (s.me.buf = [] → e.next = n → e.holder = none → e.skips = [] → e.ctxSkips = [] →
          (∀ x ∈ e.waiters, x.2 ≠ e.next + 1) →
          Ends s (exec (.kskip a b) s) (keys (s.keys.set i { e with next := e.next + 1, made := false })))) ∧
      (e.holder = none → e.waiters = [] → e.skips = [] → e.ctxSkips = [] → e.skipping = [] →
        Ends s (exec (.kfree a) s) (keys (s.keys.eraseIdx i))) ∧
      (e.holder ≠ none ∨ e.waiters ≠ [] ∨ e.skips ≠ [] ∨ e.ctxSkips ≠ [] ∨ e.skipping ≠ [] →
        Faults s (exec (.kfree a) s) .keyorder k))

/-- 16, R348-R354: the work-queue forms and `spawn`. A queue that may not be named raises ACCESS. `qpop` takes the oldest
full slot, gives −1 at the end of work, and on an empty queue waits, or gives −2 with `.nb`. `qpush` raises ALIGN for a
misaligned record; to a closed queue it gives 2; with room it appends the record: to a launch queue, as its last, with the
strand for its origin, or (04, R94) to the sheaf-local path; to a work queue, its 128 bytes in the first FREE slot from
PUSHED on (which FREE slot it takes is the model's choice, log 24), the slot FULL and PUSHED up by one. `qclose` sets CLOSED
once the strand's entries have drained. A `qpush` to a full queue gives 1 with `.nb` and otherwise waits with its record, as
one does, full or not, whose strand has entries that its release covers; that one appends once they have drained. `spawn`
gives −1 with no slot, and otherwise starts a strand at its pc with its argument, in the strand's launch. The queue forms are
stated for an entry that can be read (11, R252).

21, R406, R407: `emit` raises ALIGN, ACCESS for the buffer or ACCESS for the request word; with no group it does nothing;
with a group of a pending emission it waits; and otherwise its emission joins the core's, its time rounded up to 10 ns.
`emitq` gives the groups whose last byte has not been read, the groups pending, the late groups and the time of the last
swap.

15, R325-R328: `qclose` and `qpush` take a release at field scope, `spawn` at sheaf scope and `emit` at core scope. Stated
where every write has reached all parties. -/
def Obligations.QueueAndEmissionForms : Prop :=
  (∀ (d a b : XReg) (nb : Bool) (s : State),
    let w := s.me.xr a
    let y := s.me.xr b
    let q := w.toNat
    let s1 := s.freeTaken [s.me.uid]
    let close : State := s.setMe s.me.done
    let clean : Prop := s.workBad w = none
    (clean → s.workOk w = false → Faults s (exec (.qpop d a nb) s) .access w ∧ Faults s (exec (.qclose a) s) .access w) ∧
    (clean → s.workOk w = true →
      (∀ i, s1.wqOldest q = some i → s.me.wait = none → s.quiet ((List.range 8).map fun j => s.wqEntry q + 24 + j) →
        ∃ s', exec (.qpop d a nb) s = .next s' ∧ Strand.InLine s.me s'.me ∧
          Strand.GotX d (BitVec.ofNat 64 (s.wqBase q + 128 * i)) s.me s'.me ∧
          Table.get? (Table.getD s'.wq q []) i = some (.taken s.me.uid) ∧
          s'.wqField q 24 8 = (s.wqField q 24 8 + 1) % 2 ^ 64 ∧
          ∀ l, l < s.wqEntry q + 24 ∨ s.wqEntry q + 32 ≤ l → s'.mem.byte l = s.mem.byte l) ∧
      (s1.wqOldest q = none → s.wqClosed q = true → Ends s (exec (.qpop d a nb) s) fun s' =>
        Strand.GotX d (BitVec.allOnes 64) s.me s'.me ∧ s'.wq = s1.wq) ∧
      (s1.wqOldest q = none → s.wqClosed q = false → nb = true → Ends s (exec (.qpop d a nb) s) fun s' =>
        Strand.GotX d (BitVec.ofInt 64 (-2)) s.me s'.me ∧ s'.wq = s1.wq) ∧
      (s1.wqOldest q = none → s.wqClosed q = false → nb = false → Waits s1 (exec (.qpop d a nb) s) (.pop q d)) ∧
      (s.level → s.me.buf = [] → exec (.qclose a) s = .next (close.wqClose q) ∧
        (s.quiet [s.wqEntry q + 14, s.wqEntry q + 15] → (∀ e ∈ s.strands, ∀ r, e.2.wait ≠ some (.pop q r)) →
          ∃ s', exec (.qclose a) s = .next s' ∧ Strand.InLine s.me s'.me ∧ Strand.Same s.me s'.me ∧ s'.wqClosed q = true ∧
            s'.wqValid q = s.wqValid q ∧
            ∀ l, l ≠ s.wqEntry q + 14 → l ≠ s.wqEntry q + 15 → s'.mem.byte l = s.mem.byte l)) ∧
      (s.level → s.me.buf ≠ [] → exec (.qclose a) s =
        .next { s.setMe (s.me.owing 3).done with closes := s.closes ++ [(q, s.me.uid, s.me.buf.map fun e => e.seq)] })) ∧
    (clean → (∀ p r src set, s.me.wait ≠ some (.push p r src set)) →
      (64 ≤ q → s.workOk w = false → Faults s (exec (.qpush d a b nb) s) .access w) ∧
      (q < 64 ∨ s.workOk w = true → y.toNat % 128 ≠ 0 → Faults s (exec (.qpush d a b nb) s) .align y) ∧
      (y.toNat % 128 = 0 → s.whole → ∀ s2 r,
        s.takesEach 16 ((List.range 8).map fun i => y + BitVec.ofNat 64 (16 * i)) = some (s2, r) →
        let run := exec (.qpush d a b nb) s
        let stands (set : List Nat) : Prop := ∃ s', run = .next s' ∧ s'.me.wait = some (.push q r y set) ∧ s'.me.pc = s.me.pc ∧
          s'.me.instret = s.me.instret ∧ s'.me.x = s.me.x ∧ s'.me.buf = (s.me.owing 3).buf ∧
          (∀ l, s'.mem.byte l = s.mem.byte l) ∧ s'.queues = s.queues ∧ s'.wq = s.wq
        let full : Prop := (q < 64 ∧ s2.queueFull q = true) ∨
          (64 ≤ q ∧ s.workOk w = true ∧ s2.wqClosed q = false ∧ s2.wqFree q = none)
        (q < 64 ∨ s.workOk w = true → s.me.buf ≠ [] → stands (s.me.buf.map fun e => e.seq)) ∧
        (s.me.buf = [] → full → nb = false → stands []) ∧
        (s.me.buf = [] →
        (q < 64 → s2.queueFull q = false →
          (∃ s3, s3 = s2.submit q r y ∧ run = .next (s3.setMe (s3.me.setX d 0).done)) ∧
          ((0x8000 ≤ y.toNat ∧ y.toNat < 0x10000) ∨ 0x90000 ≤ y.toNat → ∃ s', run = .next s' ∧ Strand.InLine s.me s'.me ∧
            Strand.GotX d 0 s.me s'.me ∧ (∀ l, s'.mem.byte l = s.mem.byte l) ∧
            Table.getD s'.queues q [] = Table.getD s.queues q [] ++
              [{ bytes := r, origin := .strand s.cur s.me.uid s.me.ctx s.me.mode y, ctx := s.me.ctx }] ∧
            ∀ k, k ≠ q → Table.getD s'.queues k [] = Table.getD s.queues k [])) ∧
        (64 ≤ q → s.workOk w = true → s2.wqClosed q = true → Loads s run (Strand.GotX d 2 s.me)) ∧
        (64 ≤ q → s.workOk w = true → s2.wqClosed q = false → ∀ i, s2.wqFree q = some i →
          i < s.wqSlots q ∧ Table.get? (Table.getD s.wq q []) i = none ∧
          (∃ s3, s3 = s2.wqPush q i s.me.ctx r ∧ run = .next (s3.setMe (s3.me.setX d 0).done)) ∧
          ∀ p, s2.unitPhys (s.wqCtx q) (s.wqBase q + 128 * i) leafAny = some p →
            s.quiet (locsFrom p 128 ++ locsFrom (s.wqEntry q + 16) 8) →
            (∀ l ∈ locsFrom p 128, l < s.wqEntry q ∨ s.wqEntry q + 32 ≤ l) →
            (∀ e ∈ s.strands, ∀ x, e.2.wait ≠ some (.pop q x)) →
              ∃ s', run = .next s' ∧ Strand.InLine s.me s'.me ∧ Strand.GotX d 0 s.me s'.me ∧ s'.mem.bytes p 128 = r ∧
                s'.wqField q 0x10 8 = (s.wqField q 0x10 8 + 1) % 2 ^ 64 ∧
                (∃ k, Table.get? (Table.getD s'.wq q []) i = some (.full k)) ∧
                ∀ l, l ∉ locsFrom p 128 → l ∉ locsFrom (s.wqEntry q + 16) 8 → s'.mem.byte l = s.mem.byte l) ∧
        (full → nb = true → Loads s run (Strand.GotX d 1 s.me))))) ∧
    (∀ p r src set, s.me.wait = some (.push p r src set) →
      (s.drained set = false → Waits s (exec (.qpush d a b nb) s) (.push p r src set)) ∧
      (s.drained set = true → p < 64 → s.queueFull p = false → ∃ s0 s3, (set = [] → s0 = s) ∧
        (set ≠ [] → s0 = s.setMe { s.me with wait := none }) ∧ s3 = s0.submit p r src ∧
        exec (.qpush d a b nb) s = .next (s3.setMe (s3.me.setX d 0).done))) ∧
    (w.toNat % 4 ≠ 0 → Faults s (exec (.spawn d a b) s) .align w) ∧
    (w.toNat % 4 = 0 → ∀ la, Table.get? s.launches s.me.launch = some la →
      (s.spawnSlot la = none → GivesX s (exec (.spawn d a b) s) d (BitVec.allOnes 64)) ∧
      ∀ sid, s.spawnSlot la = some sid → s.imageBad la (coreOf sid) false = none → s.me.stat = .live → s.me.wait = none →
        s.level → (∀ e ∈ s.strands, e.2.wait = none) →
        ∃ s', exec (.spawn d a b) s = .next s' ∧ Strand.InLine s.me s'.me ∧
          Strand.GotX d (BitVec.ofNat 64 sid) (s.me.owing 2) s'.me ∧ sid ≠ s.cur ∧
          let t := s'.strand sid
          t.stat = .live ∧ t.pc = w ∧ t.launch = s.me.launch ∧ t.ctx = recCtx la.bytes ∧ t.xr 5 = y ∧
            t.xr 6 = BitVec.ofNat 64 s.cur ∧ t.stage = s.me.stage ∧ t.prio = s.me.prio ∧
            t.startRel = s.me.buf.map (fun e => e.seq))) ∧
  (∀ (d a b c : XReg) (s : State),
    let ad := s.me.xr a
    let w := s.me.xr c
    let k := s.core s.myCore
    let tile := bitsAt w.toNat 16 14
    let mask := BitVec.ofNat 8 w.toNat
    let busy : Prop := ∃ e ∈ k.emits, e.tile = tile ∧ e.mask &&& mask ≠ 0
    let run := exec (.emit a b c) s
    let inLocal : Prop := 0x100000 ≤ ad.toNat ∧ ad.toNat + 18432 ≤ 0x120000
    let wordOk : Prop := w.toNat < 2 ^ 30 ∧ bitsAt w.toNat 8 8 = 0 ∧ s.owner tile = some s.myCore
    let v := (s.me.xr a).toNat
    let mine : Prop := v < 2 ^ 14 ∧ s.owner v = some s.myCore
    (ad.toNat % 32 ≠ 0 → Faults s run .align ad) ∧
    (ad.toNat % 32 = 0 → ¬ inLocal → Faults s run .access ad) ∧
    (ad.toNat % 32 = 0 → inLocal → s.mapBad tile = none → ¬ wordOk → Faults s run .access w) ∧
    (ad.toNat % 32 = 0 → inLocal → s.mapBad tile = none → wordOk →
      (mask = 0 → Completes s run (Strand.Same s.me)) ∧
      (mask ≠ 0 → busy → Waits s run .emit) ∧
      (mask ≠ 0 → ¬ busy → s.level → Ends s run fun s' => Strand.Same (s.me.owing 1) s'.me ∧
        ∃ e : Emission, e.tile = tile ∧ e.mask = mask ∧ e.base = ad.toNat ∧ e.uid = s.me.uid ∧ e.ctx = s.me.ctx ∧
          e.stage = 0 ∧ e.read = [] ∧ e.rel = s.me.buf.map (fun q => q.seq) ∧ e.pol = k.latePol ∧
          e.time % 10 = 0 ∧ (s.me.xr b).toNat ≤ e.time ∧ e.time < (s.me.xr b).toNat + 10 ∧
          s' = State.settleEmits (State.setCore (s.setMe (s.me.owing 1).done) s.myCore { k with emits := k.emits ++ [e] }))) ∧
    (s.mapBad v = none → ¬ mine → Faults s (exec (.emitq d a) s) .access (s.me.xr a)) ∧
    (s.mapBad v = none → mine → ∃ x : Word, GivesX s (exec (.emitq d a) s) d x ∧ bitsAt x.toNat 0 32 = (s.tile v).swapT.toNat ∧
      bitsAt x.toNat 32 8 = 0 ∧ bitsAt x.toNat 40 8 = (s.tile v).lateg.toNat ∧
      ∀ g, g < 8 →
        (x.getLsbD (48 + g) = true ↔ ∃ e ∈ k.emits, e.tile = v ∧ e.mask.getLsbD g = true) ∧
        (x.getLsbD (56 + g) = true ↔ ∃ e ∈ k.emits, e.tile = v ∧ e.mask.getLsbD g = true ∧
          e.read.length / 32 < 72 * ((List.range (g + 1)).filter fun j => e.mask.getLsbD j).length)))

/-- 12, R274: `ewr` writes a descriptor register and `erd` reads one.

11, R267, R268; 12, R284, R285, R287: with room for its counter and its queues, an operation whose ranges the strand may
access is forked, with a release at the scope of its bytes (R269); that `ast` and `ald` wait while 16 copies are open is the
model's reading (log 48). The first byte of its ranges, in the order of R268, that a check turns away raises ENGADDR with its
address; after these checks the first byte written that R293 forbids raises MESHBOUND. A copy has the range of xa for its
source and that of xd for its destination, and its flag word at the first 8-byte boundary past these; an `ast` or `ald` has
the 64 elements of its tile. With no room each waits. A malformed control word raises ENGFORMAT and a misaligned address or
pitch ENGADDR.

12, R278-R280, R284: `acl` empties an accumulator that no operation names, and raises ENGSTATE for one that is named. `mgang`
and `mlut` check the descriptor, that the member is in its mask, the source sheaf and the offsets, in this order, and then
enter their arrival at the wired barrier and stand there: in a new group, or in the one of their mask; the arrival that makes
its group complete commits it, with the waits of all its members. -/
def Obligations.EngineForms : Prop :=
  (∀ (e : EReg) (d a : XReg) (s : State),
    Completes s (exec (.ewr e a) s) (Strand.GotEd e (s.me.xr a) s.me) ∧
    GivesX s (exec (.erd d e) s) d (s.me.edr e)) ∧
  (∀ (d a b : XReg) (t : AccReg) (c : CReg) (s s1 s2 s3 : State) (sl dl fl : List (List Nat)),
    let w := (s.me.xr b).toNat
    let src := (s.me.xr a).toNat
    let dst := s.me.xr d
    let n := bitsAt w 0 32
    let fmt := bitsAt w 20 2
    let pitch := bitsAt w 0 20
    let e := if fmt = 0 then 8 else if fmt = 1 then 4 else 2
    let elems (base : Nat) : List (Nat × Nat) := (List.range 64).map fun i => (base + i / 8 * pitch + i % 8 * e, e)
    let up (x : Word) : Nat := (x.toNat + 7) / 8 * 8 % 2 ^ 64
    let full : Prop := s.me.cr c = 255 ∨ 16 ≤ s.copiesIn (sheafOf s.myCore)
    let stalled : Prop := full ∨ 4 ≤ s.sliceCount s.myCore
    let flagged (fa : Nat) (on : Bool) (s s' : State) : Prop :=
      if on then s.reach .write [] [(fa, 8)] = some (s', fl) else s' = s ∧ fl = []
    let mesh (s' : State) (rs : List (Nat × Nat)) (fa : Nat) (on : Bool) : Prop :=
      ∀ r ∈ rs ++ (if on then [(fa, 8)] else []), s'.meshMay s'.me r.1 r.2 = true
    let flag (on : Bool) (v : Nat) : Option (List Nat × BitVec 32) := if on then some (fl.flatten, BitVec.ofNat 32 v) else none
    let scope (ls : List (List Nat)) : Nat := forkScope s.myCore ls.flatten
    let flagAt (fa : Nat) (on : Bool) : List (Acc × Nat × Nat) := if on then [(.write, fa, 8)] else []
    let turned (rs : List (Acc × Nat × Nat)) (run : Out) : Prop := ∀ s' b, s.reachFails rs = some (s', b) →
      OnlyMeAndViews s s' ∧ s'.strands = s.strands ∧ Faults s' run .engaddr (BitVec.ofNat 64 b)
    let bound (s' : State) (rs : List (Nat × Nat)) (fa : Nat) (on : Bool) (run : Out) : Prop :=
      (∀ r ∈ rs ++ (if on then [(fa, 8)] else []), s'.meshDark s'.me r.1 r.2 = none) →
      ∀ b, ((rs ++ (if on then [(fa, 8)] else [])).findSome? fun (r : Nat × Nat) => s'.meshBad s'.me r.1 r.2) = some b →
        OnlyMeAndViews s s' ∧ s'.strands = s.strands ∧ Faults s' run .meshbound (BitVec.ofNat 64 b)
    (full → Waits s (exec (.copy d a b c) s) .again) ∧
    (¬ full →
      let on := (s.me.xr b).getLsbD 63
      let fa := up (dst + BitVec.ofNat 64 n)
      let run := exec (.copy d a b c) s
      turned ([(.read, src, n), (.write, dst.toNat, n)] ++ flagAt fa on) run ∧
      (s.reach .read [] [(src, n)] = some (s1, sl) → s1.reach .write [] [(dst.toNat, n)] = some (s2, dl) →
      flagged fa on s2 s3 → bound s3 [(dst.toNat, n)] fa on run ∧ (mesh s3 [(dst.toNat, n)] fa on →
        Forks s run (scope (sl ++ dl ++ fl)) (.copy sl.flatten dl.flatten) (flag on (bitsAt w 32 31)) c))) ∧
    (stalled → Waits s (exec (.ast d t b c) s) .again ∧ Waits s (exec (.ald t a b c) s) .again) ∧
    (¬ stalled →
      (fmt = 3 ∨ bitsAt w 23 9 ≠ 0 → Faults s (exec (.ast d t b c) s) .engformat (s.me.xr b)) ∧
      (fmt = 3 ∨ bitsAt w 22 42 ≠ 0 → Faults s (exec (.ald t a b c) s) .engformat (s.me.xr b)) ∧
      (fmt ≠ 3 → bitsAt w 23 9 = 0 →
        let on := (s.me.xr b).getLsbD 22
        let fa := up (dst + BitVec.ofNat 64 (7 * pitch + 8 * e))
        (dst.toNat % e ≠ 0 ∨ pitch % e ≠ 0 → Faults s (exec (.ast d t b c) s) .engaddr dst) ∧
        (dst.toNat % e = 0 → pitch % e = 0 →
          turned ((elems dst.toNat).map (fun r => (.write, r)) ++ flagAt fa on) (exec (.ast d t b c) s)) ∧
        (dst.toNat % e = 0 → pitch % e = 0 → s.reach .write [] (elems dst.toNat) = some (s1, dl) → flagged fa on s1 s2 →
          bound s2 (elems dst.toNat) fa on (exec (.ast d t b c) s) ∧ (mesh s2 (elems dst.toNat) fa on →
            Forks s (exec (.ast d t b c) s) (scope (dl ++ fl)) (.ast t.toNat fmt s.me.frm dl) (flag on (bitsAt w 32 32)) c))) ∧
      (fmt ≠ 3 → bitsAt w 22 42 = 0 →
        (src % e ≠ 0 ∨ pitch % e ≠ 0 → Faults s (exec (.ald t a b c) s) .engaddr (s.me.xr a)) ∧
        (src % e = 0 → pitch % e = 0 → turned ((elems src).map fun r => (.read, r)) (exec (.ald t a b c) s)) ∧
        (src % e = 0 → pitch % e = 0 → s.reach .read [] (elems src) = some (s1, sl) →
          Forks s (exec (.ald t a b c) s) (scope sl) (.ald t.toNat fmt sl) none c)))) ∧
  (∀ (core : Nat) (locs : List Nat), core < 9216 →
    let own (l : Nat) : Prop := (∃ o, o < 0x8000 ∧ l = tcmLoc core o) ∨ ∃ o, o < 0x20000 ∧ l = localLoc core o
    ((∀ l ∈ locs, own l) → forkScope core locs = 1) ∧
    ((∀ l ∈ locs, isNear l = true) → (∃ l ∈ locs, isPad l = true) → forkScope core locs = 2) ∧
    ((∃ l ∈ locs, isNear l = false) → forkScope core locs = 3)) ∧
  (∀ (t : AccReg) (k : EGroup) (c : CReg) (s : State),
    let core := s.myCore
    let h := sheafOf core
    let g := s.me.gangDesc k
    let m := g.mask
    let named : Prop := ∃ o ∈ s.ops, o.stop = false ∧ o.names core t.toNat = true
    let full : Prop := s.me.cr c = 255 ∨ 4 ≤ s.sliceCount core ∨ (s.sheaf h).waitsOn core = true
    (named → Faults s (exec (.acl t) s) .engstate (BitVec.ofNat 64 t.toNat)) ∧
    (¬ named → Ends s (exec (.acl t) s) fun s' => Strand.Same s.me s'.me ∧ (∀ i, i ≠ core → s'.core i = s.core i) ∧
      s'.core core = (s.core core).setTile t.toNat (List.replicate 64 0)) ∧
    ∀ q ∈ [(Instr.mgang t k c, false), (.mlut t k c, true)],
      let run := exec q.1 s
      let arr : GangArrival := { sid := s.cur, uid := s.me.uid, tile := t.toNat, cn := c, lut := q.2, grp := k }
      (full → Waits s run .again) ∧
      (¬ full →
        (∀ i, g.badReg q.2 = some i → Faults s run .engformat (BitVec.ofNat 64 (4 * k.toNat + i))) ∧
        (g.badReg q.2 = none →
          (m.getLsbD (memberOf core) = false → Faults s run .engstate (BitVec.ofNat 64 m.toNat)) ∧
          (m.getLsbD (memberOf core) = true →
            (srcSheaf h g.srcb = none → Faults s run .engaddr (BitVec.ofNat 64 (0x10000 + bitsAt g.b.toNat 0 18))) ∧
            (srcSheaf h g.srcb ≠ none →
              (∀ o, g.badOff q.2 = some o → Faults s run .engaddr (BitVec.ofNat 64 (0x10000 + o))) ∧
              (g.badOff q.2 = none →
                ((∀ x ∈ (s.sheaf h).waiting, x.mask ≠ m) → (∃ x ∈ (s.sheaf h).waiting, x.mask &&& m ≠ 0) →
                  Faults s run .engstate (BitVec.ofNat 64 m.toNat)) ∧
                ((∀ x ∈ (s.sheaf h).waiting, x.mask &&& m = 0) →
                  ∃ s', run = .next s' ∧ s'.me.pc = s.me.pc ∧ s'.me.x = s.me.x ∧ s'.me.c = s.me.c ∧
                    (maskCount m ≠ 1 → s'.me.wait = some (.gang m false) ∧ s'.sheaf h =
                      { s.sheaf h with waiting := (s.sheaf h).waiting ++ [{ mask := m, arrivals := [arr] }] }) ∧
                    (maskCount m = 1 → s'.sheaf h =
                      { s.sheaf h with committed := (s.sheaf h).committed ++ [{ mask := m, arrivals := [arr] }] })) ∧
                (∀ x, (s.sheaf h).waiting.find? (fun g => g.mask == m) = some x →
                  let rest := (s.sheaf h).waiting.filter fun g => g.mask != m
                  let x' : GangGroup := { x with arrivals := x.arrivals ++ [arr] }
                  ∃ s', run = .next s' ∧ s'.me.pc = s.me.pc ∧ s'.me.x = s.me.x ∧ s'.me.c = s.me.c ∧
                    (x.arrivals.length + 1 ≠ maskCount m → s'.me.wait = some (.gang m false) ∧
                      s'.sheaf h = { s.sheaf h with waiting := rest ++ [x'] }) ∧
                    (x.arrivals.length + 1 = maskCount m → s'.me.wait = some (.gang m true) ∧
                      s'.sheaf h = { s.sheaf h with waiting := rest, committed := (s.sheaf h).committed ++ [x'] } ∧
                      ∀ a ∈ x.arrivals, ∀ sid, s.slotOf a.uid = some sid →
                        (s'.strand sid).wait = some (.gang m true)))))))))

/-- 06, R122; 15, R316; 16, R331, R332, R346, R359; 12, R280; 19, R369, R380: the steps of a strand's own units. A live
strand takes its lowest pending boundary cause, as an asynchronous one, at its pc. A line leaves an L1 or arrives in an
instruction cache. A watched wait that has lasted `stallto`, and a wired-barrier wait that has lasted `gangto`, raise their
cause (of the waits on a phase, a message, a key, a queue, a counter and a word; a table with no room for a key raises
KEYFULL; no other wait is watched); a probe that finds no cycle starts its count again, and one that finds a cycle raises
KEYDL in the strand that closed it; a `recvn` past its limit ends with −2. A `gangto` of 0 is left to log 48, and that a step
which is not enabled changes nothing is the model's choice (log 1). -/
def Obligations.StrandUnitSteps : Prop :=
  ∀ (sid : Nat) (s : State),
    let t := s.strand sid
    let live : Prop := t.stat = .live
    (∀ code value rest, t.pend = (code, value) :: rest → live → t.saving = false → t.wait = none → t.tvec ≠ 0 →
      t.entry = false → ∃ s', exec (.boundaryTrapTake sid) s = .next s' ∧
        (∀ i, i ≠ sid → s'.strand i = s.strand i) ∧ (∀ l, s'.mem.byte l = s.mem.byte l) ∧
        let u := s'.strand sid
        u.pc = t.tvec ∧ u.epc = t.pc ∧ u.tval = value ∧ u.cause = BitVec.ofNat 9 (code % 256 + 256) ∧ u.pmode = t.mode ∧
          u.mode = (if t.mode = 0 then 1 else t.mode) ∧ u.pend = rest ∧ u.parked = none ∧ u.entry = true ∧ u.lpc = 0 ∧
          u.elpc = t.lpc ∧ u.x = t.x ∧ u.v = t.v ∧ u.p = t.p ∧ u.d = t.d ∧ u.instret = t.instret) ∧
    (t.pend = [] ∨ ¬ live ∨ t.saving = true → exec (.boundaryTrapTake sid) s = .next s) ∧
    (∀ core line, ∃ s', exec (.l1LineRemove core line) s = .next s' ∧
      s' = s.setCore core { s.core core with l1 := (s'.core core).l1 } ∧
      ∀ e, e ∈ (s'.core core).l1 ↔ e ∈ (s.core core).l1 ∧ e.line ≠ line) ∧
    (∀ line s1 p le, s.level → t.fetchWait = some line →
      (s.setStrand sid { t with fetchWait := none }).translate (coreOf sid) t.ctx (t.mode == 0) (64 * line) .exec = (s1, .ok (p, le)) →
      ∃ s', exec (.icacheFill sid) s = .next s' ∧ (s'.strand sid).fetchWait = none ∧ (∀ l, s'.mem.byte l = s.mem.byte l) ∧
        ∃ e ∈ (s'.core (coreOf sid)).icache, e.ctx = t.ctx ∧ e.line = line ∧ e.phys = p ∧ e.bytes = s.mem.bytes p 64 ∧
          ∀ o, o ∈ e.bad ↔ o % 8 = 0 ∧ o < 64 ∧ s.poisoned (p + o) = true) ∧
    (match t.wait with
      | some (.phase _ _ _) => t.watched = some .stall
      | some (.superstep _ _ _ _) => t.watched = some .stall
      | some (.recv _ _ _) => t.watched = some .stall
      | some (.send _ _) => t.watched = some .stall
      | some (.key _ _ _) => t.watched = some .stall
      | some (.pop _ _) => t.watched = some .stall
      | some (.word _ _) => t.watched = some .stall
      | some (.counter _ _) => t.watched = some .stall
      | some (.recvn _ limit _ _) => t.watched = if limit < t.stallto.toNat then none else some .stall
      | some (.push _ _ _ set) => t.watched = if set = [] then some .stall else none
      | some (.keyRoom _) => t.watched = some .keyfull
      | some (.fence _ _) => t.watched = none
      | some (.drain _) => t.watched = none
      | some .again => t.watched = none
      | some .emit => t.watched = none
      | some (.nap _) => t.watched = none
      | some (.gang _ _) => t.watched = none
      | some (.tlb _ _ _) => t.watched = none
      | none => t.watched = none) ∧
    (∀ c, t.watched = some c → live → t.stallto ≠ 0 → t.stallto.toNat ≤ t.waited →
      exec (.stall sid) s = .next (s.raiseAt sid c (BitVec.ofNat 64 t.word.toNat))) ∧
    (t.watched = none ∨ ¬ live ∨ t.stallto = 0 ∨ t.waited < t.stallto.toNat → exec (.stall sid) s = .next s) ∧
    (∀ dir limit d g, t.wait = some (.recvn dir limit d g) → live → limit ≤ t.waited →
      t.stallto = 0 ∨ limit ≤ t.stallto.toNat →
      exec (.recvnTimeout sid) s = .next (s.setStrand sid (t.setX d (BitVec.ofInt 64 (-2))).done)) ∧
    (∀ m, t.wait = some (.gang m false) → live → t.gangto ≠ 0 → t.gangto.toNat ≤ t.waited →
      ∃ there : BitVec 16, exec (.gangto sid) s = .next (s.raiseAt sid .gangto (BitVec.ofNat 64 there.toNat)) ∧
        ∀ g, (s.sheaf (sheafOf (coreOf sid))).waiting.find? (fun g => g.mask == m) = some g →
          ∀ i, i < 16 → (there.getLsbD i = true ↔ ∃ a ∈ g.arrivals, memberOf (coreOf a.sid) = i)) ∧
    (∀ k n d, t.wait = some (.key k n d) → live → t.kprobe ≠ 0 → t.kprobe.toNat ≤ t.probed →
      let s0 := s.setStrand sid { t with probed := 0 }
      (s0.probe sid sid k [sid] 64 = none → exec (.keyProbe sid) s = .next s0) ∧
      ∀ cycle k' n' d', s0.probe sid sid k [sid] 64 = some cycle →
        (s0.strand (s0.closer cycle)).wait = some (.key k' n' d') →
        exec (.keyProbe sid) s = .next (s0.raiseAt (s0.closer cycle) .keydl k'))

/-- 19, R379: a control message that reaches a parked strand of its context takes its effect and leaves the queue: RESUME
lets it go on with its events masked once, SKIP completes its instruction with no register written, KILL ends its context.
Stated where the strand's own message is sent and nothing waits for a place in a queue.

16, R340-R342; 02, R33: delivery. An entry of a send queue whose release has completed, with no older one for its mailbox, is
put in its ring and leaves the queue, or is refused and stays, where the ring's control block can be read (log 81); a refused
one may be tried again; one for an adjacent core's edge mailbox goes there. A ring with room takes a message: its 64 bytes at
slot HEAD mod SLOTS, its header, and HEAD up by one; what a peer sends is taken so too (log 27), and a flit and a slot cost
the cores tokens (log 35). -/
def Obligations.DeliverySteps : Prop :=
  (∀ (sid : Nat) (c : BitVec 4) (s : State) (ev : Events) (op core i : Nat),
    let t := s.strand sid
    t.parked = some ev → t.stat = .live → t.ctx = c → t.wait = none →
    (∀ e ∈ s.strands, ∀ m d, e.2.wait ≠ some (.send m d)) → (∀ k, (s.core k).fpx = []) →
    s.controlEntry sid op c = some (core, i) →
    (op = 1 → ∃ s', exec (.controlResume sid c) s = .next s' ∧
      s'.strand sid = { t with parked := none, fenMask := ev } ∧ (∀ j, j ≠ sid → s'.strand j = s.strand j) ∧
      (s'.core core).sendQ.length + 1 = (s.core core).sendQ.length) ∧
    (op = 2 → ∃ s', exec (.controlSkip sid c) s = .next s' ∧ Strand.InLine t (s'.strand sid) ∧
      (s'.strand sid).parked = none ∧ (s'.strand sid).x = t.x ∧ (s'.strand sid).v = t.v ∧
      (∀ j, j ≠ sid → s'.strand j = s.strand j) ∧ (s'.core core).sendQ.length + 1 = (s.core core).sendQ.length) ∧
    (op = 3 → c ≠ 0 → ∃ s', exec (.controlKill sid c) s = .next s' ∧ (s'.strand sid).stat = .free ∧
      s'.host.ctxend.getLsbD c.toNat = true)) ∧
  (∀ (core idx : Nat) (s : State),
    (∀ e, s.deliverable core idx = some e → e.msg.ext = none → e.msg.edge core = none →
      let dest := e.msg.dest.toNat
      let scope := pairScope core dest false
      let s0 := (s.spend core e.msg.meshTokens).spend dest e.msg.meshTokens
      let run := exec (.messageDeliver (.queue core idx)) s
      let clean : Prop := s.blockBad e.msg = none
      (∀ s1 i, clean → s0.arrive e.msg scope = some s1 →
        ((s1.spend dest e.msg.slotTokens).core core).sendQ.findIdx? (fun x => x == e) = some i →
        run = .next ((s1.spend dest e.msg.slotTokens).leaveQueue core i)) ∧
      (clean → s0.arrive e.msg scope = none → ∃ s', run = .next s' ∧
        (s'.core core).sendQ[idx]? = some { e with refused := true } ∧ ∀ l, s'.mem.byte l = s.mem.byte l) ∧
      (e.msg.isControl = false → s.RingOpen dest e.msg.mbox.toNat → e.msg.data.length = 64 → ∃ s', run = .next s' ∧
        s.RingTook s' dest e.msg.mbox.toNat
          { ctx := e.msg.ctx, dev := e.msg.dev, src := e.msg.src, len := e.msg.len, scope := scope } e.msg.data ∧
        (s'.core core).sendQ.length + 1 = (s.core core).sendQ.length)) ∧
    (∀ port p, (s.link port).up = true → port < 4 → p.core.toNat ≤ 9215 → (s.core p.core.toNat).failed = false →
      p.len = 8 ∨ p.len = 16 ∨ p.len = 64 →
      let m := peerMsg p
      let dest := p.core.toNat
      let run := exec (.messageDeliver (.peer port p)) s
      (∀ s1, s.blockBad m = none → s.arrive m .system = some s1 → run = .next (s1.spend dest (m.meshTokens + m.slotTokens))) ∧
      (m.isControl = false → s.RingOpen dest p.mbox.toNat → ∃ s', run = .next s' ∧ s.RingTook s' dest p.mbox.toNat
        { ctx := p.ctx, dev := p.dev, src := p.src, len := p.len, scope := .system }
        ((p.data.take p.len ++ List.replicate 64 0).take 64))) ∧
    (∃ s', exec (.sendRetry core idx) s = .next s' ∧ s' = s.setCore core { s.core core with sendQ := (s'.core core).sendQ } ∧
      (s'.core core).sendQ.length = (s.core core).sendQ.length ∧
      ∀ i : Nat, (s'.core core).sendQ[i]? = if i = idx then ((s.core core).sendQ[i]?).map fun e => { e with refused := false }
        else (s.core core).sendQ[i]?) ∧
    ∀ e dir, s.deliverable core idx = some e → e.msg.edge core = some dir → core ≠ e.msg.dest.toNat →
      let q := Table.getD (s.core e.msg.dest.toNat).edge dir []
      (∀ x ∈ s.strands, (∀ m d, x.2.wait ≠ some (.send m d)) ∧ ∀ d l r g, x.2.wait ≠ some (.recvn d l r g)) →
      (∀ k, (s.core k).fpx = []) → q.length < 8 →
      ∃ s', exec (.edgeDeliver core idx) s = .next s' ∧ (s'.core core).sendQ = (s.core core).sendQ.eraseIdx idx ∧
        ∃ h : Header, h.len = e.msg.len ∧ h.src = e.msg.src ∧ h.ctx = e.msg.ctx ∧ h.dev = e.msg.dev ∧
          Table.getD (s'.core e.msg.dest.toNat).edge dir [] = q ++ [(h, e.msg.data)]) ∧
  ∀ (core m : Nat) (h : Header) (data : List Byte) (s : State), data.length = 64 → s.RingOpen core m →
    ∃ s', s.ringTake core m h data = some s' ∧ s.RingTook s' core m h data

/-- 16, R318, R334, R337, R357: a barrier arrival, a `kleave` and a `kskip` take effect once their release has completed, and
not before. -/
def Obligations.ReleasesTakeEffect : Prop :=
  ∀ (s : State) (sid : Nat),
    (∀ (launch point sheaf : Nat) (la : Launch), Table.get? s.launches launch = some la →
      let key := if point < 16 then sheaf * 32 + point else point
      let p := la.point key
      let uid := (s.strand sid).uid
      let ready (x : Arrival) : Bool := x.counted || (decide (x.uid = uid) && s.drained x.rel)
      let run := exec (.barrierArrivalCount launch point sheaf sid) s
      (∀ n, p.count = some n → p.entered p.phase < n → ∃ s', run = .next s' ∧ (∀ i, s'.strand i = s.strand i) ∧
        ∃ la', Table.get? s'.launches launch = some la' ∧ (la'.point key).phase = p.phase ∧
          (la'.point key).arrivals = p.arrivals.map fun x => { x with counted := ready x }) ∧
      (∀ n, p.count = some n → p.init = true → 0 < n → p.arrivals.length = n → recSstep la.bytes = false →
        (∀ x ∈ s.strands, x.2.wait = none) → (∀ x ∈ p.arrivals, x.phase = p.phase ∧ ready x = true) →
        ∃ s', run = .next s' ∧ ∃ la', Table.get? s'.launches launch = some la' ∧ (la'.point key).phase = p.phase + 1 ∧
          (la'.point key).arrivals = [])) ∧
    ∀ (key : Word) (i : Nat) (e : KeyEntry), s.keyIdx (coreOf sid) key = some i → s.keys[i]? = some e →
      (∀ set, e.leaving = some set →
        (s.drained set = false → exec (.keyLeaveEffect sid key) s = .next s) ∧
        (s.drained set = true → e.skips = [] → e.ctxSkips = [] → (∀ x ∈ e.waiters, x.2 ≠ e.next + 1) →
          exec (.keyLeaveEffect sid key) s = .next
            { s with keys := s.keys.set i { e with holder := none, leaving := none, next := e.next + 1 } })) ∧
      ∀ (num : BitVec 32) (k : Nat × BitVec 32 × List Nat), e.skipping.find? (fun k => k.2.1 == num) = some k →
        (s.drained k.2.2 = false → exec (.keySkipEffect sid key num) s = .next s) ∧
        (s.drained k.2.2 = true → e.next ≠ num ∨ e.holder ≠ none →
          exec (.keySkipEffect sid key num) s = .next
            { s with keys := s.keys.set i { e with
              skipping := e.skipping.erase k, skips := if e.skips.contains num then e.skips else e.skips ++ [num] } })

/-- 11, R252, R269, R270; 12, R285; 15, R323: an operation that has started writes its payload unit by unit, each unit once;
its flag follows when all are written, and with it the operation ends. What it reads is its source as it stood at the fork or
after one of the writes of others since, chosen for each aligned word; a source word that cannot be read is written as
poisoned and ends a copy. `ast` writes its 64 elements in any order but that of two that overlap, and ends at a word that
stays poisoned (log 62); `ald` sets its tile. What the accesses cost is log 35, and which writes that some parties do not
read yet all read once the operation has is log 18 (`State.opReads`).

12, R276, R280-R282, R287: the oldest committed group of a sheaf forms an operation: it leaves the barrier, each member's
counter is named once, and the member of a group of one goes on with its counter up by one. An operation that completes
writes every member's tile in one step, or raises ENGFORMAT when a metadata word is malformed. Each element of a tile is R183
over the blocks of a row of A and a column of B, dense, sparse or lookup, as the descriptor's fields place them (R275, R276;
08, R184, R185); a byte past the scratchpad's end is none of the spec's (log 83), and what a group that forms may hide is
stated where every write has reached all parties. The registers are latched as they stand at formation, and completion is
stated where they keep what R279 checked at the arrival (log 83). -/
def Obligations.EngineSteps : Prop :=
  (∀ (o : EngOp) (k l : Nat) (w : SrcWrite) (b : Byte) (before after : List Host.Cell),
    ((∀ x ∈ o.seen.take k, ∀ c ∈ x.cells, c.1 ≠ l) → o.byteAt k l = o.snap.byte l) ∧
    (o.seen[k]? = some w → w.cells = before ++ (l, b) :: after → (∀ c ∈ after, c.1 ≠ l) → o.byteAt (k + 1) l = b)) ∧
  (∀ (op unit fresh words : Nat) (s : State) (o : EngOp),
    s.ops.find? (fun o => o.id == op) = some o →
    let run := exec (.enginePayloadWrite op unit fresh) s
    let k := min fresh o.seen.length
    let s0 := s.unitCharge o unit
    (o.started = false ∨ o.stop = true ∨ o.units ≤ unit ∨ unit ∈ o.written → run = .next s) ∧
    (∀ tile fmt frm elems, o.work = .ast tile fmt frm elems →
      (∃ u l, u < unit ∧ u ∉ o.written ∧ l ∈ elems.getD u [] ∧ l ∈ elems.getD unit []) → run = .next s) ∧
    (o.started = true → o.stop = false → unit < o.units → unit ∉ o.written →
      (∀ src dst, o.work = .copy src dst →
        let here (i : Nat) : Bool := decide ((src.headD 0 % 4 + i) / 4 = unit)
        let s1 := s0.opReads o (fun _ => k) (o.unitSrc unit)
        let bad (i : Nat) : Bool := here i && s1.srcBad o k (src.getD i 0)
        let are (cells : List Host.Cell) (f : Nat → Bool) : Prop := ∀ l b, (l, b) ∈ cells ↔
          ∃ i, i < src.length ∧ f i = true ∧ l = dst.getD i 0 ∧ b = o.byteAt k (src.getD i 0)
        ((∀ i, i < src.length → bad i = false) → ∃ cells, are cells here ∧
          run = .next ((s1.engWrite o false cells).markWritten op unit)) ∧
        ∀ i, (List.range src.length).find? bad = some i → ∃ cells,
          are cells (fun j => unitBase (src.getD j 0) == unitBase (src.getD i 0)) ∧
            run = .next (((s1.engWrite o true cells).endOp op).uncorr (s1.tagOf (src.getD i 0)) o.ctx o.launch)) ∧
      (∀ tile fmt frm elems, o.work = .ast tile fmt frm elems →
        (∀ u, u < unit → u ∉ o.written → ∀ l ∈ elems.getD u [], l ∉ elems.getD unit []) →
        let v := accElem o.tileOld tile unit
        let bytes := if fmt = 0 then leBytes v 8
          else if fmt = 1 then leBytes (fmtS.convert (rmOf frm) (fmtA56.decode v)).1 4
          else leBytes (fmtH.convert (rmOf frm) (fmtA56.decode v)).1 2
        let s1 := s0.engWrite o false ((elems.getD unit []).zip bytes)
        (∀ l ∈ elems.getD unit [], s1.poisoned l = false) → run = .next (s1.markWritten op unit))) ∧
    (o.started = true → o.stop = false → o.written.length = o.units →
      let done := (match o.flag with
        | some f => (s.engCharge o f.1 []).engWrite o false (f.1.zip (leBytes f.2.toNat 8))
        | none => s)
      (∀ src dst, o.work = .copy src dst → exec (.copyComplete op) s = .next (done.endOp o.id)) ∧
      ∀ tile fmt frm elems, o.work = .ast tile fmt frm elems → exec (.astComplete op) s = .next (done.endOp o.id)) ∧
    (o.started = false ∨ o.stop = true ∨ o.written.length ≠ o.units →
      exec (.copyComplete op) s = .next s ∧ exec (.astComplete op) s = .next s) ∧
    (o.started = true → o.stop = false → ∀ tile fmt elems, o.work = .ald tile fmt elems →
      (∀ l ∈ elems.flatten, ∀ j, j ≤ o.seen.length → s.srcBad o j l = false) →
      ∃ ch : Nat → Nat, (∀ w, ch w ≤ o.seen.length) ∧
        let s1 := (s.engCharge o elems.flatten []).opReads o (fun l => ch (l / 4)) elems.flatten
        exec (.aldComplete op words) s = .next ((s1.setCore o.core ((s1.core o.core).setTile tile (elems.map fun ls =>
          let n := leNat (ls.map fun l => o.byteAt (ch (l / 4)) l)
          if fmt = 0 then n % 2 ^ 56
            else if fmt = 1 then (fmtA56.convert .rne (fmtS.decode n)).1
            else (fmtA56.convert .rne (fmtH.decode n)).1))).endOp op))) ∧
  (∀ (h op words : Nat) (s : State),
    ((s.sheaf h).committed = [] → exec (.gangForm h) s = .next s) ∧
    (∀ g rest, s.level → (s.sheaf h).committed = g :: rest → g.arrivals ≠ [] → (∀ a ∈ g.arrivals, s.slotOf a.uid ≠ none) →
      ∃ s', exec (.gangForm h) s = .next s' ∧ s'.sheaf h = { s.sheaf h with committed := rest } ∧ s'.opNo = s.opNo + 1 ∧
        (∀ l, s'.mem.byte l = s.mem.byte l) ∧
        (∃ o ∈ s'.ops, o.id = s.opNo ∧ o.stop = false ∧ o.flag = none ∧
          o.counters = g.arrivals.map (fun a => (a.uid, a.cn)) ∧
          ∃ ms, o.work = .gang g.mask ms ∧ ms.map (fun m => m.arr) = g.arrivals ∧
            ∀ m ∈ ms, ∀ sid, s.slotOf m.arr.uid = some sid → m.desc = (s.strand sid).gangDesc m.arr.grp) ∧
        ∀ a sid, g.arrivals = [a] → s.slotOf a.uid = some sid →
          (s'.strand sid).cr a.cn = (s.strand sid).cr a.cn + 1 ∧
          ((s.strand sid).wait = some (.gang g.mask true) → Strand.InLine (s.strand sid) (s'.strand sid))) ∧
    ∀ o mask ms lead, s.ops.find? (fun o => o.id == op) = some o → o.work = .gang mask ms →
      o.started = true → o.stop = false → ms.find? (fun m => m.core == o.core) = some lead →
      (∀ g ∈ ms, g.formed lead = true) →
      let home := sheafOf o.core
      let hb := (srcSheaf home lead.desc.srcb).getD home
      let m : GangMem := { op := o, fresh := words, home := home }
      let reads := m.reads lead.desc lead.arr.lut hb ms
      let s0 := s.opReads o m.choiceOf (reads.map fun x => padLoc x.1 x.2)
      s0.gangPoison m reads = none →
      (metaBad m lead.desc ms = none →
        ∃ s1, s1 = gangTiles m lead hb ms s0 ∧ exec (.gangComplete op words) s = .next (s1.endOp op) ∧
          ∀ g, ms = [g] → s1 = s0.setCore g.core ((s0.core g.core).setTile g.arr.tile ((List.range 64).map fun e =>
            gangElem m lead.desc lead.arr.lut hb g (e / 8) (e % 8)
              (if lead.desc.zero then 0 else accElem (s0.core g.core).acc g.arr.tile e)))) ∧
      ∀ off g sid, metaBad m lead.desc ms = some off → ms = [g] → s0.slotOf g.arr.uid = some sid →
        exec (.gangComplete op words) s =
          .next ((s0.pendAt sid Cause.engformat.code (BitVec.ofNat 64 (0x10000 + off))).endOp op)) ∧
  ∀ (m : GangMem) (lead : GangDesc) (lut : Bool) (hb : Nat) (g : GangMember) (r j acc : Nat),
    let w := lead.shape.toNat
    let d := g.desc
    let K := bitsAt w 0 12 + 1
    let NB := (K + 31) / 32
    let sparse : Bool := bitsAt w 20 2 == 1
    let size (n : Nat) : Nat := if n = 0 then 8 else if n = 1 then 6 else 4
    let fa := bitsAt w 22 2
    let fb := bitsAt w 24 2
    let q : QTab := { tab := g.qtab, base6 := g.qbase6.toNat, base4 := g.qbase4.toNat }
    let val (f n : Nat) : Fv := q.val (if f = 0 then .t8 else if f = 1 then .t6 else .t4) n
    let off (x : Word) : Nat := bitsAt x.toNat 0 18
    let pitch (x : Word) : Nat := bitsAt x.toNat 18 18
    let scale (x : Word) : Nat := bitsAt x.toNat 36 18
    let num (h o n : Nat) : Nat := leNat ((List.range n).map fun i => m.byte h (o + i))
    let row := num m.home (off lead.a + r * pitch lead.a) ((K * size fa + 7) / 8)
    let col := num hb (off d.b + j * pitch d.b)
      (if lut then (K + 7) / 8 else if sparse then NB * size fb else (K * size fb + 7) / 8)
    let a (k : Nat) : Fv := val fa (bitsAt row (size fa * k) (size fa))
    let b (k : Nat) : Fv := val fb (bitsAt col (size fb * k) (size fb))
    let terms (i : Nat) : List Fv :=
      if lut then (List.range (min 32 (K - 32 * i))).map fun k =>
        if col.testBit (32 * i + k) then a (32 * i + k) else (a (32 * i + k)).negate
      else if sparse then (List.range 8).map fun k =>
        codeTerm (a (32 * i + 8 * (k / 2) + bitsAt (num m.home (off d.x + 4 * (j * NB + i)) 4) (3 * k) 3)) (b (8 * i + k))
      else (List.range (min 32 (K - 32 * i))).map fun k => codeTerm (a (32 * i + k)) (b (32 * i + k))
    let step (x i : Nat) : Nat :=
      (fmtA56.addF .rne (fmtA56.decode x) (fmtA56.decode (blockPartial (terms i)
        (s20Value (num m.home (scale lead.a + 4 * (r * NB + i)) 4)) (s20Value (num hb (scale d.b + 4 * (j * NB + i)) 4))))).1
    (fa < 3 → fb < 3 → gangElem m lead lut hb g r j acc = (List.range NB).foldl step acc) ∧
    ∀ h o : Nat, ∃ c, c ≤ m.op.seen.length ∧
      ∀ o', o' / 4 = o / 4 → o' < Config.padBytes → m.byte h o' = m.op.byteAt c (padLoc h o')

/-- 13, R291, R294-R299: the oldest mesh slot that has retired is assembled, one at a time, and its records go down the tree
in the order they were sent: each core's input queue takes 16, and the tree holds what is left. With the last of them the
slot leaves the ring; that the assembler begins no other slot before is the model's reading (log 29). A record at the head of
a tray queue is dropped while EN is 0 and counted, DROPS up by one and no other byte written; it is written while the tray
has room, and otherwise held; a full tray sets FULL. HEAD and PARTIALS are the delivery unit's own counts. A record's rules
are stated for a control block that can be read (log 81).

13, R307: the answer to a page request: a failure writes STATUS 0x8000_0000 + code and leaves the page; a page that decodes
is written, its lines leave every L1, STATUS becomes 2 and its residency bit is set, if its word can be read to be set (11,
R252).

13, R292: mesh slots are reserved one by one, in ring order, for the launch that became RUNNING first, while a slot of the
ring is free and the context's mesh entry can be read. -/
def Obligations.MeshAndPageSteps : Prop :=
  (∀ (ctx core : Nat) (s : State),
    let c : BitVec 4 := BitVec.ofNat 4 ctx
    let assemble := exec (.slotAssemble ctx) s
    let sent (k : Nat) (l : List (Nat × TrayRecord)) : List TrayRecord := (l.filter fun r => r.1 == k).map Prod.snd
    let goesOn (a : Assembly) : Prop := ∃ s' left, assemble = .next s' ∧
      (∀ k, (s'.core k).trayQ ++ sent k left = (s.core k).trayQ ++ sent k a.left ∧
        (sent k left ≠ [] → 16 ≤ (s'.core k).trayQ.length) ∧
        (s'.core k).trayQ.length ≤ max 16 (s.core k).trayQ.length) ∧
      (left ≠ [] → s'.tree = some { a with left := left } ∧ s'.rings = s.rings ∧ s'.mem = s.mem) ∧
      (left = [] → s'.tree = none ∧ ∀ ring, Table.get? s.rings ctx = some ring →
        Table.get? s'.rings ctx = some { ring with slots := ring.slots.drop 1 })
    (∀ a, s.tree = some a → a.ctx.toNat ≠ ctx → assemble = .next s) ∧
    (∀ a, s.tree = some a → a.ctx.toNat = ctx → goesOn a) ∧
    (∀ ring, s.tree = none → Table.get? s.rings ctx = some ring →
      (ring.slots = [] → assemble = .next s) ∧
      ∀ m rest, ring.slots = m :: rest → (s.slotDone m = false → assemble = .next s) ∧
        (s.slotDone m = true → (s.slotMeets c m).met = s.met → ctx < 16 → goesOn (s.assembled c m)) ∧
        (s.slotDone m = true → (s.slotMeets c m).met.length ≠ s.met.length → assemble = .next (s.slotMeets c m))) ∧
    ∀ r rest, (s.core core).trayQ = r :: rest → s.trayBad core = none →
      let cfg := s.trayField core 0x0C 4
      let head := (s.core core).trayHead
      let tail := s.trayField core 0x18 8
      let slots := s.trayField core 0x08 4
      let en := cfg.testBit 0
      let compat := cfg.testBit 1
      let full := cfg.testBit 4
      let held := (head + 2 ^ 64 - tail) % 2 ^ 64
      let run := exec (.trayRecordDeliver core) s
      let u := s.spend core 5
      let setFull (b : Bool) : State :=
        u.traySet core r.ctx 0x0C 4 (if b = full then cfg else if b then cfg + 16 else cfg - 16)
      let drops (l : Nat) : Prop := trayLoc core + 0x24 ≤ l ∧ l < trayLoc core + 0x28
      let headAt (l : Nat) : Prop := trayLoc core + 0x10 ≤ l ∧ l < trayLoc core + 0x18
      (en = false → (∃ s', run = .next s' ∧ (s'.core core).trayQ = rest) ∧
        (s.quiet (locsFrom (trayLoc core + 0x24) 4) → ∃ s', run = .next s' ∧ (s'.core core).trayQ = rest ∧
          s'.trayField core 0x24 4 = (s.trayField core 0x24 4 + 1) % 2 ^ 32 ∧ (s'.core core).trayHead = head ∧
          ∀ l, ¬ drops l → s'.mem.byte l = s.mem.byte l)) ∧
      (en = true → compat = false ∨ full = false → held < slots →
        let a := s.trayField core 0x00 8 + 128 * (head % slots)
        let at' := localLoc core (a - 0x100000)
        0x100000 ≤ a → a + 128 ≤ 0x11FFC0 → r.bytes.length = 128 →
        s.quiet (locsFrom at' 128 ++ locsFrom (trayLoc core + 0x10) 8) →
          ∃ s', run = .next s' ∧ (s'.core core).trayQ = rest ∧ s'.mem.bytes at' 128 = r.bytes ∧
            s'.trayField core 0x10 8 = (head + 1) % 2 ^ 64 ∧ (s'.core core).trayHead = (head + 1) % 2 ^ 64 ∧
            ∀ l, l ∉ locsFrom at' 128 → ¬ headAt l → s'.mem.byte l = s.mem.byte l) ∧
      (en = true → compat = false ∨ full = false → held < slots → run = .next (u.trayPut core r)) ∧
      (en = true → compat = false → held = slots → full = true → run = .next s) ∧
      (en = true → compat = false → held = slots → full = false →
        run = .next ((setFull true).trayFull core (bitsAt cfg 2 2) head)) ∧
      (en = true → compat = true → full = false → held = slots →
        let n := ((s.core core).trayPartials + 1) % 2 ^ 32
        run = .next (((setFull true).setCore core { (setFull true).core core with trayPartials := n }).traySet core r.ctx 0x20 4 n)) ∧
      (en = true → compat = true → full = true → (tail = head → run = .next ((setFull false).trayPut core r)) ∧
        (tail ≠ head → run = .next s))) ∧
  (∀ (req : Nat) (resp : Option (List Byte)) (s : State) (q : PageReq),
    s.pages.find? (fun q => q.id == req) = some q → (∀ bs, resp = some bs → bs.length = q.clen) →
    let s1 : State := { s with pages := s.pages.filter fun r => r.id != req }
    let run := exec (.pageFetchComplete req resp) s
    (∀ c, q.decode resp = .error c → run = .next (s1.pageStatus q (0x80000000 + c))) ∧
    (resp = none → run = .next (s1.pageStatus q (0x80000000 + 7))) ∧
    ∀ page, q.decode resp = .ok page → page.length = 65536 ∧
      ∃ s2, s2 = ((s1.write (Writer.plain q.ctx) (cellsAt q.pageLoc page)).dropPage q.pageLoc).pageStatus q 2 ∧
        (s2.poisoned q.resLoc = false →
          run = .next (s2.write (Writer.plain q.ctx) [(q.resLoc, s2.mem.byte q.resLoc ||| BitVec.ofNat 8 (2 ^ q.resBit))])) ∧
        (s2.poisoned q.resLoc = true → run = .next (s2.meets q.resLoc q.ctx 4096))) ∧
  (∀ (k : Nat) (la : Launch) (s : State), Table.get? s.launches k = some la →
    let c := recCtx la.bytes
    let ring := s.ring c
    let n := s.meshNslot c
    let may : Prop := (la.state = .running ∨ la.state = .drainingOut) ∧ s.usesRing la = true ∧
      la.meshSlots < recTotal la.bytes ∧
      s.earlierMesh la = false ∧ ring.slots.length < n
    (∀ l ∈ locsFrom (s.meshEntry c) 32, s.poisoned l = false) →
    (¬ may → exec (.meshSlotReserve k) s = .next s) ∧
    (may → ∃ s', exec (.meshSlotReserve k) s = .next s' ∧ (s'.ring c).next = (ring.next % n + 1) % n ∧
      (s'.ring c).slots = ring.slots ++
        [{ slot := ring.next % n, launch := k, ordinal := la.meshSlots, retired := false, empty := false }] ∧
      ∃ la', Table.get? s'.launches k = some la' ∧ la'.meshSlots = la.meshSlots + 1 ∧
        (la.meshSlots = 0 → la'.meshFirst = ring.next % n)))

/-- 21, R403-R406; 08, R187; 02, R42; 05, R114: the emission unit takes the emission whose release completed first, reads the
1,536 codes of each of its groups, two to three bytes, beat by beat, and passes them, one transfer after the other; the codes
become pending in the tile when the last of them arrives; a requested time that has not passed is the swap time, and one that
has is late; at the swap the pending codes of the groups become active, the tile takes the trims loaded and the drive rail's
common factor, and the emission is over. That all 8 groups of the tile take the trims and the factor at a swap of any of them
is the model's reading of R42 and R114 against R403 (log 52); that a transfer arrives no sooner than R23 allows it to, one
behind another no sooner than its own beats after that, is log 5's; in how many steps the beats are read is log 59's, and
what they cost is log 35.

19, R391; 11, R246, R252: a scrub pass adds the corrected words to CE; a unit it finds uncorrectable is poisoned and counted
in UE, and nothing else is written; a visit of the vertical tester, no sooner than 1 ms after the last and 100 µs after one
that gave way (11, R245), counts its visit or its abort, and its mismatches. -/
def Obligations.EmissionAndScrubSteps : Prop :=
  (∀ (core words tile group : Nat) (s : State),
    let waits (e : Emission) : Prop := e ∈ (s.core core).emits ∧ e.stage = 0 ∧ e.ready ≠ none
    let groups (e : Emission) : List Nat := (List.range 8).filter fun g => e.mask.getLsbD g
    let offs (e : Emission) : List Nat := if s.choice.cut = 0 then e.left else e.left.take s.choice.cut
    let bytes (e : Emission) : List Byte := (offs e).flatMap fun o => (List.range 32).map fun i => s.emitByte core e words (o + i)
    let clean (e : Emission) : Prop :=
      (∀ o, s.poisoned (localLoc core (e.base - 0x100000 + o)) = false) ∧ e.snapBad = []
    let s1 (e : Emission) : State := s.spend core (5 * (offs e).length)
    let reads (e : Emission) : State :=
      (s1 e).setCore core (((s1 e).core core).setEmission e fun m => { m with stage := 1, read := m.read ++ bytes e })
    let pair (cs : List Nat) (k : Nat) (b : Nat → Nat) : Prop :=
      cs.getD (2 * k) 0 = b 0 + b 1 % 16 * 256 ∧ cs.getD (2 * k + 1) 0 = b 1 / 16 + b 2 * 16
    ((∃ e ∈ (s.core core).emits, e.stage = 1 ∧ e.left ≠ []) → (s.core core).nextEmission = none) ∧
    ((∀ e ∈ (s.core core).emits, e.stage = 1 → e.left = []) →
      ((s.core core).nextEmission = none ↔ ∀ e, ¬ waits e) ∧
      ∀ e, (s.core core).nextEmission = some e → waits e ∧
        ∀ m j k, waits m → m.ready = some k → e.ready = some j → j ≤ k) ∧
    (∀ e : Emission, e.left =
      ((groups e).flatMap fun g => (List.range 72).map fun k => 2304 * g + 32 * k).drop (e.read.length / 32)) ∧
    ((s.core core).nextEmission = none → exec (.emitTransferStart core words) s = .next s) ∧
    (∀ e, (s.core core).nextEmission = some e → clean e → exec (.emitTransferStart core words) s = .next (reads e)) ∧
    (∀ e, s.dbg.frozen = false → (s.core core).reading = some e → clean e →
      s.take (.beats core words) = .next (reads e)) ∧
    (∀ e, (s.core core).nextEmission = some e → s.choice.cut = 0 → e.read = [] → e.dark = [] →
      let m : Emission := { e with stage := 1, read := bytes e }
      m.left = [] ∧ m.codes.map Prod.fst = groups e ∧ ∀ g cs, (g, cs) ∈ m.codes → cs.length = 1536 ∧ ∀ k, k < 768 →
        pair cs k fun i => (s.emitByte core e words (2304 * g + 3 * k + i)).toNat) ∧
    (∀ e : Emission, e.dark = [] → e.read.length = 2304 * (groups e).length →
      e.codes.map Prod.fst = groups e ∧ ∀ g cs, (g, cs) ∈ e.codes → cs.length = 1536 ∧ ∀ k, k < 768 →
        let before := ((List.range g).filter fun j => e.mask.getLsbD j).length
        pair cs k fun i => (e.read.getD (2304 * before + 3 * k + i) 0).toNat) ∧
    ((s.core core).arriving = none → (∀ e ∈ (s.core core).emits, e.stage = 1 → e.ready = none) ∧
      exec (.emitArrival core) s = .next s) ∧
    (∀ e, (s.core core).arriving = some e → e ∈ (s.core core).emits ∧ e.stage = 1 ∧ e.ready ≠ none ∧
      (∀ m ∈ (s.core core).emits, ∀ j k, m.stage = 1 → m.ready = some k → e.ready = some j → j ≤ k) ∧
      (e.left ≠ [] ∨ (s.ftime : Int) < e.from' s.gov → exec (.emitArrival core) s = .next s)) ∧
    (∀ e : Emission, s.gov.fastest ≤ 2600 ∧
      e.since + ((1000 * (5 + 72 * (groups e).length) / s.gov.fastest + 4 : Nat) : Int) ≤ e.from' s.gov) ∧
    (∀ e, (s.core core).arriving = some e → e.left = [] → e.from' s.gov ≤ (s.ftime : Int) → ∀ g cs, (g, cs) ∈ e.codes →
      ∃ s', exec (.emitArrival core) s = .next s' ∧ ((s'.tile e.tile).group g).pending = cs ∧
        ((s'.tile e.tile).group g).active = ((s.tile e.tile).group g).active ∧
        ((e.time = 0 ∨ s.ftime < e.time) → (s'.core core).lates = (s.core core).lates ∧ (s'.tile e.tile).lateg = (s.tile e.tile).lateg) ∧
        (e.time ≠ 0 → e.time ≤ s.ftime → (s'.core core).lates = (s.core core).lates + 1 ∧ (s'.core core).late = true ∧
          (s'.tile e.tile).lateg = e.mask) ∧
        ∀ g0, g0 < 8 → e.mask.getLsbD g0 = true → (∀ i, i < g0 → e.mask.getLsbD i = false) →
          ∃ m ∈ (s'.core core).emits, m.ready = e.ready ∧ m.stage = 2 ∧
            m.swapAt = (e.swaps s.ftime ((s.tile e.tile).group g0).frame).1) ∧
    (∀ e, (s.core core).arriving = some e → e.left = [] → e.from' s.gov ≤ (s.ftime : Int) → ∃ s',
      exec (.emitArrival core) s = .next s' ∧
        ∀ m ∈ (s'.core core).emits, m.stage ≤ 1 → m.ready ≠ none → m.behind = some (s.ftime : Int)) ∧
    (∀ (e : Emission) (a frame : Nat), 0 < frame →
      let r := e.swaps a frame
      (e.time = 0 → a < r.1 ∧ r.1 ≤ a + 10 ∧ r.1 % 10 = 0 ∧ r.2 = false) ∧
      (e.time ≠ 0 → a < e.time → r = (e.time, false)) ∧
      (e.time ≠ 0 → e.time ≤ a → r.2 = true ∧ a < r.1 ∧
        (e.pol = true → r.1 ≤ a + 10 ∧ r.1 % 10 = 0) ∧
        (e.pol = false → r.1 ≤ a + 10 * frame ∧ (r.1 - e.time) % (10 * frame) = 0))) ∧
    let due (e : Emission) : Bool :=
      e.tile == tile && e.mask.getLsbD group && e.stage == 2 && decide (e.swapAt ≤ s.ftime)
    (s.cores.findSome? (fun c => (c.2.emits.find? due).map fun e => (c.1, e)) = none →
      exec (.emitSwap tile group) s = .next s) ∧
    ∀ c e, s.cores.findSome? (fun c => (c.2.emits.find? due).map fun e => (c.1, e)) = some (c, e) →
      ∃ s', exec (.emitSwap tile group) s = .next s' ∧ (s'.tile tile).swapT = BitVec.ofNat 32 s.ftime ∧
        (∀ m, m ∈ (s'.core c).emits ↔ m ∈ (s.core c).emits ∧ m.ready ≠ e.ready) ∧
        (∀ g, g < 8 → ((s'.tile tile).group g).trims = s.groupTrims tile g ∧
          ((s'.tile tile).group g).factor = s.gov.factor) ∧
        (∀ g, g < 8 → e.mask.getLsbD g = true →
          ((s'.tile tile).group g).active = ((s.tile tile).group g).pending ∧
            ((s'.tile tile).group g).frame = s.host.frame ∧ ((s'.tile tile).group g).stepm1 = s.host.stepm1) ∧
        ∀ g, g < 8 → e.mask.getLsbD g = false →
          ((s'.tile tile).group g).active = ((s.tile tile).group g).active) ∧
  (∀ (ls : List Nat) (core mism l : Nat) (aborted : Bool) (s : State),
    (∃ s', exec (.scrubPass ls []) s = .next s' ∧ s'.host.ce = s.host.ce + BitVec.ofNat 32 ls.length ∧ s'.poison = s.poison ∧
      s'.mem = s.mem ∧ s'.strands = s.strands) ∧
    (isNear l = true ∨ s.physOk l = true → ∃ s', exec (.scrubPass ls [l]) s = .next s' ∧ s'.poisoned l = true ∧
      s'.host.ue = (if s.host.ue = 0xFFFF then 0xFFFF else s.host.ue + 1) ∧ s'.host.ce = s.host.ce + BitVec.ofNat 32 ls.length ∧
      s'.mem = s.mem ∧ s'.strands = s.strands) ∧
    let k := s.core core
    (s.ftime < k.visitFrom → exec (.verticalTestVisit core aborted mism) s = .next s) ∧
    (k.visitFrom ≤ s.ftime → exec (.verticalTestVisit core aborted mism) s = .next (s.setCore core
      (if aborted then { k with aborts := k.aborts + 1, visitFrom := s.ftime + 100000 }
       else { k with visits := k.visits + 1, visitFrom := s.ftime + 1000000,
                     mismatches := k.mismatches + BitVec.ofNat 32 mism }))))

/-- 02, R27-R29, R38, R48; 04, R88, R89, R91: submission. A doorbell joins the 128 staged bytes to the port's queue as one
record, which clears REFUSED (log 55); a port that is disabled, or whose queue is full, refuses it and says why; a frozen
device drops the write. A record at the head of a queue enters the launch table, under the next acceptance number, READY when
it has no dependence; a malformed one is refused.

04, R82, R83, R89, R90, R92, R93: a launch runs. The READY launch of the highest priority, then of the lowest acceptance
number, is chosen; a packable one becomes RUNNING at once. A strand handed out holds what R83 gives it; one whose tile is
dark is skipped. That an entry of the ownership map which cannot be read is met, and nothing else done, is the model's choice
(log 81). It starts when its core is up, has received its first injection where the launch is packable, and START has come; a
mesh strand has its ring slot first. A launch with nothing left writes its completion word and leaves the table. -/
def Obligations.LaunchSteps : Prop :=
  ((∀ (port : Nat) (tag : BitVec 32) (s : State), port < 64 → s.barsUp = true →
    let p := s.port port
    let run := exec (.queueDoorbell port tag) s
    (s.dbg.frozen = true → run = .next { s with host := { s.host with frzdrop := s.host.frzdrop + 1 } }) ∧
    (s.dbg.frozen = false →
      (p.en = true → (s.queue port).length < Config.queueDepth → ∃ s', run = .next s' ∧
        s' = { s with ports := s'.ports, queues := s'.queues } ∧
        s'.queue port = s.queue port ++ [{ bytes := p.staging, origin := .port port tag, ctx := p.ctx }] ∧
        s'.port port = { p with refused := false } ∧
        ∀ q, q ≠ port → s'.queue q = s.queue q ∧ s'.port q = s.port q) ∧
      (p.en = false ∨ Config.queueDepth ≤ (s.queue port).length → ∃ s', run = .next s' ∧ s'.queues = s.queues ∧
        s'.port port = { p with tag := tag, why := if p.en then 0xF0 else 0xF2, refused := true } ∧
        (p.note = false → s'.host = s.host) ∧
        (p.note = true → s.host.msixEn = true → s.host.msixMask.contains p.vec.toNat = false →
          s'.host.msixSent = p.vec.toNat :: s.host.msixSent)))) ∧
  ∀ (queue k : Nat) (m : Submitted) (rest : List Submitted) (s s2 : State) (good : Bool),
    s.queue queue = m :: rest → s.freeEntry = some k →
    State.wellRecord { s with queues := Table.set s.queues queue rest } m.bytes m.check = (s2, good) →
    ∃ s', exec (.launchAccept queue) s = .next s' ∧ s'.queue queue = rest ∧
      (good = true → s'.accNo = s.accNo + 1 ∧ ∃ la, Table.get? s'.launches k = some la ∧ la.bytes = m.bytes ∧
        la.origin = m.origin ∧ la.accNo = s.accNo + 1 ∧ la.handed = 0 ∧ la.retired = 0 ∧
        la.state = (if la.deps = [] then LState.ready else LState.waiting) ∧ (recDeps m.bytes = [] → la.state = .ready) ∧
        ∀ d ∈ la.deps, s'.depOk d.2 (recDepVal m.bytes d.1) = false) ∧
      (good = false → s'.launches = s.launches ∧ s'.accNo = s.accNo ∧
        (∀ q tag, m.origin = .port q tag → (s'.port q).tag = tag ∧ (s'.port q).why = 0xF1 ∧ (s'.port q).refused = true) ∧
        (∀ sid uid c mode a, m.origin = .strand sid uid c mode a → s'.host.qrefuse = s.host.qrefuse + 1))) ∧
  (∀ (k sid : Nat) (la : Launch) (s : State),
    let maps : Prop := ∀ w ∈ s.mapWaits false, s.mapBad w.1 = none
    let isReady (a : Launch) : Bool := a.state == LState.ready && a.chosenAt.isNone && a.total != 0
    (s.firstLaunch isReady = none → exec .launchChoose s = .next s) ∧
    (s.firstLaunch isReady = some (k, la) →
      (isReady la = true ∧ ∀ e ∈ s.launches, isReady e.2 = true →
        recPrio e.2.bytes < recPrio la.bytes ∨ recPrio e.2.bytes = recPrio la.bytes ∧ la.accNo ≤ e.2.accNo) ∧
      (recPinned la.bytes = true → ∃ k0, exec .launchChoose s = .next { s with launches := Table.set s.launches k { la with
        chosenAt := some k0 } } ∧ s.gov.tick + 1 ≤ k0 ∧ s.ftime ≤ 1000 * k0) ∧
      (recPinned la.bytes = false → Table.get? s.launches k = some la → ∃ s', exec .launchChoose s = .next s' ∧
        ∃ la', Table.get? s'.launches k = some la' ∧ la'.state = .running ∧ la'.runAt = s.ftime ∧ la'.bytes = la.bytes)) ∧
    (¬ maps → ∃ e, exec .strandHandout s = .next { s with met := s.met ++ [e] }) ∧
    (∀ n tile c, maps → s.nextCand = some (.strand k n tile c) → Table.get? s.launches k = some la → s.freeSlot c = some sid →
      s.imageBad la c false = none → ∃ s', exec .strandHandout s = .next s' ∧
        let t := s'.strand sid
        let r := la.bytes
        let o := (s.copyImages k la c false).objOf la
        let st := stageOf r n 0 8
        t.stat = .bound ∧ t.launch = k ∧ t.ordinal = n ∧ t.ctx = recCtx r ∧ t.mode = 0 ∧ t.prio = recPrio r ∧ t.tile = tile ∧
          t.pc = (if o.far then recCode r + BitVec.ofNat 64 (o.text.1 + recEntry r) else BitVec.ofNat 64 (recEntry r)) &&& ~~~3 ∧
          t.xr 4 = recArgs r ∧ t.xr 5 = BitVec.ofNat 64 st.1 ∧ t.xr 6 = BitVec.ofNat 64 st.2 ∧
          t.xr 7 = BitVec.ofNat 64 (recScnt r st.1) ∧
          (t.xr 8 = match tile with
            | some i => BitVec.ofNat 64 i
            | none => 0xFFFFFFFFFFFFFFFF) ∧
          (∀ i : XReg, i = 1 ∨ 9 ≤ i.toNat → t.xr i = 0) ∧ (∀ i, t.vr i = 0) ∧ (∀ i : PReg, i ≠ 0 → t.pr i = 0) ∧
          (∀ i, t.dr i = DirReg.zero) ∧ (∀ i, t.cr i = 0) ∧ t.hue = 0 ∧
          ∃ la', Table.get? s'.launches k = some la' ∧ la'.bytes = r ∧ n ∉ la'.pending) ∧
    (∀ n, maps → s.nextCand = some (.dark k n) → Table.get? s.launches k = some la → ∃ s', exec .strandHandout s = .next s' ∧
      s' = { s with launches := s'.launches } ∧ (∀ j, j ≠ k → Table.get? s'.launches j = Table.get? s.launches j) ∧
      ∃ la', Table.get? s'.launches k = some la' ∧ la'.bytes = la.bytes ∧ la'.darkSkip = true ∧
        la'.skips = la.skips + 1 ∧ la'.retired = la.retired ∧ n ∉ la'.pending) ∧
    (let t := s.strand sid
     Table.get? s.launches t.launch = some la → t.stat = .bound →
      let core := s.core (coreOf sid)
      let may : Prop := core.power.up = true ∧ (recPinned la.bytes = false → core.injected = true) ∧ recStart la.bytes ≤ s.ftime ∧
        (t.fresh = true → s.usesRing la = true → t.ordinal < la.meshSlots)
      (¬ may → exec (.strandStart sid) s = .next s) ∧
      (may → t.fresh = true → recSstep la.bytes = false → exec (.strandStart sid) s = .next ((s.busy (coreOf sid)).setStrand sid
        { t with stat := .live, fresh := false, eff := t.prio, waitCnt := 0, tvec := s.kvecOf t.ctx })) ∧
      (may → t.fresh = false → exec (.strandStart sid) s = .next ((s.busy (coreOf sid)).setStrand sid { t with stat := .live }))) ∧
    (Table.get? s.launches k = some la →
      let run := exec (.launchComplete k) s
      let s1 : State := { s with launches := Table.erase s.launches k }
      (la.over = false ∨ s.launchQuiet k la = false → run = .next s) ∧
      (la.over = true → s.launchQuiet k la = true →
        (recDone la.bytes = 0 → run = .next s1) ∧
        (∀ p, recDone la.bytes ≠ 0 → s.unitPhys (recCtx la.bytes) (recDone la.bytes).toNat leafWrites = some p →
          s1.quiet (locsFrom p 8) → ∃ s', run = .next s' ∧ leNat (s'.mem.bytes p 8) = la.word.toNat ∧
            ∀ l, l ∉ locsFrom p 8 → s'.mem.byte l = s.mem.byte l))) ∧
    (la.word.toNat % 2 ^ 32 = recDoneVal la.bytes ∧ bitsAt la.word.toNat 40 21 = 0 ∧
      la.word.getLsbD 61 = la.darkSkip ∧ la.word.getLsbD 62 = la.lateStart ∧ la.word.getLsbD 63 = la.ended.isSome ∧
      bitsAt la.word.toNat 32 8 = (la.ended.getD 0).toNat))

/-- 19, R384-R389: pre-emption. With husks off nothing is pre-empted. A victim for a pinned strand is a strand in a slot of
its core, of a priority below its own that no other strand of that core undercuts; one for a packable strand is at least 8
below it and lowest in the field; neither's core has a pre-emption in progress. That a strand which has not started is among
them is the model's choice (log 60), and so is that an entry of the ownership map which cannot be read is met, and nothing
else done (log 81). The request withdraws its wait. A stopped strand whose stores have drained and whose operations are over
is written to its husk, and its slot is freed; a husk resumes in a free slot. That a husk of the same slot keeps what the
block held is the model's choice (log 65). What a block holds is stated where every write has reached all parties.

19, R388, R389: a full husk gives back every register it holds, as saved: each CSR that holds what a write of it stores (07,
R139), and a pc that is a multiple of 4 (06, R120). Whatever stands in a block, the strand that it gives has such a pc, such
CSRs and one of the three modes: what others are taken as is the model's choice (log 79). -/
def Obligations.Preemption : Prop :=
  (∀ (sid : Nat) (s : State),
    let t := s.strand sid
    let maps : Prop := ∀ w ∈ s.mapWaits false, s.mapBad w.1 = none
    let meets (o : Out) : Prop := ∃ e, o = .next { s with met := s.met ++ [e] }
    let stands (x : Strand) : Prop := x.stat = .live ∨ x.stat = .bound
    let free (c : Nat) : Prop := ∀ o ∈ s.strands, stands o.2 → coreOf o.1 = c → o.2.preempt = none
    (s.huskEn = false → ∀ pinned, exec (.preemptRequest pinned) s = .next s) ∧
    (¬ maps → (s.huskEn = true → ∀ pinned, meets (exec (.preemptRequest pinned) s)) ∧ meets (exec .huskResume s)) ∧
    (∀ pinned, s.huskEn = true → maps →
      firstVictim (if pinned then s.pinnedWaits.map fun w => (w.1, w.2.1, s.pinnedVictim w.2.2 w.1)
        else s.packWaits.map fun w => (w.1, w.2, s.packVictim w.1)) = some sid →
      (∀ m, t.wait ≠ some (.gang m true)) → t.mid = none → ∃ s', exec (.preemptRequest pinned) s = .next s' ∧
        let u := s'.strand sid
        u.preempt = some 0 ∧ u.wait = none ∧ u.pc = t.pc ∧ u.x = t.x ∧ u.instret = t.instret ∧ s'.mem = s.mem ∧
          (t.stat = .live → t.parked.isSome = true → u.saving = true) ∧ ∀ i, i ≠ sid → s'.strand i = s.strand i) ∧
    (∀ c prio, s.pinnedVictim c prio = some sid → s.freeSlot c = none ∧ free c ∧ ∃ e ∈ s.strands, e.1 = sid ∧ stands e.2 ∧
      coreOf sid = c ∧ e.2.prio < prio ∧ ∀ o ∈ s.strands, stands o.2 → coreOf o.1 = c → e.2.prio ≤ o.2.prio) ∧
    (∀ prio, s.packVictim prio = some sid → free (coreOf sid) ∧ ∃ e ∈ s.strands, e.1 = sid ∧ stands e.2 ∧ e.2.prio + 8 ≤ prio ∧
      ∀ o ∈ s.strands, stands o.2 → e.2.prio ≤ o.2.prio) ∧
    (let ready : Prop := t.stat = .live ∧ t.saving = true ∧ t.buf = [] ∧ t.mid = none ∧ s.huskEn = true ∧
      ∀ o ∈ s.ops, ∀ c ∈ o.counters, c.1 ≠ t.uid
     (¬ ready → exec (.huskSave sid) s = .next s) ∧
     (ready → (t.pauseMasks.getD fullMasks).length = 12 → s.quiet (locsFrom (s.huskLoc sid) 2048) →
      ∃ s', exec (.huskSave sid) s = .next s' ∧ (s'.strand sid).stat = .free ∧
        s'.mem.bytes (s.huskLoc sid) 2048 = t.huskBytes t.pauseMasks.isNone (t.pauseMasks.getD fullMasks) ∧
        (∀ l, l ∉ locsFrom (s.huskLoc sid) 2048 → s'.mem.byte l = s.mem.byte l) ∧
        ∃ h, s'.husks = (s.husks.map fun (g : Husk) =>
            if g.sid = sid ∧ g.kept = none then { g with kept := some (s.mem.bytes (s.huskLoc sid) 2048) } else g) ++ [h] ∧
          h.sid = sid ∧ h.uid = t.uid ∧ h.since = (s.ftime : Int) ∧ h.kept = none)) ∧
    (maps → (∀ i c, s.nextCand ≠ some (.husk i c)) → exec .huskResume s = .next s) ∧
    ∀ i c h la, maps → s.nextCand = some (.husk i c) → s.husks[i]? = some h → s.freeSlot c = some sid →
      s.launchOfStrand h.strand = some la → s.huskBad h = none → s.imageBad la c true = none →
      ∃ s', exec .huskResume s = .next s' ∧ s'.husks = s.husks.eraseIdx i ∧
        let u := s'.strand sid
        u.stat = (if (s.core c).power.up && (recPinned la.bytes || (s.core c).injected) then SlotStat.live else SlotStat.bound) ∧
          u.uid = h.uid ∧ u.wait = none ∧
          u.buf = [] ∧ u.entry = false ∧ u.eff = u.prio ∧
          (∀ bs, h.kept = some bs → u.pc = BitVec.ofNat 64 (leNat (bs.take 8)) &&& ~~~3) ∧
          (h.kept = none → s.level →
            u.pc = BitVec.ofNat 64 (leNat ((s.copyImages h.strand.launch la c true).mem.bytes (s.huskLoc h.sid) 8)) &&& ~~~3)) ∧
  (∀ t u : Strand,
    let r := t.ofHusk (u.huskBytes true fullMasks)
    (u.pc &&& 3 = 0 → r.pc = u.pc) ∧ r.x = u.x ∧ r.v = u.v ∧ r.d = u.d ∧ (∀ i : PReg, r.pr i = u.pr i) ∧ r.c = u.c ∧
      r.ed = u.ed ∧ r.csrs = u.asStored.csrs ∧ (u.asStored = u → r.csrs = u.csrs) ∧ (u.parked = none → r.parked = none) ∧
      r.ctx = t.ctx ∧ r.launch = t.launch ∧ r.tile = t.tile) ∧
  ∀ (t : Strand) (bs : List Byte), (t.ofHusk bs).asStored = t.ofHusk bs ∧ (t.ofHusk bs).pc &&& 3 = 0

/-- 05, R100-R102, R109: the tick. It falls due when field time reaches it; the writes of the block take effect at it; A
rises by at most RAMP_UP and falls by at most RAMP_DN, and lies above PLIM only while it falls; no token store exceeds
131,072 tokens.

05, R98, R100, R111: power states. A core that cannot cover its charge gates itself. A core with no live strand and no chaff
is power-gated after GATEDLY, and off after OFFDLY unless it has adopted a tile. Gated, it has lost its core CSRs but for
`cycle`, its accumulators and its caches, and keeps its units' queues (log 38); off, its TCM too. A wake leaves it
clock-gated; one that was off counts its cycles from 0. A change of V/F point completes. -/
def Obligations.PowerSteps : Prop :=
  (∀ (rails : BitVec 6) (s : State),
    let k := s.gov.tick + 1
    let run := exec (.governorTick rails) s
    (s.ftime < 1000 * k → run = .next s) ∧
    (1000 * k ≤ s.ftime → ∃ s', run = .next s' ∧ s'.gov.tick = k ∧ s'.gov.writes = [] ∧ s'.ftime = s.ftime ∧
      (s.gov.writes = [] → s'.gov.plim = s.gov.plim ∧ s'.gov.rampUp = s.gov.rampUp ∧ s'.gov.rampDn = s.gov.rampDn) ∧
      (∀ w : Word, s.gov.writes = [(0, w)] → s'.gov.plim = clampNat 80 1040 (bitsAt w.toNat 11 11) ∧
        s'.gov.rampUp = clampNat 1 256 (bitsAt w.toNat 22 9) ∧ s'.gov.rampDn = clampNat 1 256 (bitsAt w.toNat 31 9)) ∧
      s'.gov.demand ≤ (s'.gov.plim : Rat) ∧
      s.gov.alloc - (s'.gov.rampDn : Rat) ≤ s'.gov.alloc ∧ s'.gov.alloc ≤ s.gov.alloc + (s'.gov.rampUp : Rat) ∧
      (s'.gov.alloc ≤ (s'.gov.plim : Rat) ∨ s'.gov.alloc = s.gov.alloc - (s'.gov.rampDn : Rat)) ∧
      ((∀ c, (s.core c).tokens ≤ tokenCap) → ∀ c, (s'.core c).tokens ≤ tokenCap))) ∧
  (∀ (c h : Nat) (s : State),
    let k := s.core c
    let is (o : Out) (k' : Core) : Prop := o = .next (s.setCore c k')
    (let short : Prop := k.power.up = true ∧ k.starved = false ∧ k.tokens < k.owed
     (¬ short → exec (.tokenStarve c) s = .next s) ∧
     (short → is (exec (.tokenStarve c) s) { k with starved := true, owed := 0, power := .clockGated })) ∧
    (let rests : Prop := k.power.up = true ∧ c < 9216 ∧ k.chaff = 0 ∧ (∀ t ∈ s.onCore c, t.stat ≠ .live) ∧
      k.idleSince + 1000 * s.gov.gateDly ≤ s.ftime
     (¬ rests → exec (.corePowerGate c) s = .next s) ∧
     (rests → ∃ k', is (exec (.corePowerGate c) s) k' ∧ k'.power = .powerGated ∧ k'.gatedSince = s.ftime ∧
      k'.admitted = false ∧ k'.starved = false ∧ k'.injected = false ∧ k'.l1 = [] ∧ k'.icache = [] ∧ k'.utlb = [] ∧
      k' = { k' with
        cycle := k.cycle, tokens := k.tokens, near := k.near, sendQ := k.sendQ, fpx := k.fpx, hdr := k.hdr, edge := k.edge,
        emits := k.emits, trayQ := k.trayQ, trayHead := k.trayHead, failed := k.failed })) ∧
    (let idles : Prop := k.power = .powerGated ∧ k.waking = false ∧ s.adopter c = false ∧
      k.gatedSince + 1000 * s.gov.offDly ≤ s.ftime
     let maps : Prop := ∀ t ∈ coreNear c, s.mapBad t = none
     (maps → ¬ idles → exec (.corePowerOff c) s = .next s) ∧
     (idles → ¬ maps → ∃ e, exec (.corePowerOff c) s = .next { s with met := s.met ++ [e] }) ∧
     (maps → idles → s.canonical = true → ∃ s', exec (.corePowerOff c) s = .next s' ∧
      s' = { s with cores := s'.cores, mem := s'.mem } ∧ s'.core c = { k with power := .off, near := none } ∧
      (∀ j, j ≠ c → s'.core j = s.core j) ∧
      ∀ l, (∀ o, o < Config.tcmBytes → l ≠ tcmLoc c o) → s'.mem.byte l = s.mem.byte l)) ∧
    (k.waking = false → exec (.coreWakeDone c) s = .next s) ∧
    (k.waking = true → ∃ s', exec (.coreWakeDone c) s = .next s' ∧ (s'.core c).power = .clockGated ∧
      (s'.core c).waking = false ∧ (s'.core c).idleSince = s.ftime ∧
      (s'.core c).cycle = (if k.power = .off then 0 else k.cycle) ∧
      (k.near ≠ none → s' = s.setCore c (s'.core c))) ∧
    ((s.sheaf h).target = none → exec (.vfTransitionDone h) s = .next s) ∧
    ∀ p, (s.sheaf h).target = some p →
      exec (.vfTransitionDone h) s = .next (s.setSheaf h { s.sheaf h with point := p, target := none }))

/-- 05, R113-R116; 02, R48: droops, alarms and sensors. A droop stretches its sheaf and is counted, saturating. OC_N sets the
CORE bit, counts one alarm, records the time of the first, sends boost points down to P_BASE and signals vector 1. A sensor
outside −40 to 150 °C is failed and stays so; one that reads TSHUT or above freezes the device, sets THERMTRIP and signals
vector 1. That a second fall of a stretched sheaf is no new event, and which events signal the vector, is log 37. -/
def Obligations.AlarmsAndSensors : Prop :=
  ∀ (h j : Nat) (raw : Int) (s : State),
    (let x := s.sheaf h
     (x.stretched = true ∨ Config.sheaves ≤ h → exec (.droopDetect h) s = .next s) ∧
     (x.stretched = false → h < Config.sheaves → exec (.droopDetect h) s = .next (s.setSheaf h { x with
        stretched := true, droop := if x.droop = 0xFFFF then 0xFFFF else x.droop + 1 })) ∧
     (x.stretched = false → exec (.droopRecover h) s = .next s) ∧
     (x.stretched = true → exec (.droopRecover h) s = .next (s.setSheaf h { x with stretched := false }))) ∧
    (∃ s', exec .ocNAssert s = .next s' ∧ s'.gov.ocBits = s.gov.ocBits ||| 1 ∧
      s'.gov.ocCount = (if s.gov.ocCount = 0xFFFF then 0xFFFF else s.gov.ocCount + 1) ∧
      s'.gov.ocTime = (if s.gov.ocBits = 0 then BitVec.ofNat 32 (s.ftime / 1000) else s.gov.ocTime) ∧
      (∀ i x, Table.get? s.sheafs i = some x → Table.get? s'.sheafs i = some (if s.gov.pbase < x.point then
        { x with target := some s.gov.pbase } else (s'.sheaf i)) ∧ (s'.sheaf i).point = x.point) ∧
      (s.host.msixEn = true → s.host.msixMask.contains 1 = false → 1 ∈ s'.host.msixSent)) ∧
    (288 ≤ j → exec (.sensorReading j raw) s = .next s) ∧
    (j < 288 → ∃ s', exec (.sensorReading j raw) s = .next s' ∧
      (s'.sensor j).readings = raw :: (s.sensor j).readings.take 15 ∧ (∀ i, i ≠ j → s'.sensor i = s.sensor i) ∧
      (raw < -640 ∨ 2400 < raw ∨ (s.sensor j).failed = true → (s'.sensor j).failed = true) ∧
      ((s'.sensor j).failed = false → 16 * (s.gov.tshut : Int) ≤ raw → s'.dbg.frozen = true ∧ s'.gov.thermTrip = true) ∧
      (s'.gov.thermTrip = true → s.gov.thermTrip = false → s.host.msixEn = true → s.host.msixMask.contains 1 = false →
        1 ∈ s'.host.msixSent) ∧
      (s'.tripped = false → s'.dbg = s.dbg ∧ s'.gov.thermTrip = s.gov.thermTrip))

/-- 02, R25, R30, R36, R37, R40, R47; 05, R109: register writes. An unassigned offset drops a write. A register of the
identity block reads as written but for its reserved bits; a write-1-to-clear bit is cleared; FRESET asks for a field reset;
a port is staged and configured; a write of the power block waits for the tick.

02, R26, R38, R45, R48; 05, R114; 19, R390: the host's other accesses. A read through BAR2 returns the bytes; a write
performs them, but is dropped and counted above 72 GiB; both are refused or dropped in recovery and while frozen, and so is a
read of a queue port while frozen. A configuration request is retried until the link is up. A write of OC_CAUSE waits for the
tick, and then clears the rail bits written 1. The model's choices: while frozen, an access above 72 GiB through BAR2 is
dropped as every other is (log 69), the OC_CAUSE record goes with its last bit (log 37), a configuration request enables
MSI-X (log 34), and a register is written 64 bits at a time (log 44). -/
def Obligations.HostAccesses : Prop :=
  (∀ (off : Nat) (w : Word) (s : State),
    let run := exec (.registerWrite off w) s
    let reads (f : Word) : Prop := ∃ s', run = .next s' ∧ s'.readBar0 off = f ∧ s' = { s with host := s'.host }
    (s.tch.pcieUp = false → run = .next s) ∧
    (s.tch.pcieUp = true →
      (off = 0x08 → ∃ s', run = .next s' ∧ s'.host.freset = (s.host.freset || w.getLsbD 0)) ∧
      (off = 0x10 → ∃ s', run = .next s' ∧ s'.tch.calfail = (s.tch.calfail && !w.getLsbD 8)) ∧
      (off = 0x18 → ∃ s', run = .next s' ∧ s'.host.devNext.toNat = bitsAt w.toNat 4 4 ∧ s'.host.devId = s.host.devId) ∧
      (off = 0x38 ∨ off = 0x48 ∨ off = 0x80 → reads w) ∧
      (off = 0x40 → reads (w &&& 0x0000FFFFFFFFFE00)) ∧
      (off = 0x60 → ∃ s', run = .next s' ∧ s'.host.ctxend = s.host.ctxend &&& ~~~(w.truncate 16)) ∧
      (off = 0x68 → reads (w &&& 0x0000FFFFFFFF0001)) ∧
      (off = 0x70 → ∃ s', run = .next s' ∧ s'.host.frame = max 1000 (bitsAt w.toNat 32 26) ∧
        s'.host.stepm1 = bitsAt w.toNat 0 10) ∧
      (off = 0x78 ∨ off = 0x28 ∨ 0x98 ≤ off ∧ off < 0x1000 ∨ 0x300000 ≤ off → run = .next s) ∧
      (∀ o, off = 0x2000 + o → o + 8 ≤ 0x1000 → s.tch.buf.wf = true → ∃ s', run = .next s' ∧
        ∀ i, s'.tch.buf.byte i = if o ≤ i ∧ i < o + 8 then BitVec.ofNat 8 (bitsAt w.toNat (8 * (i - o)) 8)
          else s.tch.buf.byte i) ∧
      (s.tch.fwrecov = true → 0x10000 ≤ off → run = .next s) ∧
      (s.tch.fwrecov = false →
        (∀ q o, q < 64 → off = 0x10000 + 0x100 * q + o → s.dbg.frozen = false →
          (o + 8 ≤ 0x80 → (s.port q).staging.length = 128 → ∃ p : Port, run = .next (s.setPort q p) ∧
            p = { s.port q with staging := p.staging } ∧
            p.staging = (s.port q).staging.take o ++ leBytes w.toNat 8 ++ (s.port q).staging.drop (o + 8)) ∧
          (o = 0x90 → ∃ p : Port, run = .next (s.setPort q p) ∧
            p = { s.port q with note := w.getLsbD 14, vec := p.vec, en := p.en, ctx := p.ctx } ∧
            p.ctx.toNat = bitsAt w.toNat 0 4 ∧ p.vec.toNat = max 2 (bitsAt w.toNat 8 6) ∧
            p.en = (w.getLsbD 4 && p.ctx != 0 && s.tch.ready))) ∧
        (∀ o, off = 0x100000 + o → o = 0 ∨ o = 0x18 ∨ o = 0x20 ∨ o = 0x28 ∨ o = 0x4800 →
          run = .next { s with gov := { s.gov with writes := s.gov.writes ++ [(o, w)] } })))) ∧
  (∀ (a n : Nat) (bs : List Byte) (m : Option Bool) (w : Word) (s : State),
    (s.barsUp = false → (∃ s', exec (.hostBar2Read a n) s = .next s' ∧ s'.host.hostBad = true ∧ s'.mem = s.mem) ∧
      exec (.hostBar2Write a bs) s = .next s) ∧
    (s.barsUp = true → s.dbg.frozen = true →
      (∃ s', exec (.hostBar2Read a n) s = .next s' ∧ s'.host.hostData = List.replicate n 0xFF ∧
        s'.host.frzdrop = s.host.frzdrop + 1) ∧
      ∃ s', exec (.hostBar2Write a bs) s = .next s' ∧ s'.mem = s.mem ∧ s'.host.frzdrop = s.host.frzdrop + 1) ∧
    (s.barsUp = true → s.dbg.frozen = false →
      (a + n ≤ Config.hbmEnd → s.level → (∀ i, i < n → s.poisoned (unitBase (a + i)) = false) →
        ∃ s', exec (.hostBar2Read a n) s = .next s' ∧ s'.host.hostData = s.mem.bytes a n ∧ s'.host.hostBad = false ∧
          s' = { s with host := { s.host with hostData := s'.host.hostData, hostBad := false } }) ∧
      (Config.hbmEnd < a + bs.length → ∃ s', exec (.hostBar2Write a bs) s = .next s' ∧ s'.mem = s.mem ∧
        s'.host.bar2drop = s.host.bar2drop + 1) ∧
      (a + bs.length ≤ Config.hbmEnd → s.quiet (locsFrom a bs.length) → ∃ s', exec (.hostBar2Write a bs) s = .next s' ∧
        s'.mem.bytes a bs.length = bs ∧ (∀ l, l ∉ locsFrom a bs.length → s'.mem.byte l = s.mem.byte l) ∧
        s'.strands = s.strands ∧ s'.host = s.host)) ∧
    (∀ off, s.barsUp = true → s.dbg.frozen = true → 0x10000 ≤ off → off < 0x14000 → ∃ s', s.take (.read off) = .next s' ∧
      s'.host.hostData = List.replicate 8 0xFF ∧ s'.host.frzdrop = s.host.frzdrop + 1) ∧
    (s.tch.pcieUp = false → ∃ s', exec (.pcieConfigRequest m) s = .next s' ∧ s'.host.hostBad = true ∧
      s'.host.msixEn = s.host.msixEn) ∧
    (s.tch.pcieUp = true → ∃ s', exec (.pcieConfigRequest m) s = .next s' ∧ s'.host.hostBad = false ∧
      s'.host.msixEn = m.getD s.host.msixEn) ∧
    (s.barsUp = true → ∃ s', exec (.ocCauseClear w) s = .next s' ∧ s'.gov.writes = s.gov.writes ++ [(0x18, w)] ∧
      s' = { s with gov := s'.gov }) ∧
    let g := s.gov.take 0x18 w
    g.ocBits = s.gov.ocBits &&& ~~~(w.truncate 6) ∧
      (g.ocBits = 0 → g.ocCount = 0 ∧ g.ocTime = 0) ∧
      (g.ocBits ≠ 0 → g.ocCount = s.gov.ocCount ∧ g.ocTime = s.gov.ocTime))

/-- 02, R37-R39, R44, R45; 21, R404: resets. A cold or warm reset whose firmware passes stands in step 6 with the ownership
map written, every slot free and the sticky fields kept; a failure of step 1 or 2 enters recovery there. Two seconds in step
6 reach READY. A field reset that was asked for clears the field, keeps field time, QCFG and memory outside the cores', and
reaches READY again; what it keeps in memory, and that it is a step of its own after the write of FRESET, is log 39, and
STAGE after READY log 56. Loss of the always-on power clears the sticky fields.

02, R47: loads of field time. FTCFG holds ARM and SRC, and LOADED is cleared by 1; with SRC 1 a load falls due at the next 10
ns boundary, with SRC 0 100 ns after an edge that finds ARM 1. A load that falls due with ARM 1 and SRC as it was sets field
time, disarms and sets LOADED; one not armed is dropped. -/
def Obligations.Resets : Prop :=
  (∀ (b : BringUp) (s : State),
    let sticky (s' : State) : Prop := s'.gov.ocBits = s.gov.ocBits ∧ s'.gov.ocCount = s.gov.ocCount ∧
      s'.gov.ocTime = s.gov.ocTime ∧ s'.gov.thermTrip = s.gov.thermTrip
    let mapped (s' : State) : Prop := s'.host.ownmap = some b.page ∧ ∀ t, t < 9216 → s'.mapEntry t =
      if b.failed.contains t then
        match (adoptions b).find? fun a => a.1 == t with
        | some a => 0xC000 + a.2
        | none => 0
      else 0x8000 + t
    (∀ cold : Bool, s.powerOn.pageOk b.page = true →
      let run := exec (if cold then .coldReset b else .warmReset b) s
      (b.fw1 = true → b.fw2 = true → s.tch.staged = [] → ∃ s', run = .next s' ∧ sticky s' ∧ mapped s' ∧ s'.strands = [] ∧
        s'.ftime = 0 ∧ s'.tch.stage = 6 ∧ s'.tch.ready = false ∧ s'.tch.fwrecov = false ∧ s'.tch.pcieUp = true ∧
        s'.dbg.frozen = false ∧ s'.tch.adopted = (adoptions b).length) ∧
      (b.fw1 = false → ∃ s', run = .next s' ∧ sticky s' ∧ s'.tch.stage = 1 ∧ s'.tch.fwrecov = true ∧ s'.strands = []) ∧
      (b.fw1 = true → b.fw2 = false → s.tch.staged = [] → ∃ s', run = .next s' ∧ sticky s' ∧ s'.tch.stage = 2 ∧
        s'.tch.fwrecov = true ∧ s'.strands = [])) ∧
    (∀ as : List (Nat × Nat), as = adoptions b → (as.map Prod.snd).Nodup ∧ ∀ a ∈ as, a.1 < 9216 ∧
      b.failed.contains a.1 = true ∧ b.failed.contains a.2 = false ∧ a.2 ∈ coreNear a.1) ∧
    (s.tch.stage = 6 → s.tch.fwrecov = false → ∃ s', exec .calloadWaitTimeout s = .next s' ∧ s'.tch.stage = 7 ∧
      s'.tch.ready = true) ∧
    (s.host.freset = false → exec (.fieldReset b) s = .next s) ∧
    (s.host.freset = true → s.tch.fwrecov = false → s.fieldBase.pageOk b.page = true → ∃ s',
      exec (.fieldReset b) s = .next s' ∧ sticky s' ∧ s'.strands = [] ∧ s'.launches = [] ∧ s'.ftime = s.ftime ∧
      s'.tch.stage = 7 ∧ s'.tch.ready = true ∧ s'.host.freset = false ∧ s'.host.devId = s.host.devNext ∧
      (∀ q, (s'.port q).en = (s.port q).en ∧ (s'.port q).ctx = (s.port q).ctx ∧ (s'.port q).note = (s.port q).note ∧
        (s'.port q).vec = (s.port q).vec) ∧ s'.routes = s.routes ∧
      (s.canonical = true → mapped s' ∧ ∀ l, s'.physOk l = true → l < b.page ∨ b.page + 18432 ≤ l →
        s'.mem.byte l = s.mem.byte l)) ∧
    ∃ s', exec .alwaysOnPowerLoss s = .next s' ∧ s'.gov.ocBits = 0 ∧ s'.gov.ocCount = 0 ∧ s'.gov.ocTime = 0 ∧
      s'.gov.thermTrip = false ∧ s'.mem = s.mem ∧ s'.strands = s.strands) ∧
  (∀ (w : Word) (s : State),
    let h := s.host
    (s.tch.pcieUp = false → exec (.ftcfgWrite w) s = .next s) ∧
    (s.tch.pcieUp = true → ∃ s', exec (.ftcfgWrite w) s = .next s' ∧ s' = { s with host := s'.host } ∧
      s'.host.ftArm = w.getLsbD 0 ∧ s'.host.ftSrc = w.getLsbD 1 ∧ s'.host.ftLoaded = (h.ftLoaded && !w.getLsbD 2) ∧
      (w.getLsbD 0 = false → s'.host.ftDue = none) ∧
      (w.getLsbD 0 = true → w.getLsbD 1 = true → h.ftArm = false → ∃ d, s'.host.ftDue = some (d, true) ∧ d % 10 = 0 ∧
        s.ftime < d ∧ d ≤ s.ftime + 10) ∧
      (w.getLsbD 0 = true → w.getLsbD 1 = false → h.ftArm = false ∨ h.ftSrc = true → s'.host.ftDue = none)) ∧
    (h.ftArm = false ∨ h.ftSrc = true → exec .ftsyncEdge s = .next s) ∧
    (h.ftArm = true → h.ftSrc = false → h.ftDue = none →
      exec .ftsyncEdge s = .next { s with host := { h with ftDue := some (s.ftime + 100, false) } }) ∧
    (h.ftDue = none → exec .ftimeLoad s = .next s) ∧
    ∀ d src, h.ftDue = some (d, src) →
      (s.ftime < d → exec .ftimeLoad s = .next s) ∧
      (d ≤ s.ftime → h.ftArm = false ∨ h.ftSrc ≠ src →
        exec .ftimeLoad s = .next { s with host := { h with ftDue := none } }) ∧
      (d ≤ s.ftime → h.ftArm = true → h.ftSrc = src → ∃ s', exec .ftimeLoad s = .next s' ∧ s'.ftime = h.ftload.toNat ∧
        s'.host.ftLoaded = true ∧ s'.host.ftArm = false ∧ s'.host.ftDue = none ∧ s'.mem = s.mem ∧
        (∀ i, s'.strand i = { s.strand i with waitAt := (s'.strand i).waitAt }) ∧
        (0 < s'.ftime → 1000 * s'.gov.tick < s'.ftime ∧ s'.ftime ≤ 1000 * (s'.gov.tick + 1))))

/-- 02, R40-R42; 11, R246, R248; 19, R381; 20, R396: the mailbox. A command starts when none runs, and BUSY refuses another;
recovery serves two; an unknown code ends at once. When the running one ends, its results lie in MBBUF, LEN and RESULT say
so, and BUSY is clear: the report of R41 (its ROLLBK is the fused counter, log 40), the counts of R246. An argument outside
its range ends it with RESULT 0x03 and no effect. A CALLOAD that succeeds clears CALFAIL (log 40), and STAGE reads 7 after
READY (log 56). -/
def Obligations.Mailbox : Prop :=
  ∀ (i : Nat) (c : Byte) (s : State), i < 7 →
    let code : Byte := BitVec.ofNat 8 (i + 1)
    let start := exec (match i with
      | 0 => .attest
      | 1 => .fwstage
      | 2 => .calload
      | 3 => .granset
      | 4 => .vtlog
      | 5 => .endctx
      | _ => .kvec) s
    (s.tch.pcieUp = true →
      (s.tch.busy = true → start = .next { s with tch := { s.tch with code := code, result := 0x02 } }) ∧
      (s.tch.busy = false → s.tch.fwrecov = true → 2 ≤ i → ∃ s', start = .next s' ∧ s'.tch.busy = false ∧
        s'.tch.result = 0x05 ∧ s'.tch.rlen = 0) ∧
      (s.tch.busy = false → s.tch.fwrecov = false ∨ i < 2 → start = .next { s with tch := { s.tch with
        code := code, busy := true, running := some code, args := s.tch.buf } }) ∧
      (s.tch.busy = false → s.tch.fwrecov = false → c = 0 ∨ 7 < c.toNat → ∃ s', exec (.mbUnknownCommand c) s = .next s' ∧
        s'.tch.code = c ∧ s'.tch.busy = false ∧ s'.tch.result = 0x04)) ∧
    (s.tch.running = none → exec .mbCommandEnd s = .next s) ∧
    (s.tch.running = some code → ∃ s', exec .mbCommandEnd s = .next s' ∧ s'.tch.busy = false ∧ s'.tch.running = none ∧
      let r := s'.tch.result
      let bytes (o n : Nat) : List Byte := (List.range n).map fun j => s'.tch.buf.byte (o + j)
      let core := s.mbNum 0 2
      let ctx := s.mbNum 0 1
      (i = 0 → r = 0x00 ∧ s'.tch.rlen = 240 ∧ (s.tch.buf.wf = true →
        bytes 0 32 = s.mbArgs 0 32 ∧ bytes 32 64 = fixLen 64 Config.identityKey ∧
        bytes 96 32 = fixLen 32 (if s.tch.fwrecov then Config.recoveryDigest else match s.tch.fieldFw with
          | some img => Config.sm3 (fwPayload img)
          | none => Config.fieldFwDigest) ∧
        bytes 128 32 = fixLen 32 s.tch.calDigest ∧ bytes 160 4 = leBytes Config.rollback.toNat 4 ∧
        bytes 164 4 = List.replicate 4 0 ∧ bytes 168 8 = leBytes s.health.toNat 8 ∧
        bytes 176 64 = fixLen 64 (Config.sm2Sign (Config.sm3 (bytes 0 176))))) ∧
      (i = 1 → 1 < s.mbNum 12 1 ∨ 1 < s.mbNum 13 1 ∨ 1 < s.mbNum 14 1 ∨ 0x4000000 < s.mbNum 8 4 → r = 0x03 ∧
        s'.tch.staged = s.tch.staged ∧ s'.tch.chunks = s.tch.chunks) ∧
      (i = 1 → s.mbNum 12 1 ≤ 1 → s.mbNum 13 1 = 0 → s.mbNum 14 1 ≤ 1 → s.mbNum 8 4 ≤ 0x4000000 →
        s.mbNum 0 8 + s.mbNum 8 4 ≤ Config.hbmEnd → s.level → s.badUnits (s.mbNum 0 8) (s.mbNum 8 4) = [] →
        let img := s.mem.bytes (s.mbNum 0 8) (s.mbNum 8 4)
        (fwOk img = false → r = 0x01 ∧ s'.tch.staged = s.tch.staged) ∧
        (fwOk img = true → r = 0x00 ∧ s'.tch.stagedFw (s.mbNum 12 1 == 1) = some img)) ∧
      (i = 2 → s.mbNum 0 8 + calBytes ≤ Config.hbmEnd → s.level → s.badUnits (s.mbNum 0 8) calBytes = [] →
        let good : Prop := Config.sm3 (s.mem.bytes (s.mbNum 0 8) calBytes) = s.mbArgs 8 32
        (¬ good → r = 0x01 ∧ s'.tch.calfail = true ∧ s'.tch.trims = s.tch.trims ∧ s'.tch.calDigest = s.tch.calDigest) ∧
        (good → r = 0x00 ∧ s'.tch.calDigest = s.mbArgs 8 32 ∧ s'.tch.calfail = false)) ∧
      (i = 2 → s.tch.stage = 6 → s'.tch.stage = 7 ∧ s'.tch.ready = true) ∧
      (i = 3 → if core ∈ [0, 128, 256, 384, 512] then r = 0x00 ∧ s'.tch.gransetNext = core ∧ s'.tch.granC = s.tch.granC
        else r = 0x03 ∧ s'.tch.gransetNext = s.tch.gransetNext) ∧
      (i = 4 → if core < 9216 then r = 0x00 ∧ s'.tch.rlen = 12 ∧ (s.tch.buf.wf = true →
          bytes 0 4 = leBytes (s.core core).visits.toNat 4 ∧ bytes 4 4 = leBytes (s.core core).aborts.toNat 4 ∧
            bytes 8 4 = leBytes (s.core core).mismatches.toNat 4)
        else r = 0x03) ∧
      (i = 5 → if ctx = 0 ∨ 15 < ctx then r = 0x03 ∧ s'.strands = s.strands else r = 0x00 ∧
        s'.host.ctxend.getLsbD ctx = true) ∧
      (i = 6 → let a := s.mbNum 8 8
        if ctx = 0 ∨ 15 < ctx ∨ 2 ^ 48 ≤ a ∨ a % 4 ≠ 0 then r = 0x03 ∧ s'.tch.kvec = s.tch.kvec
        else r = 0x00 ∧ s'.kvecOf (BitVec.ofNat 4 ctx) = BitVec.ofNat 64 a))

/-- 02, R32, R34, R35, R38: a port. EN 0 takes it down; HOLD holds it down; EN 1 trains it, TRAIN reading 1 under HOLD too
(log 41); training ends with the link up, on 8 lanes, and degraded, when a lane has failed it; a link that goes down trains
again, and a flit that fails its CRC is counted and replayed (log 41). The host's writes are dropped in recovery and before
the link is up.

02, R48-R50: freeze and the debug port. FREEZE stops the device and its release resumes it, but for one that has been read
out by array. A frozen device captures; one that is not shifts out all ones; that a register of the port takes its value in
either case is log 43. The first update of ARSEL in a freeze empties every buffer and operation in flight; ARDATA shows the
selected word and goes on by 8 bytes; where an array lies in memory is log 33. The codes are log 64, the model's choice:
EXTEST is code 0, SAMPLE and IDCODE are two codes of their own, and every code that names no instruction, all ones among
them, is BYPASS and shifts out one 0 bit. -/
def Obligations.LinksAndDebug : Prop :=
  (∀ (p : Nat) (peer : BitVec 4) (lanes : Nat) (s : State), p < 4 →
    let l := s.link p
    let train := exec (.linkTrained p peer lanes) s
    (s.barsUp = false → ∀ i ∈ [Instr.linkEnable p, .linkDisable p, .linkHold p, .linkHoldRelease p], exec i s = .next s) ∧
    (s.barsUp = true →
      (∃ s', exec (.linkEnable p) s = .next s' ∧ (s'.link p).en = true ∧ (s'.link p).hold = l.hold ∧
        (l.hold = true ∨ l.en = false → (s'.link p).up = false ∧ (s'.link p).training = true) ∧
        (l.hold = false → l.en = true → (s'.link p).up = l.up)) ∧
      (∃ s', exec (.linkDisable p) s = .next s' ∧ (s'.link p).en = false ∧ (s'.link p).up = false ∧
        (s'.link p).training = false) ∧
      (∃ s', exec (.linkHold p) s = .next s' ∧ (s'.link p).hold = true ∧ (s'.link p).up = false) ∧
      (∃ s', exec (.linkHoldRelease p) s = .next s' ∧ (s'.link p).hold = false ∧ (s'.link p).en = l.en ∧
        (l.en = true → l.hold = true → (s'.link p).up = false ∧ (s'.link p).training = true))) ∧
    (l.en = false ∨ l.hold = true ∨ l.up = true → train = .next s ∧ exec (.linkLaneFail p) s = .next s) ∧
    (l.en = true → l.hold = false → l.up = false →
      (lanes = (if l.badLanes then 8 else 16) → ∃ s', train = .next s' ∧ (s'.link p).up = true ∧ (s'.link p).deg = l.badLanes ∧
        (s'.link p).lanes = lanes ∧ (s'.link p).peerv = true ∧ (s'.link p).peer = peer ∧
        ∀ q, q ≠ p → s'.link q = s.link q) ∧
      exec (.linkLaneFail p) s = .next (s.setLink p { l with badLanes := true, begun := true })) ∧
    (l.up = false → exec (.linkDown p) s = .next s ∧ exec (.flitCrcFail p) s = .next s) ∧
    (l.up = true →
      (∃ s', exec (.linkDown p) s = .next s' ∧ (s'.link p).up = false ∧ (s'.link p).deg = false ∧
        (s'.link p).training = l.en ∧ ∀ c, ∀ e ∈ (s'.core c).sendQ, s.onPort p e = false) ∧
      exec (.flitCrcFail p) s = .next (s.setLink p { l with crc := l.crc + 1, replay := l.replay + 1 }))) ∧
  (∀ (v : Bool) (n : BitVec 32) (w : Word) (s : State),
    let out (o : Out) (bs : List Byte) : Prop := ∃ s', o = .next s' ∧ s'.dbg.out = bs ∧ s'.mem = s.mem
    (∃ s', exec .freezeAssert s = .next s' ∧ s'.dbg.frozen = true ∧ s'.mem = s.mem ∧ s'.strands = s.strands ∧
      s'.ftime = s.ftime) ∧
    (s.dbg.arrayRead = true → s.dbg.frozen = true → ∃ s', exec .freezeRelease s = .next s' ∧ s' = s) ∧
    (s.dbg.arrayRead = false → ∃ s', exec .freezeRelease s = .next s' ∧ s'.dbg.frozen = false ∧ s'.mem = s.mem ∧
      s'.ftime = s.ftime) ∧
    (∃ s', exec (.debugFrz v) s = .next s' ∧ s'.dbg.out = [if s.dbg.frozen then 1 else 0] ∧
      s'.dbg.frozen = (v || (s.dbg.arrayRead && s.dbg.frozen))) ∧
    (∃ s', exec (.debugShsel n) s = .next s' ∧ s'.dbg.shsel = n &&& 0x00073FFF ∧
      s'.dbg.out = if s.dbg.frozen then leBytes s.dbg.shsel.toNat 4 else List.replicate 4 0xFF) ∧
    (s.dbg.frozen = false → out (exec .debugShdata s) (List.replicate 8192 0xFF) ∧
      out (exec .debugArdata s) (List.replicate 10 0xFF)) ∧
    (s.dbg.frozen = true →
      let c := bitsAt s.dbg.shsel.toNat 0 14
      let chain := bitsAt s.dbg.shsel.toNat 16 3
      (out (exec .debugShdata s) (s.captured 8192 (s.shadow c chain)) ∧
        (c < 9216 → chain < 4 → (s.strand (4 * c + chain)).stat = .live → out (exec .debugShdata s)
          ((s.strand (4 * c + chain)).huskBytes true fullMasks ++ List.replicate 6144 0)))) ∧
    (∃ s', exec (.debugArsel w) s = .next s' ∧ s'.dbg.arsel = w &&& 0x0000FFFFFFF33FFF ∧ s'.mem = s.mem ∧
      (s.dbg.frozen = true → s'.dbg.arrayRead = true ∧ s'.dbg.out = leBytes s.dbg.arsel.toNat 8 ∧
        (s.dbg.arrayRead = false → s'.ops = [] ∧ ∀ i, (s'.strand i).buf = []))) ∧
    (∀ (ir : BitVec 8) (data : List Byte), ir ≠ 0 → (ir.toNat < 0x20 ∨ 0x24 < ir.toNat) → ir ≠ Config.irSample →
      ir ≠ Config.irIdcode → s.take (.scan ir data) = .next { s with dbg := { s.dbg with ir := ir, out := [0] } }) ∧
    (∀ ir : BitVec 8, ir = Config.irSample ∨ ir = Config.irIdcode →
      ir ≠ 0 ∧ ir ≠ 0xFF ∧ (ir.toNat < 0x20 ∨ 0x24 < ir.toNat)) ∧ Config.irSample ≠ Config.irIdcode ∧
    (∀ data : List Byte, Config.idcode.getLsbD 0 = true ∧ s.take (.scan Config.irIdcode data) =
      .next { s with dbg := { s.dbg with ir := Config.irIdcode, out := leBytes Config.idcode.toNat 4 } }) ∧
    let a := s.dbg.arsel.toNat
    ∃ s', exec .debugArdata s = .next s' ∧ bitsAt s'.dbg.arsel.toNat 20 28 = (bitsAt a 20 28 + 1) % 2 ^ 28 ∧
      bitsAt s'.dbg.arsel.toNat 0 20 = bitsAt a 0 20 ∧
      (s.dbg.frozen = true → ∀ l, s.arrayLoc (bitsAt a 0 14) (bitsAt a 16 2) (8 * bitsAt a 20 28) = some l →
        s'.dbg.out.length = 10 ∧ s'.dbg.out.take 8 = s.mem.bytes l 8))

end
end

