-- ==== Sys2Proof/Laws/Table.lean ====
section
/-! SUPPORT. Sparse tables and memory: what a read gives after a write, and that every operation keeps the canonical
form. -/

set_option Elab.async false

namespace Sys2Proof.Laws

open Sys2Proof.Machine

/-! ### Tables -/

/-- Reading back what was set, and everything else as it was: of any table, in order or not. -/
@[simp] theorem get?_set {α : Type} (t : Table α) (k j : Nat) (a : α) :
    Table.get? (Table.set t k a) j = if j = k then some a else Table.get? t j := by
  induction t with
  | nil =>
    simp only [Table.set, Table.get?]
    by_cases h : k = j
    · simp [h]
    · simp [h, Ne.symm h]
  | cons e t ih =>
    obtain ⟨h, b⟩ := e
    simp only [Table.set]
    split
    · rename_i hk
      by_cases h1 : j = k
      · simp [h1, Table.get?]
      · have : ¬ k = j := fun h => h1 h.symm
        simp only [Table.get?, h1, this, if_false]
        split
        · rename_i h2
          have h3 : ¬ h = j := by omega
          have h4 : j < h := by omega
          simp [h3, h4]
        · rfl
    · split
      · rename_i hk
        subst hk
        by_cases h1 : j = h
        · simp [h1, Table.get?]
        · simp [Table.get?, h1, Ne.symm h1]
      · rename_i hlt hne
        by_cases h1 : j = k
        · subst h1
          have h2 : ¬ j < h := hlt
          simp [Table.get?, hne, h2, ih]
        · simp [Table.get?, ih, h1]

@[simp] theorem getD_set {α : Type} (t : Table α) (k j : Nat) (a d : α) :
    Table.getD (Table.set t k a) j d = if j = k then a else Table.getD t j d := by
  unfold Table.getD
  rw [get?_set]
  split <;> rfl

@[simp] theorem set_set {α : Type} (t : Table α) (k : Nat) (a b : α) :
    Table.set (Table.set t k a) k b = Table.set t k b := by
  induction t with
  | nil => simp [Table.set]
  | cons e t ih =>
    obtain ⟨h, c⟩ := e
    simp only [Table.set]
    split
    · simp [Table.set]
    · split
      · rename_i h1 h2
        simp [Table.set]
      · rename_i h1 h2
        simp [Table.set, h1, h2, ih]

/-! ### The canonical form of memory -/

/-- Every listed location of a canonical memory with first location `a` or above. -/
def low (a : Nat) (m : Memory) : Prop := ∀ e ∈ m, a ≤ e.1

/-- The canonical form, cell by cell. -/
theorem wf_cons (a : Nat) (b : Byte) (m : Memory) :
    Memory.wf ((a, b) :: m) = true ↔ b ≠ blankByte ∧ low (a + 1) m ∧ Memory.wf m = true := by
  induction m generalizing a b with
  | nil => simp [Memory.wf, low]
  | cons e t ih =>
    obtain ⟨a', b'⟩ := e
    simp only [Memory.wf, Bool.and_eq_true, bne_iff_ne, decide_eq_true_eq]
    rw [ih]
    constructor
    · rintro ⟨⟨h1, h2⟩, h3, h4, h5⟩
      refine ⟨h1, ?_, h3, h4, h5⟩
      intro e he
      rcases List.mem_cons.1 he with rfl | he
      · exact h2
      · have := h4 e he
        omega
    · rintro ⟨h1, h2, h3, h4, h5⟩
      exact ⟨⟨h1, h2 (a', b') (List.mem_cons_self ..)⟩, h3, h4, h5⟩

theorem wf_nil : Memory.wf [] = true := rfl

theorem get?_low (m : Memory) (l : Nat) (h : low (l + 1) m) : Table.get? m l = none := by
  cases m with
  | nil => rfl
  | cons e t =>
    have h1 := h e (List.mem_cons_self ..)
    have h2 : ¬ e.1 = l := by omega
    have h3 : l < e.1 := by omega
    simp [Table.get?, h2, h3]

theorem set_low (m : Memory) (a l : Nat) (b : Byte) (h : low a m) (hl : a ≤ l) : low a (Table.set m l b) := by
  induction m with
  | nil =>
    intro e he
    simp only [Table.set, List.mem_singleton] at he
    subst he; exact hl
  | cons e t ih =>
    obtain ⟨j, c⟩ := e
    have hj := h (j, c) (List.mem_cons_self ..)
    have ht : low a t := fun e he => h e (List.mem_cons_of_mem _ he)
    intro e he
    simp only [Table.set] at he
    split at he
    · rcases List.mem_cons.1 he with rfl | he
      · exact hl
      · exact h e he
    · split at he
      · rcases List.mem_cons.1 he with rfl | he
        · exact hl
        · exact ht e he
      · rcases List.mem_cons.1 he with rfl | he
        · exact hj
        · exact ih ht e he

theorem erase_mem {α : Type} (m : Table α) (l : Nat) (e : Nat × α) (h : e ∈ Table.erase m l) : e ∈ m := by
  induction m with
  | nil => simp [Table.erase] at h
  | cons f t ih =>
    obtain ⟨j, c⟩ := f
    simp only [Table.erase] at h
    split at h
    · exact h
    · split at h
      · exact List.mem_cons_of_mem _ h
      · rcases List.mem_cons.1 h with rfl | h
        · exact List.mem_cons_self ..
        · exact List.mem_cons_of_mem _ (ih h)

/-- A byte other than the blank one, written, keeps the form. -/
theorem wf_set (m : Memory) (l : Nat) (b : Byte) (h : m.wf = true) (hb : b ≠ blankByte) :
    Memory.wf (Table.set m l b) = true := by
  induction m with
  | nil => simpa [Table.set, Memory.wf] using hb
  | cons e t ih =>
    obtain ⟨j, c⟩ := e
    obtain ⟨h1, h2, h3⟩ := (wf_cons j c t).1 h
    simp only [Table.set]
    split
    · rename_i hlt
      refine (wf_cons l b _).2 ⟨hb, ?_, h⟩
      intro e he
      rcases List.mem_cons.1 he with rfl | he
      · exact hlt
      · have := h2 e he; omega
    · split
      · rename_i hj
        subst hj
        exact (wf_cons j b t).2 ⟨hb, h2, h3⟩
      · rename_i h4 h5
        exact (wf_cons j c _).2 ⟨h1, set_low t _ l b h2 (by omega), ih h3⟩

theorem wf_erase (m : Memory) (l : Nat) (h : m.wf = true) : Memory.wf (Table.erase m l) = true := by
  induction m with
  | nil => rfl
  | cons e t ih =>
    obtain ⟨j, c⟩ := e
    obtain ⟨h1, h2, h3⟩ := (wf_cons j c t).1 h
    simp only [Table.erase]
    split
    · exact h
    · split
      · exact h3
      · exact (wf_cons j c _).2 ⟨h1, fun e he => h2 e (erase_mem t l e he), ih h3⟩

/-- A write of one byte keeps the form. -/
theorem wf_put (m : Memory) (l : Nat) (b : Byte) (h : m.wf = true) : (m.put l b).wf = true := by
  unfold Memory.put
  split
  · exact wf_erase m l h
  · rename_i hb
    exact wf_set m l b h hb

/-- So does a write of many. -/
theorem wf_putAll (m : Memory) (cells : List Host.Cell) (h : m.wf = true) : (m.putAll cells).wf = true := by
  induction cells generalizing m with
  | nil => exact h
  | cons c t ih => exact ih _ (wf_put m c.1 c.2 h)

/-- And dropping cells. -/
theorem wf_filter (m : Memory) (f : Host.Cell → Bool) (h : m.wf = true) : Memory.wf (m.filter f) = true := by
  induction m with
  | nil => rfl
  | cons e t ih =>
    obtain ⟨j, c⟩ := e
    obtain ⟨h1, h2, h3⟩ := (wf_cons j c t).1 h
    simp only [List.filter]
    split
    · exact (wf_cons j c _).2 ⟨h1, fun e he => h2 e (List.mem_of_mem_filter he), ih h3⟩
    · exact ih h3

theorem wf_within (m : Memory) (lo hi : Nat) (h : m.wf = true) : (m.within lo hi).wf = true := wf_filter m _ h

/-! ### Reading a byte after a write -/

theorem get?_erase (m : Memory) (l j : Nat) (h : m.wf = true) :
    Table.get? (Table.erase m l) j = if j = l then none else Table.get? m j := by
  induction m with
  | nil => simp [Table.erase, Table.get?]
  | cons e t ih =>
    obtain ⟨k, c⟩ := e
    obtain ⟨_, h2, h3⟩ := (wf_cons k c t).1 h
    simp only [Table.erase]
    split
    · rename_i hlt
      split
      · rename_i hj
        subst hj
        have : ¬ k = j := by omega
        simp [Table.get?, this, hlt]
      · rfl
    · split
      · rename_i h4 h5
        subst h5
        split
        · rename_i hj
          subst hj
          exact get?_low t j h2
        · rename_i hj
          have : ¬ k = j := fun h => hj h.symm
          simp only [Table.get?, this, if_false]
          split
          · rename_i hlt
            exact get?_low t j fun e he => by have := h2 e he; omega
          · rfl
      · rename_i h4 h5
        simp only [Table.get?, ih h3]
        by_cases hj : j = l
        · subst hj
          have : ¬ k = j := h5
          simp [this]
        · simp [hj]

/-- The byte read after a write of one byte. -/
theorem byte_put (m : Memory) (l j : Nat) (b : Byte) (h : m.wf = true) :
    (m.put l b).byte j = if j = l then b else m.byte j := by
  unfold Memory.put Memory.byte
  split
  · rename_i hb
    unfold Table.getD
    rw [get?_erase m l j h, hb]
    split <;> rfl
  · rw [getD_set]

/-- A write leaves every location alone that it does not name. -/
theorem byte_putAll_other (m : Memory) (cells : List Host.Cell) (j : Nat) (h : m.wf = true)
    (hj : ∀ c ∈ cells, c.1 ≠ j) : (m.putAll cells).byte j = m.byte j := by
  induction cells generalizing m with
  | nil => rfl
  | cons c t ih =>
    obtain ⟨l, b⟩ := c
    have h1 : ¬ j = l := fun e => hj (l, b) (List.mem_cons_self ..) e.symm
    rw [Memory.putAll, ih _ (wf_put m l b h) fun c hc => hj c (List.mem_cons_of_mem _ hc), byte_put m l j b h]
    simp [h1]

/-- The last cell of a write that names a location stands there. -/
theorem byte_putAll (m : Memory) (cells : List Host.Cell) (j : Nat) (h : m.wf = true) :
    (m.putAll cells).byte j = ((cells.reverse.find? fun c => c.1 == j).map (·.2)).getD (m.byte j) := by
  induction cells generalizing m with
  | nil => rfl
  | cons c t ih =>
    obtain ⟨l, b⟩ := c
    rw [Memory.putAll, ih _ (wf_put m l b h), byte_put m l j b h, List.reverse_cons, List.find?_append]
    cases hf : t.reverse.find? (fun c => c.1 == j) with
    | some c => simp
    | none =>
      by_cases hj : j = l
      · subst hj; simp
      · have : ¬ l = j := fun h => hj h.symm
        simp [hj, this]

/-- Consecutive bytes are the bytes at consecutive locations. -/
theorem bytes_eq (m : Memory) (l n : Nat) : m.bytes l n = (List.range n).map fun i => m.byte (l + i) := by
  induction n generalizing l with
  | zero => rfl
  | succ n ih =>
    rw [Memory.bytes, ih, List.range_succ_eq_map, List.map_cons, List.map_map]
    congr 1
    apply List.map_congr_left
    intro i _
    simp only [Function.comp]
    congr 1
    omega

@[simp] theorem bytes_length (m : Memory) (l n : Nat) : (m.bytes l n).length = n := by
  rw [bytes_eq]; simp

end Sys2Proof.Laws
end

