-- ==== Sys2Proof/Laws/Canonical.lean ====
section
/-! SUPPORT. The canonical form of memory under the shared operations: those that write nothing leave memory as it is, the
others keep the form. -/

set_option Elab.async false

namespace Sys2Proof.Laws

open Sys2Proof.Machine

/-! ### Folds -/

theorem foldl_mem {α : Type} (f : State → α → State) (l : List α) (s : State) (h : ∀ s a, (f s a).mem = s.mem) :
    (l.foldl f s).mem = s.mem := by
  induction l generalizing s with
  | nil => rfl
  | cons a t ih => rw [List.foldl_cons, ih, h]

theorem foldl_keeps {α σ : Type} (P : σ → Prop) (f : σ → α → σ) (l : List α) (s : σ) (h : ∀ s a, P s → P (f s a))
    (hs : P s) : P (l.foldl f s) := by
  induction l generalizing s with
  | nil => exact hs
  | cons a t ih => exact ih _ (h s a hs)

/-- Memory is in canonical form. -/
abbrev Canon (s : State) : Prop := s.mem.wf = true

theorem apply_mem {s t : State} (e : t.mem = s.mem) (h : Canon s) : Canon t := by
  unfold Canon
  rw [e]
  exact h

/-! ### Operations that write nothing -/

@[simp] theorem mem_setStrand (s : State) (i : Nat) (t : Strand) : (s.setStrand i t).mem = s.mem := rfl
@[simp] theorem mem_setCore (s : State) (i : Nat) (k : Core) : (s.setCore i k).mem = s.mem := rfl
@[simp] theorem mem_setSheaf (s : State) (i : Nat) (k : Sheaf) : (s.setSheaf i k).mem = s.mem := rfl
@[simp] theorem mem_setMe (s : State) (t : Strand) : (s.setMe t).mem = s.mem := rfl
@[simp] theorem mem_finishAt (s : State) (i : Nat) : (s.finishAt i).mem = s.mem := rfl
@[simp] theorem mem_acquire (s : State) (c : Nat) (sc : Scope) : (s.acquire c sc).mem = s.mem := by
  unfold State.acquire; split <;> rfl
@[simp] theorem mem_signal (s : State) (v : Nat) : (s.signal v).mem = s.mem := by
  unfold State.signal; split
  · split <;> rfl
  · rfl
@[simp] theorem mem_waitAt (s : State) (i : Nat) (w : Wait) : (s.waitAt i w).mem = s.mem := by
  unfold State.waitAt; dsimp only; split <;> rfl
@[simp] theorem mem_receive (s : State) (i : Nat) (h : Header) (bs : List Byte) (d : XReg) (b : VGroup) :
    (s.receive i h bs d b).mem = s.mem := by simp [State.receive]
@[simp] theorem mem_meets (s : State) (l : Nat) (c : BitVec 4) (k : Nat) : (s.meets l c k).mem = s.mem := rfl
@[simp] theorem mem_meetsAt (s : State) (ls : List Nat) (c : BitVec 4) (k : Nat) : (s.meetsAt ls c k).mem = s.mem := by
  unfold State.meetsAt
  split <;> rfl
@[simp] theorem mem_owe (s : State) (i n : Nat) (m : BitVec 8) : (s.owe i m n).mem = s.mem := by
  unfold State.owe
  dsimp only
  split <;> split <;> rfl
@[simp] theorem mem_release (s : State) (i n : Nat) (m : BitVec 8) : (s.release i m n).1.mem = s.mem := mem_owe s i n m
@[simp] theorem mem_testWords (s : State) (cells : List Host.Cell) : (s.testWords cells).mem = s.mem := by
  unfold State.testWords
  apply foldl_mem
  intro s e
  split
  · split
    · split
      · simp
      · split <;> rfl
    · rfl
  · rfl
@[simp] theorem mem_syncFetch (s : State) (b : Bool) (cells : List Host.Cell) : (s.syncFetch b cells).mem = s.mem := by
  unfold State.syncFetch
  dsimp only
  split <;> rfl
@[simp] theorem mem_testDeps (s : State) (k : Nat) : (s.testDeps k).mem = s.mem := by
  unfold State.testDeps
  split
  · rfl
  · dsimp only
    split
    · rw [mem_meetsAt]
    · rfl
@[simp] theorem mem_testAllDeps (s : State) (cells : List Host.Cell) : (s.testAllDeps cells).mem = s.mem := by
  unfold State.testAllDeps
  apply foldl_mem
  intro s e
  split
  · simp
  · rfl
@[simp] theorem mem_noteClears (s : State) (locs : List Nat) : (s.noteClears locs).mem = s.mem := by
  unfold State.noteClears
  dsimp only
  split <;> rfl
@[simp] theorem mem_liftEntry (s : State) (n : Nat) : (s.liftEntry n).mem = s.mem := by simp [State.liftEntry]
@[simp] theorem mem_lift (s : State) (p : Early → Bool) : (s.lift p).mem = s.mem := by
  unfold State.lift
  split
  · exact foldl_mem _ _ _ fun _ _ => mem_liftEntry _ _
  · rfl
@[simp] theorem mem_touch (s : State) (c u : Nat) (ls : List Nat) : (s.touch c u ls).mem = s.mem := mem_lift s _
@[simp] theorem mem_liftOwn (s : State) (u : Nat) : (s.liftOwn u).mem = s.mem := mem_lift s _
theorem canon_lift (s : State) (p : Early → Bool) (h : Canon s) : Canon (s.lift p) := by
  unfold Canon
  rw [mem_lift]
  exact h
@[simp] theorem mem_grantKey (s : State) (u : Nat) (k : Word) (b : Bool) : (s.grantKey u k b).mem = s.mem := by
  unfold State.grantKey
  split
  · rfl
  · split
    · simp
    · rfl
@[simp] theorem mem_advanceKey (s : State) (i : Nat) (e : KeyEntry) : (s.advanceKey i e).mem = s.mem := by
  unfold State.advanceKey
  dsimp only
  split
  · rfl
  · simp
@[simp] theorem mem_leaveKey (s : State) (i : Nat) (e : KeyEntry) : (s.leaveKey i e).mem = s.mem := by
  simp [State.leaveKey]
@[simp] theorem mem_skipKey (s : State) (i : Nat) (e : KeyEntry) (n : BitVec 32) : (s.skipKey i e n).mem = s.mem := by
  unfold State.skipKey
  split
  · simp
  · rfl
@[simp] theorem mem_settleKeys (s : State) : s.settleKeys.mem = s.mem := by
  unfold State.settleKeys
  apply foldl_mem
  intro s i
  split
  · rfl
  · rename_i e he
    have h1 : (match e.leaving with
        | some set => if s.drained set then s.leaveKey i e else s
        | none => s).mem = s.mem := by
      split
      · split
        · simp
        · rfl
      · rfl
    dsimp only
    split
    · exact h1
    · refine (foldl_mem _ _ _ ?_).trans h1
      intro s k
      split
      · split
        · rfl
        · simp
      · rfl
@[simp] theorem mem_unwaitKeys (s : State) (u : Nat) : (s.unwaitKeys u).mem = s.mem := rfl
@[simp] theorem mem_markUnits (s : State) (k c : Nat) : (s.markUnits k c).mem = s.mem := by
  unfold State.markUnits
  split
  · rfl
  · split <;> rfl
@[simp] theorem mem_newSuperstep (s : State) (k : Nat) : (s.newSuperstep k).mem = s.mem := by
  unfold State.newSuperstep
  split
  · rfl
  · split <;> rfl
@[simp] theorem mem_vacateSpent (s : State) : s.vacateSpent.mem = s.mem := rfl
@[simp] theorem mem_settleOps (s : State) : s.settleOps.mem = s.mem := rfl
@[simp] theorem mem_settleEmits (s : State) : s.settleEmits.mem = s.mem := by
  unfold State.settleEmits
  apply foldl_mem
  intro s e
  split
  · rfl
  · simp
@[simp] theorem mem_settleFences (s : State) : s.settleFences.mem = s.mem := by
  unfold State.settleFences
  apply foldl_mem
  intro s e
  split
  · split
    · split <;> simp
    · rfl
  · rfl
@[simp] theorem mem_pushSend (s : State) (c : Nat) (m : Msg) : (s.pushSend c m).mem = s.mem := rfl
@[simp] theorem mem_serveSend (s : State) (c n : Nat) : (s.serveSend c n).mem = s.mem := by
  induction n generalizing s with
  | zero => rfl
  | succ n ih =>
    unfold State.serveSend
    split
    · rfl
    · dsimp only
      split
      · rfl
      · rw [ih]; rfl
      · rw [ih]; rfl
      · rw [ih]; split <;> rfl
@[simp] theorem mem_serveSends (s : State) : s.serveSends.mem = s.mem := by
  unfold State.serveSends
  split
  · rfl
  · exact foldl_mem _ _ _ fun _ _ => mem_serveSend _ _ _
@[simp] theorem mem_wqEnd (s : State) (i : Nat) (d : XReg) : (s.wqEnd i d).mem = s.mem := rfl
@[simp] theorem mem_withdraw (s : State) (i : Nat) : (s.withdraw i).mem = s.mem := by
  unfold State.withdraw
  dsimp only
  split
  · rfl
  · split <;> simp
@[simp] theorem mem_freeTaken (s : State) (us : List Nat) : (s.freeTaken us).mem = s.mem := rfl
@[simp] theorem mem_abandonKeys (s : State) (us : List Nat) : (s.abandonKeys us).mem = s.mem := by
  unfold State.abandonKeys
  apply foldl_mem
  intro s i
  split
  · rfl
  · dsimp only
    split
    · split
      · simp
      · rfl
    · rfl
@[simp] theorem mem_pendAt (s : State) (i c : Nat) (v : Word) : (s.pendAt i c v).mem = s.mem := rfl
@[simp] theorem mem_fillTlb (s : State) (c : Nat) (e : TlbEntry) : (s.fillTlb c e).mem = s.mem := rfl
@[simp] theorem mem_dropLines (s : State) (c : Nat) (ls : List Nat) : (s.dropLines c ls).mem = s.mem := by
  unfold State.dropLines; split <;> rfl

/-! ### Writes (15, R317) -/

theorem canon_storeOne (s : State) (w : Writer) (cells : List Host.Cell) (h : Canon s) : Canon (s.storeOne w cells) := by
  unfold State.storeOne
  dsimp only [Canon]
  rw [mem_testAllDeps, mem_testWords, mem_noteClears, mem_syncFetch]
  dsimp only
  rw [mem_lift, mem_lift]
  exact wf_putAll _ _ h

theorem canon_logLine (s : State) (k c l : Nat) (h : Canon s) : Canon (s.logLine k c l) := by
  unfold State.logLine
  split
  · exact h
  · dsimp only
    split
    · exact h
    · split
      · exact h
      · apply foldl_keeps Canon _ _ _ fun _ _ hs => canon_storeOne _ _ _ hs
        exact canon_storeOne _ _ _ h

theorem canon_logCells (s : State) (w : Writer) (cells : List Host.Cell) (h : Canon s) : Canon (s.logCells w cells) := by
  unfold State.logCells
  split
  · exact h
  · apply foldl_keeps Canon _ _ _ _ h
    intro s c hs
    split
    · exact canon_logLine _ _ _ _ hs
    · exact hs

theorem canon_storeCells (s : State) (w : Writer) (cells : List Host.Cell) (h : Canon s) :
    Canon (s.storeCells w cells) := by
  unfold State.storeCells
  generalize (if w.tch then cells else cells.filter fun c => !(s.inOwnMap c.1)) = cs
  dsimp only
  split
  · exact h
  · exact canon_storeOne _ _ _ (canon_logCells _ _ _ h)

theorem canon_mboxEdge (s old : State) (c m : Nat) (h : Canon s) : Canon (s.mboxEdge old c m) := by
  unfold State.mboxEdge
  split
  · exact h
  · dsimp only
    split
    · exact canon_storeCells _ _ _ h
    · exact h

theorem canon_takeRing (s : State) (c m : Nat) (tag : BitVec 4) (r : Header × List Byte × State) (h : Canon s)
    (hr : s.takeRing c m tag = some r) : Canon r.2.2 := by
  unfold State.takeRing at hr
  split at hr
  · cases hr
  · dsimp only at hr
    split at hr
    · cases hr
    · cases hr
      exact canon_storeCells _ _ _ h

theorem canon_serveRing (s : State) (c m n : Nat) (h : Canon s) : Canon (s.serveRing c m n) := by
  induction n generalizing s with
  | zero => exact h
  | succ n ih =>
    unfold State.serveRing
    split
    · exact h
    · split
      · exact h
      · split
        · exact h
        · rename_i hd bs s' hr
          apply ih
          have := canon_takeRing (s.spend c 5) c m _ _ h hr
          simpa [Canon] using this

theorem canon_trayEdge (s old : State) (c : Nat) (h : Canon s) : Canon (s.trayEdge old c) := by
  unfold State.trayEdge
  split
  · exact canon_storeCells _ _ _ h
  · exact h

/-- One write keeps the form. -/
theorem canon_write (s : State) (w : Writer) (cells : List Host.Cell) (h : Canon s) : Canon (s.write w cells) := by
  unfold State.write
  dsimp only
  apply foldl_keeps Canon _ _ _ fun _ _ hs => canon_trayEdge _ _ _ hs
  apply foldl_keeps Canon _ _ _ _ (canon_storeCells s w cells h)
  intro s c hs
  exact canon_serveRing _ _ _ _ (canon_mboxEdge _ _ _ _ hs)

/-! ### What a completed release sets off -/

theorem canon_checkpoint (s : State) (i : Nat) (h : Canon s) : Canon (s.checkpoint i) := by
  unfold State.checkpoint
  dsimp only
  split
  · exact h
  · split
    · exact h
    · split
      · generalize hw : State.write _ _ _ = u
        have hu : Canon u := hw ▸ canon_write _ _ _ h
        split <;> exact hu
      · exact h

/-- A husk is saved: its block is written. -/
theorem canon_saveHusk (s : State) (i : Nat) (t : Strand) (bs : List Byte) (h : Canon s) : Canon (s.saveHusk i t bs) :=
  canon_write s _ _ h

theorem canon_testSuper (s : State) (i : Nat) (h : Canon s) : Canon (s.testSuper i) := by
  unfold State.testSuper
  dsimp only
  split
  · split
    · exact h
    · split
      · apply canon_checkpoint
        simpa [Canon] using h
      · exact h
  · exact h

theorem canon_testPhase (s : State) (k key : Nat) (p : BitVec 32) (h : Canon s) : Canon (s.testPhase k key p) := by
  unfold State.testPhase
  apply foldl_keeps Canon _ _ _ _ h
  intro s e hs
  split
  · split
    · simpa [Canon] using hs
    · exact hs
  · exact canon_testSuper _ _ hs
  · exact hs

theorem canon_passPoint (s : State) (k key n : Nat) (h : Canon s) : Canon (s.passPoint k key n) := by
  induction n generalizing s with
  | zero => exact h
  | succ n ih =>
    unfold State.passPoint
    split
    · exact h
    · dsimp only
      split
      · apply ih
        apply canon_testPhase
        split
        · unfold Canon
          rw [mem_newSuperstep]
          exact h
        · exact h
      · exact h

theorem canon_settlePoints (s : State) (h : Canon s) : Canon s.settlePoints := by
  unfold State.settlePoints
  apply foldl_keeps Canon _ _ _ _ h
  intro s e hs
  apply foldl_keeps Canon _ _ _ _ hs
  intro s q hs
  split
  · exact hs
  · exact canon_passPoint _ _ _ _ hs

theorem canon_wqWrite (s : State) (q o n v : Nat) (h : Canon s) : Canon (s.wqWrite q o n v) := canon_write _ _ _ h

theorem canon_wqTake (s : State) (i q j : Nat) (d : XReg) (h : Canon s) : Canon (s.wqTake i q j d) := by
  unfold State.wqTake
  simp only [Canon, mem_setStrand, mem_acquire]
  exact canon_write _ _ _ h

theorem canon_wqServe (s : State) (q n : Nat) (h : Canon s) : Canon (s.wqServe q n) := by
  induction n generalizing s with
  | zero => exact h
  | succ n ih =>
    unfold State.wqServe
    split
    · exact h
    · split
      · exact ih _ (canon_wqTake _ _ _ _ _ h)
      · split
        · exact ih _ h
        · exact h

theorem canon_wqClose (s : State) (q : Nat) (h : Canon s) : Canon (s.wqClose q) :=
  canon_wqServe _ _ _ (canon_wqWrite _ _ _ _ _ h)

theorem canon_closeNow (s : State) (q u : Nat) (h : Canon s) : Canon (s.closeNow q u) := by
  unfold State.closeNow
  split
  · exact h
  · exact canon_wqClose _ _ h

theorem canon_settleCloses (s : State) (h : Canon s) : Canon s.settleCloses := by
  unfold State.settleCloses
  apply foldl_keeps Canon _ _ _ _ h
  intro s c hs
  split
  · exact canon_closeNow _ _ _ hs
  · exact hs

/-- Completing releases keeps the form (15, R318). -/
theorem canon_settle (s : State) (h : Canon s) : Canon s.settle := by
  unfold State.settle
  simp only [Canon, mem_settleFences]
  apply canon_settleCloses
  apply canon_settlePoints
  simp only [Canon, mem_settleKeys, mem_settleEmits, mem_settleOps, mem_vacateSpent]
  exact h

theorem canon_countDown (s : State) (cs : List (Nat × BitVec 3)) (h : Canon s) : Canon (s.countDown cs) := by
  unfold State.countDown
  apply foldl_keeps Canon _ _ _ _ h
  intro s c hs
  split
  · exact hs
  · dsimp only
    split
    · split <;> exact hs
    · exact canon_testSuper _ _ hs

theorem canon_settleCounters (s : State) (n : Nat) (h : Canon s) : Canon (s.settleCounters n) := by
  induction n generalizing s with
  | zero => exact h
  | succ n ih =>
    unfold State.settleCounters
    dsimp only
    split
    · exact h
    · exact ih _ (canon_countDown _ _ h)

theorem canon_opsEnded (s : State) (h : Canon s) : Canon s.opsEnded := by
  unfold State.opsEnded
  exact canon_settleCounters _ _ h

/-- Ending a context keeps the form (19, R382). -/
theorem canon_endContext (s : State) (c : BitVec 4) (n : Nat) (h : Canon s) : Canon (s.endContext c n) := by
  unfold State.endContext
  dsimp only [Canon]
  rw [mem_signal]
  dsimp only
  rw [mem_settleEmits, mem_serveSends]
  dsimp only
  rw [mem_freeTaken, mem_abandonKeys]
  apply canon_opsEnded
  exact canon_lift _ _ h

theorem canon_unlog (s : State) (x : BitVec 4) (c b n : Nat) (h : Canon s) : Canon (s.unlog x c b n) := by
  induction n generalizing s with
  | zero => exact h
  | succ n ih =>
    unfold State.unlog
    apply ih
    split
    · exact h
    · exact foldl_keeps Canon _ _ _ (fun _ _ hs => canon_storeCells _ _ _ hs) h

theorem canon_restore (s : State) (la : Launch) (c : Checkpoint) (h : Canon s) : Canon (s.restore la c) := by
  unfold State.restore
  dsimp only
  split <;> split
  · exact h
  · exact canon_saveHusk _ _ _ _ h
  · exact h
  · exact canon_saveHusk _ _ _ _ h

/-- Rolling a superstep back keeps the form (19, R394). -/
theorem canon_rollback (s : State) (k : Nat) (h : Canon s) : Canon (s.rollback k) := by
  unfold State.rollback
  split
  · exact h
  · dsimp only [Canon]
    rw [mem_settleEmits, mem_serveSends]
    apply foldl_keeps Canon
    · intro s c hs
      exact canon_restore _ _ _ hs
    · dsimp only [Canon]
      apply foldl_keeps Canon
      · intro s e hs
        exact hs
      · apply foldl_keeps Canon
        · intro s e hs
          exact canon_unlog _ _ _ _ _ hs
        · apply canon_opsEnded
          exact canon_lift _ _ h

theorem canon_uncorr (s : State) (tag acc : BitVec 4) (k : Nat) (h : Canon s) : Canon (s.uncorr tag acc k) := by
  unfold State.uncorr
  dsimp only
  refine foldl_keeps Canon _ _ _ ?_ h
  intro s c hs
  split
  · split
    · exact canon_rollback _ _ hs
    · exact canon_endContext _ _ _ hs
  · exact canon_endContext _ _ _ hs

/-- Taking a trap keeps the form (19, R370). -/
theorem canon_trapEntry (s : State) (i c : Nat) (v : Word) (a : Bool) (r : Word) (h : Canon s) :
    Canon (s.trapEntry i c v a r) := by
  unfold State.trapEntry
  dsimp only
  split
  · exact canon_endContext _ _ _ h
  · exact h

theorem canon_raiseAt (s : State) (i : Nat) (c : Cause) (v : Word) (h : Canon s) : Canon (s.raiseAt i c v) := by
  unfold State.raiseAt
  apply canon_trapEntry
  simpa [Canon] using h

theorem canon_performEntry (s : State) (i : Nat) (e : BufEntry) (h : Canon s) : Canon (s.performEntry i e) := by
  unfold State.performEntry
  apply canon_settle
  apply canon_write
  dsimp only
  split <;> exact h

/-! ### Translation and accesses write nothing (11, R253-R258) -/

@[simp] theorem mem_keepPointer (s : State) (c : BitVec 4) (va l k : Nat) (p : Word) :
    (s.keepPointer c va l k p).mem = s.mem := rfl

@[simp] theorem mem_pteAt (s : State) (k : Option Nat) (p : Nat) : (s.pteAt k p).1.mem = s.mem := by
  unfold State.pteAt
  split
  · rfl
  · split
    · rfl
    · exact mem_touch _ _ _ _

@[simp] theorem mem_walk3 (s : State) (k : Option Nat) (c : BitVec 4) (va : Nat) (p : Word) :
    (s.walk3 k c va p).1.mem = s.mem := by
  unfold State.walk3
  have h := mem_pteAt s k (ptePpn p + 8 * natBits va 25 16)
  split <;> rename_i hp <;> rw [hp] at h
  · exact h
  · split <;> exact h

@[simp] theorem mem_walk2 (s : State) (k : Option Nat) (c : BitVec 4) (va : Nat) (p : Word) :
    (s.walk2 k c va p).1.mem = s.mem := by
  unfold State.walk2
  have h := mem_pteAt s k (ptePpn p + 8 * natBits va 36 26)
  split <;> rename_i hp <;> rw [hp] at h
  · exact h
  · split
    · exact h
    · split
      · rw [mem_walk3]; exact h
      · exact h

@[simp] theorem mem_walk1 (s : State) (k : Option Nat) (c : BitVec 4) (va : Nat) : (s.walk1 k c va).1.mem = s.mem := by
  unfold State.walk1
  have h := mem_pteAt s k (s.ctxTable + 16 * c.toNat)
  split <;> rename_i hp <;> rw [hp] at h
  · exact h
  · rename_i s1 e
    split
    · exact h
    · have h2 := mem_pteAt s1 k (natBits e.toNat 47 16 * 65536 + 8 * natBits va 47 37)
      split <;> rename_i hq <;> rw [hq] at h2
      · exact h2.trans h
      · split
        · rw [mem_walk2]; exact h2.trans h
        · exact h2.trans h

@[simp] theorem mem_walk (s : State) (k : Option Nat) (c : BitVec 4) (va : Nat) : (s.walk k c va).1.mem = s.mem := by
  unfold State.walk
  dsimp only
  split
  · simp
  · split <;> simp

theorem mem_compared (k : Option Nat) (c : BitVec 4) (va n : Nat) (r : State × Except Block TlbEntry) :
    (State.compared k c va r n).1.mem = r.1.mem := by
  induction n generalizing r with
  | zero => rfl
  | succ n ih =>
    unfold State.compared
    split
    · rfl
    · split
      · split
        · rfl
        · rw [ih]; simp
      · rfl

@[simp] theorem mem_walked (s : State) (k : Option Nat) (c : BitVec 4) (va : Nat) : (s.walked k c va).1.mem = s.mem := by
  unfold State.walked
  rw [mem_compared, mem_walk]

@[simp] theorem mem_leafOf (s : State) (k : Nat) (c : BitVec 4) (va : Nat) : (s.leafOf k c va).1.mem = s.mem := by
  unfold State.leafOf
  split
  · rfl
  · split
    · rfl
    · have h := mem_walked s (some k) c va
      split <;> rename_i hw <;> rw [hw] at h
      · simpa using h
      · exact h

@[simp] theorem mem_translate (s : State) (k : Nat) (c : BitVec 4) (u : Bool) (va : Nat) (a : Acc) :
    (s.translate k c u va a).1.mem = s.mem := by
  unfold State.translate
  split
  · rfl
  · have h := mem_leafOf s k c va
    split <;> rename_i hl <;> rw [hl] at h
    · exact h
    · split
      · exact h
      · split <;> exact h

@[simp] theorem mem_place (s : State) (k : Nat) (t : Strand) (a n : Nat) (acc : Acc) :
    (s.place k t a n acc).1.mem = s.mem := by
  unfold State.place
  split
  · split <;> rfl
  · have h := mem_translate s k t.ctx (t.mode == 0) a acc
    split <;> rename_i hl <;> rw [hl] at h <;> exact h

@[simp] theorem mem_access (s : State) (i : Nat) (a : Word) (n : Nat) (acc : Acc) : (s.access i a n acc).1.mem = s.mem := by
  unfold State.access
  split
  · rfl
  · simp

@[simp] theorem mem_l1Line (s : State) (i l : Nat) : (s.l1Line i l).1.mem = s.mem := by
  unfold State.l1Line
  dsimp only
  split
  · simp
  · split <;> simp

@[simp] theorem mem_load (s : State) (i : Nat) (p : Place) : (s.load i p).1.mem = s.mem := by
  unfold State.load
  dsimp only
  split
  · rfl
  · split
    · rfl
    · split <;> simp

@[simp] theorem mem_homeLoad (s : State) (i : Nat) (ls : List Nat) : (s.homeLoad i ls).1.mem = s.mem := by
  unfold State.homeLoad
  split
  · rfl
  · simp

@[simp] theorem mem_loadPart (s : State) (i : Nat) (p : Part) : (s.loadPart i p).1.mem = s.mem := by
  unfold State.loadPart
  split <;> simp

@[simp] theorem mem_loadParts (s : State) (i : Nat) (f : Nat → Bool) (acc : List Part) (n : Nat) (ps : List Part) :
    (s.loadParts i f acc n ps).1.mem = s.mem := by
  induction ps generalizing s acc n with
  | nil => rfl
  | cons p t ih =>
    unfold State.loadParts
    split
    · exact ih _ _ _
    · have h := mem_loadPart s i p
      split <;> rename_i hl <;> rw [hl] at h
      · exact h
      · rw [ih]; exact h

@[simp] theorem mem_fetchAt (s : State) (i : Nat) (a : Word) : (s.fetchAt i a).1.mem = s.mem := by
  unfold State.fetchAt
  dsimp only
  split
  · rfl
  · split
    · rfl
    · have h := mem_translate s (coreOf i) (s.strand i).ctx ((s.strand i).mode == 0) a.toNat .exec
      split <;> rename_i hl <;> rw [hl] at h <;> exact h

@[simp] theorem mem_fetch (s : State) (i : Nat) : (s.fetch i).1.mem = s.mem := by
  unfold State.fetch
  split
  · rfl
  · simp

@[simp] theorem mem_readAhead (s : State) (i n : Nat) (a : Word) : (s.readAhead i a n).mem = s.mem := by
  induction n generalizing s a with
  | zero => rfl
  | succ n ih =>
    unfold State.readAhead
    split
    · exact ih _ _
    · have h := mem_fetchAt s i a
      split <;> rename_i hl <;> rw [hl] at h
      · exact h
      · dsimp only
        rw [ih]; exact h

/-! ### The shared ways of a meaning -/

/-- Whatever state the outcome answers is in canonical form. -/
abbrev CanonOut (o : Out) : Prop := ∀ t, o = .next t → Canon t

theorem canonOut_next (s : State) (h : Canon s) : CanonOut (.next s) := by
  rintro t ⟨⟩
  exact h

theorem canonOut_finish (s : State) (t : Strand) (h : Canon s) : CanonOut (s.finish t) := canonOut_next _ h
theorem canonOut_finishTo (s : State) (t : Strand) (pc : Word) (h : Canon s) : CanonOut (s.finishTo t pc) := canonOut_next _ h
theorem canonOut_wait (s : State) (w : Wait) (h : Canon s) : CanonOut (s.wait w) :=
  canonOut_next _ (by unfold Canon; rw [mem_waitAt]; exact h)
theorem canonOut_trap (s : State) (c : Cause) (v : Word) (h : Canon s) : CanonOut (s.trap c v) :=
  canonOut_next _ (canon_raiseAt _ _ _ _ h)
theorem canonOut_trapAfter (s : State) (c : Cause) (v : Word) (h : Canon s) : CanonOut (s.trapAfter c v) :=
  canonOut_next _ (canon_trapEntry _ _ _ _ _ _ h)

theorem canonOut_meet (s : State) (b : Block) (a : Word) (h : Canon s) : CanonOut (s.meet b a) := by
  unfold State.meet
  split
  · exact canonOut_trap _ _ _ h
  · exact canonOut_next _ (canon_uncorr _ _ _ _ h)

theorem canonOut_placeReads (s : State) (m : ReadKind) (as : List ReadAt) (ps : List Part) (k : State → List Part → Out)
    (h : Canon s) (hk : ∀ s ps, Canon s → CanonOut (k s ps)) : CanonOut (s.placeReads m as ps k) := by
  induction as generalizing s ps with
  | nil => exact hk _ _ h
  | cons a t ih =>
    unfold State.placeReads
    have ha := mem_access s s.cur a.1 a.2.1 .read
    split <;> rename_i hl <;> rw [hl] at ha
    · exact canonOut_meet _ _ _ (apply_mem ha h)
    · split
      · exact canonOut_meet _ _ _ (apply_mem ha h)
      · exact ih _ _ (apply_mem ha h)

theorem canonOut_takeParts (s : State) (u : Underway) (k : State → List Byte → Out) (h : Canon s)
    (hk : ∀ s bs, Canon s → CanonOut (k s bs)) : CanonOut (s.takeParts u k) := by
  unfold State.takeParts
  have h1 := mem_loadParts s s.cur (s.picks u) [] 0 u.parts
  split <;> rename_i hl <;> rw [hl] at h1
  · exact canonOut_meet _ _ _ (apply_mem h1 h)
  · split
    · exact hk _ _ (apply_mem h1 h)
    · exact canonOut_next _ (apply_mem h1 h)

theorem canon_chargeReads (s : State) (done : List (List Byte)) (as : List ReadAt) (h : Canon s) : Canon (s.chargeReads done as) := by
  unfold State.chargeReads
  split <;> exact h

theorem canonOut_batch (s : State) (u : Option Underway) (done : List (List Byte)) (m : ReadKind) (as : List ReadAt)
    (k : State → List Byte → Out) (h : Canon s) (hk : ∀ s bs, Canon s → CanonOut (k s bs)) :
    CanonOut (s.batch u done m as k) := by
  unfold State.batch
  have start : ∀ (b : Option Int) (s : State), Canon s → CanonOut (s.placeReads m as [] fun s ps =>
      State.takeParts ({ s with seqNo := s.seqNo + 1 }.chargeReads done as)
        { no := s.seqNo, done := done, parts := ps, ordered := m.ordered, bits := m.bits, until' := b } k) :=
    fun b s h => canonOut_placeReads _ _ _ _ _ h fun s ps hs => canonOut_takeParts _ _ _ (canon_chargeReads _ _ _ hs) hk
  dsimp only
  split
  · exact start _ s h
  · split
    · exact hk _ _ h
    · split
      · exact canonOut_takeParts _ _ _ h hk
      · exact start _ s h

theorem canon_unmid (s : State) (h : Canon s) : Canon s.unmid.1 := by
  unfold State.unmid
  split <;> exact h

/-- A read keeps the form when what goes on with its bytes does (15, R314). -/
theorem canonOut_readAll (s : State) (m : ReadKind) (as : List ReadAt) (k : State → List Byte → Out) (h : Canon s)
    (hk : ∀ s bs, Canon s → CanonOut (k s bs)) : CanonOut (s.readAll m as k) :=
  canonOut_batch _ _ _ _ _ _ (canon_unmid s h) hk

/-- The test of R293 keeps the form when what goes on does. -/
theorem canonOut_meshTest (s : State) (rs : List (Nat × Nat)) (k : Out) (h : Canon s) (hk : CanonOut k) :
    CanonOut (s.meshTest rs k) := by
  unfold State.meshTest
  split
  · exact canonOut_meet _ _ _ h
  · split
    · exact canonOut_trap _ _ _ h
    · exact hk

/-- A store keeps the form when what goes on with its place does (15, R315). -/
theorem canonOut_writing (s : State) (a : Word) (n : Nat) (acc : Acc) (k : State → List Nat → Out) (h : Canon s)
    (hk : ∀ s ls, Canon s → CanonOut (k s ls)) : CanonOut (s.writing a n acc k) := by
  unfold State.writing
  have ha := mem_access s s.cur a n acc
  split <;> rename_i s' _ hl <;> rw [hl] at ha
  all_goals
    have h' : Canon s' := by unfold Canon; rw [ha]; exact h
  · exact canonOut_meet _ _ _ h'
  · exact canonOut_meshTest _ _ _ h' (hk _ _ h')

theorem canonOut_buffer (s : State) (t : Strand) (vas : List Nat) (cells : List Host.Cell) (h : Canon s) :
    CanonOut (s.buffer t vas cells) := by
  unfold State.buffer
  dsimp only
  apply canonOut_finish
  split
  · exact canon_lift _ _ h
  · exact h

end Sys2Proof.Laws
end

