-- ==== Sys2Proof/Laws/State.lean ====
section
/-! SUPPORT. What a field holds after each update of the state or of a strand: one lemma a field and update. -/

set_option Elab.async false

namespace Sys2Proof.Laws

open Sys2Proof.Machine

/-! ### `State.setStrand` -/

@[simp] theorem setStrand_cur (s : State) (sid : Nat) (t : Strand) : (s.setStrand sid t).cur = s.cur := rfl
@[simp] theorem setStrand_agenda (s : State) (sid : Nat) (t : Strand) : (s.setStrand sid t).agenda = s.agenda := rfl
@[simp] theorem setStrand_choice (s : State) (sid : Nat) (t : Strand) : (s.setStrand sid t).choice = s.choice := rfl
@[simp] theorem setStrand_turnNo (s : State) (sid : Nat) (t : Strand) : (s.setStrand sid t).turnNo = s.turnNo := rfl
@[simp] theorem setStrand_seqNo (s : State) (sid : Nat) (t : Strand) : (s.setStrand sid t).seqNo = s.seqNo := rfl
@[simp] theorem setStrand_uidNo (s : State) (sid : Nat) (t : Strand) : (s.setStrand sid t).uidNo = s.uidNo := rfl
@[simp] theorem setStrand_opNo (s : State) (sid : Nat) (t : Strand) : (s.setStrand sid t).opNo = s.opNo := rfl
@[simp] theorem setStrand_waitNo (s : State) (sid : Nat) (t : Strand) : (s.setStrand sid t).waitNo = s.waitNo := rfl
@[simp] theorem setStrand_accNo (s : State) (sid : Nat) (t : Strand) : (s.setStrand sid t).accNo = s.accNo := rfl
@[simp] theorem setStrand_reqNo (s : State) (sid : Nat) (t : Strand) : (s.setStrand sid t).reqNo = s.reqNo := rfl
@[simp] theorem setStrand_ftime (s : State) (sid : Nat) (t : Strand) : (s.setStrand sid t).ftime = s.ftime := rfl
@[simp] theorem setStrand_mem (s : State) (sid : Nat) (t : Strand) : (s.setStrand sid t).mem = s.mem := rfl
@[simp] theorem setStrand_tags (s : State) (sid : Nat) (t : Strand) : (s.setStrand sid t).tags = s.tags := rfl
@[simp] theorem setStrand_poison (s : State) (sid : Nat) (t : Strand) : (s.setStrand sid t).poison = s.poison := rfl
@[simp] theorem setStrand_early (s : State) (sid : Nat) (t : Strand) : (s.setStrand sid t).early = s.early := rfl
@[simp] theorem setStrand_met (s : State) (sid : Nat) (t : Strand) : (s.setStrand sid t).met = s.met := rfl
@[simp] theorem setStrand_cores (s : State) (sid : Nat) (t : Strand) : (s.setStrand sid t).cores = s.cores := rfl
@[simp] theorem setStrand_sheafs (s : State) (sid : Nat) (t : Strand) : (s.setStrand sid t).sheafs = s.sheafs := rfl
@[simp] theorem setStrand_walks (s : State) (sid : Nat) (t : Strand) : (s.setStrand sid t).walks = s.walks := rfl
@[simp] theorem setStrand_ops (s : State) (sid : Nat) (t : Strand) : (s.setStrand sid t).ops = s.ops := rfl
@[simp] theorem setStrand_keys (s : State) (sid : Nat) (t : Strand) : (s.setStrand sid t).keys = s.keys := rfl
@[simp] theorem setStrand_wq (s : State) (sid : Nat) (t : Strand) : (s.setStrand sid t).wq = s.wq := rfl
@[simp] theorem setStrand_closes (s : State) (sid : Nat) (t : Strand) : (s.setStrand sid t).closes = s.closes := rfl
@[simp] theorem setStrand_queues (s : State) (sid : Nat) (t : Strand) : (s.setStrand sid t).queues = s.queues := rfl
@[simp] theorem setStrand_launches (s : State) (sid : Nat) (t : Strand) : (s.setStrand sid t).launches = s.launches := rfl
@[simp] theorem setStrand_checked (s : State) (sid : Nat) (t : Strand) : (s.setStrand sid t).checked = s.checked := rfl
@[simp] theorem setStrand_husks (s : State) (sid : Nat) (t : Strand) : (s.setStrand sid t).husks = s.husks := rfl
@[simp] theorem setStrand_rings (s : State) (sid : Nat) (t : Strand) : (s.setStrand sid t).rings = s.rings := rfl
@[simp] theorem setStrand_tree (s : State) (sid : Nat) (t : Strand) : (s.setStrand sid t).tree = s.tree := rfl
@[simp] theorem setStrand_pages (s : State) (sid : Nat) (t : Strand) : (s.setStrand sid t).pages = s.pages := rfl
@[simp] theorem setStrand_tiles (s : State) (sid : Nat) (t : Strand) : (s.setStrand sid t).tiles = s.tiles := rfl
@[simp] theorem setStrand_ports (s : State) (sid : Nat) (t : Strand) : (s.setStrand sid t).ports = s.ports := rfl
@[simp] theorem setStrand_links (s : State) (sid : Nat) (t : Strand) : (s.setStrand sid t).links = s.links := rfl
@[simp] theorem setStrand_routes (s : State) (sid : Nat) (t : Strand) : (s.setStrand sid t).routes = s.routes := rfl
@[simp] theorem setStrand_gov (s : State) (sid : Nat) (t : Strand) : (s.setStrand sid t).gov = s.gov := rfl
@[simp] theorem setStrand_tch (s : State) (sid : Nat) (t : Strand) : (s.setStrand sid t).tch = s.tch := rfl
@[simp] theorem setStrand_host (s : State) (sid : Nat) (t : Strand) : (s.setStrand sid t).host = s.host := rfl
@[simp] theorem setStrand_dbg (s : State) (sid : Nat) (t : Strand) : (s.setStrand sid t).dbg = s.dbg := rfl

/-! ### `State.setCore` -/

@[simp] theorem setCore_cur (s : State) (c : Nat) (k : Core) : (s.setCore c k).cur = s.cur := rfl
@[simp] theorem setCore_agenda (s : State) (c : Nat) (k : Core) : (s.setCore c k).agenda = s.agenda := rfl
@[simp] theorem setCore_choice (s : State) (c : Nat) (k : Core) : (s.setCore c k).choice = s.choice := rfl
@[simp] theorem setCore_turnNo (s : State) (c : Nat) (k : Core) : (s.setCore c k).turnNo = s.turnNo := rfl
@[simp] theorem setCore_seqNo (s : State) (c : Nat) (k : Core) : (s.setCore c k).seqNo = s.seqNo := rfl
@[simp] theorem setCore_uidNo (s : State) (c : Nat) (k : Core) : (s.setCore c k).uidNo = s.uidNo := rfl
@[simp] theorem setCore_opNo (s : State) (c : Nat) (k : Core) : (s.setCore c k).opNo = s.opNo := rfl
@[simp] theorem setCore_waitNo (s : State) (c : Nat) (k : Core) : (s.setCore c k).waitNo = s.waitNo := rfl
@[simp] theorem setCore_accNo (s : State) (c : Nat) (k : Core) : (s.setCore c k).accNo = s.accNo := rfl
@[simp] theorem setCore_reqNo (s : State) (c : Nat) (k : Core) : (s.setCore c k).reqNo = s.reqNo := rfl
@[simp] theorem setCore_ftime (s : State) (c : Nat) (k : Core) : (s.setCore c k).ftime = s.ftime := rfl
@[simp] theorem setCore_mem (s : State) (c : Nat) (k : Core) : (s.setCore c k).mem = s.mem := rfl
@[simp] theorem setCore_tags (s : State) (c : Nat) (k : Core) : (s.setCore c k).tags = s.tags := rfl
@[simp] theorem setCore_poison (s : State) (c : Nat) (k : Core) : (s.setCore c k).poison = s.poison := rfl
@[simp] theorem setCore_early (s : State) (c : Nat) (k : Core) : (s.setCore c k).early = s.early := rfl
@[simp] theorem setCore_met (s : State) (c : Nat) (k : Core) : (s.setCore c k).met = s.met := rfl
@[simp] theorem setCore_strands (s : State) (c : Nat) (k : Core) : (s.setCore c k).strands = s.strands := rfl
@[simp] theorem setCore_sheafs (s : State) (c : Nat) (k : Core) : (s.setCore c k).sheafs = s.sheafs := rfl
@[simp] theorem setCore_walks (s : State) (c : Nat) (k : Core) : (s.setCore c k).walks = s.walks := rfl
@[simp] theorem setCore_ops (s : State) (c : Nat) (k : Core) : (s.setCore c k).ops = s.ops := rfl
@[simp] theorem setCore_keys (s : State) (c : Nat) (k : Core) : (s.setCore c k).keys = s.keys := rfl
@[simp] theorem setCore_wq (s : State) (c : Nat) (k : Core) : (s.setCore c k).wq = s.wq := rfl
@[simp] theorem setCore_closes (s : State) (c : Nat) (k : Core) : (s.setCore c k).closes = s.closes := rfl
@[simp] theorem setCore_queues (s : State) (c : Nat) (k : Core) : (s.setCore c k).queues = s.queues := rfl
@[simp] theorem setCore_launches (s : State) (c : Nat) (k : Core) : (s.setCore c k).launches = s.launches := rfl
@[simp] theorem setCore_checked (s : State) (c : Nat) (k : Core) : (s.setCore c k).checked = s.checked := rfl
@[simp] theorem setCore_husks (s : State) (c : Nat) (k : Core) : (s.setCore c k).husks = s.husks := rfl
@[simp] theorem setCore_rings (s : State) (c : Nat) (k : Core) : (s.setCore c k).rings = s.rings := rfl
@[simp] theorem setCore_tree (s : State) (c : Nat) (k : Core) : (s.setCore c k).tree = s.tree := rfl
@[simp] theorem setCore_pages (s : State) (c : Nat) (k : Core) : (s.setCore c k).pages = s.pages := rfl
@[simp] theorem setCore_tiles (s : State) (c : Nat) (k : Core) : (s.setCore c k).tiles = s.tiles := rfl
@[simp] theorem setCore_ports (s : State) (c : Nat) (k : Core) : (s.setCore c k).ports = s.ports := rfl
@[simp] theorem setCore_links (s : State) (c : Nat) (k : Core) : (s.setCore c k).links = s.links := rfl
@[simp] theorem setCore_routes (s : State) (c : Nat) (k : Core) : (s.setCore c k).routes = s.routes := rfl
@[simp] theorem setCore_gov (s : State) (c : Nat) (k : Core) : (s.setCore c k).gov = s.gov := rfl
@[simp] theorem setCore_tch (s : State) (c : Nat) (k : Core) : (s.setCore c k).tch = s.tch := rfl
@[simp] theorem setCore_host (s : State) (c : Nat) (k : Core) : (s.setCore c k).host = s.host := rfl
@[simp] theorem setCore_dbg (s : State) (c : Nat) (k : Core) : (s.setCore c k).dbg = s.dbg := rfl

/-! ### `State.setSheaf` -/

@[simp] theorem setSheaf_cur (s : State) (h : Nat) (k : Sheaf) : (s.setSheaf h k).cur = s.cur := rfl
@[simp] theorem setSheaf_agenda (s : State) (h : Nat) (k : Sheaf) : (s.setSheaf h k).agenda = s.agenda := rfl
@[simp] theorem setSheaf_choice (s : State) (h : Nat) (k : Sheaf) : (s.setSheaf h k).choice = s.choice := rfl
@[simp] theorem setSheaf_turnNo (s : State) (h : Nat) (k : Sheaf) : (s.setSheaf h k).turnNo = s.turnNo := rfl
@[simp] theorem setSheaf_seqNo (s : State) (h : Nat) (k : Sheaf) : (s.setSheaf h k).seqNo = s.seqNo := rfl
@[simp] theorem setSheaf_uidNo (s : State) (h : Nat) (k : Sheaf) : (s.setSheaf h k).uidNo = s.uidNo := rfl
@[simp] theorem setSheaf_opNo (s : State) (h : Nat) (k : Sheaf) : (s.setSheaf h k).opNo = s.opNo := rfl
@[simp] theorem setSheaf_waitNo (s : State) (h : Nat) (k : Sheaf) : (s.setSheaf h k).waitNo = s.waitNo := rfl
@[simp] theorem setSheaf_accNo (s : State) (h : Nat) (k : Sheaf) : (s.setSheaf h k).accNo = s.accNo := rfl
@[simp] theorem setSheaf_reqNo (s : State) (h : Nat) (k : Sheaf) : (s.setSheaf h k).reqNo = s.reqNo := rfl
@[simp] theorem setSheaf_ftime (s : State) (h : Nat) (k : Sheaf) : (s.setSheaf h k).ftime = s.ftime := rfl
@[simp] theorem setSheaf_mem (s : State) (h : Nat) (k : Sheaf) : (s.setSheaf h k).mem = s.mem := rfl
@[simp] theorem setSheaf_tags (s : State) (h : Nat) (k : Sheaf) : (s.setSheaf h k).tags = s.tags := rfl
@[simp] theorem setSheaf_poison (s : State) (h : Nat) (k : Sheaf) : (s.setSheaf h k).poison = s.poison := rfl
@[simp] theorem setSheaf_early (s : State) (h : Nat) (k : Sheaf) : (s.setSheaf h k).early = s.early := rfl
@[simp] theorem setSheaf_met (s : State) (h : Nat) (k : Sheaf) : (s.setSheaf h k).met = s.met := rfl
@[simp] theorem setSheaf_strands (s : State) (h : Nat) (k : Sheaf) : (s.setSheaf h k).strands = s.strands := rfl
@[simp] theorem setSheaf_cores (s : State) (h : Nat) (k : Sheaf) : (s.setSheaf h k).cores = s.cores := rfl
@[simp] theorem setSheaf_walks (s : State) (h : Nat) (k : Sheaf) : (s.setSheaf h k).walks = s.walks := rfl
@[simp] theorem setSheaf_ops (s : State) (h : Nat) (k : Sheaf) : (s.setSheaf h k).ops = s.ops := rfl
@[simp] theorem setSheaf_keys (s : State) (h : Nat) (k : Sheaf) : (s.setSheaf h k).keys = s.keys := rfl
@[simp] theorem setSheaf_wq (s : State) (h : Nat) (k : Sheaf) : (s.setSheaf h k).wq = s.wq := rfl
@[simp] theorem setSheaf_closes (s : State) (h : Nat) (k : Sheaf) : (s.setSheaf h k).closes = s.closes := rfl
@[simp] theorem setSheaf_queues (s : State) (h : Nat) (k : Sheaf) : (s.setSheaf h k).queues = s.queues := rfl
@[simp] theorem setSheaf_launches (s : State) (h : Nat) (k : Sheaf) : (s.setSheaf h k).launches = s.launches := rfl
@[simp] theorem setSheaf_checked (s : State) (h : Nat) (k : Sheaf) : (s.setSheaf h k).checked = s.checked := rfl
@[simp] theorem setSheaf_husks (s : State) (h : Nat) (k : Sheaf) : (s.setSheaf h k).husks = s.husks := rfl
@[simp] theorem setSheaf_rings (s : State) (h : Nat) (k : Sheaf) : (s.setSheaf h k).rings = s.rings := rfl
@[simp] theorem setSheaf_tree (s : State) (h : Nat) (k : Sheaf) : (s.setSheaf h k).tree = s.tree := rfl
@[simp] theorem setSheaf_pages (s : State) (h : Nat) (k : Sheaf) : (s.setSheaf h k).pages = s.pages := rfl
@[simp] theorem setSheaf_tiles (s : State) (h : Nat) (k : Sheaf) : (s.setSheaf h k).tiles = s.tiles := rfl
@[simp] theorem setSheaf_ports (s : State) (h : Nat) (k : Sheaf) : (s.setSheaf h k).ports = s.ports := rfl
@[simp] theorem setSheaf_links (s : State) (h : Nat) (k : Sheaf) : (s.setSheaf h k).links = s.links := rfl
@[simp] theorem setSheaf_routes (s : State) (h : Nat) (k : Sheaf) : (s.setSheaf h k).routes = s.routes := rfl
@[simp] theorem setSheaf_gov (s : State) (h : Nat) (k : Sheaf) : (s.setSheaf h k).gov = s.gov := rfl
@[simp] theorem setSheaf_tch (s : State) (h : Nat) (k : Sheaf) : (s.setSheaf h k).tch = s.tch := rfl
@[simp] theorem setSheaf_host (s : State) (h : Nat) (k : Sheaf) : (s.setSheaf h k).host = s.host := rfl
@[simp] theorem setSheaf_dbg (s : State) (h : Nat) (k : Sheaf) : (s.setSheaf h k).dbg = s.dbg := rfl

/-! ### `State.setMe` -/

@[simp] theorem setMe_cur (s : State) (t : Strand) : (s.setMe t).cur = s.cur := rfl
@[simp] theorem setMe_agenda (s : State) (t : Strand) : (s.setMe t).agenda = s.agenda := rfl
@[simp] theorem setMe_choice (s : State) (t : Strand) : (s.setMe t).choice = s.choice := rfl
@[simp] theorem setMe_turnNo (s : State) (t : Strand) : (s.setMe t).turnNo = s.turnNo := rfl
@[simp] theorem setMe_seqNo (s : State) (t : Strand) : (s.setMe t).seqNo = s.seqNo := rfl
@[simp] theorem setMe_uidNo (s : State) (t : Strand) : (s.setMe t).uidNo = s.uidNo := rfl
@[simp] theorem setMe_opNo (s : State) (t : Strand) : (s.setMe t).opNo = s.opNo := rfl
@[simp] theorem setMe_waitNo (s : State) (t : Strand) : (s.setMe t).waitNo = s.waitNo := rfl
@[simp] theorem setMe_accNo (s : State) (t : Strand) : (s.setMe t).accNo = s.accNo := rfl
@[simp] theorem setMe_reqNo (s : State) (t : Strand) : (s.setMe t).reqNo = s.reqNo := rfl
@[simp] theorem setMe_ftime (s : State) (t : Strand) : (s.setMe t).ftime = s.ftime := rfl
@[simp] theorem setMe_mem (s : State) (t : Strand) : (s.setMe t).mem = s.mem := rfl
@[simp] theorem setMe_tags (s : State) (t : Strand) : (s.setMe t).tags = s.tags := rfl
@[simp] theorem setMe_poison (s : State) (t : Strand) : (s.setMe t).poison = s.poison := rfl
@[simp] theorem setMe_early (s : State) (t : Strand) : (s.setMe t).early = s.early := rfl
@[simp] theorem setMe_met (s : State) (t : Strand) : (s.setMe t).met = s.met := rfl
@[simp] theorem setMe_cores (s : State) (t : Strand) : (s.setMe t).cores = s.cores := rfl
@[simp] theorem setMe_sheafs (s : State) (t : Strand) : (s.setMe t).sheafs = s.sheafs := rfl
@[simp] theorem setMe_walks (s : State) (t : Strand) : (s.setMe t).walks = s.walks := rfl
@[simp] theorem setMe_ops (s : State) (t : Strand) : (s.setMe t).ops = s.ops := rfl
@[simp] theorem setMe_keys (s : State) (t : Strand) : (s.setMe t).keys = s.keys := rfl
@[simp] theorem setMe_wq (s : State) (t : Strand) : (s.setMe t).wq = s.wq := rfl
@[simp] theorem setMe_closes (s : State) (t : Strand) : (s.setMe t).closes = s.closes := rfl
@[simp] theorem setMe_queues (s : State) (t : Strand) : (s.setMe t).queues = s.queues := rfl
@[simp] theorem setMe_launches (s : State) (t : Strand) : (s.setMe t).launches = s.launches := rfl
@[simp] theorem setMe_checked (s : State) (t : Strand) : (s.setMe t).checked = s.checked := rfl
@[simp] theorem setMe_husks (s : State) (t : Strand) : (s.setMe t).husks = s.husks := rfl
@[simp] theorem setMe_rings (s : State) (t : Strand) : (s.setMe t).rings = s.rings := rfl
@[simp] theorem setMe_tree (s : State) (t : Strand) : (s.setMe t).tree = s.tree := rfl
@[simp] theorem setMe_pages (s : State) (t : Strand) : (s.setMe t).pages = s.pages := rfl
@[simp] theorem setMe_tiles (s : State) (t : Strand) : (s.setMe t).tiles = s.tiles := rfl
@[simp] theorem setMe_ports (s : State) (t : Strand) : (s.setMe t).ports = s.ports := rfl
@[simp] theorem setMe_links (s : State) (t : Strand) : (s.setMe t).links = s.links := rfl
@[simp] theorem setMe_routes (s : State) (t : Strand) : (s.setMe t).routes = s.routes := rfl
@[simp] theorem setMe_gov (s : State) (t : Strand) : (s.setMe t).gov = s.gov := rfl
@[simp] theorem setMe_tch (s : State) (t : Strand) : (s.setMe t).tch = s.tch := rfl
@[simp] theorem setMe_host (s : State) (t : Strand) : (s.setMe t).host = s.host := rfl
@[simp] theorem setMe_dbg (s : State) (t : Strand) : (s.setMe t).dbg = s.dbg := rfl

/-! ### `Strand.setX` -/

@[simp] theorem setX_stat (t : Strand) (r : XReg) (w : Word) : (t.setX r w).stat = t.stat := by unfold Strand.setX; split <;> rfl
@[simp] theorem setX_uid (t : Strand) (r : XReg) (w : Word) : (t.setX r w).uid = t.uid := by unfold Strand.setX; split <;> rfl
@[simp] theorem setX_ctx (t : Strand) (r : XReg) (w : Word) : (t.setX r w).ctx = t.ctx := by unfold Strand.setX; split <;> rfl
@[simp] theorem setX_launch (t : Strand) (r : XReg) (w : Word) : (t.setX r w).launch = t.launch := by unfold Strand.setX; split <;> rfl
@[simp] theorem setX_ordinal (t : Strand) (r : XReg) (w : Word) : (t.setX r w).ordinal = t.ordinal := by unfold Strand.setX; split <;> rfl
@[simp] theorem setX_stage (t : Strand) (r : XReg) (w : Word) : (t.setX r w).stage = t.stage := by unfold Strand.setX; split <;> rfl
@[simp] theorem setX_index (t : Strand) (r : XReg) (w : Word) : (t.setX r w).index = t.index := by unfold Strand.setX; split <;> rfl
@[simp] theorem setX_tile (t : Strand) (r : XReg) (w : Word) : (t.setX r w).tile = t.tile := by unfold Strand.setX; split <;> rfl
@[simp] theorem setX_prio (t : Strand) (r : XReg) (w : Word) : (t.setX r w).prio = t.prio := by unfold Strand.setX; split <;> rfl
@[simp] theorem setX_spawned (t : Strand) (r : XReg) (w : Word) : (t.setX r w).spawned = t.spawned := by unfold Strand.setX; split <;> rfl
@[simp] theorem setX_pc (t : Strand) (r : XReg) (w : Word) : (t.setX r w).pc = t.pc := by unfold Strand.setX; split <;> rfl
@[simp] theorem setX_v (t : Strand) (r : XReg) (w : Word) : (t.setX r w).v = t.v := by unfold Strand.setX; split <;> rfl
@[simp] theorem setX_p (t : Strand) (r : XReg) (w : Word) : (t.setX r w).p = t.p := by unfold Strand.setX; split <;> rfl
@[simp] theorem setX_d (t : Strand) (r : XReg) (w : Word) : (t.setX r w).d = t.d := by unfold Strand.setX; split <;> rfl
@[simp] theorem setX_c (t : Strand) (r : XReg) (w : Word) : (t.setX r w).c = t.c := by unfold Strand.setX; split <;> rfl
@[simp] theorem setX_ed (t : Strand) (r : XReg) (w : Word) : (t.setX r w).ed = t.ed := by unfold Strand.setX; split <;> rfl
@[simp] theorem setX_fflags (t : Strand) (r : XReg) (w : Word) : (t.setX r w).fflags = t.fflags := by unfold Strand.setX; split <;> rfl
@[simp] theorem setX_fen (t : Strand) (r : XReg) (w : Word) : (t.setX r w).fen = t.fen := by unfold Strand.setX; split <;> rfl
@[simp] theorem setX_frm (t : Strand) (r : XReg) (w : Word) : (t.setX r w).frm = t.frm := by unfold Strand.setX; split <;> rfl
@[simp] theorem setX_lpc (t : Strand) (r : XReg) (w : Word) : (t.setX r w).lpc = t.lpc := by unfold Strand.setX; split <;> rfl
@[simp] theorem setX_lpstart (t : Strand) (r : XReg) (w : Word) : (t.setX r w).lpstart = t.lpstart := by unfold Strand.setX; split <;> rfl
@[simp] theorem setX_lpend (t : Strand) (r : XReg) (w : Word) : (t.setX r w).lpend = t.lpend := by unfold Strand.setX; split <;> rfl
@[simp] theorem setX_xwin (t : Strand) (r : XReg) (w : Word) : (t.setX r w).xwin = t.xwin := by unfold Strand.setX; split <;> rfl
@[simp] theorem setX_ddim (t : Strand) (r : XReg) (w : Word) : (t.setX r w).ddim = t.ddim := by unfold Strand.setX; split <;> rfl
@[simp] theorem setX_skew (t : Strand) (r : XReg) (w : Word) : (t.setX r w).skew = t.skew := by unfold Strand.setX; split <;> rfl
@[simp] theorem setX_bvhlo (t : Strand) (r : XReg) (w : Word) : (t.setX r w).bvhlo = t.bvhlo := by unfold Strand.setX; split <;> rfl
@[simp] theorem setX_bvhhi (t : Strand) (r : XReg) (w : Word) : (t.setX r w).bvhhi = t.bvhhi := by unfold Strand.setX; split <;> rfl
@[simp] theorem setX_hue (t : Strand) (r : XReg) (w : Word) : (t.setX r w).hue = t.hue := by unfold Strand.setX; split <;> rfl
@[simp] theorem setX_pwrreq (t : Strand) (r : XReg) (w : Word) : (t.setX r w).pwrreq = t.pwrreq := by unfold Strand.setX; split <;> rfl
@[simp] theorem setX_stallto (t : Strand) (r : XReg) (w : Word) : (t.setX r w).stallto = t.stallto := by unfold Strand.setX; split <;> rfl
@[simp] theorem setX_pausemax (t : Strand) (r : XReg) (w : Word) : (t.setX r w).pausemax = t.pausemax := by unfold Strand.setX; split <;> rfl
@[simp] theorem setX_kprobe (t : Strand) (r : XReg) (w : Word) : (t.setX r w).kprobe = t.kprobe := by unfold Strand.setX; split <;> rfl
@[simp] theorem setX_gangto (t : Strand) (r : XReg) (w : Word) : (t.setX r w).gangto = t.gangto := by unfold Strand.setX; split <;> rfl
@[simp] theorem setX_fpxsup (t : Strand) (r : XReg) (w : Word) : (t.setX r w).fpxsup = t.fpxsup := by unfold Strand.setX; split <;> rfl
@[simp] theorem setX_instret (t : Strand) (r : XReg) (w : Word) : (t.setX r w).instret = t.instret := by unfold Strand.setX; split <;> rfl
@[simp] theorem setX_mode (t : Strand) (r : XReg) (w : Word) : (t.setX r w).mode = t.mode := by unfold Strand.setX; split <;> rfl
@[simp] theorem setX_pmode (t : Strand) (r : XReg) (w : Word) : (t.setX r w).pmode = t.pmode := by unfold Strand.setX; split <;> rfl
@[simp] theorem setX_tvec (t : Strand) (r : XReg) (w : Word) : (t.setX r w).tvec = t.tvec := by unfold Strand.setX; split <;> rfl
@[simp] theorem setX_epc (t : Strand) (r : XReg) (w : Word) : (t.setX r w).epc = t.epc := by unfold Strand.setX; split <;> rfl
@[simp] theorem setX_cause (t : Strand) (r : XReg) (w : Word) : (t.setX r w).cause = t.cause := by unfold Strand.setX; split <;> rfl
@[simp] theorem setX_tval (t : Strand) (r : XReg) (w : Word) : (t.setX r w).tval = t.tval := by unfold Strand.setX; split <;> rfl
@[simp] theorem setX_kscratch (t : Strand) (r : XReg) (w : Word) : (t.setX r w).kscratch = t.kscratch := by unfold Strand.setX; split <;> rfl
@[simp] theorem setX_elpc (t : Strand) (r : XReg) (w : Word) : (t.setX r w).elpc = t.elpc := by unfold Strand.setX; split <;> rfl
@[simp] theorem setX_elpstart (t : Strand) (r : XReg) (w : Word) : (t.setX r w).elpstart = t.elpstart := by unfold Strand.setX; split <;> rfl
@[simp] theorem setX_elpend (t : Strand) (r : XReg) (w : Word) : (t.setX r w).elpend = t.elpend := by unfold Strand.setX; split <;> rfl
@[simp] theorem setX_entry (t : Strand) (r : XReg) (w : Word) : (t.setX r w).entry = t.entry := by unfold Strand.setX; split <;> rfl
@[simp] theorem setX_buf (t : Strand) (r : XReg) (w : Word) : (t.setX r w).buf = t.buf := by unfold Strand.setX; split <;> rfl
@[simp] theorem setX_mid (t : Strand) (r : XReg) (w : Word) : (t.setX r w).mid = t.mid := by unfold Strand.setX; split <;> rfl
@[simp] theorem setX_wait (t : Strand) (r : XReg) (w : Word) : (t.setX r w).wait = t.wait := by unfold Strand.setX; split <;> rfl
@[simp] theorem setX_waitNo (t : Strand) (r : XReg) (w : Word) : (t.setX r w).waitNo = t.waitNo := by unfold Strand.setX; split <;> rfl
@[simp] theorem setX_waited (t : Strand) (r : XReg) (w : Word) : (t.setX r w).waited = t.waited := by unfold Strand.setX; split <;> rfl
@[simp] theorem setX_probed (t : Strand) (r : XReg) (w : Word) : (t.setX r w).probed = t.probed := by unfold Strand.setX; split <;> rfl
@[simp] theorem setX_waitAt (t : Strand) (r : XReg) (w : Word) : (t.setX r w).waitAt = t.waitAt := by unfold Strand.setX; split <;> rfl
@[simp] theorem setX_eff (t : Strand) (r : XReg) (w : Word) : (t.setX r w).eff = t.eff := by unfold Strand.setX; split <;> rfl
@[simp] theorem setX_waitCnt (t : Strand) (r : XReg) (w : Word) : (t.setX r w).waitCnt = t.waitCnt := by unfold Strand.setX; split <;> rfl
@[simp] theorem setX_yielded (t : Strand) (r : XReg) (w : Word) : (t.setX r w).yielded = t.yielded := by unfold Strand.setX; split <;> rfl
@[simp] theorem setX_fbuf (t : Strand) (r : XReg) (w : Word) : (t.setX r w).fbuf = t.fbuf := by unfold Strand.setX; split <;> rfl
@[simp] theorem setX_loopBuf (t : Strand) (r : XReg) (w : Word) : (t.setX r w).loopBuf = t.loopBuf := by unfold Strand.setX; split <;> rfl
@[simp] theorem setX_fetchWait (t : Strand) (r : XReg) (w : Word) : (t.setX r w).fetchWait = t.fetchWait := by unfold Strand.setX; split <;> rfl
@[simp] theorem setX_pend (t : Strand) (r : XReg) (w : Word) : (t.setX r w).pend = t.pend := by unfold Strand.setX; split <;> rfl
@[simp] theorem setX_parked (t : Strand) (r : XReg) (w : Word) : (t.setX r w).parked = t.parked := by unfold Strand.setX; split <;> rfl
@[simp] theorem setX_fenMask (t : Strand) (r : XReg) (w : Word) : (t.setX r w).fenMask = t.fenMask := by unfold Strand.setX; split <;> rfl
@[simp] theorem setX_preempt (t : Strand) (r : XReg) (w : Word) : (t.setX r w).preempt = t.preempt := by unfold Strand.setX; split <;> rfl
@[simp] theorem setX_saving (t : Strand) (r : XReg) (w : Word) : (t.setX r w).saving = t.saving := by unfold Strand.setX; split <;> rfl
@[simp] theorem setX_pauseMasks (t : Strand) (r : XReg) (w : Word) : (t.setX r w).pauseMasks = t.pauseMasks := by unfold Strand.setX; split <;> rfl
@[simp] theorem setX_startRel (t : Strand) (r : XReg) (w : Word) : (t.setX r w).startRel = t.startRel := by unfold Strand.setX; split <;> rfl
@[simp] theorem setX_startAcq (t : Strand) (r : XReg) (w : Word) : (t.setX r w).startAcq = t.startAcq := by unfold Strand.setX; split <;> rfl
@[simp] theorem setX_arrived (t : Strand) (r : XReg) (w : Word) : (t.setX r w).arrived = t.arrived := by unfold Strand.setX; split <;> rfl
@[simp] theorem setX_fresh (t : Strand) (r : XReg) (w : Word) : (t.setX r w).fresh = t.fresh := by unfold Strand.setX; split <;> rfl
@[simp] theorem setX_word (t : Strand) (r : XReg) (w : Word) : (t.setX r w).word = t.word := by unfold Strand.setX; split <;> rfl

/-! ### `Strand.setV` -/

@[simp] theorem setV_stat (t : Strand) (r : VReg) (w : V128) : (t.setV r w).stat = t.stat := rfl
@[simp] theorem setV_uid (t : Strand) (r : VReg) (w : V128) : (t.setV r w).uid = t.uid := rfl
@[simp] theorem setV_ctx (t : Strand) (r : VReg) (w : V128) : (t.setV r w).ctx = t.ctx := rfl
@[simp] theorem setV_launch (t : Strand) (r : VReg) (w : V128) : (t.setV r w).launch = t.launch := rfl
@[simp] theorem setV_ordinal (t : Strand) (r : VReg) (w : V128) : (t.setV r w).ordinal = t.ordinal := rfl
@[simp] theorem setV_stage (t : Strand) (r : VReg) (w : V128) : (t.setV r w).stage = t.stage := rfl
@[simp] theorem setV_index (t : Strand) (r : VReg) (w : V128) : (t.setV r w).index = t.index := rfl
@[simp] theorem setV_tile (t : Strand) (r : VReg) (w : V128) : (t.setV r w).tile = t.tile := rfl
@[simp] theorem setV_prio (t : Strand) (r : VReg) (w : V128) : (t.setV r w).prio = t.prio := rfl
@[simp] theorem setV_spawned (t : Strand) (r : VReg) (w : V128) : (t.setV r w).spawned = t.spawned := rfl
@[simp] theorem setV_pc (t : Strand) (r : VReg) (w : V128) : (t.setV r w).pc = t.pc := rfl
@[simp] theorem setV_x (t : Strand) (r : VReg) (w : V128) : (t.setV r w).x = t.x := rfl
@[simp] theorem setV_p (t : Strand) (r : VReg) (w : V128) : (t.setV r w).p = t.p := rfl
@[simp] theorem setV_d (t : Strand) (r : VReg) (w : V128) : (t.setV r w).d = t.d := rfl
@[simp] theorem setV_c (t : Strand) (r : VReg) (w : V128) : (t.setV r w).c = t.c := rfl
@[simp] theorem setV_ed (t : Strand) (r : VReg) (w : V128) : (t.setV r w).ed = t.ed := rfl
@[simp] theorem setV_fflags (t : Strand) (r : VReg) (w : V128) : (t.setV r w).fflags = t.fflags := rfl
@[simp] theorem setV_fen (t : Strand) (r : VReg) (w : V128) : (t.setV r w).fen = t.fen := rfl
@[simp] theorem setV_frm (t : Strand) (r : VReg) (w : V128) : (t.setV r w).frm = t.frm := rfl
@[simp] theorem setV_lpc (t : Strand) (r : VReg) (w : V128) : (t.setV r w).lpc = t.lpc := rfl
@[simp] theorem setV_lpstart (t : Strand) (r : VReg) (w : V128) : (t.setV r w).lpstart = t.lpstart := rfl
@[simp] theorem setV_lpend (t : Strand) (r : VReg) (w : V128) : (t.setV r w).lpend = t.lpend := rfl
@[simp] theorem setV_xwin (t : Strand) (r : VReg) (w : V128) : (t.setV r w).xwin = t.xwin := rfl
@[simp] theorem setV_ddim (t : Strand) (r : VReg) (w : V128) : (t.setV r w).ddim = t.ddim := rfl
@[simp] theorem setV_skew (t : Strand) (r : VReg) (w : V128) : (t.setV r w).skew = t.skew := rfl
@[simp] theorem setV_bvhlo (t : Strand) (r : VReg) (w : V128) : (t.setV r w).bvhlo = t.bvhlo := rfl
@[simp] theorem setV_bvhhi (t : Strand) (r : VReg) (w : V128) : (t.setV r w).bvhhi = t.bvhhi := rfl
@[simp] theorem setV_hue (t : Strand) (r : VReg) (w : V128) : (t.setV r w).hue = t.hue := rfl
@[simp] theorem setV_pwrreq (t : Strand) (r : VReg) (w : V128) : (t.setV r w).pwrreq = t.pwrreq := rfl
@[simp] theorem setV_stallto (t : Strand) (r : VReg) (w : V128) : (t.setV r w).stallto = t.stallto := rfl
@[simp] theorem setV_pausemax (t : Strand) (r : VReg) (w : V128) : (t.setV r w).pausemax = t.pausemax := rfl
@[simp] theorem setV_kprobe (t : Strand) (r : VReg) (w : V128) : (t.setV r w).kprobe = t.kprobe := rfl
@[simp] theorem setV_gangto (t : Strand) (r : VReg) (w : V128) : (t.setV r w).gangto = t.gangto := rfl
@[simp] theorem setV_fpxsup (t : Strand) (r : VReg) (w : V128) : (t.setV r w).fpxsup = t.fpxsup := rfl
@[simp] theorem setV_instret (t : Strand) (r : VReg) (w : V128) : (t.setV r w).instret = t.instret := rfl
@[simp] theorem setV_mode (t : Strand) (r : VReg) (w : V128) : (t.setV r w).mode = t.mode := rfl
@[simp] theorem setV_pmode (t : Strand) (r : VReg) (w : V128) : (t.setV r w).pmode = t.pmode := rfl
@[simp] theorem setV_tvec (t : Strand) (r : VReg) (w : V128) : (t.setV r w).tvec = t.tvec := rfl
@[simp] theorem setV_epc (t : Strand) (r : VReg) (w : V128) : (t.setV r w).epc = t.epc := rfl
@[simp] theorem setV_cause (t : Strand) (r : VReg) (w : V128) : (t.setV r w).cause = t.cause := rfl
@[simp] theorem setV_tval (t : Strand) (r : VReg) (w : V128) : (t.setV r w).tval = t.tval := rfl
@[simp] theorem setV_kscratch (t : Strand) (r : VReg) (w : V128) : (t.setV r w).kscratch = t.kscratch := rfl
@[simp] theorem setV_elpc (t : Strand) (r : VReg) (w : V128) : (t.setV r w).elpc = t.elpc := rfl
@[simp] theorem setV_elpstart (t : Strand) (r : VReg) (w : V128) : (t.setV r w).elpstart = t.elpstart := rfl
@[simp] theorem setV_elpend (t : Strand) (r : VReg) (w : V128) : (t.setV r w).elpend = t.elpend := rfl
@[simp] theorem setV_entry (t : Strand) (r : VReg) (w : V128) : (t.setV r w).entry = t.entry := rfl
@[simp] theorem setV_buf (t : Strand) (r : VReg) (w : V128) : (t.setV r w).buf = t.buf := rfl
@[simp] theorem setV_mid (t : Strand) (r : VReg) (w : V128) : (t.setV r w).mid = t.mid := rfl
@[simp] theorem setV_wait (t : Strand) (r : VReg) (w : V128) : (t.setV r w).wait = t.wait := rfl
@[simp] theorem setV_waitNo (t : Strand) (r : VReg) (w : V128) : (t.setV r w).waitNo = t.waitNo := rfl
@[simp] theorem setV_waited (t : Strand) (r : VReg) (w : V128) : (t.setV r w).waited = t.waited := rfl
@[simp] theorem setV_probed (t : Strand) (r : VReg) (w : V128) : (t.setV r w).probed = t.probed := rfl
@[simp] theorem setV_waitAt (t : Strand) (r : VReg) (w : V128) : (t.setV r w).waitAt = t.waitAt := rfl
@[simp] theorem setV_eff (t : Strand) (r : VReg) (w : V128) : (t.setV r w).eff = t.eff := rfl
@[simp] theorem setV_waitCnt (t : Strand) (r : VReg) (w : V128) : (t.setV r w).waitCnt = t.waitCnt := rfl
@[simp] theorem setV_yielded (t : Strand) (r : VReg) (w : V128) : (t.setV r w).yielded = t.yielded := rfl
@[simp] theorem setV_fbuf (t : Strand) (r : VReg) (w : V128) : (t.setV r w).fbuf = t.fbuf := rfl
@[simp] theorem setV_loopBuf (t : Strand) (r : VReg) (w : V128) : (t.setV r w).loopBuf = t.loopBuf := rfl
@[simp] theorem setV_fetchWait (t : Strand) (r : VReg) (w : V128) : (t.setV r w).fetchWait = t.fetchWait := rfl
@[simp] theorem setV_pend (t : Strand) (r : VReg) (w : V128) : (t.setV r w).pend = t.pend := rfl
@[simp] theorem setV_parked (t : Strand) (r : VReg) (w : V128) : (t.setV r w).parked = t.parked := rfl
@[simp] theorem setV_fenMask (t : Strand) (r : VReg) (w : V128) : (t.setV r w).fenMask = t.fenMask := rfl
@[simp] theorem setV_preempt (t : Strand) (r : VReg) (w : V128) : (t.setV r w).preempt = t.preempt := rfl
@[simp] theorem setV_saving (t : Strand) (r : VReg) (w : V128) : (t.setV r w).saving = t.saving := rfl
@[simp] theorem setV_pauseMasks (t : Strand) (r : VReg) (w : V128) : (t.setV r w).pauseMasks = t.pauseMasks := rfl
@[simp] theorem setV_startRel (t : Strand) (r : VReg) (w : V128) : (t.setV r w).startRel = t.startRel := rfl
@[simp] theorem setV_startAcq (t : Strand) (r : VReg) (w : V128) : (t.setV r w).startAcq = t.startAcq := rfl
@[simp] theorem setV_arrived (t : Strand) (r : VReg) (w : V128) : (t.setV r w).arrived = t.arrived := rfl
@[simp] theorem setV_fresh (t : Strand) (r : VReg) (w : V128) : (t.setV r w).fresh = t.fresh := rfl
@[simp] theorem setV_word (t : Strand) (r : VReg) (w : V128) : (t.setV r w).word = t.word := rfl

/-! ### `Strand.setP` -/

@[simp] theorem setP_stat (t : Strand) (r : PReg) (w : BitVec 16) : (t.setP r w).stat = t.stat := by unfold Strand.setP; split <;> rfl
@[simp] theorem setP_uid (t : Strand) (r : PReg) (w : BitVec 16) : (t.setP r w).uid = t.uid := by unfold Strand.setP; split <;> rfl
@[simp] theorem setP_ctx (t : Strand) (r : PReg) (w : BitVec 16) : (t.setP r w).ctx = t.ctx := by unfold Strand.setP; split <;> rfl
@[simp] theorem setP_launch (t : Strand) (r : PReg) (w : BitVec 16) : (t.setP r w).launch = t.launch := by unfold Strand.setP; split <;> rfl
@[simp] theorem setP_ordinal (t : Strand) (r : PReg) (w : BitVec 16) : (t.setP r w).ordinal = t.ordinal := by unfold Strand.setP; split <;> rfl
@[simp] theorem setP_stage (t : Strand) (r : PReg) (w : BitVec 16) : (t.setP r w).stage = t.stage := by unfold Strand.setP; split <;> rfl
@[simp] theorem setP_index (t : Strand) (r : PReg) (w : BitVec 16) : (t.setP r w).index = t.index := by unfold Strand.setP; split <;> rfl
@[simp] theorem setP_tile (t : Strand) (r : PReg) (w : BitVec 16) : (t.setP r w).tile = t.tile := by unfold Strand.setP; split <;> rfl
@[simp] theorem setP_prio (t : Strand) (r : PReg) (w : BitVec 16) : (t.setP r w).prio = t.prio := by unfold Strand.setP; split <;> rfl
@[simp] theorem setP_spawned (t : Strand) (r : PReg) (w : BitVec 16) : (t.setP r w).spawned = t.spawned := by unfold Strand.setP; split <;> rfl
@[simp] theorem setP_pc (t : Strand) (r : PReg) (w : BitVec 16) : (t.setP r w).pc = t.pc := by unfold Strand.setP; split <;> rfl
@[simp] theorem setP_x (t : Strand) (r : PReg) (w : BitVec 16) : (t.setP r w).x = t.x := by unfold Strand.setP; split <;> rfl
@[simp] theorem setP_v (t : Strand) (r : PReg) (w : BitVec 16) : (t.setP r w).v = t.v := by unfold Strand.setP; split <;> rfl
@[simp] theorem setP_d (t : Strand) (r : PReg) (w : BitVec 16) : (t.setP r w).d = t.d := by unfold Strand.setP; split <;> rfl
@[simp] theorem setP_c (t : Strand) (r : PReg) (w : BitVec 16) : (t.setP r w).c = t.c := by unfold Strand.setP; split <;> rfl
@[simp] theorem setP_ed (t : Strand) (r : PReg) (w : BitVec 16) : (t.setP r w).ed = t.ed := by unfold Strand.setP; split <;> rfl
@[simp] theorem setP_fflags (t : Strand) (r : PReg) (w : BitVec 16) : (t.setP r w).fflags = t.fflags := by unfold Strand.setP; split <;> rfl
@[simp] theorem setP_fen (t : Strand) (r : PReg) (w : BitVec 16) : (t.setP r w).fen = t.fen := by unfold Strand.setP; split <;> rfl
@[simp] theorem setP_frm (t : Strand) (r : PReg) (w : BitVec 16) : (t.setP r w).frm = t.frm := by unfold Strand.setP; split <;> rfl
@[simp] theorem setP_lpc (t : Strand) (r : PReg) (w : BitVec 16) : (t.setP r w).lpc = t.lpc := by unfold Strand.setP; split <;> rfl
@[simp] theorem setP_lpstart (t : Strand) (r : PReg) (w : BitVec 16) : (t.setP r w).lpstart = t.lpstart := by unfold Strand.setP; split <;> rfl
@[simp] theorem setP_lpend (t : Strand) (r : PReg) (w : BitVec 16) : (t.setP r w).lpend = t.lpend := by unfold Strand.setP; split <;> rfl
@[simp] theorem setP_xwin (t : Strand) (r : PReg) (w : BitVec 16) : (t.setP r w).xwin = t.xwin := by unfold Strand.setP; split <;> rfl
@[simp] theorem setP_ddim (t : Strand) (r : PReg) (w : BitVec 16) : (t.setP r w).ddim = t.ddim := by unfold Strand.setP; split <;> rfl
@[simp] theorem setP_skew (t : Strand) (r : PReg) (w : BitVec 16) : (t.setP r w).skew = t.skew := by unfold Strand.setP; split <;> rfl
@[simp] theorem setP_bvhlo (t : Strand) (r : PReg) (w : BitVec 16) : (t.setP r w).bvhlo = t.bvhlo := by unfold Strand.setP; split <;> rfl
@[simp] theorem setP_bvhhi (t : Strand) (r : PReg) (w : BitVec 16) : (t.setP r w).bvhhi = t.bvhhi := by unfold Strand.setP; split <;> rfl
@[simp] theorem setP_hue (t : Strand) (r : PReg) (w : BitVec 16) : (t.setP r w).hue = t.hue := by unfold Strand.setP; split <;> rfl
@[simp] theorem setP_pwrreq (t : Strand) (r : PReg) (w : BitVec 16) : (t.setP r w).pwrreq = t.pwrreq := by unfold Strand.setP; split <;> rfl
@[simp] theorem setP_stallto (t : Strand) (r : PReg) (w : BitVec 16) : (t.setP r w).stallto = t.stallto := by unfold Strand.setP; split <;> rfl
@[simp] theorem setP_pausemax (t : Strand) (r : PReg) (w : BitVec 16) : (t.setP r w).pausemax = t.pausemax := by unfold Strand.setP; split <;> rfl
@[simp] theorem setP_kprobe (t : Strand) (r : PReg) (w : BitVec 16) : (t.setP r w).kprobe = t.kprobe := by unfold Strand.setP; split <;> rfl
@[simp] theorem setP_gangto (t : Strand) (r : PReg) (w : BitVec 16) : (t.setP r w).gangto = t.gangto := by unfold Strand.setP; split <;> rfl
@[simp] theorem setP_fpxsup (t : Strand) (r : PReg) (w : BitVec 16) : (t.setP r w).fpxsup = t.fpxsup := by unfold Strand.setP; split <;> rfl
@[simp] theorem setP_instret (t : Strand) (r : PReg) (w : BitVec 16) : (t.setP r w).instret = t.instret := by unfold Strand.setP; split <;> rfl
@[simp] theorem setP_mode (t : Strand) (r : PReg) (w : BitVec 16) : (t.setP r w).mode = t.mode := by unfold Strand.setP; split <;> rfl
@[simp] theorem setP_pmode (t : Strand) (r : PReg) (w : BitVec 16) : (t.setP r w).pmode = t.pmode := by unfold Strand.setP; split <;> rfl
@[simp] theorem setP_tvec (t : Strand) (r : PReg) (w : BitVec 16) : (t.setP r w).tvec = t.tvec := by unfold Strand.setP; split <;> rfl
@[simp] theorem setP_epc (t : Strand) (r : PReg) (w : BitVec 16) : (t.setP r w).epc = t.epc := by unfold Strand.setP; split <;> rfl
@[simp] theorem setP_cause (t : Strand) (r : PReg) (w : BitVec 16) : (t.setP r w).cause = t.cause := by unfold Strand.setP; split <;> rfl
@[simp] theorem setP_tval (t : Strand) (r : PReg) (w : BitVec 16) : (t.setP r w).tval = t.tval := by unfold Strand.setP; split <;> rfl
@[simp] theorem setP_kscratch (t : Strand) (r : PReg) (w : BitVec 16) : (t.setP r w).kscratch = t.kscratch := by unfold Strand.setP; split <;> rfl
@[simp] theorem setP_elpc (t : Strand) (r : PReg) (w : BitVec 16) : (t.setP r w).elpc = t.elpc := by unfold Strand.setP; split <;> rfl
@[simp] theorem setP_elpstart (t : Strand) (r : PReg) (w : BitVec 16) : (t.setP r w).elpstart = t.elpstart := by unfold Strand.setP; split <;> rfl
@[simp] theorem setP_elpend (t : Strand) (r : PReg) (w : BitVec 16) : (t.setP r w).elpend = t.elpend := by unfold Strand.setP; split <;> rfl
@[simp] theorem setP_entry (t : Strand) (r : PReg) (w : BitVec 16) : (t.setP r w).entry = t.entry := by unfold Strand.setP; split <;> rfl
@[simp] theorem setP_buf (t : Strand) (r : PReg) (w : BitVec 16) : (t.setP r w).buf = t.buf := by unfold Strand.setP; split <;> rfl
@[simp] theorem setP_mid (t : Strand) (r : PReg) (w : BitVec 16) : (t.setP r w).mid = t.mid := by unfold Strand.setP; split <;> rfl
@[simp] theorem setP_wait (t : Strand) (r : PReg) (w : BitVec 16) : (t.setP r w).wait = t.wait := by unfold Strand.setP; split <;> rfl
@[simp] theorem setP_waitNo (t : Strand) (r : PReg) (w : BitVec 16) : (t.setP r w).waitNo = t.waitNo := by unfold Strand.setP; split <;> rfl
@[simp] theorem setP_waited (t : Strand) (r : PReg) (w : BitVec 16) : (t.setP r w).waited = t.waited := by unfold Strand.setP; split <;> rfl
@[simp] theorem setP_probed (t : Strand) (r : PReg) (w : BitVec 16) : (t.setP r w).probed = t.probed := by unfold Strand.setP; split <;> rfl
@[simp] theorem setP_waitAt (t : Strand) (r : PReg) (w : BitVec 16) : (t.setP r w).waitAt = t.waitAt := by unfold Strand.setP; split <;> rfl
@[simp] theorem setP_eff (t : Strand) (r : PReg) (w : BitVec 16) : (t.setP r w).eff = t.eff := by unfold Strand.setP; split <;> rfl
@[simp] theorem setP_waitCnt (t : Strand) (r : PReg) (w : BitVec 16) : (t.setP r w).waitCnt = t.waitCnt := by unfold Strand.setP; split <;> rfl
@[simp] theorem setP_yielded (t : Strand) (r : PReg) (w : BitVec 16) : (t.setP r w).yielded = t.yielded := by unfold Strand.setP; split <;> rfl
@[simp] theorem setP_fbuf (t : Strand) (r : PReg) (w : BitVec 16) : (t.setP r w).fbuf = t.fbuf := by unfold Strand.setP; split <;> rfl
@[simp] theorem setP_loopBuf (t : Strand) (r : PReg) (w : BitVec 16) : (t.setP r w).loopBuf = t.loopBuf := by unfold Strand.setP; split <;> rfl
@[simp] theorem setP_fetchWait (t : Strand) (r : PReg) (w : BitVec 16) : (t.setP r w).fetchWait = t.fetchWait := by unfold Strand.setP; split <;> rfl
@[simp] theorem setP_pend (t : Strand) (r : PReg) (w : BitVec 16) : (t.setP r w).pend = t.pend := by unfold Strand.setP; split <;> rfl
@[simp] theorem setP_parked (t : Strand) (r : PReg) (w : BitVec 16) : (t.setP r w).parked = t.parked := by unfold Strand.setP; split <;> rfl
@[simp] theorem setP_fenMask (t : Strand) (r : PReg) (w : BitVec 16) : (t.setP r w).fenMask = t.fenMask := by unfold Strand.setP; split <;> rfl
@[simp] theorem setP_preempt (t : Strand) (r : PReg) (w : BitVec 16) : (t.setP r w).preempt = t.preempt := by unfold Strand.setP; split <;> rfl
@[simp] theorem setP_saving (t : Strand) (r : PReg) (w : BitVec 16) : (t.setP r w).saving = t.saving := by unfold Strand.setP; split <;> rfl
@[simp] theorem setP_pauseMasks (t : Strand) (r : PReg) (w : BitVec 16) : (t.setP r w).pauseMasks = t.pauseMasks := by unfold Strand.setP; split <;> rfl
@[simp] theorem setP_startRel (t : Strand) (r : PReg) (w : BitVec 16) : (t.setP r w).startRel = t.startRel := by unfold Strand.setP; split <;> rfl
@[simp] theorem setP_startAcq (t : Strand) (r : PReg) (w : BitVec 16) : (t.setP r w).startAcq = t.startAcq := by unfold Strand.setP; split <;> rfl
@[simp] theorem setP_arrived (t : Strand) (r : PReg) (w : BitVec 16) : (t.setP r w).arrived = t.arrived := by unfold Strand.setP; split <;> rfl
@[simp] theorem setP_fresh (t : Strand) (r : PReg) (w : BitVec 16) : (t.setP r w).fresh = t.fresh := by unfold Strand.setP; split <;> rfl
@[simp] theorem setP_word (t : Strand) (r : PReg) (w : BitVec 16) : (t.setP r w).word = t.word := by unfold Strand.setP; split <;> rfl

/-! ### `Strand.setD` -/

@[simp] theorem setD_stat (t : Strand) (r : DReg) (w : DirReg) : (t.setD r w).stat = t.stat := rfl
@[simp] theorem setD_uid (t : Strand) (r : DReg) (w : DirReg) : (t.setD r w).uid = t.uid := rfl
@[simp] theorem setD_ctx (t : Strand) (r : DReg) (w : DirReg) : (t.setD r w).ctx = t.ctx := rfl
@[simp] theorem setD_launch (t : Strand) (r : DReg) (w : DirReg) : (t.setD r w).launch = t.launch := rfl
@[simp] theorem setD_ordinal (t : Strand) (r : DReg) (w : DirReg) : (t.setD r w).ordinal = t.ordinal := rfl
@[simp] theorem setD_stage (t : Strand) (r : DReg) (w : DirReg) : (t.setD r w).stage = t.stage := rfl
@[simp] theorem setD_index (t : Strand) (r : DReg) (w : DirReg) : (t.setD r w).index = t.index := rfl
@[simp] theorem setD_tile (t : Strand) (r : DReg) (w : DirReg) : (t.setD r w).tile = t.tile := rfl
@[simp] theorem setD_prio (t : Strand) (r : DReg) (w : DirReg) : (t.setD r w).prio = t.prio := rfl
@[simp] theorem setD_spawned (t : Strand) (r : DReg) (w : DirReg) : (t.setD r w).spawned = t.spawned := rfl
@[simp] theorem setD_pc (t : Strand) (r : DReg) (w : DirReg) : (t.setD r w).pc = t.pc := rfl
@[simp] theorem setD_x (t : Strand) (r : DReg) (w : DirReg) : (t.setD r w).x = t.x := rfl
@[simp] theorem setD_v (t : Strand) (r : DReg) (w : DirReg) : (t.setD r w).v = t.v := rfl
@[simp] theorem setD_p (t : Strand) (r : DReg) (w : DirReg) : (t.setD r w).p = t.p := rfl
@[simp] theorem setD_c (t : Strand) (r : DReg) (w : DirReg) : (t.setD r w).c = t.c := rfl
@[simp] theorem setD_ed (t : Strand) (r : DReg) (w : DirReg) : (t.setD r w).ed = t.ed := rfl
@[simp] theorem setD_fflags (t : Strand) (r : DReg) (w : DirReg) : (t.setD r w).fflags = t.fflags := rfl
@[simp] theorem setD_fen (t : Strand) (r : DReg) (w : DirReg) : (t.setD r w).fen = t.fen := rfl
@[simp] theorem setD_frm (t : Strand) (r : DReg) (w : DirReg) : (t.setD r w).frm = t.frm := rfl
@[simp] theorem setD_lpc (t : Strand) (r : DReg) (w : DirReg) : (t.setD r w).lpc = t.lpc := rfl
@[simp] theorem setD_lpstart (t : Strand) (r : DReg) (w : DirReg) : (t.setD r w).lpstart = t.lpstart := rfl
@[simp] theorem setD_lpend (t : Strand) (r : DReg) (w : DirReg) : (t.setD r w).lpend = t.lpend := rfl
@[simp] theorem setD_xwin (t : Strand) (r : DReg) (w : DirReg) : (t.setD r w).xwin = t.xwin := rfl
@[simp] theorem setD_ddim (t : Strand) (r : DReg) (w : DirReg) : (t.setD r w).ddim = t.ddim := rfl
@[simp] theorem setD_skew (t : Strand) (r : DReg) (w : DirReg) : (t.setD r w).skew = t.skew := rfl
@[simp] theorem setD_bvhlo (t : Strand) (r : DReg) (w : DirReg) : (t.setD r w).bvhlo = t.bvhlo := rfl
@[simp] theorem setD_bvhhi (t : Strand) (r : DReg) (w : DirReg) : (t.setD r w).bvhhi = t.bvhhi := rfl
@[simp] theorem setD_hue (t : Strand) (r : DReg) (w : DirReg) : (t.setD r w).hue = t.hue := rfl
@[simp] theorem setD_pwrreq (t : Strand) (r : DReg) (w : DirReg) : (t.setD r w).pwrreq = t.pwrreq := rfl
@[simp] theorem setD_stallto (t : Strand) (r : DReg) (w : DirReg) : (t.setD r w).stallto = t.stallto := rfl
@[simp] theorem setD_pausemax (t : Strand) (r : DReg) (w : DirReg) : (t.setD r w).pausemax = t.pausemax := rfl
@[simp] theorem setD_kprobe (t : Strand) (r : DReg) (w : DirReg) : (t.setD r w).kprobe = t.kprobe := rfl
@[simp] theorem setD_gangto (t : Strand) (r : DReg) (w : DirReg) : (t.setD r w).gangto = t.gangto := rfl
@[simp] theorem setD_fpxsup (t : Strand) (r : DReg) (w : DirReg) : (t.setD r w).fpxsup = t.fpxsup := rfl
@[simp] theorem setD_instret (t : Strand) (r : DReg) (w : DirReg) : (t.setD r w).instret = t.instret := rfl
@[simp] theorem setD_mode (t : Strand) (r : DReg) (w : DirReg) : (t.setD r w).mode = t.mode := rfl
@[simp] theorem setD_pmode (t : Strand) (r : DReg) (w : DirReg) : (t.setD r w).pmode = t.pmode := rfl
@[simp] theorem setD_tvec (t : Strand) (r : DReg) (w : DirReg) : (t.setD r w).tvec = t.tvec := rfl
@[simp] theorem setD_epc (t : Strand) (r : DReg) (w : DirReg) : (t.setD r w).epc = t.epc := rfl
@[simp] theorem setD_cause (t : Strand) (r : DReg) (w : DirReg) : (t.setD r w).cause = t.cause := rfl
@[simp] theorem setD_tval (t : Strand) (r : DReg) (w : DirReg) : (t.setD r w).tval = t.tval := rfl
@[simp] theorem setD_kscratch (t : Strand) (r : DReg) (w : DirReg) : (t.setD r w).kscratch = t.kscratch := rfl
@[simp] theorem setD_elpc (t : Strand) (r : DReg) (w : DirReg) : (t.setD r w).elpc = t.elpc := rfl
@[simp] theorem setD_elpstart (t : Strand) (r : DReg) (w : DirReg) : (t.setD r w).elpstart = t.elpstart := rfl
@[simp] theorem setD_elpend (t : Strand) (r : DReg) (w : DirReg) : (t.setD r w).elpend = t.elpend := rfl
@[simp] theorem setD_entry (t : Strand) (r : DReg) (w : DirReg) : (t.setD r w).entry = t.entry := rfl
@[simp] theorem setD_buf (t : Strand) (r : DReg) (w : DirReg) : (t.setD r w).buf = t.buf := rfl
@[simp] theorem setD_mid (t : Strand) (r : DReg) (w : DirReg) : (t.setD r w).mid = t.mid := rfl
@[simp] theorem setD_wait (t : Strand) (r : DReg) (w : DirReg) : (t.setD r w).wait = t.wait := rfl
@[simp] theorem setD_waitNo (t : Strand) (r : DReg) (w : DirReg) : (t.setD r w).waitNo = t.waitNo := rfl
@[simp] theorem setD_waited (t : Strand) (r : DReg) (w : DirReg) : (t.setD r w).waited = t.waited := rfl
@[simp] theorem setD_probed (t : Strand) (r : DReg) (w : DirReg) : (t.setD r w).probed = t.probed := rfl
@[simp] theorem setD_waitAt (t : Strand) (r : DReg) (w : DirReg) : (t.setD r w).waitAt = t.waitAt := rfl
@[simp] theorem setD_eff (t : Strand) (r : DReg) (w : DirReg) : (t.setD r w).eff = t.eff := rfl
@[simp] theorem setD_waitCnt (t : Strand) (r : DReg) (w : DirReg) : (t.setD r w).waitCnt = t.waitCnt := rfl
@[simp] theorem setD_yielded (t : Strand) (r : DReg) (w : DirReg) : (t.setD r w).yielded = t.yielded := rfl
@[simp] theorem setD_fbuf (t : Strand) (r : DReg) (w : DirReg) : (t.setD r w).fbuf = t.fbuf := rfl
@[simp] theorem setD_loopBuf (t : Strand) (r : DReg) (w : DirReg) : (t.setD r w).loopBuf = t.loopBuf := rfl
@[simp] theorem setD_fetchWait (t : Strand) (r : DReg) (w : DirReg) : (t.setD r w).fetchWait = t.fetchWait := rfl
@[simp] theorem setD_pend (t : Strand) (r : DReg) (w : DirReg) : (t.setD r w).pend = t.pend := rfl
@[simp] theorem setD_parked (t : Strand) (r : DReg) (w : DirReg) : (t.setD r w).parked = t.parked := rfl
@[simp] theorem setD_fenMask (t : Strand) (r : DReg) (w : DirReg) : (t.setD r w).fenMask = t.fenMask := rfl
@[simp] theorem setD_preempt (t : Strand) (r : DReg) (w : DirReg) : (t.setD r w).preempt = t.preempt := rfl
@[simp] theorem setD_saving (t : Strand) (r : DReg) (w : DirReg) : (t.setD r w).saving = t.saving := rfl
@[simp] theorem setD_pauseMasks (t : Strand) (r : DReg) (w : DirReg) : (t.setD r w).pauseMasks = t.pauseMasks := rfl
@[simp] theorem setD_startRel (t : Strand) (r : DReg) (w : DirReg) : (t.setD r w).startRel = t.startRel := rfl
@[simp] theorem setD_startAcq (t : Strand) (r : DReg) (w : DirReg) : (t.setD r w).startAcq = t.startAcq := rfl
@[simp] theorem setD_arrived (t : Strand) (r : DReg) (w : DirReg) : (t.setD r w).arrived = t.arrived := rfl
@[simp] theorem setD_fresh (t : Strand) (r : DReg) (w : DirReg) : (t.setD r w).fresh = t.fresh := rfl
@[simp] theorem setD_word (t : Strand) (r : DReg) (w : DirReg) : (t.setD r w).word = t.word := rfl

/-! ### `Strand.setC` -/

@[simp] theorem setC_stat (t : Strand) (r : CReg) (w : BitVec 8) : (t.setC r w).stat = t.stat := rfl
@[simp] theorem setC_uid (t : Strand) (r : CReg) (w : BitVec 8) : (t.setC r w).uid = t.uid := rfl
@[simp] theorem setC_ctx (t : Strand) (r : CReg) (w : BitVec 8) : (t.setC r w).ctx = t.ctx := rfl
@[simp] theorem setC_launch (t : Strand) (r : CReg) (w : BitVec 8) : (t.setC r w).launch = t.launch := rfl
@[simp] theorem setC_ordinal (t : Strand) (r : CReg) (w : BitVec 8) : (t.setC r w).ordinal = t.ordinal := rfl
@[simp] theorem setC_stage (t : Strand) (r : CReg) (w : BitVec 8) : (t.setC r w).stage = t.stage := rfl
@[simp] theorem setC_index (t : Strand) (r : CReg) (w : BitVec 8) : (t.setC r w).index = t.index := rfl
@[simp] theorem setC_tile (t : Strand) (r : CReg) (w : BitVec 8) : (t.setC r w).tile = t.tile := rfl
@[simp] theorem setC_prio (t : Strand) (r : CReg) (w : BitVec 8) : (t.setC r w).prio = t.prio := rfl
@[simp] theorem setC_spawned (t : Strand) (r : CReg) (w : BitVec 8) : (t.setC r w).spawned = t.spawned := rfl
@[simp] theorem setC_pc (t : Strand) (r : CReg) (w : BitVec 8) : (t.setC r w).pc = t.pc := rfl
@[simp] theorem setC_x (t : Strand) (r : CReg) (w : BitVec 8) : (t.setC r w).x = t.x := rfl
@[simp] theorem setC_v (t : Strand) (r : CReg) (w : BitVec 8) : (t.setC r w).v = t.v := rfl
@[simp] theorem setC_p (t : Strand) (r : CReg) (w : BitVec 8) : (t.setC r w).p = t.p := rfl
@[simp] theorem setC_d (t : Strand) (r : CReg) (w : BitVec 8) : (t.setC r w).d = t.d := rfl
@[simp] theorem setC_ed (t : Strand) (r : CReg) (w : BitVec 8) : (t.setC r w).ed = t.ed := rfl
@[simp] theorem setC_fflags (t : Strand) (r : CReg) (w : BitVec 8) : (t.setC r w).fflags = t.fflags := rfl
@[simp] theorem setC_fen (t : Strand) (r : CReg) (w : BitVec 8) : (t.setC r w).fen = t.fen := rfl
@[simp] theorem setC_frm (t : Strand) (r : CReg) (w : BitVec 8) : (t.setC r w).frm = t.frm := rfl
@[simp] theorem setC_lpc (t : Strand) (r : CReg) (w : BitVec 8) : (t.setC r w).lpc = t.lpc := rfl
@[simp] theorem setC_lpstart (t : Strand) (r : CReg) (w : BitVec 8) : (t.setC r w).lpstart = t.lpstart := rfl
@[simp] theorem setC_lpend (t : Strand) (r : CReg) (w : BitVec 8) : (t.setC r w).lpend = t.lpend := rfl
@[simp] theorem setC_xwin (t : Strand) (r : CReg) (w : BitVec 8) : (t.setC r w).xwin = t.xwin := rfl
@[simp] theorem setC_ddim (t : Strand) (r : CReg) (w : BitVec 8) : (t.setC r w).ddim = t.ddim := rfl
@[simp] theorem setC_skew (t : Strand) (r : CReg) (w : BitVec 8) : (t.setC r w).skew = t.skew := rfl
@[simp] theorem setC_bvhlo (t : Strand) (r : CReg) (w : BitVec 8) : (t.setC r w).bvhlo = t.bvhlo := rfl
@[simp] theorem setC_bvhhi (t : Strand) (r : CReg) (w : BitVec 8) : (t.setC r w).bvhhi = t.bvhhi := rfl
@[simp] theorem setC_hue (t : Strand) (r : CReg) (w : BitVec 8) : (t.setC r w).hue = t.hue := rfl
@[simp] theorem setC_pwrreq (t : Strand) (r : CReg) (w : BitVec 8) : (t.setC r w).pwrreq = t.pwrreq := rfl
@[simp] theorem setC_stallto (t : Strand) (r : CReg) (w : BitVec 8) : (t.setC r w).stallto = t.stallto := rfl
@[simp] theorem setC_pausemax (t : Strand) (r : CReg) (w : BitVec 8) : (t.setC r w).pausemax = t.pausemax := rfl
@[simp] theorem setC_kprobe (t : Strand) (r : CReg) (w : BitVec 8) : (t.setC r w).kprobe = t.kprobe := rfl
@[simp] theorem setC_gangto (t : Strand) (r : CReg) (w : BitVec 8) : (t.setC r w).gangto = t.gangto := rfl
@[simp] theorem setC_fpxsup (t : Strand) (r : CReg) (w : BitVec 8) : (t.setC r w).fpxsup = t.fpxsup := rfl
@[simp] theorem setC_instret (t : Strand) (r : CReg) (w : BitVec 8) : (t.setC r w).instret = t.instret := rfl
@[simp] theorem setC_mode (t : Strand) (r : CReg) (w : BitVec 8) : (t.setC r w).mode = t.mode := rfl
@[simp] theorem setC_pmode (t : Strand) (r : CReg) (w : BitVec 8) : (t.setC r w).pmode = t.pmode := rfl
@[simp] theorem setC_tvec (t : Strand) (r : CReg) (w : BitVec 8) : (t.setC r w).tvec = t.tvec := rfl
@[simp] theorem setC_epc (t : Strand) (r : CReg) (w : BitVec 8) : (t.setC r w).epc = t.epc := rfl
@[simp] theorem setC_cause (t : Strand) (r : CReg) (w : BitVec 8) : (t.setC r w).cause = t.cause := rfl
@[simp] theorem setC_tval (t : Strand) (r : CReg) (w : BitVec 8) : (t.setC r w).tval = t.tval := rfl
@[simp] theorem setC_kscratch (t : Strand) (r : CReg) (w : BitVec 8) : (t.setC r w).kscratch = t.kscratch := rfl
@[simp] theorem setC_elpc (t : Strand) (r : CReg) (w : BitVec 8) : (t.setC r w).elpc = t.elpc := rfl
@[simp] theorem setC_elpstart (t : Strand) (r : CReg) (w : BitVec 8) : (t.setC r w).elpstart = t.elpstart := rfl
@[simp] theorem setC_elpend (t : Strand) (r : CReg) (w : BitVec 8) : (t.setC r w).elpend = t.elpend := rfl
@[simp] theorem setC_entry (t : Strand) (r : CReg) (w : BitVec 8) : (t.setC r w).entry = t.entry := rfl
@[simp] theorem setC_buf (t : Strand) (r : CReg) (w : BitVec 8) : (t.setC r w).buf = t.buf := rfl
@[simp] theorem setC_mid (t : Strand) (r : CReg) (w : BitVec 8) : (t.setC r w).mid = t.mid := rfl
@[simp] theorem setC_wait (t : Strand) (r : CReg) (w : BitVec 8) : (t.setC r w).wait = t.wait := rfl
@[simp] theorem setC_waitNo (t : Strand) (r : CReg) (w : BitVec 8) : (t.setC r w).waitNo = t.waitNo := rfl
@[simp] theorem setC_waited (t : Strand) (r : CReg) (w : BitVec 8) : (t.setC r w).waited = t.waited := rfl
@[simp] theorem setC_probed (t : Strand) (r : CReg) (w : BitVec 8) : (t.setC r w).probed = t.probed := rfl
@[simp] theorem setC_waitAt (t : Strand) (r : CReg) (w : BitVec 8) : (t.setC r w).waitAt = t.waitAt := rfl
@[simp] theorem setC_eff (t : Strand) (r : CReg) (w : BitVec 8) : (t.setC r w).eff = t.eff := rfl
@[simp] theorem setC_waitCnt (t : Strand) (r : CReg) (w : BitVec 8) : (t.setC r w).waitCnt = t.waitCnt := rfl
@[simp] theorem setC_yielded (t : Strand) (r : CReg) (w : BitVec 8) : (t.setC r w).yielded = t.yielded := rfl
@[simp] theorem setC_fbuf (t : Strand) (r : CReg) (w : BitVec 8) : (t.setC r w).fbuf = t.fbuf := rfl
@[simp] theorem setC_loopBuf (t : Strand) (r : CReg) (w : BitVec 8) : (t.setC r w).loopBuf = t.loopBuf := rfl
@[simp] theorem setC_fetchWait (t : Strand) (r : CReg) (w : BitVec 8) : (t.setC r w).fetchWait = t.fetchWait := rfl
@[simp] theorem setC_pend (t : Strand) (r : CReg) (w : BitVec 8) : (t.setC r w).pend = t.pend := rfl
@[simp] theorem setC_parked (t : Strand) (r : CReg) (w : BitVec 8) : (t.setC r w).parked = t.parked := rfl
@[simp] theorem setC_fenMask (t : Strand) (r : CReg) (w : BitVec 8) : (t.setC r w).fenMask = t.fenMask := rfl
@[simp] theorem setC_preempt (t : Strand) (r : CReg) (w : BitVec 8) : (t.setC r w).preempt = t.preempt := rfl
@[simp] theorem setC_saving (t : Strand) (r : CReg) (w : BitVec 8) : (t.setC r w).saving = t.saving := rfl
@[simp] theorem setC_pauseMasks (t : Strand) (r : CReg) (w : BitVec 8) : (t.setC r w).pauseMasks = t.pauseMasks := rfl
@[simp] theorem setC_startRel (t : Strand) (r : CReg) (w : BitVec 8) : (t.setC r w).startRel = t.startRel := rfl
@[simp] theorem setC_startAcq (t : Strand) (r : CReg) (w : BitVec 8) : (t.setC r w).startAcq = t.startAcq := rfl
@[simp] theorem setC_arrived (t : Strand) (r : CReg) (w : BitVec 8) : (t.setC r w).arrived = t.arrived := rfl
@[simp] theorem setC_fresh (t : Strand) (r : CReg) (w : BitVec 8) : (t.setC r w).fresh = t.fresh := rfl
@[simp] theorem setC_word (t : Strand) (r : CReg) (w : BitVec 8) : (t.setC r w).word = t.word := rfl

/-! ### `Strand.setEd` -/

@[simp] theorem setEd_stat (t : Strand) (r : EReg) (w : Word) : (t.setEd r w).stat = t.stat := rfl
@[simp] theorem setEd_uid (t : Strand) (r : EReg) (w : Word) : (t.setEd r w).uid = t.uid := rfl
@[simp] theorem setEd_ctx (t : Strand) (r : EReg) (w : Word) : (t.setEd r w).ctx = t.ctx := rfl
@[simp] theorem setEd_launch (t : Strand) (r : EReg) (w : Word) : (t.setEd r w).launch = t.launch := rfl
@[simp] theorem setEd_ordinal (t : Strand) (r : EReg) (w : Word) : (t.setEd r w).ordinal = t.ordinal := rfl
@[simp] theorem setEd_stage (t : Strand) (r : EReg) (w : Word) : (t.setEd r w).stage = t.stage := rfl
@[simp] theorem setEd_index (t : Strand) (r : EReg) (w : Word) : (t.setEd r w).index = t.index := rfl
@[simp] theorem setEd_tile (t : Strand) (r : EReg) (w : Word) : (t.setEd r w).tile = t.tile := rfl
@[simp] theorem setEd_prio (t : Strand) (r : EReg) (w : Word) : (t.setEd r w).prio = t.prio := rfl
@[simp] theorem setEd_spawned (t : Strand) (r : EReg) (w : Word) : (t.setEd r w).spawned = t.spawned := rfl
@[simp] theorem setEd_pc (t : Strand) (r : EReg) (w : Word) : (t.setEd r w).pc = t.pc := rfl
@[simp] theorem setEd_x (t : Strand) (r : EReg) (w : Word) : (t.setEd r w).x = t.x := rfl
@[simp] theorem setEd_v (t : Strand) (r : EReg) (w : Word) : (t.setEd r w).v = t.v := rfl
@[simp] theorem setEd_p (t : Strand) (r : EReg) (w : Word) : (t.setEd r w).p = t.p := rfl
@[simp] theorem setEd_d (t : Strand) (r : EReg) (w : Word) : (t.setEd r w).d = t.d := rfl
@[simp] theorem setEd_c (t : Strand) (r : EReg) (w : Word) : (t.setEd r w).c = t.c := rfl
@[simp] theorem setEd_fflags (t : Strand) (r : EReg) (w : Word) : (t.setEd r w).fflags = t.fflags := rfl
@[simp] theorem setEd_fen (t : Strand) (r : EReg) (w : Word) : (t.setEd r w).fen = t.fen := rfl
@[simp] theorem setEd_frm (t : Strand) (r : EReg) (w : Word) : (t.setEd r w).frm = t.frm := rfl
@[simp] theorem setEd_lpc (t : Strand) (r : EReg) (w : Word) : (t.setEd r w).lpc = t.lpc := rfl
@[simp] theorem setEd_lpstart (t : Strand) (r : EReg) (w : Word) : (t.setEd r w).lpstart = t.lpstart := rfl
@[simp] theorem setEd_lpend (t : Strand) (r : EReg) (w : Word) : (t.setEd r w).lpend = t.lpend := rfl
@[simp] theorem setEd_xwin (t : Strand) (r : EReg) (w : Word) : (t.setEd r w).xwin = t.xwin := rfl
@[simp] theorem setEd_ddim (t : Strand) (r : EReg) (w : Word) : (t.setEd r w).ddim = t.ddim := rfl
@[simp] theorem setEd_skew (t : Strand) (r : EReg) (w : Word) : (t.setEd r w).skew = t.skew := rfl
@[simp] theorem setEd_bvhlo (t : Strand) (r : EReg) (w : Word) : (t.setEd r w).bvhlo = t.bvhlo := rfl
@[simp] theorem setEd_bvhhi (t : Strand) (r : EReg) (w : Word) : (t.setEd r w).bvhhi = t.bvhhi := rfl
@[simp] theorem setEd_hue (t : Strand) (r : EReg) (w : Word) : (t.setEd r w).hue = t.hue := rfl
@[simp] theorem setEd_pwrreq (t : Strand) (r : EReg) (w : Word) : (t.setEd r w).pwrreq = t.pwrreq := rfl
@[simp] theorem setEd_stallto (t : Strand) (r : EReg) (w : Word) : (t.setEd r w).stallto = t.stallto := rfl
@[simp] theorem setEd_pausemax (t : Strand) (r : EReg) (w : Word) : (t.setEd r w).pausemax = t.pausemax := rfl
@[simp] theorem setEd_kprobe (t : Strand) (r : EReg) (w : Word) : (t.setEd r w).kprobe = t.kprobe := rfl
@[simp] theorem setEd_gangto (t : Strand) (r : EReg) (w : Word) : (t.setEd r w).gangto = t.gangto := rfl
@[simp] theorem setEd_fpxsup (t : Strand) (r : EReg) (w : Word) : (t.setEd r w).fpxsup = t.fpxsup := rfl
@[simp] theorem setEd_instret (t : Strand) (r : EReg) (w : Word) : (t.setEd r w).instret = t.instret := rfl
@[simp] theorem setEd_mode (t : Strand) (r : EReg) (w : Word) : (t.setEd r w).mode = t.mode := rfl
@[simp] theorem setEd_pmode (t : Strand) (r : EReg) (w : Word) : (t.setEd r w).pmode = t.pmode := rfl
@[simp] theorem setEd_tvec (t : Strand) (r : EReg) (w : Word) : (t.setEd r w).tvec = t.tvec := rfl
@[simp] theorem setEd_epc (t : Strand) (r : EReg) (w : Word) : (t.setEd r w).epc = t.epc := rfl
@[simp] theorem setEd_cause (t : Strand) (r : EReg) (w : Word) : (t.setEd r w).cause = t.cause := rfl
@[simp] theorem setEd_tval (t : Strand) (r : EReg) (w : Word) : (t.setEd r w).tval = t.tval := rfl
@[simp] theorem setEd_kscratch (t : Strand) (r : EReg) (w : Word) : (t.setEd r w).kscratch = t.kscratch := rfl
@[simp] theorem setEd_elpc (t : Strand) (r : EReg) (w : Word) : (t.setEd r w).elpc = t.elpc := rfl
@[simp] theorem setEd_elpstart (t : Strand) (r : EReg) (w : Word) : (t.setEd r w).elpstart = t.elpstart := rfl
@[simp] theorem setEd_elpend (t : Strand) (r : EReg) (w : Word) : (t.setEd r w).elpend = t.elpend := rfl
@[simp] theorem setEd_entry (t : Strand) (r : EReg) (w : Word) : (t.setEd r w).entry = t.entry := rfl
@[simp] theorem setEd_buf (t : Strand) (r : EReg) (w : Word) : (t.setEd r w).buf = t.buf := rfl
@[simp] theorem setEd_mid (t : Strand) (r : EReg) (w : Word) : (t.setEd r w).mid = t.mid := rfl
@[simp] theorem setEd_wait (t : Strand) (r : EReg) (w : Word) : (t.setEd r w).wait = t.wait := rfl
@[simp] theorem setEd_waitNo (t : Strand) (r : EReg) (w : Word) : (t.setEd r w).waitNo = t.waitNo := rfl
@[simp] theorem setEd_waited (t : Strand) (r : EReg) (w : Word) : (t.setEd r w).waited = t.waited := rfl
@[simp] theorem setEd_probed (t : Strand) (r : EReg) (w : Word) : (t.setEd r w).probed = t.probed := rfl
@[simp] theorem setEd_waitAt (t : Strand) (r : EReg) (w : Word) : (t.setEd r w).waitAt = t.waitAt := rfl
@[simp] theorem setEd_eff (t : Strand) (r : EReg) (w : Word) : (t.setEd r w).eff = t.eff := rfl
@[simp] theorem setEd_waitCnt (t : Strand) (r : EReg) (w : Word) : (t.setEd r w).waitCnt = t.waitCnt := rfl
@[simp] theorem setEd_yielded (t : Strand) (r : EReg) (w : Word) : (t.setEd r w).yielded = t.yielded := rfl
@[simp] theorem setEd_fbuf (t : Strand) (r : EReg) (w : Word) : (t.setEd r w).fbuf = t.fbuf := rfl
@[simp] theorem setEd_loopBuf (t : Strand) (r : EReg) (w : Word) : (t.setEd r w).loopBuf = t.loopBuf := rfl
@[simp] theorem setEd_fetchWait (t : Strand) (r : EReg) (w : Word) : (t.setEd r w).fetchWait = t.fetchWait := rfl
@[simp] theorem setEd_pend (t : Strand) (r : EReg) (w : Word) : (t.setEd r w).pend = t.pend := rfl
@[simp] theorem setEd_parked (t : Strand) (r : EReg) (w : Word) : (t.setEd r w).parked = t.parked := rfl
@[simp] theorem setEd_fenMask (t : Strand) (r : EReg) (w : Word) : (t.setEd r w).fenMask = t.fenMask := rfl
@[simp] theorem setEd_preempt (t : Strand) (r : EReg) (w : Word) : (t.setEd r w).preempt = t.preempt := rfl
@[simp] theorem setEd_saving (t : Strand) (r : EReg) (w : Word) : (t.setEd r w).saving = t.saving := rfl
@[simp] theorem setEd_pauseMasks (t : Strand) (r : EReg) (w : Word) : (t.setEd r w).pauseMasks = t.pauseMasks := rfl
@[simp] theorem setEd_startRel (t : Strand) (r : EReg) (w : Word) : (t.setEd r w).startRel = t.startRel := rfl
@[simp] theorem setEd_startAcq (t : Strand) (r : EReg) (w : Word) : (t.setEd r w).startAcq = t.startAcq := rfl
@[simp] theorem setEd_arrived (t : Strand) (r : EReg) (w : Word) : (t.setEd r w).arrived = t.arrived := rfl
@[simp] theorem setEd_fresh (t : Strand) (r : EReg) (w : Word) : (t.setEd r w).fresh = t.fresh := rfl
@[simp] theorem setEd_word (t : Strand) (r : EReg) (w : Word) : (t.setEd r w).word = t.word := rfl

/-! ### `Strand.count`, `Strand.advance`, `Strand.done`, `Strand.doneTo` -/

@[simp] theorem count_stat (t : Strand) : t.count.stat = t.stat := rfl
@[simp] theorem count_uid (t : Strand) : t.count.uid = t.uid := rfl
@[simp] theorem count_ctx (t : Strand) : t.count.ctx = t.ctx := rfl
@[simp] theorem count_launch (t : Strand) : t.count.launch = t.launch := rfl
@[simp] theorem count_ordinal (t : Strand) : t.count.ordinal = t.ordinal := rfl
@[simp] theorem count_stage (t : Strand) : t.count.stage = t.stage := rfl
@[simp] theorem count_index (t : Strand) : t.count.index = t.index := rfl
@[simp] theorem count_tile (t : Strand) : t.count.tile = t.tile := rfl
@[simp] theorem count_prio (t : Strand) : t.count.prio = t.prio := rfl
@[simp] theorem count_spawned (t : Strand) : t.count.spawned = t.spawned := rfl
@[simp] theorem count_pc (t : Strand) : t.count.pc = t.pc := rfl
@[simp] theorem count_x (t : Strand) : t.count.x = t.x := rfl
@[simp] theorem count_v (t : Strand) : t.count.v = t.v := rfl
@[simp] theorem count_p (t : Strand) : t.count.p = t.p := rfl
@[simp] theorem count_d (t : Strand) : t.count.d = t.d := rfl
@[simp] theorem count_c (t : Strand) : t.count.c = t.c := rfl
@[simp] theorem count_ed (t : Strand) : t.count.ed = t.ed := rfl
@[simp] theorem count_fflags (t : Strand) : t.count.fflags = t.fflags := rfl
@[simp] theorem count_fen (t : Strand) : t.count.fen = t.fen := rfl
@[simp] theorem count_frm (t : Strand) : t.count.frm = t.frm := rfl
@[simp] theorem count_lpc (t : Strand) : t.count.lpc = t.lpc := rfl
@[simp] theorem count_lpstart (t : Strand) : t.count.lpstart = t.lpstart := rfl
@[simp] theorem count_lpend (t : Strand) : t.count.lpend = t.lpend := rfl
@[simp] theorem count_xwin (t : Strand) : t.count.xwin = t.xwin := rfl
@[simp] theorem count_ddim (t : Strand) : t.count.ddim = t.ddim := rfl
@[simp] theorem count_skew (t : Strand) : t.count.skew = t.skew := rfl
@[simp] theorem count_bvhlo (t : Strand) : t.count.bvhlo = t.bvhlo := rfl
@[simp] theorem count_bvhhi (t : Strand) : t.count.bvhhi = t.bvhhi := rfl
@[simp] theorem count_hue (t : Strand) : t.count.hue = t.hue := rfl
@[simp] theorem count_pwrreq (t : Strand) : t.count.pwrreq = t.pwrreq := rfl
@[simp] theorem count_stallto (t : Strand) : t.count.stallto = t.stallto := rfl
@[simp] theorem count_pausemax (t : Strand) : t.count.pausemax = t.pausemax := rfl
@[simp] theorem count_kprobe (t : Strand) : t.count.kprobe = t.kprobe := rfl
@[simp] theorem count_gangto (t : Strand) : t.count.gangto = t.gangto := rfl
@[simp] theorem count_fpxsup (t : Strand) : t.count.fpxsup = t.fpxsup := rfl
@[simp] theorem count_mode (t : Strand) : t.count.mode = t.mode := rfl
@[simp] theorem count_pmode (t : Strand) : t.count.pmode = t.pmode := rfl
@[simp] theorem count_tvec (t : Strand) : t.count.tvec = t.tvec := rfl
@[simp] theorem count_epc (t : Strand) : t.count.epc = t.epc := rfl
@[simp] theorem count_cause (t : Strand) : t.count.cause = t.cause := rfl
@[simp] theorem count_tval (t : Strand) : t.count.tval = t.tval := rfl
@[simp] theorem count_kscratch (t : Strand) : t.count.kscratch = t.kscratch := rfl
@[simp] theorem count_elpc (t : Strand) : t.count.elpc = t.elpc := rfl
@[simp] theorem count_elpstart (t : Strand) : t.count.elpstart = t.elpstart := rfl
@[simp] theorem count_elpend (t : Strand) : t.count.elpend = t.elpend := rfl
@[simp] theorem count_buf (t : Strand) : t.count.buf = t.buf := rfl
@[simp] theorem count_waitNo (t : Strand) : t.count.waitNo = t.waitNo := rfl
@[simp] theorem count_waitAt (t : Strand) : t.count.waitAt = t.waitAt := rfl
@[simp] theorem count_eff (t : Strand) : t.count.eff = t.eff := rfl
@[simp] theorem count_waitCnt (t : Strand) : t.count.waitCnt = t.waitCnt := rfl
@[simp] theorem count_fbuf (t : Strand) : t.count.fbuf = t.fbuf := rfl
@[simp] theorem count_loopBuf (t : Strand) : t.count.loopBuf = t.loopBuf := rfl
@[simp] theorem count_fetchWait (t : Strand) : t.count.fetchWait = t.fetchWait := rfl
@[simp] theorem count_pend (t : Strand) : t.count.pend = t.pend := rfl
@[simp] theorem count_parked (t : Strand) : t.count.parked = t.parked := rfl
@[simp] theorem count_saving (t : Strand) : t.count.saving = t.saving := rfl
@[simp] theorem count_pauseMasks (t : Strand) : t.count.pauseMasks = t.pauseMasks := rfl
@[simp] theorem count_startRel (t : Strand) : t.count.startRel = t.startRel := rfl
@[simp] theorem count_startAcq (t : Strand) : t.count.startAcq = t.startAcq := rfl
@[simp] theorem count_arrived (t : Strand) : t.count.arrived = t.arrived := rfl
@[simp] theorem count_fresh (t : Strand) : t.count.fresh = t.fresh := rfl
@[simp] theorem count_word (t : Strand) : t.count.word = t.word := rfl
@[simp] theorem count_instret (t : Strand) : t.count.instret = t.instret + 1 := rfl
@[simp] theorem count_entry (t : Strand) : t.count.entry = false := rfl
@[simp] theorem count_preempt (t : Strand) : t.count.preempt = t.preempt.map (· + 1) := rfl
@[simp] theorem count_wait (t : Strand) : t.count.wait = none := rfl
@[simp] theorem count_waited (t : Strand) : t.count.waited = 0 := rfl
@[simp] theorem count_probed (t : Strand) : t.count.probed = 0 := rfl
@[simp] theorem count_fenMask (t : Strand) : t.count.fenMask = 0 := rfl
@[simp] theorem count_yielded (t : Strand) : t.count.yielded = false := rfl
@[simp] theorem count_mid (t : Strand) : t.count.mid = none := rfl
@[simp] theorem goTo_stat (t : Strand) (a : Word) : (t.goTo a).stat = t.stat := rfl
@[simp] theorem goTo_uid (t : Strand) (a : Word) : (t.goTo a).uid = t.uid := rfl
@[simp] theorem goTo_ctx (t : Strand) (a : Word) : (t.goTo a).ctx = t.ctx := rfl
@[simp] theorem goTo_launch (t : Strand) (a : Word) : (t.goTo a).launch = t.launch := rfl
@[simp] theorem goTo_ordinal (t : Strand) (a : Word) : (t.goTo a).ordinal = t.ordinal := rfl
@[simp] theorem goTo_stage (t : Strand) (a : Word) : (t.goTo a).stage = t.stage := rfl
@[simp] theorem goTo_index (t : Strand) (a : Word) : (t.goTo a).index = t.index := rfl
@[simp] theorem goTo_tile (t : Strand) (a : Word) : (t.goTo a).tile = t.tile := rfl
@[simp] theorem goTo_prio (t : Strand) (a : Word) : (t.goTo a).prio = t.prio := rfl
@[simp] theorem goTo_spawned (t : Strand) (a : Word) : (t.goTo a).spawned = t.spawned := rfl
@[simp] theorem goTo_x (t : Strand) (a : Word) : (t.goTo a).x = t.x := rfl
@[simp] theorem goTo_v (t : Strand) (a : Word) : (t.goTo a).v = t.v := rfl
@[simp] theorem goTo_p (t : Strand) (a : Word) : (t.goTo a).p = t.p := rfl
@[simp] theorem goTo_d (t : Strand) (a : Word) : (t.goTo a).d = t.d := rfl
@[simp] theorem goTo_c (t : Strand) (a : Word) : (t.goTo a).c = t.c := rfl
@[simp] theorem goTo_ed (t : Strand) (a : Word) : (t.goTo a).ed = t.ed := rfl
@[simp] theorem goTo_fflags (t : Strand) (a : Word) : (t.goTo a).fflags = t.fflags := rfl
@[simp] theorem goTo_fen (t : Strand) (a : Word) : (t.goTo a).fen = t.fen := rfl
@[simp] theorem goTo_frm (t : Strand) (a : Word) : (t.goTo a).frm = t.frm := rfl
@[simp] theorem goTo_lpc (t : Strand) (a : Word) : (t.goTo a).lpc = t.lpc := rfl
@[simp] theorem goTo_lpstart (t : Strand) (a : Word) : (t.goTo a).lpstart = t.lpstart := rfl
@[simp] theorem goTo_lpend (t : Strand) (a : Word) : (t.goTo a).lpend = t.lpend := rfl
@[simp] theorem goTo_xwin (t : Strand) (a : Word) : (t.goTo a).xwin = t.xwin := rfl
@[simp] theorem goTo_ddim (t : Strand) (a : Word) : (t.goTo a).ddim = t.ddim := rfl
@[simp] theorem goTo_skew (t : Strand) (a : Word) : (t.goTo a).skew = t.skew := rfl
@[simp] theorem goTo_bvhlo (t : Strand) (a : Word) : (t.goTo a).bvhlo = t.bvhlo := rfl
@[simp] theorem goTo_bvhhi (t : Strand) (a : Word) : (t.goTo a).bvhhi = t.bvhhi := rfl
@[simp] theorem goTo_hue (t : Strand) (a : Word) : (t.goTo a).hue = t.hue := rfl
@[simp] theorem goTo_pwrreq (t : Strand) (a : Word) : (t.goTo a).pwrreq = t.pwrreq := rfl
@[simp] theorem goTo_stallto (t : Strand) (a : Word) : (t.goTo a).stallto = t.stallto := rfl
@[simp] theorem goTo_pausemax (t : Strand) (a : Word) : (t.goTo a).pausemax = t.pausemax := rfl
@[simp] theorem goTo_kprobe (t : Strand) (a : Word) : (t.goTo a).kprobe = t.kprobe := rfl
@[simp] theorem goTo_gangto (t : Strand) (a : Word) : (t.goTo a).gangto = t.gangto := rfl
@[simp] theorem goTo_fpxsup (t : Strand) (a : Word) : (t.goTo a).fpxsup = t.fpxsup := rfl
@[simp] theorem goTo_instret (t : Strand) (a : Word) : (t.goTo a).instret = t.instret := rfl
@[simp] theorem goTo_mode (t : Strand) (a : Word) : (t.goTo a).mode = t.mode := rfl
@[simp] theorem goTo_pmode (t : Strand) (a : Word) : (t.goTo a).pmode = t.pmode := rfl
@[simp] theorem goTo_tvec (t : Strand) (a : Word) : (t.goTo a).tvec = t.tvec := rfl
@[simp] theorem goTo_epc (t : Strand) (a : Word) : (t.goTo a).epc = t.epc := rfl
@[simp] theorem goTo_cause (t : Strand) (a : Word) : (t.goTo a).cause = t.cause := rfl
@[simp] theorem goTo_tval (t : Strand) (a : Word) : (t.goTo a).tval = t.tval := rfl
@[simp] theorem goTo_kscratch (t : Strand) (a : Word) : (t.goTo a).kscratch = t.kscratch := rfl
@[simp] theorem goTo_elpc (t : Strand) (a : Word) : (t.goTo a).elpc = t.elpc := rfl
@[simp] theorem goTo_elpstart (t : Strand) (a : Word) : (t.goTo a).elpstart = t.elpstart := rfl
@[simp] theorem goTo_elpend (t : Strand) (a : Word) : (t.goTo a).elpend = t.elpend := rfl
@[simp] theorem goTo_entry (t : Strand) (a : Word) : (t.goTo a).entry = t.entry := rfl
@[simp] theorem goTo_buf (t : Strand) (a : Word) : (t.goTo a).buf = t.buf := rfl
@[simp] theorem goTo_mid (t : Strand) (a : Word) : (t.goTo a).mid = t.mid := rfl
@[simp] theorem goTo_wait (t : Strand) (a : Word) : (t.goTo a).wait = t.wait := rfl
@[simp] theorem goTo_waitNo (t : Strand) (a : Word) : (t.goTo a).waitNo = t.waitNo := rfl
@[simp] theorem goTo_waited (t : Strand) (a : Word) : (t.goTo a).waited = t.waited := rfl
@[simp] theorem goTo_probed (t : Strand) (a : Word) : (t.goTo a).probed = t.probed := rfl
@[simp] theorem goTo_waitAt (t : Strand) (a : Word) : (t.goTo a).waitAt = t.waitAt := rfl
@[simp] theorem goTo_eff (t : Strand) (a : Word) : (t.goTo a).eff = t.eff := rfl
@[simp] theorem goTo_waitCnt (t : Strand) (a : Word) : (t.goTo a).waitCnt = t.waitCnt := rfl
@[simp] theorem goTo_yielded (t : Strand) (a : Word) : (t.goTo a).yielded = t.yielded := rfl
@[simp] theorem goTo_loopBuf (t : Strand) (a : Word) : (t.goTo a).loopBuf = t.loopBuf := rfl
@[simp] theorem goTo_fetchWait (t : Strand) (a : Word) : (t.goTo a).fetchWait = t.fetchWait := rfl
@[simp] theorem goTo_pend (t : Strand) (a : Word) : (t.goTo a).pend = t.pend := rfl
@[simp] theorem goTo_parked (t : Strand) (a : Word) : (t.goTo a).parked = t.parked := rfl
@[simp] theorem goTo_fenMask (t : Strand) (a : Word) : (t.goTo a).fenMask = t.fenMask := rfl
@[simp] theorem goTo_preempt (t : Strand) (a : Word) : (t.goTo a).preempt = t.preempt := rfl
@[simp] theorem goTo_saving (t : Strand) (a : Word) : (t.goTo a).saving = t.saving := rfl
@[simp] theorem goTo_pauseMasks (t : Strand) (a : Word) : (t.goTo a).pauseMasks = t.pauseMasks := rfl
@[simp] theorem goTo_startRel (t : Strand) (a : Word) : (t.goTo a).startRel = t.startRel := rfl
@[simp] theorem goTo_startAcq (t : Strand) (a : Word) : (t.goTo a).startAcq = t.startAcq := rfl
@[simp] theorem goTo_arrived (t : Strand) (a : Word) : (t.goTo a).arrived = t.arrived := rfl
@[simp] theorem goTo_fresh (t : Strand) (a : Word) : (t.goTo a).fresh = t.fresh := rfl
@[simp] theorem goTo_word (t : Strand) (a : Word) : (t.goTo a).word = t.word := rfl
@[simp] theorem goTo_pc (t : Strand) (a : Word) : (t.goTo a).pc = a := rfl
/-- Going on in line moves the pc, the loop counter and the buffers of words only. -/
theorem advance_eq (t : Strand) :
    t.advance = { t with pc := t.advance.pc, lpc := t.advance.lpc, fbuf := t.advance.fbuf, loopBuf := t.advance.loopBuf } := by
  unfold Strand.advance
  split
  · split <;> rfl
  · rfl
@[simp] theorem advance_stat (t : Strand) : t.advance.stat = t.stat := by rw [advance_eq]
@[simp] theorem advance_uid (t : Strand) : t.advance.uid = t.uid := by rw [advance_eq]
@[simp] theorem advance_ctx (t : Strand) : t.advance.ctx = t.ctx := by rw [advance_eq]
@[simp] theorem advance_launch (t : Strand) : t.advance.launch = t.launch := by rw [advance_eq]
@[simp] theorem advance_ordinal (t : Strand) : t.advance.ordinal = t.ordinal := by rw [advance_eq]
@[simp] theorem advance_stage (t : Strand) : t.advance.stage = t.stage := by rw [advance_eq]
@[simp] theorem advance_index (t : Strand) : t.advance.index = t.index := by rw [advance_eq]
@[simp] theorem advance_tile (t : Strand) : t.advance.tile = t.tile := by rw [advance_eq]
@[simp] theorem advance_prio (t : Strand) : t.advance.prio = t.prio := by rw [advance_eq]
@[simp] theorem advance_spawned (t : Strand) : t.advance.spawned = t.spawned := by rw [advance_eq]
@[simp] theorem advance_x (t : Strand) : t.advance.x = t.x := by rw [advance_eq]
@[simp] theorem advance_v (t : Strand) : t.advance.v = t.v := by rw [advance_eq]
@[simp] theorem advance_p (t : Strand) : t.advance.p = t.p := by rw [advance_eq]
@[simp] theorem advance_d (t : Strand) : t.advance.d = t.d := by rw [advance_eq]
@[simp] theorem advance_c (t : Strand) : t.advance.c = t.c := by rw [advance_eq]
@[simp] theorem advance_ed (t : Strand) : t.advance.ed = t.ed := by rw [advance_eq]
@[simp] theorem advance_fflags (t : Strand) : t.advance.fflags = t.fflags := by rw [advance_eq]
@[simp] theorem advance_fen (t : Strand) : t.advance.fen = t.fen := by rw [advance_eq]
@[simp] theorem advance_frm (t : Strand) : t.advance.frm = t.frm := by rw [advance_eq]
@[simp] theorem advance_lpstart (t : Strand) : t.advance.lpstart = t.lpstart := by rw [advance_eq]
@[simp] theorem advance_lpend (t : Strand) : t.advance.lpend = t.lpend := by rw [advance_eq]
@[simp] theorem advance_xwin (t : Strand) : t.advance.xwin = t.xwin := by rw [advance_eq]
@[simp] theorem advance_ddim (t : Strand) : t.advance.ddim = t.ddim := by rw [advance_eq]
@[simp] theorem advance_skew (t : Strand) : t.advance.skew = t.skew := by rw [advance_eq]
@[simp] theorem advance_bvhlo (t : Strand) : t.advance.bvhlo = t.bvhlo := by rw [advance_eq]
@[simp] theorem advance_bvhhi (t : Strand) : t.advance.bvhhi = t.bvhhi := by rw [advance_eq]
@[simp] theorem advance_hue (t : Strand) : t.advance.hue = t.hue := by rw [advance_eq]
@[simp] theorem advance_pwrreq (t : Strand) : t.advance.pwrreq = t.pwrreq := by rw [advance_eq]
@[simp] theorem advance_stallto (t : Strand) : t.advance.stallto = t.stallto := by rw [advance_eq]
@[simp] theorem advance_pausemax (t : Strand) : t.advance.pausemax = t.pausemax := by rw [advance_eq]
@[simp] theorem advance_kprobe (t : Strand) : t.advance.kprobe = t.kprobe := by rw [advance_eq]
@[simp] theorem advance_gangto (t : Strand) : t.advance.gangto = t.gangto := by rw [advance_eq]
@[simp] theorem advance_fpxsup (t : Strand) : t.advance.fpxsup = t.fpxsup := by rw [advance_eq]
@[simp] theorem advance_instret (t : Strand) : t.advance.instret = t.instret := by rw [advance_eq]
@[simp] theorem advance_mode (t : Strand) : t.advance.mode = t.mode := by rw [advance_eq]
@[simp] theorem advance_pmode (t : Strand) : t.advance.pmode = t.pmode := by rw [advance_eq]
@[simp] theorem advance_tvec (t : Strand) : t.advance.tvec = t.tvec := by rw [advance_eq]
@[simp] theorem advance_epc (t : Strand) : t.advance.epc = t.epc := by rw [advance_eq]
@[simp] theorem advance_cause (t : Strand) : t.advance.cause = t.cause := by rw [advance_eq]
@[simp] theorem advance_tval (t : Strand) : t.advance.tval = t.tval := by rw [advance_eq]
@[simp] theorem advance_kscratch (t : Strand) : t.advance.kscratch = t.kscratch := by rw [advance_eq]
@[simp] theorem advance_elpc (t : Strand) : t.advance.elpc = t.elpc := by rw [advance_eq]
@[simp] theorem advance_elpstart (t : Strand) : t.advance.elpstart = t.elpstart := by rw [advance_eq]
@[simp] theorem advance_elpend (t : Strand) : t.advance.elpend = t.elpend := by rw [advance_eq]
@[simp] theorem advance_entry (t : Strand) : t.advance.entry = t.entry := by rw [advance_eq]
@[simp] theorem advance_buf (t : Strand) : t.advance.buf = t.buf := by rw [advance_eq]
@[simp] theorem advance_mid (t : Strand) : t.advance.mid = t.mid := by rw [advance_eq]
@[simp] theorem advance_wait (t : Strand) : t.advance.wait = t.wait := by rw [advance_eq]
@[simp] theorem advance_waitNo (t : Strand) : t.advance.waitNo = t.waitNo := by rw [advance_eq]
@[simp] theorem advance_waited (t : Strand) : t.advance.waited = t.waited := by rw [advance_eq]
@[simp] theorem advance_probed (t : Strand) : t.advance.probed = t.probed := by rw [advance_eq]
@[simp] theorem advance_waitAt (t : Strand) : t.advance.waitAt = t.waitAt := by rw [advance_eq]
@[simp] theorem advance_eff (t : Strand) : t.advance.eff = t.eff := by rw [advance_eq]
@[simp] theorem advance_waitCnt (t : Strand) : t.advance.waitCnt = t.waitCnt := by rw [advance_eq]
@[simp] theorem advance_yielded (t : Strand) : t.advance.yielded = t.yielded := by rw [advance_eq]
@[simp] theorem advance_fetchWait (t : Strand) : t.advance.fetchWait = t.fetchWait := by rw [advance_eq]
@[simp] theorem advance_pend (t : Strand) : t.advance.pend = t.pend := by rw [advance_eq]
@[simp] theorem advance_parked (t : Strand) : t.advance.parked = t.parked := by rw [advance_eq]
@[simp] theorem advance_fenMask (t : Strand) : t.advance.fenMask = t.fenMask := by rw [advance_eq]
@[simp] theorem advance_preempt (t : Strand) : t.advance.preempt = t.preempt := by rw [advance_eq]
@[simp] theorem advance_saving (t : Strand) : t.advance.saving = t.saving := by rw [advance_eq]
@[simp] theorem advance_pauseMasks (t : Strand) : t.advance.pauseMasks = t.pauseMasks := by rw [advance_eq]
@[simp] theorem advance_startRel (t : Strand) : t.advance.startRel = t.startRel := by rw [advance_eq]
@[simp] theorem advance_startAcq (t : Strand) : t.advance.startAcq = t.startAcq := by rw [advance_eq]
@[simp] theorem advance_arrived (t : Strand) : t.advance.arrived = t.arrived := by rw [advance_eq]
@[simp] theorem advance_fresh (t : Strand) : t.advance.fresh = t.fresh := by rw [advance_eq]
@[simp] theorem advance_word (t : Strand) : t.advance.word = t.word := by rw [advance_eq]
@[simp] theorem done_stat (t : Strand) : t.done.stat = t.stat := by simp [Strand.done]
@[simp] theorem done_uid (t : Strand) : t.done.uid = t.uid := by simp [Strand.done]
@[simp] theorem done_ctx (t : Strand) : t.done.ctx = t.ctx := by simp [Strand.done]
@[simp] theorem done_launch (t : Strand) : t.done.launch = t.launch := by simp [Strand.done]
@[simp] theorem done_ordinal (t : Strand) : t.done.ordinal = t.ordinal := by simp [Strand.done]
@[simp] theorem done_stage (t : Strand) : t.done.stage = t.stage := by simp [Strand.done]
@[simp] theorem done_index (t : Strand) : t.done.index = t.index := by simp [Strand.done]
@[simp] theorem done_tile (t : Strand) : t.done.tile = t.tile := by simp [Strand.done]
@[simp] theorem done_prio (t : Strand) : t.done.prio = t.prio := by simp [Strand.done]
@[simp] theorem done_spawned (t : Strand) : t.done.spawned = t.spawned := by simp [Strand.done]
@[simp] theorem done_x (t : Strand) : t.done.x = t.x := by simp [Strand.done]
@[simp] theorem done_v (t : Strand) : t.done.v = t.v := by simp [Strand.done]
@[simp] theorem done_p (t : Strand) : t.done.p = t.p := by simp [Strand.done]
@[simp] theorem done_d (t : Strand) : t.done.d = t.d := by simp [Strand.done]
@[simp] theorem done_c (t : Strand) : t.done.c = t.c := by simp [Strand.done]
@[simp] theorem done_ed (t : Strand) : t.done.ed = t.ed := by simp [Strand.done]
@[simp] theorem done_fflags (t : Strand) : t.done.fflags = t.fflags := by simp [Strand.done]
@[simp] theorem done_fen (t : Strand) : t.done.fen = t.fen := by simp [Strand.done]
@[simp] theorem done_frm (t : Strand) : t.done.frm = t.frm := by simp [Strand.done]
@[simp] theorem done_lpstart (t : Strand) : t.done.lpstart = t.lpstart := by simp [Strand.done]
@[simp] theorem done_lpend (t : Strand) : t.done.lpend = t.lpend := by simp [Strand.done]
@[simp] theorem done_xwin (t : Strand) : t.done.xwin = t.xwin := by simp [Strand.done]
@[simp] theorem done_ddim (t : Strand) : t.done.ddim = t.ddim := by simp [Strand.done]
@[simp] theorem done_skew (t : Strand) : t.done.skew = t.skew := by simp [Strand.done]
@[simp] theorem done_bvhlo (t : Strand) : t.done.bvhlo = t.bvhlo := by simp [Strand.done]
@[simp] theorem done_bvhhi (t : Strand) : t.done.bvhhi = t.bvhhi := by simp [Strand.done]
@[simp] theorem done_hue (t : Strand) : t.done.hue = t.hue := by simp [Strand.done]
@[simp] theorem done_pwrreq (t : Strand) : t.done.pwrreq = t.pwrreq := by simp [Strand.done]
@[simp] theorem done_stallto (t : Strand) : t.done.stallto = t.stallto := by simp [Strand.done]
@[simp] theorem done_pausemax (t : Strand) : t.done.pausemax = t.pausemax := by simp [Strand.done]
@[simp] theorem done_kprobe (t : Strand) : t.done.kprobe = t.kprobe := by simp [Strand.done]
@[simp] theorem done_gangto (t : Strand) : t.done.gangto = t.gangto := by simp [Strand.done]
@[simp] theorem done_fpxsup (t : Strand) : t.done.fpxsup = t.fpxsup := by simp [Strand.done]
@[simp] theorem done_mode (t : Strand) : t.done.mode = t.mode := by simp [Strand.done]
@[simp] theorem done_pmode (t : Strand) : t.done.pmode = t.pmode := by simp [Strand.done]
@[simp] theorem done_tvec (t : Strand) : t.done.tvec = t.tvec := by simp [Strand.done]
@[simp] theorem done_epc (t : Strand) : t.done.epc = t.epc := by simp [Strand.done]
@[simp] theorem done_cause (t : Strand) : t.done.cause = t.cause := by simp [Strand.done]
@[simp] theorem done_tval (t : Strand) : t.done.tval = t.tval := by simp [Strand.done]
@[simp] theorem done_kscratch (t : Strand) : t.done.kscratch = t.kscratch := by simp [Strand.done]
@[simp] theorem done_elpc (t : Strand) : t.done.elpc = t.elpc := by simp [Strand.done]
@[simp] theorem done_elpstart (t : Strand) : t.done.elpstart = t.elpstart := by simp [Strand.done]
@[simp] theorem done_elpend (t : Strand) : t.done.elpend = t.elpend := by simp [Strand.done]
@[simp] theorem done_buf (t : Strand) : t.done.buf = t.buf := by simp [Strand.done]
@[simp] theorem done_waitNo (t : Strand) : t.done.waitNo = t.waitNo := by simp [Strand.done]
@[simp] theorem done_waitAt (t : Strand) : t.done.waitAt = t.waitAt := by simp [Strand.done]
@[simp] theorem done_eff (t : Strand) : t.done.eff = t.eff := by simp [Strand.done]
@[simp] theorem done_waitCnt (t : Strand) : t.done.waitCnt = t.waitCnt := by simp [Strand.done]
@[simp] theorem done_fetchWait (t : Strand) : t.done.fetchWait = t.fetchWait := by simp [Strand.done]
@[simp] theorem done_pend (t : Strand) : t.done.pend = t.pend := by simp [Strand.done]
@[simp] theorem done_parked (t : Strand) : t.done.parked = t.parked := by simp [Strand.done]
@[simp] theorem done_saving (t : Strand) : t.done.saving = t.saving := by simp [Strand.done]
@[simp] theorem done_pauseMasks (t : Strand) : t.done.pauseMasks = t.pauseMasks := by simp [Strand.done]
@[simp] theorem done_startRel (t : Strand) : t.done.startRel = t.startRel := by simp [Strand.done]
@[simp] theorem done_startAcq (t : Strand) : t.done.startAcq = t.startAcq := by simp [Strand.done]
@[simp] theorem done_arrived (t : Strand) : t.done.arrived = t.arrived := by simp [Strand.done]
@[simp] theorem done_fresh (t : Strand) : t.done.fresh = t.fresh := by simp [Strand.done]
@[simp] theorem done_word (t : Strand) : t.done.word = t.word := by simp [Strand.done]
@[simp] theorem done_instret (t : Strand) : t.done.instret = t.instret + 1 := by simp [Strand.done]
@[simp] theorem done_entry (t : Strand) : t.done.entry = false := by simp [Strand.done]
@[simp] theorem done_preempt (t : Strand) : t.done.preempt = t.preempt.map (· + 1) := by simp [Strand.done]
@[simp] theorem done_wait (t : Strand) : t.done.wait = none := by simp [Strand.done]
@[simp] theorem done_waited (t : Strand) : t.done.waited = 0 := by simp [Strand.done]
@[simp] theorem done_probed (t : Strand) : t.done.probed = 0 := by simp [Strand.done]
@[simp] theorem done_fenMask (t : Strand) : t.done.fenMask = 0 := by simp [Strand.done]
@[simp] theorem done_yielded (t : Strand) : t.done.yielded = false := by simp [Strand.done]
@[simp] theorem done_mid (t : Strand) : t.done.mid = none := by simp [Strand.done]
@[simp] theorem doneTo_stat (t : Strand) (a : Word) : (t.doneTo a).stat = t.stat := rfl
@[simp] theorem doneTo_uid (t : Strand) (a : Word) : (t.doneTo a).uid = t.uid := rfl
@[simp] theorem doneTo_ctx (t : Strand) (a : Word) : (t.doneTo a).ctx = t.ctx := rfl
@[simp] theorem doneTo_launch (t : Strand) (a : Word) : (t.doneTo a).launch = t.launch := rfl
@[simp] theorem doneTo_ordinal (t : Strand) (a : Word) : (t.doneTo a).ordinal = t.ordinal := rfl
@[simp] theorem doneTo_stage (t : Strand) (a : Word) : (t.doneTo a).stage = t.stage := rfl
@[simp] theorem doneTo_index (t : Strand) (a : Word) : (t.doneTo a).index = t.index := rfl
@[simp] theorem doneTo_tile (t : Strand) (a : Word) : (t.doneTo a).tile = t.tile := rfl
@[simp] theorem doneTo_prio (t : Strand) (a : Word) : (t.doneTo a).prio = t.prio := rfl
@[simp] theorem doneTo_spawned (t : Strand) (a : Word) : (t.doneTo a).spawned = t.spawned := rfl
@[simp] theorem doneTo_x (t : Strand) (a : Word) : (t.doneTo a).x = t.x := rfl
@[simp] theorem doneTo_v (t : Strand) (a : Word) : (t.doneTo a).v = t.v := rfl
@[simp] theorem doneTo_p (t : Strand) (a : Word) : (t.doneTo a).p = t.p := rfl
@[simp] theorem doneTo_d (t : Strand) (a : Word) : (t.doneTo a).d = t.d := rfl
@[simp] theorem doneTo_c (t : Strand) (a : Word) : (t.doneTo a).c = t.c := rfl
@[simp] theorem doneTo_ed (t : Strand) (a : Word) : (t.doneTo a).ed = t.ed := rfl
@[simp] theorem doneTo_fflags (t : Strand) (a : Word) : (t.doneTo a).fflags = t.fflags := rfl
@[simp] theorem doneTo_fen (t : Strand) (a : Word) : (t.doneTo a).fen = t.fen := rfl
@[simp] theorem doneTo_frm (t : Strand) (a : Word) : (t.doneTo a).frm = t.frm := rfl
@[simp] theorem doneTo_lpc (t : Strand) (a : Word) : (t.doneTo a).lpc = t.lpc := rfl
@[simp] theorem doneTo_lpstart (t : Strand) (a : Word) : (t.doneTo a).lpstart = t.lpstart := rfl
@[simp] theorem doneTo_lpend (t : Strand) (a : Word) : (t.doneTo a).lpend = t.lpend := rfl
@[simp] theorem doneTo_xwin (t : Strand) (a : Word) : (t.doneTo a).xwin = t.xwin := rfl
@[simp] theorem doneTo_ddim (t : Strand) (a : Word) : (t.doneTo a).ddim = t.ddim := rfl
@[simp] theorem doneTo_skew (t : Strand) (a : Word) : (t.doneTo a).skew = t.skew := rfl
@[simp] theorem doneTo_bvhlo (t : Strand) (a : Word) : (t.doneTo a).bvhlo = t.bvhlo := rfl
@[simp] theorem doneTo_bvhhi (t : Strand) (a : Word) : (t.doneTo a).bvhhi = t.bvhhi := rfl
@[simp] theorem doneTo_hue (t : Strand) (a : Word) : (t.doneTo a).hue = t.hue := rfl
@[simp] theorem doneTo_pwrreq (t : Strand) (a : Word) : (t.doneTo a).pwrreq = t.pwrreq := rfl
@[simp] theorem doneTo_stallto (t : Strand) (a : Word) : (t.doneTo a).stallto = t.stallto := rfl
@[simp] theorem doneTo_pausemax (t : Strand) (a : Word) : (t.doneTo a).pausemax = t.pausemax := rfl
@[simp] theorem doneTo_kprobe (t : Strand) (a : Word) : (t.doneTo a).kprobe = t.kprobe := rfl
@[simp] theorem doneTo_gangto (t : Strand) (a : Word) : (t.doneTo a).gangto = t.gangto := rfl
@[simp] theorem doneTo_fpxsup (t : Strand) (a : Word) : (t.doneTo a).fpxsup = t.fpxsup := rfl
@[simp] theorem doneTo_mode (t : Strand) (a : Word) : (t.doneTo a).mode = t.mode := rfl
@[simp] theorem doneTo_pmode (t : Strand) (a : Word) : (t.doneTo a).pmode = t.pmode := rfl
@[simp] theorem doneTo_tvec (t : Strand) (a : Word) : (t.doneTo a).tvec = t.tvec := rfl
@[simp] theorem doneTo_epc (t : Strand) (a : Word) : (t.doneTo a).epc = t.epc := rfl
@[simp] theorem doneTo_cause (t : Strand) (a : Word) : (t.doneTo a).cause = t.cause := rfl
@[simp] theorem doneTo_tval (t : Strand) (a : Word) : (t.doneTo a).tval = t.tval := rfl
@[simp] theorem doneTo_kscratch (t : Strand) (a : Word) : (t.doneTo a).kscratch = t.kscratch := rfl
@[simp] theorem doneTo_elpc (t : Strand) (a : Word) : (t.doneTo a).elpc = t.elpc := rfl
@[simp] theorem doneTo_elpstart (t : Strand) (a : Word) : (t.doneTo a).elpstart = t.elpstart := rfl
@[simp] theorem doneTo_elpend (t : Strand) (a : Word) : (t.doneTo a).elpend = t.elpend := rfl
@[simp] theorem doneTo_buf (t : Strand) (a : Word) : (t.doneTo a).buf = t.buf := rfl
@[simp] theorem doneTo_waitNo (t : Strand) (a : Word) : (t.doneTo a).waitNo = t.waitNo := rfl
@[simp] theorem doneTo_waitAt (t : Strand) (a : Word) : (t.doneTo a).waitAt = t.waitAt := rfl
@[simp] theorem doneTo_eff (t : Strand) (a : Word) : (t.doneTo a).eff = t.eff := rfl
@[simp] theorem doneTo_waitCnt (t : Strand) (a : Word) : (t.doneTo a).waitCnt = t.waitCnt := rfl
@[simp] theorem doneTo_loopBuf (t : Strand) (a : Word) : (t.doneTo a).loopBuf = t.loopBuf := rfl
@[simp] theorem doneTo_fetchWait (t : Strand) (a : Word) : (t.doneTo a).fetchWait = t.fetchWait := rfl
@[simp] theorem doneTo_pend (t : Strand) (a : Word) : (t.doneTo a).pend = t.pend := rfl
@[simp] theorem doneTo_parked (t : Strand) (a : Word) : (t.doneTo a).parked = t.parked := rfl
@[simp] theorem doneTo_saving (t : Strand) (a : Word) : (t.doneTo a).saving = t.saving := rfl
@[simp] theorem doneTo_pauseMasks (t : Strand) (a : Word) : (t.doneTo a).pauseMasks = t.pauseMasks := rfl
@[simp] theorem doneTo_startRel (t : Strand) (a : Word) : (t.doneTo a).startRel = t.startRel := rfl
@[simp] theorem doneTo_startAcq (t : Strand) (a : Word) : (t.doneTo a).startAcq = t.startAcq := rfl
@[simp] theorem doneTo_arrived (t : Strand) (a : Word) : (t.doneTo a).arrived = t.arrived := rfl
@[simp] theorem doneTo_fresh (t : Strand) (a : Word) : (t.doneTo a).fresh = t.fresh := rfl
@[simp] theorem doneTo_word (t : Strand) (a : Word) : (t.doneTo a).word = t.word := rfl
@[simp] theorem doneTo_pc (t : Strand) (a : Word) : (t.doneTo a).pc = a := rfl

/-! ### Reading back -/

@[simp] theorem strand_setStrand (s : State) (i j : Nat) (t : Strand) :
    (s.setStrand i t).strand j = if j = i then t else s.strand j := by
  simp [State.strand, State.setStrand]

@[simp] theorem core_setCore (s : State) (i j : Nat) (k : Core) :
    (s.setCore i k).core j = if j = i then k else s.core j := by
  simp [State.core, State.setCore]

@[simp] theorem sheaf_setSheaf (s : State) (i j : Nat) (k : Sheaf) :
    (s.setSheaf i k).sheaf j = if j = i then k else s.sheaf j := by
  simp [State.sheaf, State.setSheaf]

@[simp] theorem strand_setCore (s : State) (i j : Nat) (k : Core) : (s.setCore i k).strand j = s.strand j := rfl
@[simp] theorem strand_setSheaf (s : State) (i j : Nat) (k : Sheaf) : (s.setSheaf i k).strand j = s.strand j := rfl
@[simp] theorem core_setStrand (s : State) (i j : Nat) (t : Strand) : (s.setStrand i t).core j = s.core j := rfl
@[simp] theorem core_setSheaf (s : State) (i j : Nat) (k : Sheaf) : (s.setSheaf i k).core j = s.core j := rfl
@[simp] theorem sheaf_setStrand (s : State) (i j : Nat) (t : Strand) : (s.setStrand i t).sheaf j = s.sheaf j := rfl
@[simp] theorem sheaf_setCore (s : State) (i j : Nat) (k : Core) : (s.setCore i k).sheaf j = s.sheaf j := rfl

@[simp] theorem me_setMe (s : State) (t : Strand) : (s.setMe t).me = t := by
  simp [State.me, State.setMe]
@[simp] theorem strand_setMe (s : State) (t : Strand) (j : Nat) :
    (s.setMe t).strand j = if j = s.cur then t else s.strand j := by
  simp [State.setMe]
@[simp] theorem core_setMe (s : State) (t : Strand) (j : Nat) : (s.setMe t).core j = s.core j := rfl
@[simp] theorem sheaf_setMe (s : State) (t : Strand) (j : Nat) : (s.setMe t).sheaf j = s.sheaf j := rfl
@[simp] theorem me_setCore (s : State) (c : Nat) (k : Core) : (s.setCore c k).me = s.me := rfl
@[simp] theorem me_setSheaf (s : State) (h : Nat) (k : Sheaf) : (s.setSheaf h k).me = s.me := rfl
@[simp] theorem setMe_setMe (s : State) (t t' : Strand) : (s.setMe t).setMe t' = s.setMe t' := by
  simp [State.setMe, State.setStrand]

/-! ### Registers: what a write gives, and the registers that are hard-wired (06, R129) -/

@[simp] theorem xr_zero (t : Strand) : t.xr 0#5 = 0#64 := rfl
@[simp] theorem pr_zero (t : Strand) : t.pr 0#3 = 0xFFFF#16 := rfl
@[simp] theorem setX_zero (t : Strand) (w : Word) : t.setX 0#5 w = t := rfl
@[simp] theorem setP_zero (t : Strand) (w : BitVec 16) : t.setP 0#3 w = t := rfl

theorem toNat_inj {n : Nat} {a b : BitVec n} : a.toNat = b.toNat ↔ a = b :=
  ⟨fun h => BitVec.eq_of_toNat_eq h, fun h => h ▸ rfl⟩

@[simp] theorem xr_setX (t : Strand) (r q : XReg) (w : Word) :
    (t.setX r w).xr q = if q = r ∧ r ≠ 0 then w else t.xr q := by
  unfold Strand.setX Strand.xr
  by_cases hr : r = 0
  · simp [hr]
  · by_cases hq : q = 0
    · subst hq
      have h1 : ¬ (0 = r ∧ r ≠ 0) := fun h => hr h.1.symm
      rw [if_neg h1]
      simp
    · simp only [hr, hq, if_false, ne_eq, not_false_eq_true, and_true, Vector.getElem_set]
      by_cases h : q = r
      · simp [h]
      · have : ¬ r.toNat = q.toNat := fun e => h (BitVec.eq_of_toNat_eq e.symm)
        simp [h, this]

@[simp] theorem pr_setP (t : Strand) (r q : PReg) (w : BitVec 16) :
    (t.setP r w).pr q = if q = r ∧ r ≠ 0 then w else t.pr q := by
  unfold Strand.setP Strand.pr
  by_cases hr : r = 0
  · simp [hr]
  · by_cases hq : q = 0
    · subst hq
      have h1 : ¬ (0 = r ∧ r ≠ 0) := fun h => hr h.1.symm
      rw [if_neg h1]
      simp
    · simp only [hr, hq, if_false, ne_eq, not_false_eq_true, and_true, Vector.getElem_set]
      by_cases h : q = r
      · simp [h]
      · have : ¬ r.toNat = q.toNat := fun e => h (BitVec.eq_of_toNat_eq e.symm)
        simp [h, this]

@[simp] theorem vr_setV (t : Strand) (r q : VReg) (w : V128) : (t.setV r w).vr q = if q = r then w else t.vr q := by
  unfold Strand.setV Strand.vr
  rw [Vector.getElem_set]
  by_cases h : q = r
  · simp [h]
  · have : ¬ r.toNat = q.toNat := fun e => h (BitVec.eq_of_toNat_eq e.symm)
    simp [h, this]

@[simp] theorem dr_setD (t : Strand) (r q : DReg) (w : DirReg) : (t.setD r w).dr q = if q = r then w else t.dr q := by
  unfold Strand.setD Strand.dr
  rw [Vector.getElem_set]
  by_cases h : q = r
  · simp [h]
  · have : ¬ r.toNat = q.toNat := fun e => h (BitVec.eq_of_toNat_eq e.symm)
    simp [h, this]

@[simp] theorem cr_setC (t : Strand) (r q : CReg) (w : BitVec 8) : (t.setC r w).cr q = if q = r then w else t.cr q := by
  unfold Strand.setC Strand.cr
  rw [Vector.getElem_set]
  by_cases h : q = r
  · simp [h]
  · have : ¬ r.toNat = q.toNat := fun e => h (BitVec.eq_of_toNat_eq e.symm)
    simp [h, this]

@[simp] theorem edr_setEd (t : Strand) (r q : EReg) (w : Word) : (t.setEd r w).edr q = if q = r then w else t.edr q := by
  unfold Strand.setEd Strand.edr
  rw [Vector.getElem_set]
  by_cases h : q = r
  · simp [h]
  · have : ¬ r.toNat = q.toNat := fun e => h (BitVec.eq_of_toNat_eq e.symm)
    simp [h, this]

/-! ### A register file is read through the others' updates -/

@[simp] theorem xr_setV (t : Strand) (r : VReg) (w : V128) (q : XReg) : (t.setV r w).xr q = t.xr q := rfl
@[simp] theorem xr_setP (t : Strand) (r : PReg) (w : BitVec 16) (q : XReg) : (t.setP r w).xr q = t.xr q := by
  simp [Strand.xr]
@[simp] theorem xr_setD (t : Strand) (r : DReg) (w : DirReg) (q : XReg) : (t.setD r w).xr q = t.xr q := rfl
@[simp] theorem xr_setC (t : Strand) (r : CReg) (w : BitVec 8) (q : XReg) : (t.setC r w).xr q = t.xr q := rfl
@[simp] theorem xr_done (t : Strand) (q : XReg) : t.done.xr q = t.xr q := by simp [Strand.xr]
@[simp] theorem xr_doneTo (t : Strand) (a : Word) (q : XReg) : (t.doneTo a).xr q = t.xr q := rfl
@[simp] theorem vr_setX (t : Strand) (r : XReg) (w : Word) (q : VReg) : (t.setX r w).vr q = t.vr q := by
  simp [Strand.vr]
@[simp] theorem vr_done (t : Strand) (q : VReg) : t.done.vr q = t.vr q := by simp [Strand.vr]
@[simp] theorem pr_done (t : Strand) (q : PReg) : t.done.pr q = t.pr q := by simp [Strand.pr]
@[simp] theorem dr_done (t : Strand) (q : DReg) : t.done.dr q = t.dr q := by simp [Strand.dr]
@[simp] theorem cr_done (t : Strand) (q : CReg) : t.done.cr q = t.cr q := by simp [Strand.cr]
@[simp] theorem edr_done (t : Strand) (q : EReg) : t.done.edr q = t.edr q := by simp [Strand.edr]

end Sys2Proof.Laws
end

