-- ==== Sys2Proof/Laws/Complete.lean ====
section
/-! SUPPORT. How an instruction completes: one lemma for each shared way in which a meaning ends. -/

set_option Elab.async false

namespace Sys2Proof.Laws

open Sys2Proof.Machine

/-- Writing the current strand's slot touches nothing else. -/
theorem onlyMe_setMe (s : State) (t : Strand) : OnlyMe s (s.setMe t) where
  mem _ := rfl
  strand i h := by simp [h]
  core _ := rfl
  sheaf _ := rfl
  rest := rfl

/-- A multiple of 4 has no bits to mask. -/
theorem and_not_three (x : Word) (h : x &&& 3 = 0) : x &&& ~~~3 = x := by
  apply BitVec.eq_of_getLsbD_eq
  intro i hi
  have hb : (x.getLsbD i && (3 : Word).getLsbD i) = false := by
    rw [← BitVec.getLsbD_and, h]
    exact BitVec.getLsbD_zero
  rw [BitVec.getLsbD_and, BitVec.getLsbD_not, decide_eq_true hi, Bool.true_and]
  generalize x.getLsbD i = p at *
  generalize (3 : Word).getLsbD i = q at *
  revert hb
  cases p <;> cases q <;> decide

/-- The loop step of a completion (07, R154). -/
theorem inLine_advance (t : Strand) :
    (t.atBodyEnd ∧ t.lpc = 1 → t.advance.pc = t.lpend ∧ t.advance.lpc = 0) ∧
    (t.atBodyEnd ∧ t.lpc ≠ 1 → (t.lpstart &&& 3 = 0 → t.advance.pc = t.lpstart) ∧ t.advance.lpc = t.lpc - 1) ∧
    (¬ t.atBodyEnd → t.advance.pc = t.pc + 4 ∧ t.advance.lpc = t.lpc) := by
  unfold Strand.advance Strand.atBodyEnd
  refine ⟨?_, ?_, ?_⟩
  · rintro ⟨⟨h1, h2⟩, h3⟩
    have : (t.lpc != 0 && t.pc == t.lpend - 4) = true := by simpa using ⟨h1, h2⟩
    rw [if_pos this, if_pos h3]
    exact ⟨rfl, rfl⟩
  · rintro ⟨⟨h1, h2⟩, h3⟩
    have : (t.lpc != 0 && t.pc == t.lpend - 4) = true := by simpa using ⟨h1, h2⟩
    rw [if_pos this, if_neg h3]
    exact ⟨fun h => and_not_three _ h, rfl⟩
  · intro h
    have : ¬ (t.lpc != 0 && t.pc == t.lpend - 4) = true := by simpa using h
    rw [if_neg this]
    exact ⟨rfl, rfl⟩

/-- `u` has the pc, the loop registers and `instret` of `t`. -/
def SameLine (t u : Strand) : Prop :=
  u.pc = t.pc ∧ u.lpc = t.lpc ∧ u.lpstart = t.lpstart ∧ u.lpend = t.lpend ∧ u.instret = t.instret

theorem inLine_done (t u : Strand) (h : SameLine t u) : Strand.InLine t u.done := by
  obtain ⟨h1, h2, h3, h4, h5⟩ := h
  have ha := inLine_advance u
  unfold Strand.atBodyEnd at ha
  simp only [h1, h2, h3, h4] at ha
  unfold Strand.InLine Strand.atBodyEnd
  refine ⟨?_, ?_, ?_, ?_, ?_, ?_⟩
  · exact fun h => ha.1 h
  · exact fun h => ha.2.1 h
  · exact fun h => ha.2.2 h
  · simp [h5]
  · simp
  · simp

/-- `State.finish` completes in line. -/
theorem finish_completes (s : State) (u : Strand) (P : Strand → Prop) (h : SameLine s.me u) (hP : P u.done) :
    Completes s (s.finish u) P :=
  ⟨s.setMe u.done, rfl, onlyMe_setMe s _, by simpa using inLine_done s.me u h, by simpa using hP⟩

/-- `State.finishTo` goes on at `pc`, with the trips of `u`. -/
theorem finishTo_leaves (s : State) (u : Strand) (pc : Word) (P : Strand → Prop) (h : u.instret = s.me.instret)
    (hP : P (u.doneTo pc)) : LeavesFor s (s.finishTo u pc) pc u.lpc P := by
  refine ⟨s.setMe (u.doneTo pc), rfl, onlyMe_setMe s _, ?_, by simpa using hP⟩
  simp [Strand.GoneTo, Strand.doneTo, h]

theorem finishTo_jumps (s : State) (u : Strand) (pc : Word) (P : Strand → Prop) (h : u.instret = s.me.instret)
    (hl : u.lpc = s.me.lpc) (hP : P (u.doneTo pc)) : JumpsTo s (s.finishTo u pc) pc P := by
  unfold JumpsTo
  rw [← hl]
  exact finishTo_leaves s u pc P h hP

theorem sameLine_refl (t : Strand) : SameLine t t := ⟨rfl, rfl, rfl, rfl, rfl⟩
theorem sameLine_setX (t : Strand) (d : XReg) (w : Word) : SameLine t (t.setX d w) := by simp [SameLine]
theorem sameLine_setV (t : Strand) (d : VReg) (w : V128) : SameLine t (t.setV d w) := by simp [SameLine]
theorem sameLine_setP (t : Strand) (d : PReg) (w : BitVec 16) : SameLine t (t.setP d w) := by simp [SameLine]
theorem sameLine_setD (t : Strand) (d : DReg) (w : DirReg) : SameLine t (t.setD d w) := by simp [SameLine]

/-- A write of x changes x alone. -/
theorem marksOf_setX (t q : Strand) (d : XReg) (w : Word) :
    (t.setX d w).marksOf q = { t.marksOf q with x := (t.setX d w).x } := by
  unfold Strand.setX; split <;> rfl
theorem marksOf_setP (t q : Strand) (d : PReg) (w : BitVec 16) :
    (t.setP d w).marksOf q = { t.marksOf q with p := (t.setP d w).p } := by
  unfold Strand.setP; split <;> rfl

/-- A completed strand differs from what it was in the marks alone. -/
theorem done_eq (u : Strand) : u.done = u.marksOf u.done := by
  unfold Strand.done Strand.marksOf Strand.count
  rw [advance_eq u]

/-- The strand with its x registers written, complete. -/
theorem gotX_done (t : Strand) (d : XReg) (w : Word) : Strand.GotX d w t (t.setX d w).done := by
  refine ⟨?_, fun r hr => by simp [hr], ?_⟩
  · by_cases h : d = 0
    · subst h; rfl
    · rw [xr_done, xr_setX, if_pos ⟨rfl, h⟩, if_neg h]
  · rw [done_x, ← marksOf_setX]
    exact done_eq _

theorem gotV_done (t : Strand) (d : VReg) (w : V128) : Strand.GotV d w t (t.setV d w).done :=
  ⟨by simp, fun r hr => by simp [hr], by rw [done_v]; exact done_eq (t.setV d w)⟩

theorem gotP_done (t : Strand) (d : PReg) (w : BitVec 16) : Strand.GotP d w t (t.setP d w).done := by
  refine ⟨?_, fun r hr => by simp [hr], ?_⟩
  · by_cases h : d = 0
    · subst h; rfl
    · rw [pr_done, pr_setP, if_pos ⟨rfl, h⟩, if_neg h]
  · rw [done_p, ← marksOf_setP]
    exact done_eq _

theorem gotD_done (t : Strand) (d : DReg) (w : DirReg) : Strand.GotD d w t (t.setD d w).done :=
  ⟨by simp, fun r hr => by simp [hr], by rw [done_d]; exact done_eq (t.setD d w)⟩

theorem gotEd_done (t : Strand) (d : EReg) (w : Word) : Strand.GotEd d w t (t.setEd d w).done :=
  ⟨by simp, fun r hr => by simp [hr], by rw [done_ed]; exact done_eq (t.setEd d w)⟩

theorem finish_givesX (s : State) (d : XReg) (w : Word) : GivesX s (s.finish (s.me.setX d w)) d w :=
  finish_completes s _ _ (sameLine_setX ..) (gotX_done ..)
theorem finish_givesV (s : State) (d : VReg) (w : V128) : GivesV s (s.finish (s.me.setV d w)) d w :=
  finish_completes s _ _ (sameLine_setV ..) (gotV_done ..)
theorem finish_givesP (s : State) (d : PReg) (w : BitVec 16) : GivesP s (s.finish (s.me.setP d w)) d w :=
  finish_completes s _ _ (sameLine_setP ..) (gotP_done ..)
theorem finish_givesD (s : State) (d : DReg) (w : DirReg) : GivesD s (s.finish (s.me.setD d w)) d w :=
  finish_completes s _ _ (sameLine_setD ..) (gotD_done ..)
theorem finish_same (s : State) : Completes s (s.finish s.me) (Strand.Same s.me) :=
  finish_completes s _ _ (sameLine_refl _) (done_eq _)

/-! ### Events (07, R164) -/

/-- When its events pass, a form completes with them gathered in `fflags`. -/
theorem fpEnd_pass (s : State) (t : Strand) (e : Events) (h : s.eventsPass e) :
    s.fpEnd t e = s.finish { t with fflags := s.me.fflags ||| e } := by
  unfold State.fpEnd
  exact if_pos h

theorem fpEnd_givesX (s : State) (d : XReg) (w : Word) (e : Events) :
    GivesFpX s (s.fpEnd (s.me.setX d w) e) d w e := by
  intro h
  rw [fpEnd_pass s _ e h]
  refine finish_completes s _ _ (by simp [SameLine]) ?_
  have h1 := gotX_done { s.me with fflags := s.me.fflags ||| e } d w
  have h2 : ({ s.me.setX d w with fflags := s.me.fflags ||| e } : Strand) =
      ({ s.me with fflags := s.me.fflags ||| e } : Strand).setX d w := by
    unfold Strand.setX; split <;> rfl
  rw [h2]
  refine ⟨by simp, h1.1, h1.2.1, ?_⟩
  rw [h1.2.2]
  simp [Strand.marksOf]

/-! ### Elements of v registers (09, R191) -/

theorem packBits_lt (b : Nat) (l : List Nat) : packBits b l < 2 ^ (b * l.length) := by
  induction l with
  | nil => simp [packBits]
  | cons x t ih =>
    have h1 : x % 2 ^ b < 2 ^ b := Nat.mod_lt _ (Nat.pos_of_ne_zero (by simp))
    have h2 : packBits b t + 1 ≤ 2 ^ (b * t.length) := ih
    have h3 : 2 ^ (b * (x :: t).length) = 2 ^ b * 2 ^ (b * t.length) := by
      rw [← Nat.pow_add, List.length_cons, Nat.mul_succ, Nat.add_comm]
    rw [h3]
    calc packBits b (x :: t) = x % 2 ^ b + 2 ^ b * packBits b t := rfl
      _ < 2 ^ b + 2 ^ b * packBits b t := by omega
      _ = 2 ^ b * (packBits b t + 1) := by ring
      _ ≤ 2 ^ b * 2 ^ (b * t.length) := Nat.mul_le_mul_left _ h2

/-- Field `i` of packed values. -/
theorem packBits_field (b : Nat) (l : List Nat) (i : Nat) (h : i < l.length) :
    packBits b l / 2 ^ (b * i) % 2 ^ b = l.getD i 0 % 2 ^ b := by
  induction l generalizing i with
  | nil => simp at h
  | cons x t ih =>
    have hp : 0 < 2 ^ b := Nat.pos_of_ne_zero (by simp)
    cases i with
    | zero =>
      simp only [packBits, Nat.mul_zero, Nat.pow_zero, Nat.div_one, List.getD_cons_zero]
      rw [Nat.add_mul_mod_self_left, Nat.mod_mod]
    | succ i =>
      have h1 : packBits b (x :: t) / 2 ^ (b * (i + 1)) = packBits b t / 2 ^ (b * i) := by
        rw [Nat.mul_succ, Nat.add_comm, Nat.pow_add, ← Nat.div_div_eq_div_mul]
        congr 1
        simp only [packBits]
        rw [Nat.add_mul_div_left _ _ hp, Nat.div_eq_of_lt (Nat.mod_lt _ hp), Nat.zero_add]
      rw [h1, ih i (by simpa using h), List.getD_cons_succ]

theorem elemsOf_length (w : Nat) (v : V128) : (elemsOf w v).length = 16 / w := by simp [elemsOf]

theorem elemsOf_getD (w : Nat) (v : V128) (e : Nat) (h : e < 16 / w) : (elemsOf w v).getD e 0 = vElem w e v := by
  simp [elemsOf, vElem, List.getD_eq_getElem?_getD, h]

/-- Element `e` of a register made of a register's worth of elements. -/
theorem vElem_ofElems (w : Nat) (l : List Nat) (e : Nat) (hw : w * (16 / w) = 16) (hl : l.length = 16 / w)
    (h : e < 16 / w) : vElem w e (ofElems w l) = l.getD e 0 % 2 ^ (8 * w) := by
  unfold vElem ofElems
  have h1 := packBits_lt (8 * w) l
  have h2 : 8 * w * l.length = 128 := by rw [hl, Nat.mul_assoc, hw]
  rw [h2] at h1
  rw [BitVec.toNat_ofNat, Nat.mod_eq_of_lt h1]
  exact packBits_field (8 * w) l e (by omega)

/-! ### The element-wise template (09, R195) -/

theorem foldl_events (n : Nat) (act : Nat → Bool) (ev : Nat → Events) (a : Events) :
    ((List.range n).map fun e => if act e then ev e else 0).foldl (fun x y => x ||| y) a =
      (List.range n).foldl (fun acc e => if act e then acc ||| ev e else acc) a := by
  rw [List.foldl_map]
  congr 1
  funext acc e
  cases act e <;> simp

theorem predicated_events (p : BitVec 16) (w : Nat) (old : List Nat) (op : Nat → Nat × Events) :
    (predicated p w old op).2 = unionEvents old.length (fun e => p.getLsbD (w * e)) fun e => (op e).2 := by
  unfold unionEvents
  rw [← foldl_events]
  simp only [predicated, List.foldl_map, active]
  congr 1
  funext acc e
  split <;> simp_all

theorem predicated_getD (p : BitVec 16) (w : Nat) (old : List Nat) (op : Nat → Nat × Events) (e : Nat)
    (h : e < old.length) :
    (predicated p w old op).1.getD e 0 = if p.getLsbD (w * e) then (op e).1 else old.getD e 0 := by
  unfold predicated active
  simp only [List.map_map, List.getD_eq_getElem?_getD, List.getElem?_map, List.getElem?_range h, Option.map_some,
    Function.comp, Option.getD_some]
  split <;> rfl

/-- The template of R195 gives its elements. -/
theorem vWise_gives (s : State) (d : VReg) (p : PReg) (w : Nat) (op : Nat → Nat × Events) (hw : w * (16 / w) = 16) :
    GivesElems s (s.vWise d p w op) d p w op := by
  unfold GivesElems
  intro act ev h
  have hlen : (elemsOf w (s.me.vr d)).length = 16 / w := elemsOf_length _ _
  have hev : (predicated (s.me.pr p) w (elemsOf w (s.me.vr d)) op).2 = ev := by
    rw [predicated_events, hlen]
  have hw1 : s.vWise d p w op = s.fpEnd (s.me.setV d (ofElems w (predicated (s.me.pr p) w (elemsOf w (s.me.vr d)) op).1))
      (predicated (s.me.pr p) w (elemsOf w (s.me.vr d)) op).2 := rfl
  rw [hw1, hev, fpEnd_pass s _ ev h]
  refine finish_completes s _ _ (by simp [SameLine]) ⟨?_, by simp, ?_, ?_⟩
  · intro e he
    have h1 : (({ s.me.setV d (ofElems w (predicated (s.me.pr p) w (elemsOf w (s.me.vr d)) op).1) with
        fflags := s.me.fflags ||| ev } : Strand).done).vr d =
        ofElems w (predicated (s.me.pr p) w (elemsOf w (s.me.vr d)) op).1 := by
      have := vr_setV s.me d d (ofElems w (predicated (s.me.pr p) w (elemsOf w (s.me.vr d)) op).1)
      rw [if_pos rfl] at this
      rw [vr_done]
      exact this
    rw [h1, vElem_ofElems w _ e hw (by simp [predicated, hlen]) he, predicated_getD _ _ _ _ _ (by omega)]
    split
    · rfl
    · rw [elemsOf_getD w _ e he]
      exact Nat.mod_eq_of_lt (Nat.mod_lt _ (Nat.pos_of_ne_zero (by simp)))
  · intro r hr
    have := vr_setV s.me d r (ofElems w (predicated (s.me.pr p) w (elemsOf w (s.me.vr d)) op).1)
    rw [if_neg hr] at this
    rw [vr_done]
    exact this
  · rw [done_v, done_fflags]
    exact done_eq _

/-! ### Look-ups of the ownership map (04, R82; 11, R252) -/

/-- What a look-up of the owners does: nothing where every entry can be read, and one word met where one cannot. -/
theorem mapMeets_cases (s : State) (ramp : Bool) :
    ((∀ w ∈ s.mapWaits ramp, s.mapBad w.1 = none) ∧ s.mapMeets ramp = s) ∨
    ((∃ w ∈ s.mapWaits ramp, s.mapBad w.1 ≠ none) ∧ ∃ e, s.mapMeets ramp = { s with met := s.met ++ [e] }) := by
  unfold State.mapMeets
  split
  · next w h =>
    obtain ⟨a, ha, hb⟩ := List.exists_of_findSome?_eq_some h
    refine .inr ⟨⟨a, ha, ?_⟩, _, rfl⟩
    intro hn
    rw [hn] at hb
    cases hb
  · next h =>
    rw [List.findSome?_eq_none_iff] at h
    exact .inl ⟨fun w hw => Option.map_eq_none_iff.mp (h w hw), rfl⟩

/-- A step that looks the owners up goes on where every entry can be read. -/
theorem withMap_reads (s : State) (k : Out) (h : ∀ w ∈ s.mapWaits false, s.mapBad w.1 = none) : s.withMap k = k := by
  unfold State.withMap
  obtain ⟨-, e⟩ | ⟨⟨w, hw, hn⟩, -⟩ := mapMeets_cases s false
  · rw [e]
    exact if_pos rfl
  · exact absurd (h w hw) hn

/-- It meets the word, and does nothing else, where one cannot. -/
theorem withMap_meets (s : State) (k : Out) (h : ¬ ∀ w ∈ s.mapWaits false, s.mapBad w.1 = none) :
    ∃ e, s.withMap k = .next { s with met := s.met ++ [e] } := by
  unfold State.withMap
  obtain ⟨hr, -⟩ | ⟨-, e, he⟩ := mapMeets_cases s false
  · exact absurd hr h
  · refine ⟨e, ?_⟩
    rw [he]
    exact if_neg (by simp)

end Sys2Proof.Laws
end

