-- ==== Sys2Proof/Laws/Encoding.lean ====
section
/-! SUPPORT. The fields of a packed word, and a word from its fields (06, R127). -/

set_option Elab.async false

namespace Sys2Proof.Laws

theorem extract_hi {a b : Nat} (x : BitVec a) (y : BitVec b) (s l : Nat) :
    (x ++ y).extractLsb' (b + s) l = x.extractLsb' s l := by
  apply BitVec.eq_of_getLsbD_eq
  intro i hi
  have h : ¬ b + s + i < b := by omega
  have h' : b + s + i - b = s + i := by omega
  simp only [BitVec.getLsbD_extractLsb', BitVec.getLsbD_append, h, if_false, h']

theorem extract_lo {a b : Nat} (x : BitVec a) (y : BitVec b) (s l : Nat) (h : s + l ≤ b) :
    (x ++ y).extractLsb' s l = y.extractLsb' s l := by
  apply BitVec.eq_of_getLsbD_eq
  intro i hi
  have h' : s + i < b := by omega
  simp only [BitVec.getLsbD_extractLsb', BitVec.getLsbD_append, h', if_true]

theorem extract_all {a : Nat} (x : BitVec a) : x.extractLsb' 0 a = x := by
  apply BitVec.eq_of_getLsbD_eq
  intro i hi
  simp [hi]

/-- Two neighbouring fields of a word are its field. -/
theorem extract_join {n : Nat} (w : BitVec n) (s a b : Nat) :
    w.extractLsb' (s + b) a ++ w.extractLsb' s b = w.extractLsb' s (a + b) := by
  apply BitVec.eq_of_getLsbD_eq
  intro i hi
  simp only [BitVec.getLsbD_append, BitVec.getLsbD_extractLsb']
  by_cases h : i < b
  · simp [h, show i < a + b by omega]
  · simp [h, show i - b < a by omega, show i < a + b by omega, show s + b + (i - b) = s + i by omega]

@[simp] theorem fMajor_packR (m : BitVec 6) (d : BitVec 5) (a : BitVec 5) (b : BitVec 5) (c : BitVec 5) (f : BitVec 6) :
    fMajor (packR m d a b c f) = m :=
  (extract_hi _ f 20 6).trans ((extract_hi _ c 15 6).trans ((extract_hi _ b 10 6).trans ((extract_hi _ a 5 6).trans ((extract_hi _ d 0 6).trans (extract_all m)))))
@[simp] theorem fD_packR (m : BitVec 6) (d : BitVec 5) (a : BitVec 5) (b : BitVec 5) (c : BitVec 5) (f : BitVec 6) :
    fD (packR m d a b c f) = d :=
  (extract_hi _ f 15 5).trans ((extract_hi _ c 10 5).trans ((extract_hi _ b 5 5).trans ((extract_hi _ a 0 5).trans ((extract_lo _ d 0 5 (by decide)).trans (extract_all d)))))
@[simp] theorem fA_packR (m : BitVec 6) (d : BitVec 5) (a : BitVec 5) (b : BitVec 5) (c : BitVec 5) (f : BitVec 6) :
    fA (packR m d a b c f) = a :=
  (extract_hi _ f 10 5).trans ((extract_hi _ c 5 5).trans ((extract_hi _ b 0 5).trans ((extract_lo _ a 0 5 (by decide)).trans (extract_all a))))
@[simp] theorem fB_packR (m : BitVec 6) (d : BitVec 5) (a : BitVec 5) (b : BitVec 5) (c : BitVec 5) (f : BitVec 6) :
    fB (packR m d a b c f) = b :=
  (extract_hi _ f 5 5).trans ((extract_hi _ c 0 5).trans ((extract_lo _ b 0 5 (by decide)).trans (extract_all b)))
@[simp] theorem fC_packR (m : BitVec 6) (d : BitVec 5) (a : BitVec 5) (b : BitVec 5) (c : BitVec 5) (f : BitVec 6) :
    fC (packR m d a b c f) = c :=
  (extract_hi _ f 0 5).trans ((extract_lo _ c 0 5 (by decide)).trans (extract_all c))
@[simp] theorem fF_packR (m : BitVec 6) (d : BitVec 5) (a : BitVec 5) (b : BitVec 5) (c : BitVec 5) (f : BitVec 6) :
    fF (packR m d a b c f) = f :=
  (extract_lo _ f 0 6 (by decide)).trans (extract_all f)
@[simp] theorem fW_packR (m : BitVec 6) (d : BitVec 5) (a : BitVec 5) (b : BitVec 5) (c : BitVec 5) (f : BitVec 6) :
    fW (packR m d a b c f) = b.extractLsb' 2 3 :=
  (extract_hi _ f 7 3).trans ((extract_hi _ c 2 3).trans (extract_lo _ b 2 3 (by decide)))
@[simp] theorem fPI_packR (m : BitVec 6) (d : BitVec 5) (a : BitVec 5) (b : BitVec 5) (c : BitVec 5) (f : BitVec 6) :
    fPI (packR m d a b c f) = b.extractLsb' 1 1 :=
  (extract_hi _ f 6 1).trans ((extract_hi _ c 1 1).trans (extract_lo _ b 1 1 (by decide)))
@[simp] theorem fP_packR (m : BitVec 6) (d : BitVec 5) (a : BitVec 5) (b : BitVec 5) (c : BitVec 5) (f : BitVec 6) :
    fP (packR m d a b c f) = c.extractLsb' 2 3 :=
  (extract_hi _ f 2 3).trans (extract_lo _ c 2 3 (by decide))
@[simp] theorem fF5_packR (m : BitVec 6) (d : BitVec 5) (a : BitVec 5) (b : BitVec 5) (c : BitVec 5) (f : BitVec 6) :
    fF5 (packR m d a b c f) = f.extractLsb' 0 5 :=
  (extract_lo _ f 0 5 (by decide))
@[simp] theorem fZ_packR (m : BitVec 6) (d : BitVec 5) (a : BitVec 5) (b : BitVec 5) (c : BitVec 5) (f : BitVec 6) :
    fZ (packR m d a b c f) = c.extractLsb' 0 2 :=
  (extract_hi _ f 0 2).trans (extract_lo _ c 0 2 (by decide))

@[simp] theorem fMajor_packI (m : BitVec 6) (d : BitVec 5) (a : BitVec 5) (i : BitVec 16) :
    fMajor (packI m d a i) = m :=
  (extract_hi _ i 10 6).trans ((extract_hi _ a 5 6).trans ((extract_hi _ d 0 6).trans (extract_all m)))
@[simp] theorem fD_packI (m : BitVec 6) (d : BitVec 5) (a : BitVec 5) (i : BitVec 16) :
    fD (packI m d a i) = d :=
  (extract_hi _ i 5 5).trans ((extract_hi _ a 0 5).trans ((extract_lo _ d 0 5 (by decide)).trans (extract_all d)))
@[simp] theorem fA_packI (m : BitVec 6) (d : BitVec 5) (a : BitVec 5) (i : BitVec 16) :
    fA (packI m d a i) = a :=
  (extract_hi _ i 0 5).trans ((extract_lo _ a 0 5 (by decide)).trans (extract_all a))
@[simp] theorem fB_packI (m : BitVec 6) (d : BitVec 5) (a : BitVec 5) (i : BitVec 16) :
    fB (packI m d a i) = i.extractLsb' 11 5 :=
  (extract_lo _ i 11 5 (by decide))
@[simp] theorem fC_packI (m : BitVec 6) (d : BitVec 5) (a : BitVec 5) (i : BitVec 16) :
    fC (packI m d a i) = i.extractLsb' 6 5 :=
  (extract_lo _ i 6 5 (by decide))
@[simp] theorem fF_packI (m : BitVec 6) (d : BitVec 5) (a : BitVec 5) (i : BitVec 16) :
    fF (packI m d a i) = i.extractLsb' 0 6 :=
  (extract_lo _ i 0 6 (by decide))
@[simp] theorem fI_packI (m : BitVec 6) (d : BitVec 5) (a : BitVec 5) (i : BitVec 16) :
    fI (packI m d a i) = i :=
  (extract_lo _ i 0 16 (by decide)).trans (extract_all i)
@[simp] theorem fW_packI (m : BitVec 6) (d : BitVec 5) (a : BitVec 5) (i : BitVec 16) :
    fW (packI m d a i) = i.extractLsb' 13 3 :=
  (extract_lo _ i 13 3 (by decide))
@[simp] theorem fPI_packI (m : BitVec 6) (d : BitVec 5) (a : BitVec 5) (i : BitVec 16) :
    fPI (packI m d a i) = i.extractLsb' 12 1 :=
  (extract_lo _ i 12 1 (by decide))
@[simp] theorem fI12_packI (m : BitVec 6) (d : BitVec 5) (a : BitVec 5) (i : BitVec 16) :
    fI12 (packI m d a i) = i.extractLsb' 0 12 :=
  (extract_lo _ i 0 12 (by decide))
@[simp] theorem fP_packI (m : BitVec 6) (d : BitVec 5) (a : BitVec 5) (i : BitVec 16) :
    fP (packI m d a i) = i.extractLsb' 8 3 :=
  (extract_lo _ i 8 3 (by decide))
@[simp] theorem fT_packI (m : BitVec 6) (d : BitVec 5) (a : BitVec 5) (i : BitVec 16) :
    fT (packI m d a i) = i.extractLsb' 5 3 :=
  (extract_lo _ i 5 3 (by decide))
@[simp] theorem fF5_packI (m : BitVec 6) (d : BitVec 5) (a : BitVec 5) (i : BitVec 16) :
    fF5 (packI m d a i) = i.extractLsb' 0 5 :=
  (extract_lo _ i 0 5 (by decide))
@[simp] theorem fZ_packI (m : BitVec 6) (d : BitVec 5) (a : BitVec 5) (i : BitVec 16) :
    fZ (packI m d a i) = i.extractLsb' 6 2 :=
  (extract_lo _ i 6 2 (by decide))

@[simp] theorem fMajor_packJ (m : BitVec 6) (o : BitVec 26) :
    fMajor (packJ m o) = m :=
  (extract_hi _ o 0 6).trans (extract_all m)
@[simp] theorem fD_packJ (m : BitVec 6) (o : BitVec 26) :
    fD (packJ m o) = o.extractLsb' 21 5 :=
  (extract_lo _ o 21 5 (by decide))
@[simp] theorem fA_packJ (m : BitVec 6) (o : BitVec 26) :
    fA (packJ m o) = o.extractLsb' 16 5 :=
  (extract_lo _ o 16 5 (by decide))
@[simp] theorem fB_packJ (m : BitVec 6) (o : BitVec 26) :
    fB (packJ m o) = o.extractLsb' 11 5 :=
  (extract_lo _ o 11 5 (by decide))
@[simp] theorem fC_packJ (m : BitVec 6) (o : BitVec 26) :
    fC (packJ m o) = o.extractLsb' 6 5 :=
  (extract_lo _ o 6 5 (by decide))
@[simp] theorem fF_packJ (m : BitVec 6) (o : BitVec 26) :
    fF (packJ m o) = o.extractLsb' 0 6 :=
  (extract_lo _ o 0 6 (by decide))
@[simp] theorem fI_packJ (m : BitVec 6) (o : BitVec 26) :
    fI (packJ m o) = o.extractLsb' 0 16 :=
  (extract_lo _ o 0 16 (by decide))
@[simp] theorem fO_packJ (m : BitVec 6) (o : BitVec 26) :
    fO (packJ m o) = o :=
  (extract_lo _ o 0 26 (by decide)).trans (extract_all o)
@[simp] theorem fW_packJ (m : BitVec 6) (o : BitVec 26) :
    fW (packJ m o) = o.extractLsb' 13 3 :=
  (extract_lo _ o 13 3 (by decide))
@[simp] theorem fPI_packJ (m : BitVec 6) (o : BitVec 26) :
    fPI (packJ m o) = o.extractLsb' 12 1 :=
  (extract_lo _ o 12 1 (by decide))
@[simp] theorem fI12_packJ (m : BitVec 6) (o : BitVec 26) :
    fI12 (packJ m o) = o.extractLsb' 0 12 :=
  (extract_lo _ o 0 12 (by decide))
@[simp] theorem fP_packJ (m : BitVec 6) (o : BitVec 26) :
    fP (packJ m o) = o.extractLsb' 8 3 :=
  (extract_lo _ o 8 3 (by decide))
@[simp] theorem fT_packJ (m : BitVec 6) (o : BitVec 26) :
    fT (packJ m o) = o.extractLsb' 5 3 :=
  (extract_lo _ o 5 3 (by decide))
@[simp] theorem fF5_packJ (m : BitVec 6) (o : BitVec 26) :
    fF5 (packJ m o) = o.extractLsb' 0 5 :=
  (extract_lo _ o 0 5 (by decide))
@[simp] theorem fZ_packJ (m : BitVec 6) (o : BitVec 26) :
    fZ (packJ m o) = o.extractLsb' 6 2 :=
  (extract_lo _ o 6 2 (by decide))

@[simp] theorem fMajor_packM (m : BitVec 6) (d : BitVec 5) (a : BitVec 5) (w : BitVec 3) (pi : BitVec 1) (o : BitVec 12) :
    fMajor (packM m d a w pi o) = m :=
  (extract_hi _ o 14 6).trans ((extract_hi _ pi 13 6).trans ((extract_hi _ w 10 6).trans ((extract_hi _ a 5 6).trans ((extract_hi _ d 0 6).trans (extract_all m)))))
@[simp] theorem fD_packM (m : BitVec 6) (d : BitVec 5) (a : BitVec 5) (w : BitVec 3) (pi : BitVec 1) (o : BitVec 12) :
    fD (packM m d a w pi o) = d :=
  (extract_hi _ o 9 5).trans ((extract_hi _ pi 8 5).trans ((extract_hi _ w 5 5).trans ((extract_hi _ a 0 5).trans ((extract_lo _ d 0 5 (by decide)).trans (extract_all d)))))
@[simp] theorem fA_packM (m : BitVec 6) (d : BitVec 5) (a : BitVec 5) (w : BitVec 3) (pi : BitVec 1) (o : BitVec 12) :
    fA (packM m d a w pi o) = a :=
  (extract_hi _ o 4 5).trans ((extract_hi _ pi 3 5).trans ((extract_hi _ w 0 5).trans ((extract_lo _ a 0 5 (by decide)).trans (extract_all a))))
@[simp] theorem fC_packM (m : BitVec 6) (d : BitVec 5) (a : BitVec 5) (w : BitVec 3) (pi : BitVec 1) (o : BitVec 12) :
    fC (packM m d a w pi o) = o.extractLsb' 6 5 :=
  (extract_lo _ o 6 5 (by decide))
@[simp] theorem fF_packM (m : BitVec 6) (d : BitVec 5) (a : BitVec 5) (w : BitVec 3) (pi : BitVec 1) (o : BitVec 12) :
    fF (packM m d a w pi o) = o.extractLsb' 0 6 :=
  (extract_lo _ o 0 6 (by decide))
@[simp] theorem fW_packM (m : BitVec 6) (d : BitVec 5) (a : BitVec 5) (w : BitVec 3) (pi : BitVec 1) (o : BitVec 12) :
    fW (packM m d a w pi o) = w :=
  (extract_hi _ o 1 3).trans ((extract_hi _ pi 0 3).trans ((extract_lo _ w 0 3 (by decide)).trans (extract_all w)))
@[simp] theorem fPI_packM (m : BitVec 6) (d : BitVec 5) (a : BitVec 5) (w : BitVec 3) (pi : BitVec 1) (o : BitVec 12) :
    fPI (packM m d a w pi o) = pi :=
  (extract_hi _ o 0 1).trans ((extract_lo _ pi 0 1 (by decide)).trans (extract_all pi))
@[simp] theorem fI12_packM (m : BitVec 6) (d : BitVec 5) (a : BitVec 5) (w : BitVec 3) (pi : BitVec 1) (o : BitVec 12) :
    fI12 (packM m d a w pi o) = o :=
  (extract_lo _ o 0 12 (by decide)).trans (extract_all o)
@[simp] theorem fP_packM (m : BitVec 6) (d : BitVec 5) (a : BitVec 5) (w : BitVec 3) (pi : BitVec 1) (o : BitVec 12) :
    fP (packM m d a w pi o) = o.extractLsb' 8 3 :=
  (extract_lo _ o 8 3 (by decide))
@[simp] theorem fT_packM (m : BitVec 6) (d : BitVec 5) (a : BitVec 5) (w : BitVec 3) (pi : BitVec 1) (o : BitVec 12) :
    fT (packM m d a w pi o) = o.extractLsb' 5 3 :=
  (extract_lo _ o 5 3 (by decide))
@[simp] theorem fF5_packM (m : BitVec 6) (d : BitVec 5) (a : BitVec 5) (w : BitVec 3) (pi : BitVec 1) (o : BitVec 12) :
    fF5 (packM m d a w pi o) = o.extractLsb' 0 5 :=
  (extract_lo _ o 0 5 (by decide))
@[simp] theorem fZ_packM (m : BitVec 6) (d : BitVec 5) (a : BitVec 5) (w : BitVec 3) (pi : BitVec 1) (o : BitVec 12) :
    fZ (packM m d a w pi o) = o.extractLsb' 6 2 :=
  (extract_lo _ o 6 2 (by decide))

@[simp] theorem fMajor_packV (m : BitVec 6) (d : BitVec 5) (a : BitVec 5) (b : BitVec 5) (p : BitVec 3) (t : BitVec 3) (f : BitVec 5) :
    fMajor (packV m d a b p t f) = m :=
  (extract_hi _ f 21 6).trans ((extract_hi _ t 18 6).trans ((extract_hi _ p 15 6).trans ((extract_hi _ b 10 6).trans ((extract_hi _ a 5 6).trans ((extract_hi _ d 0 6).trans (extract_all m))))))
@[simp] theorem fD_packV (m : BitVec 6) (d : BitVec 5) (a : BitVec 5) (b : BitVec 5) (p : BitVec 3) (t : BitVec 3) (f : BitVec 5) :
    fD (packV m d a b p t f) = d :=
  (extract_hi _ f 16 5).trans ((extract_hi _ t 13 5).trans ((extract_hi _ p 10 5).trans ((extract_hi _ b 5 5).trans ((extract_hi _ a 0 5).trans ((extract_lo _ d 0 5 (by decide)).trans (extract_all d))))))
@[simp] theorem fA_packV (m : BitVec 6) (d : BitVec 5) (a : BitVec 5) (b : BitVec 5) (p : BitVec 3) (t : BitVec 3) (f : BitVec 5) :
    fA (packV m d a b p t f) = a :=
  (extract_hi _ f 11 5).trans ((extract_hi _ t 8 5).trans ((extract_hi _ p 5 5).trans ((extract_hi _ b 0 5).trans ((extract_lo _ a 0 5 (by decide)).trans (extract_all a)))))
@[simp] theorem fB_packV (m : BitVec 6) (d : BitVec 5) (a : BitVec 5) (b : BitVec 5) (p : BitVec 3) (t : BitVec 3) (f : BitVec 5) :
    fB (packV m d a b p t f) = b :=
  (extract_hi _ f 6 5).trans ((extract_hi _ t 3 5).trans ((extract_hi _ p 0 5).trans ((extract_lo _ b 0 5 (by decide)).trans (extract_all b))))
@[simp] theorem fW_packV (m : BitVec 6) (d : BitVec 5) (a : BitVec 5) (b : BitVec 5) (p : BitVec 3) (t : BitVec 3) (f : BitVec 5) :
    fW (packV m d a b p t f) = b.extractLsb' 2 3 :=
  (extract_hi _ f 8 3).trans ((extract_hi _ t 5 3).trans ((extract_hi _ p 2 3).trans (extract_lo _ b 2 3 (by decide))))
@[simp] theorem fPI_packV (m : BitVec 6) (d : BitVec 5) (a : BitVec 5) (b : BitVec 5) (p : BitVec 3) (t : BitVec 3) (f : BitVec 5) :
    fPI (packV m d a b p t f) = b.extractLsb' 1 1 :=
  (extract_hi _ f 7 1).trans ((extract_hi _ t 4 1).trans ((extract_hi _ p 1 1).trans (extract_lo _ b 1 1 (by decide))))
@[simp] theorem fP_packV (m : BitVec 6) (d : BitVec 5) (a : BitVec 5) (b : BitVec 5) (p : BitVec 3) (t : BitVec 3) (f : BitVec 5) :
    fP (packV m d a b p t f) = p :=
  (extract_hi _ f 3 3).trans ((extract_hi _ t 0 3).trans ((extract_lo _ p 0 3 (by decide)).trans (extract_all p)))
@[simp] theorem fT_packV (m : BitVec 6) (d : BitVec 5) (a : BitVec 5) (b : BitVec 5) (p : BitVec 3) (t : BitVec 3) (f : BitVec 5) :
    fT (packV m d a b p t f) = t :=
  (extract_hi _ f 0 3).trans ((extract_lo _ t 0 3 (by decide)).trans (extract_all t))
@[simp] theorem fF5_packV (m : BitVec 6) (d : BitVec 5) (a : BitVec 5) (b : BitVec 5) (p : BitVec 3) (t : BitVec 3) (f : BitVec 5) :
    fF5 (packV m d a b p t f) = f :=
  (extract_lo _ f 0 5 (by decide)).trans (extract_all f)
@[simp] theorem fZ_packV (m : BitVec 6) (d : BitVec 5) (a : BitVec 5) (b : BitVec 5) (p : BitVec 3) (t : BitVec 3) (f : BitVec 5) :
    fZ (packV m d a b p t f) = t.extractLsb' 1 2 :=
  (extract_hi _ f 1 2).trans (extract_lo _ t 1 2 (by decide))

@[simp] theorem fMajor_packE (m : BitVec 6) (d : BitVec 5) (a : BitVec 5) (b : BitVec 5) (c : BitVec 3) (z : BitVec 2) (f : BitVec 6) :
    fMajor (packE m d a b c z f) = m :=
  (extract_hi _ f 20 6).trans ((extract_hi _ z 18 6).trans ((extract_hi _ c 15 6).trans ((extract_hi _ b 10 6).trans ((extract_hi _ a 5 6).trans ((extract_hi _ d 0 6).trans (extract_all m))))))
@[simp] theorem fD_packE (m : BitVec 6) (d : BitVec 5) (a : BitVec 5) (b : BitVec 5) (c : BitVec 3) (z : BitVec 2) (f : BitVec 6) :
    fD (packE m d a b c z f) = d :=
  (extract_hi _ f 15 5).trans ((extract_hi _ z 13 5).trans ((extract_hi _ c 10 5).trans ((extract_hi _ b 5 5).trans ((extract_hi _ a 0 5).trans ((extract_lo _ d 0 5 (by decide)).trans (extract_all d))))))
@[simp] theorem fA_packE (m : BitVec 6) (d : BitVec 5) (a : BitVec 5) (b : BitVec 5) (c : BitVec 3) (z : BitVec 2) (f : BitVec 6) :
    fA (packE m d a b c z f) = a :=
  (extract_hi _ f 10 5).trans ((extract_hi _ z 8 5).trans ((extract_hi _ c 5 5).trans ((extract_hi _ b 0 5).trans ((extract_lo _ a 0 5 (by decide)).trans (extract_all a)))))
@[simp] theorem fB_packE (m : BitVec 6) (d : BitVec 5) (a : BitVec 5) (b : BitVec 5) (c : BitVec 3) (z : BitVec 2) (f : BitVec 6) :
    fB (packE m d a b c z f) = b :=
  (extract_hi _ f 5 5).trans ((extract_hi _ z 3 5).trans ((extract_hi _ c 0 5).trans ((extract_lo _ b 0 5 (by decide)).trans (extract_all b))))
@[simp] theorem fF_packE (m : BitVec 6) (d : BitVec 5) (a : BitVec 5) (b : BitVec 5) (c : BitVec 3) (z : BitVec 2) (f : BitVec 6) :
    fF (packE m d a b c z f) = f :=
  (extract_lo _ f 0 6 (by decide)).trans (extract_all f)
@[simp] theorem fW_packE (m : BitVec 6) (d : BitVec 5) (a : BitVec 5) (b : BitVec 5) (c : BitVec 3) (z : BitVec 2) (f : BitVec 6) :
    fW (packE m d a b c z f) = b.extractLsb' 2 3 :=
  (extract_hi _ f 7 3).trans ((extract_hi _ z 5 3).trans ((extract_hi _ c 2 3).trans (extract_lo _ b 2 3 (by decide))))
@[simp] theorem fPI_packE (m : BitVec 6) (d : BitVec 5) (a : BitVec 5) (b : BitVec 5) (c : BitVec 3) (z : BitVec 2) (f : BitVec 6) :
    fPI (packE m d a b c z f) = b.extractLsb' 1 1 :=
  (extract_hi _ f 6 1).trans ((extract_hi _ z 4 1).trans ((extract_hi _ c 1 1).trans (extract_lo _ b 1 1 (by decide))))
@[simp] theorem fP_packE (m : BitVec 6) (d : BitVec 5) (a : BitVec 5) (b : BitVec 5) (c : BitVec 3) (z : BitVec 2) (f : BitVec 6) :
    fP (packE m d a b c z f) = c :=
  (extract_hi _ f 2 3).trans ((extract_hi _ z 0 3).trans ((extract_lo _ c 0 3 (by decide)).trans (extract_all c)))
@[simp] theorem fF5_packE (m : BitVec 6) (d : BitVec 5) (a : BitVec 5) (b : BitVec 5) (c : BitVec 3) (z : BitVec 2) (f : BitVec 6) :
    fF5 (packE m d a b c z f) = f.extractLsb' 0 5 :=
  (extract_lo _ f 0 5 (by decide))
@[simp] theorem fZ_packE (m : BitVec 6) (d : BitVec 5) (a : BitVec 5) (b : BitVec 5) (c : BitVec 3) (z : BitVec 2) (f : BitVec 6) :
    fZ (packE m d a b c z f) = z :=
  (extract_hi _ f 0 2).trans ((extract_lo _ z 0 2 (by decide)).trans (extract_all z))

end Sys2Proof.Laws
end

