-- ==== Sys2Proof/Laws/PerInstr.lean ====
section
/-! SUPPORT. Encoding and decoding agree, one lemma per constructor (06, R127-R134). -/

set_option Elab.async false

namespace Sys2Proof.Laws

theorem decodeWord_of {w : BitVec 32} {i : Instr} (h : decodeFields w = .ok i) (h' : i.wellFormed = true) :
    decodeWord w = .ok i := by
  unfold decodeWord
  rw [h]
  exact if_pos h'

theorem decodeFields_00 {w : BitVec 32} (h : fMajor w = 0x00#6) : decodeFields w = dec00 w := by
  unfold decodeFields
  rw [h]
  rfl
theorem decodeFields_01 {w : BitVec 32} (h : fMajor w = 0x01#6) : decodeFields w = dec01 w := by
  unfold decodeFields
  rw [h]
  rfl
theorem decodeFields_02 {w : BitVec 32} (h : fMajor w = 0x02#6) : decodeFields w = dec02 w := by
  unfold decodeFields
  rw [h]
  rfl
theorem decodeFields_03 {w : BitVec 32} (h : fMajor w = 0x03#6) : decodeFields w = dec03 w := by
  unfold decodeFields
  rw [h]
  rfl
theorem decodeFields_04 {w : BitVec 32} (h : fMajor w = 0x04#6) : decodeFields w = dec04 w := by
  unfold decodeFields
  rw [h]
  rfl
theorem decodeFields_07 {w : BitVec 32} (h : fMajor w = 0x07#6) : decodeFields w = dec07 w := by
  unfold decodeFields
  rw [h]
  rfl
theorem decodeFields_08 {w : BitVec 32} (h : fMajor w = 0x08#6) : decodeFields w = dec08 w := by
  unfold decodeFields
  rw [h]
  rfl
theorem decodeFields_09 {w : BitVec 32} (h : fMajor w = 0x09#6) : decodeFields w = dec09 w := by
  unfold decodeFields
  rw [h]
  rfl
theorem decodeFields_0a {w : BitVec 32} (h : fMajor w = 0x0a#6) : decodeFields w = dec0A w := by
  unfold decodeFields
  rw [h]
  rfl
theorem decodeFields_0b {w : BitVec 32} (h : fMajor w = 0x0b#6) : decodeFields w = dec0B w := by
  unfold decodeFields
  rw [h]
  rfl
theorem decodeFields_0c {w : BitVec 32} (h : fMajor w = 0x0c#6) : decodeFields w = dec0C w := by
  unfold decodeFields
  rw [h]
  rfl
theorem decodeFields_0d {w : BitVec 32} (h : fMajor w = 0x0d#6) : decodeFields w = dec0D w := by
  unfold decodeFields
  rw [h]
  rfl
theorem decodeFields_0e {w : BitVec 32} (h : fMajor w = 0x0e#6) : decodeFields w = dec0E w := by
  unfold decodeFields
  rw [h]
  rfl
theorem decodeFields_0f {w : BitVec 32} (h : fMajor w = 0x0f#6) : decodeFields w = dec0F w := by
  unfold decodeFields
  rw [h]
  rfl
theorem decodeFields_10 {w : BitVec 32} (h : fMajor w = 0x10#6) : decodeFields w = dec10 w := by
  unfold decodeFields
  rw [h]
  rfl
theorem decodeFields_11 {w : BitVec 32} (h : fMajor w = 0x11#6) : decodeFields w = dec11 w := by
  unfold decodeFields
  rw [h]
  rfl
theorem decodeFields_12 {w : BitVec 32} (h : fMajor w = 0x12#6) : decodeFields w = dec12 w := by
  unfold decodeFields
  rw [h]
  rfl
theorem decodeFields_13 {w : BitVec 32} (h : fMajor w = 0x13#6) : decodeFields w = dec13 w := by
  unfold decodeFields
  rw [h]
  rfl
theorem decodeFields_14 {w : BitVec 32} (h : fMajor w = 0x14#6) : decodeFields w = dec14 w := by
  unfold decodeFields
  rw [h]
  rfl
theorem decodeFields_15 {w : BitVec 32} (h : fMajor w = 0x15#6) : decodeFields w = dec15 w := by
  unfold decodeFields
  rw [h]
  rfl
theorem decodeFields_16 {w : BitVec 32} (h : fMajor w = 0x16#6) : decodeFields w = dec16 w := by
  unfold decodeFields
  rw [h]
  rfl
theorem decodeFields_17 {w : BitVec 32} (h : fMajor w = 0x17#6) : decodeFields w = dec17 w := by
  unfold decodeFields
  rw [h]
  rfl
theorem decodeFields_18 {w : BitVec 32} (h : fMajor w = 0x18#6) : decodeFields w = dec18 w := by
  unfold decodeFields
  rw [h]
  rfl
theorem decodeFields_19 {w : BitVec 32} (h : fMajor w = 0x19#6) : decodeFields w = dec19 w := by
  unfold decodeFields
  rw [h]
  rfl
theorem decodeFields_1a {w : BitVec 32} (h : fMajor w = 0x1a#6) : decodeFields w = dec1A w := by
  unfold decodeFields
  rw [h]
  rfl
theorem decodeFields_1b {w : BitVec 32} (h : fMajor w = 0x1b#6) : decodeFields w = dec1B w := by
  unfold decodeFields
  rw [h]
  rfl
theorem decodeFields_1c {w : BitVec 32} (h : fMajor w = 0x1c#6) : decodeFields w = dec1C w := by
  unfold decodeFields
  rw [h]
  rfl
theorem decodeFields_1d {w : BitVec 32} (h : fMajor w = 0x1d#6) : decodeFields w = dec1D w := by
  unfold decodeFields
  rw [h]
  rfl
theorem decodeFields_20 {w : BitVec 32} (h : fMajor w = 0x20#6) : decodeFields w = dec20 w := by
  unfold decodeFields
  rw [h]
  rfl
theorem decodeFields_21 {w : BitVec 32} (h : fMajor w = 0x21#6) : decodeFields w = dec21 w := by
  unfold decodeFields
  rw [h]
  rfl
theorem decodeFields_22 {w : BitVec 32} (h : fMajor w = 0x22#6) : decodeFields w = dec22 w := by
  unfold decodeFields
  rw [h]
  rfl
theorem decodeFields_23 {w : BitVec 32} (h : fMajor w = 0x23#6) : decodeFields w = dec23 w := by
  unfold decodeFields
  rw [h]
  rfl
theorem decodeFields_24 {w : BitVec 32} (h : fMajor w = 0x24#6) : decodeFields w = dec24 w := by
  unfold decodeFields
  rw [h]
  rfl
theorem decodeFields_25 {w : BitVec 32} (h : fMajor w = 0x25#6) : decodeFields w = dec25 w := by
  unfold decodeFields
  rw [h]
  rfl
theorem decodeFields_26 {w : BitVec 32} (h : fMajor w = 0x26#6) : decodeFields w = dec26 w := by
  unfold decodeFields
  rw [h]
  rfl
theorem decodeFields_27 {w : BitVec 32} (h : fMajor w = 0x27#6) : decodeFields w = dec27 w := by
  unfold decodeFields
  rw [h]
  rfl
theorem decodeFields_28 {w : BitVec 32} (h : fMajor w = 0x28#6) : decodeFields w = dec28 w := by
  unfold decodeFields
  rw [h]
  rfl
theorem decodeFields_29 {w : BitVec 32} (h : fMajor w = 0x29#6) : decodeFields w = dec29 w := by
  unfold decodeFields
  rw [h]
  rfl
theorem decodeFields_2a {w : BitVec 32} (h : fMajor w = 0x2a#6) : decodeFields w = dec2A w := by
  unfold decodeFields
  rw [h]
  rfl
theorem decodeFields_2b {w : BitVec 32} (h : fMajor w = 0x2b#6) : decodeFields w = dec2B w := by
  unfold decodeFields
  rw [h]
  rfl
theorem decodeFields_2c {w : BitVec 32} (h : fMajor w = 0x2c#6) : decodeFields w = dec2C w := by
  unfold decodeFields
  rw [h]
  rfl
theorem decodeFields_2d {w : BitVec 32} (h : fMajor w = 0x2d#6) : decodeFields w = dec2D w := by
  unfold decodeFields
  rw [h]
  rfl
theorem decodeFields_2e {w : BitVec 32} (h : fMajor w = 0x2e#6) : decodeFields w = dec2E w := by
  unfold decodeFields
  rw [h]
  rfl
theorem decodeFields_2f {w : BitVec 32} (h : fMajor w = 0x2f#6) : decodeFields w = dec2F w := by
  unfold decodeFields
  rw [h]
  rfl
theorem decodeFields_30 {w : BitVec 32} (h : fMajor w = 0x30#6) : decodeFields w = dec30 w := by
  unfold decodeFields
  rw [h]
  rfl
theorem decodeFields_31 {w : BitVec 32} (h : fMajor w = 0x31#6) : decodeFields w = dec31 w := by
  unfold decodeFields
  rw [h]
  rfl
theorem decodeFields_32 {w : BitVec 32} (h : fMajor w = 0x32#6) : decodeFields w = dec32 w := by
  unfold decodeFields
  rw [h]
  rfl
theorem decodeFields_33 {w : BitVec 32} (h : fMajor w = 0x33#6) : decodeFields w = dec33 w := by
  unfold decodeFields
  rw [h]
  rfl
theorem decodeFields_34 {w : BitVec 32} (h : fMajor w = 0x34#6) : decodeFields w = dec34 w := by
  unfold decodeFields
  rw [h]
  rfl
theorem decodeFields_35 {w : BitVec 32} (h : fMajor w = 0x35#6) : decodeFields w = dec35 w := by
  unfold decodeFields
  rw [h]
  rfl
theorem decodeFields_36 {w : BitVec 32} (h : fMajor w = 0x36#6) : decodeFields w = dec36 w := by
  unfold decodeFields
  rw [h]
  rfl
theorem decodeFields_37 {w : BitVec 32} (h : fMajor w = 0x37#6) : decodeFields w = dec37 w := by
  unfold decodeFields
  rw [h]
  rfl
theorem decodeFields_38 {w : BitVec 32} (h : fMajor w = 0x38#6) : decodeFields w = dec38 w := by
  unfold decodeFields
  rw [h]
  rfl
theorem decodeFields_39 {w : BitVec 32} (h : fMajor w = 0x39#6) : decodeFields w = dec39 w := by
  unfold decodeFields
  rw [h]
  rfl
theorem decodeFields_3a {w : BitVec 32} (h : fMajor w = 0x3a#6) : decodeFields w = dec3A w := by
  unfold decodeFields
  rw [h]
  rfl
theorem decodeFields_3b {w : BitVec 32} (h : fMajor w = 0x3b#6) : decodeFields w = dec3B w := by
  unfold decodeFields
  rw [h]
  rfl
theorem decodeFields_3c {w : BitVec 32} (h : fMajor w = 0x3c#6) : decodeFields w = dec3C w := by
  unfold decodeFields
  rw [h]
  rfl
theorem decodeFields_3d {w : BitVec 32} (h : fMajor w = 0x3d#6) : decodeFields w = dec3D w := by
  unfold decodeFields
  rw [h]
  rfl

/-! ### The parts of a field -/

theorem sub0 (x1 : BitVec 3) :
    (0#2 ++ x1).extractLsb' 0 3 = x1 :=
  (extract_lo _ x1 0 3 (by decide)).trans ((extract_all x1))
theorem sub1 (x1 : BitVec 3) :
    (0#2 ++ x1).extractLsb' 3 2 = 0#2 :=
  (extract_hi _ x1 0 2).trans (rfl)
theorem sub2 (x0 : BitVec 6) (x1 : BitVec 6) (x3 : BitVec 1) :
    (x0 ++ x1 ++ 0#3 ++ x3).extractLsb' 1 3 = 0#3 :=
  (extract_hi _ x3 0 3).trans ((extract_lo _ 0#3 0 3 (by decide)).trans (rfl))
theorem sub3 (x0 : BitVec 6) (x1 : BitVec 6) (x3 : BitVec 1) :
    (x0 ++ x1 ++ 0#3 ++ x3).extractLsb' 10 6 = x0 :=
  (extract_hi _ x3 9 6).trans ((extract_hi _ 0#3 6 6).trans ((extract_hi _ x1 0 6).trans ((extract_all x0))))
theorem sub4 (x0 : BitVec 6) (x1 : BitVec 6) (x3 : BitVec 1) :
    (x0 ++ x1 ++ 0#3 ++ x3).extractLsb' 4 6 = x1 :=
  (extract_hi _ x3 3 6).trans ((extract_hi _ 0#3 0 6).trans ((extract_lo _ x1 0 6 (by decide)).trans ((extract_all x1))))
theorem sub5 (x0 : BitVec 6) (x1 : BitVec 6) (x3 : BitVec 1) :
    (x0 ++ x1 ++ 0#3 ++ x3).extractLsb' 0 1 = x3 :=
  (extract_lo _ x3 0 1 (by decide)).trans ((extract_all x3))
theorem sub6 (x0 : BitVec 6) (x1 : BitVec 6) :
    (x0 ++ x1 ++ 0#4).extractLsb' 0 4 = 0#4 :=
  (extract_lo _ 0#4 0 4 (by decide)).trans (rfl)
theorem sub7 (x0 : BitVec 6) (x1 : BitVec 6) :
    (x0 ++ x1 ++ 0#4).extractLsb' 10 6 = x0 :=
  (extract_hi _ 0#4 6 6).trans ((extract_hi _ x1 0 6).trans ((extract_all x0)))
theorem sub8 (x0 : BitVec 6) (x1 : BitVec 6) :
    (x0 ++ x1 ++ 0#4).extractLsb' 4 6 = x1 :=
  (extract_hi _ 0#4 0 6).trans ((extract_lo _ x1 0 6 (by decide)).trans ((extract_all x1)))
theorem sub9 (x1 : BitVec 12) :
    (0#4 ++ x1).extractLsb' 14 2 = 0#2 :=
  (extract_hi _ x1 2 2).trans (rfl)
theorem sub10 (x1 : BitVec 12) :
    (0#4 ++ x1).extractLsb' 0 12 = x1 :=
  (extract_lo _ x1 0 12 (by decide)).trans ((extract_all x1))
theorem sub11 (x1 : BitVec 12) :
    (0#4 ++ x1).extractLsb' 12 2 = 0#2 :=
  (extract_hi _ x1 0 2).trans (rfl)
theorem sub12 (x1 : BitVec 12) :
    (1#4 ++ x1).extractLsb' 14 2 = 0#2 :=
  (extract_hi _ x1 2 2).trans (rfl)
theorem sub13 (x1 : BitVec 12) :
    (1#4 ++ x1).extractLsb' 0 12 = x1 :=
  (extract_lo _ x1 0 12 (by decide)).trans ((extract_all x1))
theorem sub14 (x1 : BitVec 12) :
    (1#4 ++ x1).extractLsb' 12 2 = 1#2 :=
  (extract_hi _ x1 0 2).trans (rfl)
theorem sub15 (x1 : BitVec 12) :
    (2#4 ++ x1).extractLsb' 14 2 = 0#2 :=
  (extract_hi _ x1 2 2).trans (rfl)
theorem sub16 (x1 : BitVec 12) :
    (2#4 ++ x1).extractLsb' 0 12 = x1 :=
  (extract_lo _ x1 0 12 (by decide)).trans ((extract_all x1))
theorem sub17 (x1 : BitVec 12) :
    (2#4 ++ x1).extractLsb' 12 2 = 2#2 :=
  (extract_hi _ x1 0 2).trans (rfl)
theorem sub18 (x1 : BitVec 12) :
    (3#4 ++ x1).extractLsb' 14 2 = 0#2 :=
  (extract_hi _ x1 2 2).trans (rfl)
theorem sub19 (x1 : BitVec 12) :
    (3#4 ++ x1).extractLsb' 0 12 = x1 :=
  (extract_lo _ x1 0 12 (by decide)).trans ((extract_all x1))
theorem sub20 (x1 : BitVec 12) :
    (3#4 ++ x1).extractLsb' 12 2 = 3#2 :=
  (extract_hi _ x1 0 2).trans (rfl)
theorem sub21 (x1 : BitVec 6) :
    (0#10 ++ x1).extractLsb' 8 8 = 0#8 :=
  (extract_hi _ x1 2 8).trans (rfl)
theorem sub22 (x1 : BitVec 6) :
    (0#10 ++ x1).extractLsb' 0 6 = x1 :=
  (extract_lo _ x1 0 6 (by decide)).trans ((extract_all x1))
theorem sub23 (x1 : BitVec 6) :
    (0#10 ++ x1).extractLsb' 6 2 = 0#2 :=
  (extract_hi _ x1 0 2).trans (rfl)
theorem sub24 (x1 : BitVec 6) :
    (1#10 ++ x1).extractLsb' 8 8 = 0#8 :=
  (extract_hi _ x1 2 8).trans (rfl)
theorem sub25 (x1 : BitVec 6) :
    (1#10 ++ x1).extractLsb' 0 6 = x1 :=
  (extract_lo _ x1 0 6 (by decide)).trans ((extract_all x1))
theorem sub26 (x1 : BitVec 6) :
    (1#10 ++ x1).extractLsb' 6 2 = 1#2 :=
  (extract_hi _ x1 0 2).trans (rfl)
theorem sub27 (x1 : BitVec 6) :
    (2#10 ++ x1).extractLsb' 8 8 = 0#8 :=
  (extract_hi _ x1 2 8).trans (rfl)
theorem sub28 (x1 : BitVec 6) :
    (2#10 ++ x1).extractLsb' 0 6 = x1 :=
  (extract_lo _ x1 0 6 (by decide)).trans ((extract_all x1))
theorem sub29 (x1 : BitVec 6) :
    (2#10 ++ x1).extractLsb' 6 2 = 2#2 :=
  (extract_hi _ x1 0 2).trans (rfl)
theorem sub30 (x1 : BitVec 6) :
    (3#10 ++ x1).extractLsb' 8 8 = 0#8 :=
  (extract_hi _ x1 2 8).trans (rfl)
theorem sub31 (x1 : BitVec 6) :
    (3#10 ++ x1).extractLsb' 0 6 = x1 :=
  (extract_lo _ x1 0 6 (by decide)).trans ((extract_all x1))
theorem sub32 (x1 : BitVec 6) :
    (3#10 ++ x1).extractLsb' 6 2 = 3#2 :=
  (extract_hi _ x1 0 2).trans (rfl)
theorem sub33 (x1 : BitVec 5) :
    (0#11 ++ x1).extractLsb' 5 11 = 0#11 :=
  (extract_hi _ x1 0 11).trans (rfl)
theorem sub34 (x1 : BitVec 5) :
    (0#11 ++ x1).extractLsb' 0 5 = x1 :=
  (extract_lo _ x1 0 5 (by decide)).trans ((extract_all x1))
theorem sub35 (x0 : BitVec 1) :
    (x0 ++ 0#5).extractLsb' 0 5 = 0#5 :=
  (extract_lo _ 0#5 0 5 (by decide)).trans (rfl)
theorem sub36 (x0 : BitVec 1) :
    (x0 ++ 0#5).extractLsb' 5 1 = x0 :=
  (extract_hi _ 0#5 0 1).trans ((extract_all x0))
theorem sub37 (x0 : BitVec 1) :
    (x0 ++ 1#5).extractLsb' 0 5 = 1#5 :=
  (extract_lo _ 1#5 0 5 (by decide)).trans (rfl)
theorem sub38 (x0 : BitVec 1) :
    (x0 ++ 1#5).extractLsb' 5 1 = x0 :=
  (extract_hi _ 1#5 0 1).trans ((extract_all x0))
theorem sub39 (x0 : BitVec 1) :
    (x0 ++ 2#5).extractLsb' 0 5 = 2#5 :=
  (extract_lo _ 2#5 0 5 (by decide)).trans (rfl)
theorem sub40 (x0 : BitVec 1) :
    (x0 ++ 2#5).extractLsb' 5 1 = x0 :=
  (extract_hi _ 2#5 0 1).trans ((extract_all x0))
theorem sub41 (x0 : BitVec 1) :
    (x0 ++ 3#5).extractLsb' 0 5 = 3#5 :=
  (extract_lo _ 3#5 0 5 (by decide)).trans (rfl)
theorem sub42 (x0 : BitVec 1) :
    (x0 ++ 3#5).extractLsb' 5 1 = x0 :=
  (extract_hi _ 3#5 0 1).trans ((extract_all x0))
theorem sub43 (x0 : BitVec 1) :
    (x0 ++ 4#5).extractLsb' 0 5 = 4#5 :=
  (extract_lo _ 4#5 0 5 (by decide)).trans (rfl)
theorem sub44 (x0 : BitVec 1) :
    (x0 ++ 4#5).extractLsb' 5 1 = x0 :=
  (extract_hi _ 4#5 0 1).trans ((extract_all x0))
theorem sub45 (x0 : BitVec 1) :
    (x0 ++ 5#5).extractLsb' 0 5 = 5#5 :=
  (extract_lo _ 5#5 0 5 (by decide)).trans (rfl)
theorem sub46 (x0 : BitVec 1) :
    (x0 ++ 5#5).extractLsb' 5 1 = x0 :=
  (extract_hi _ 5#5 0 1).trans ((extract_all x0))
theorem sub47 (x0 : BitVec 1) :
    (x0 ++ 6#5).extractLsb' 0 5 = 6#5 :=
  (extract_lo _ 6#5 0 5 (by decide)).trans (rfl)
theorem sub48 (x0 : BitVec 1) :
    (x0 ++ 6#5).extractLsb' 5 1 = x0 :=
  (extract_hi _ 6#5 0 1).trans ((extract_all x0))
theorem sub49 (x0 : BitVec 1) :
    (x0 ++ 7#5).extractLsb' 0 5 = 7#5 :=
  (extract_lo _ 7#5 0 5 (by decide)).trans (rfl)
theorem sub50 (x0 : BitVec 1) :
    (x0 ++ 7#5).extractLsb' 5 1 = x0 :=
  (extract_hi _ 7#5 0 1).trans ((extract_all x0))
theorem sub51 (x0 : BitVec 1) :
    (x0 ++ 8#5).extractLsb' 0 5 = 8#5 :=
  (extract_lo _ 8#5 0 5 (by decide)).trans (rfl)
theorem sub52 (x0 : BitVec 1) :
    (x0 ++ 8#5).extractLsb' 5 1 = x0 :=
  (extract_hi _ 8#5 0 1).trans ((extract_all x0))
theorem sub53 (x0 : BitVec 1) :
    (x0 ++ 9#5).extractLsb' 0 5 = 9#5 :=
  (extract_lo _ 9#5 0 5 (by decide)).trans (rfl)
theorem sub54 (x0 : BitVec 1) :
    (x0 ++ 9#5).extractLsb' 5 1 = x0 :=
  (extract_hi _ 9#5 0 1).trans ((extract_all x0))
theorem sub55 (x0 : BitVec 1) :
    (x0 ++ 10#5).extractLsb' 0 5 = 10#5 :=
  (extract_lo _ 10#5 0 5 (by decide)).trans (rfl)
theorem sub56 (x0 : BitVec 1) :
    (x0 ++ 10#5).extractLsb' 5 1 = x0 :=
  (extract_hi _ 10#5 0 1).trans ((extract_all x0))
theorem sub57 (x0 : BitVec 1) :
    (x0 ++ 11#5).extractLsb' 0 5 = 11#5 :=
  (extract_lo _ 11#5 0 5 (by decide)).trans (rfl)
theorem sub58 (x1 : BitVec 2) :
    (0#3 ++ x1).extractLsb' 0 2 = x1 :=
  (extract_lo _ x1 0 2 (by decide)).trans ((extract_all x1))
theorem sub59 (x0 : BitVec 1) :
    (x0 ++ 11#5).extractLsb' 5 1 = x0 :=
  (extract_hi _ 11#5 0 1).trans ((extract_all x0))
theorem sub60 (x1 : BitVec 2) :
    (0#3 ++ x1).extractLsb' 2 3 = 0#3 :=
  (extract_hi _ x1 0 3).trans (rfl)
theorem sub61 (x0 : BitVec 1) :
    (x0 ++ 12#5).extractLsb' 0 5 = 12#5 :=
  (extract_lo _ 12#5 0 5 (by decide)).trans (rfl)
theorem sub62 (x0 : BitVec 1) :
    (x0 ++ 12#5).extractLsb' 5 1 = x0 :=
  (extract_hi _ 12#5 0 1).trans ((extract_all x0))
theorem sub63 (x0 : BitVec 1) :
    (x0 ++ 13#5).extractLsb' 0 5 = 13#5 :=
  (extract_lo _ 13#5 0 5 (by decide)).trans (rfl)
theorem sub64 (x0 : BitVec 1) :
    (x0 ++ 13#5).extractLsb' 5 1 = x0 :=
  (extract_hi _ 13#5 0 1).trans ((extract_all x0))
theorem sub65 (x0 : BitVec 1) :
    (x0 ++ 14#5).extractLsb' 0 5 = 14#5 :=
  (extract_lo _ 14#5 0 5 (by decide)).trans (rfl)
theorem sub66 (x0 : BitVec 1) :
    (x0 ++ 14#5).extractLsb' 5 1 = x0 :=
  (extract_hi _ 14#5 0 1).trans ((extract_all x0))
theorem sub67 (x1 : BitVec 4) :
    (0#1 ++ x1).extractLsb' 4 1 = 0#1 :=
  (extract_hi _ x1 0 1).trans (rfl)
theorem sub68 (x1 : BitVec 4) :
    (0#1 ++ x1).extractLsb' 0 4 = x1 :=
  (extract_lo _ x1 0 4 (by decide)).trans ((extract_all x1))
theorem sub69 (x0 : BitVec 2) (x1 : BitVec 3) :
    (x0 ++ x1).extractLsb' 3 2 = x0 :=
  (extract_hi _ x1 0 2).trans ((extract_all x0))
theorem sub70 (x0 : BitVec 2) (x1 : BitVec 3) :
    (x0 ++ x1).extractLsb' 0 3 = x1 :=
  (extract_lo _ x1 0 3 (by decide)).trans ((extract_all x1))
theorem sub71 (x1 : BitVec 1) :
    (0#1 ++ x1 ++ 0#4).extractLsb' 4 1 = x1 :=
  (extract_hi _ 0#4 0 1).trans ((extract_lo _ x1 0 1 (by decide)).trans ((extract_all x1)))
theorem sub72 (x1 : BitVec 1) :
    (0#1 ++ x1 ++ 0#4).extractLsb' 5 1 = 0#1 :=
  (extract_hi _ 0#4 1 1).trans ((extract_hi _ x1 0 1).trans (rfl))
theorem sub73 (x1 : BitVec 1) :
    (0#1 ++ x1 ++ 0#4).extractLsb' 0 4 = 0#4 :=
  (extract_lo _ 0#4 0 4 (by decide)).trans (rfl)
theorem sub74 (x1 : BitVec 1) :
    (0#1 ++ x1 ++ 1#4).extractLsb' 4 1 = x1 :=
  (extract_hi _ 1#4 0 1).trans ((extract_lo _ x1 0 1 (by decide)).trans ((extract_all x1)))
theorem sub75 (x1 : BitVec 1) :
    (0#1 ++ x1 ++ 1#4).extractLsb' 5 1 = 0#1 :=
  (extract_hi _ 1#4 1 1).trans ((extract_hi _ x1 0 1).trans (rfl))
theorem sub76 (x1 : BitVec 1) :
    (0#1 ++ x1 ++ 1#4).extractLsb' 0 4 = 1#4 :=
  (extract_lo _ 1#4 0 4 (by decide)).trans (rfl)
theorem sub77 (x1 : BitVec 1) :
    (0#1 ++ x1 ++ 2#4).extractLsb' 4 1 = x1 :=
  (extract_hi _ 2#4 0 1).trans ((extract_lo _ x1 0 1 (by decide)).trans ((extract_all x1)))
theorem sub78 (x1 : BitVec 1) :
    (0#1 ++ x1 ++ 2#4).extractLsb' 5 1 = 0#1 :=
  (extract_hi _ 2#4 1 1).trans ((extract_hi _ x1 0 1).trans (rfl))
theorem sub79 (x1 : BitVec 1) :
    (0#1 ++ x1 ++ 2#4).extractLsb' 0 4 = 2#4 :=
  (extract_lo _ 2#4 0 4 (by decide)).trans (rfl)
theorem sub80 (x1 : BitVec 1) :
    (0#1 ++ x1 ++ 3#4).extractLsb' 4 1 = x1 :=
  (extract_hi _ 3#4 0 1).trans ((extract_lo _ x1 0 1 (by decide)).trans ((extract_all x1)))
theorem sub81 (x1 : BitVec 1) :
    (0#1 ++ x1 ++ 3#4).extractLsb' 5 1 = 0#1 :=
  (extract_hi _ 3#4 1 1).trans ((extract_hi _ x1 0 1).trans (rfl))
theorem sub82 (x1 : BitVec 1) :
    (0#1 ++ x1 ++ 3#4).extractLsb' 0 4 = 3#4 :=
  (extract_lo _ 3#4 0 4 (by decide)).trans (rfl)
theorem sub83 (x1 : BitVec 1) :
    (0#1 ++ x1 ++ 4#4).extractLsb' 4 1 = x1 :=
  (extract_hi _ 4#4 0 1).trans ((extract_lo _ x1 0 1 (by decide)).trans ((extract_all x1)))
theorem sub84 (x1 : BitVec 1) :
    (0#1 ++ x1 ++ 4#4).extractLsb' 5 1 = 0#1 :=
  (extract_hi _ 4#4 1 1).trans ((extract_hi _ x1 0 1).trans (rfl))
theorem sub85 (x1 : BitVec 1) :
    (0#1 ++ x1 ++ 4#4).extractLsb' 0 4 = 4#4 :=
  (extract_lo _ 4#4 0 4 (by decide)).trans (rfl)
theorem sub86 (x1 : BitVec 1) :
    (0#1 ++ x1 ++ 5#4).extractLsb' 4 1 = x1 :=
  (extract_hi _ 5#4 0 1).trans ((extract_lo _ x1 0 1 (by decide)).trans ((extract_all x1)))
theorem sub87 (x1 : BitVec 1) :
    (0#1 ++ x1 ++ 5#4).extractLsb' 5 1 = 0#1 :=
  (extract_hi _ 5#4 1 1).trans ((extract_hi _ x1 0 1).trans (rfl))
theorem sub88 (x1 : BitVec 1) :
    (0#1 ++ x1 ++ 5#4).extractLsb' 0 4 = 5#4 :=
  (extract_lo _ 5#4 0 4 (by decide)).trans (rfl)
theorem sub89 (x1 : BitVec 1) :
    (0#1 ++ x1 ++ 6#4).extractLsb' 4 1 = x1 :=
  (extract_hi _ 6#4 0 1).trans ((extract_lo _ x1 0 1 (by decide)).trans ((extract_all x1)))
theorem sub90 (x1 : BitVec 1) :
    (0#1 ++ x1 ++ 6#4).extractLsb' 5 1 = 0#1 :=
  (extract_hi _ 6#4 1 1).trans ((extract_hi _ x1 0 1).trans (rfl))
theorem sub91 (x1 : BitVec 1) :
    (0#1 ++ x1 ++ 6#4).extractLsb' 0 4 = 6#4 :=
  (extract_lo _ 6#4 0 4 (by decide)).trans (rfl)
theorem sub92 (x1 : BitVec 1) :
    (0#1 ++ x1 ++ 7#4).extractLsb' 4 1 = x1 :=
  (extract_hi _ 7#4 0 1).trans ((extract_lo _ x1 0 1 (by decide)).trans ((extract_all x1)))
theorem sub93 (x1 : BitVec 1) :
    (0#1 ++ x1 ++ 7#4).extractLsb' 5 1 = 0#1 :=
  (extract_hi _ 7#4 1 1).trans ((extract_hi _ x1 0 1).trans (rfl))
theorem sub94 (x1 : BitVec 1) :
    (0#1 ++ x1 ++ 7#4).extractLsb' 0 4 = 7#4 :=
  (extract_lo _ 7#4 0 4 (by decide)).trans (rfl)
theorem sub95 (x1 : BitVec 1) :
    (0#1 ++ x1 ++ 8#4).extractLsb' 4 1 = x1 :=
  (extract_hi _ 8#4 0 1).trans ((extract_lo _ x1 0 1 (by decide)).trans ((extract_all x1)))
theorem sub96 (x1 : BitVec 1) :
    (0#1 ++ x1 ++ 8#4).extractLsb' 5 1 = 0#1 :=
  (extract_hi _ 8#4 1 1).trans ((extract_hi _ x1 0 1).trans (rfl))
theorem sub97 (x1 : BitVec 1) :
    (0#1 ++ x1 ++ 8#4).extractLsb' 0 4 = 8#4 :=
  (extract_lo _ 8#4 0 4 (by decide)).trans (rfl)
theorem sub98 (x1 : BitVec 1) :
    (0#1 ++ x1 ++ 9#4).extractLsb' 4 1 = x1 :=
  (extract_hi _ 9#4 0 1).trans ((extract_lo _ x1 0 1 (by decide)).trans ((extract_all x1)))
theorem sub99 (x1 : BitVec 1) :
    (0#1 ++ x1 ++ 9#4).extractLsb' 5 1 = 0#1 :=
  (extract_hi _ 9#4 1 1).trans ((extract_hi _ x1 0 1).trans (rfl))
theorem sub100 (x1 : BitVec 1) :
    (0#1 ++ x1 ++ 9#4).extractLsb' 0 4 = 9#4 :=
  (extract_lo _ 9#4 0 4 (by decide)).trans (rfl)
theorem sub101 (x0 : BitVec 1) (x1 : BitVec 2) (x2 : BitVec 3) :
    (x0 ++ x1 ++ x2).extractLsb' 5 1 = x0 :=
  (extract_hi _ x2 2 1).trans ((extract_hi _ x1 0 1).trans ((extract_all x0)))
theorem sub102 (x0 : BitVec 1) (x1 : BitVec 2) (x2 : BitVec 3) :
    (x0 ++ x1 ++ x2).extractLsb' 3 2 = x1 :=
  (extract_hi _ x2 0 2).trans ((extract_lo _ x1 0 2 (by decide)).trans ((extract_all x1)))
theorem sub103 (x0 : BitVec 1) (x1 : BitVec 2) (x2 : BitVec 3) :
    (x0 ++ x1 ++ x2).extractLsb' 0 3 = x2 :=
  (extract_lo _ x2 0 3 (by decide)).trans ((extract_all x2))
theorem sub104 (x1 : BitVec 2) (x2 : BitVec 3) (x3 : BitVec 8) :
    (0#3 ++ x1 ++ x2 ++ x3).extractLsb' 11 2 = x1 :=
  (extract_hi _ x3 3 2).trans ((extract_hi _ x2 0 2).trans ((extract_lo _ x1 0 2 (by decide)).trans ((extract_all x1))))
theorem sub105 (x1 : BitVec 2) (x2 : BitVec 3) (x3 : BitVec 8) :
    (0#3 ++ x1 ++ x2 ++ x3).extractLsb' 8 3 = x2 :=
  (extract_hi _ x3 0 3).trans ((extract_lo _ x2 0 3 (by decide)).trans ((extract_all x2)))
theorem sub106 (x1 : BitVec 2) (x2 : BitVec 3) (x3 : BitVec 8) :
    (0#3 ++ x1 ++ x2 ++ x3).extractLsb' 13 3 = 0#3 :=
  (extract_hi _ x3 5 3).trans ((extract_hi _ x2 2 3).trans ((extract_hi _ x1 0 3).trans (rfl)))
theorem sub107 (x1 : BitVec 2) (x2 : BitVec 3) (x3 : BitVec 8) :
    (0#3 ++ x1 ++ x2 ++ x3).extractLsb' 0 8 = x3 :=
  (extract_lo _ x3 0 8 (by decide)).trans ((extract_all x3))
theorem sub108 (x0 : BitVec 1) (x1 : BitVec 4) :
    (x0 ++ x1).extractLsb' 4 1 = x0 :=
  (extract_hi _ x1 0 1).trans ((extract_all x0))
theorem sub109 (x0 : BitVec 1) (x1 : BitVec 4) :
    (x0 ++ x1).extractLsb' 0 4 = x1 :=
  (extract_lo _ x1 0 4 (by decide)).trans ((extract_all x1))
theorem sub110 (x1 : BitVec 1) :
    (0#4 ++ x1).extractLsb' 1 4 = 0#4 :=
  (extract_hi _ x1 0 4).trans (rfl)
theorem sub111 (x1 : BitVec 1) :
    (0#4 ++ x1).extractLsb' 0 1 = x1 :=
  (extract_lo _ x1 0 1 (by decide)).trans ((extract_all x1))
theorem sub112 (x0 : BitVec 3) (x1 : BitVec 3) :
    (x0 ++ x1).extractLsb' 3 3 = x0 :=
  (extract_hi _ x1 0 3).trans ((extract_all x0))
theorem sub113 (x0 : BitVec 3) (x1 : BitVec 3) :
    (x0 ++ x1).extractLsb' 0 3 = x1 :=
  (extract_lo _ x1 0 3 (by decide)).trans ((extract_all x1))
theorem sub114 (x0 : BitVec 3) :
    (x0 ++ 0#2).extractLsb' 0 2 = 0#2 :=
  (extract_lo _ 0#2 0 2 (by decide)).trans (rfl)
theorem sub115 (x0 : BitVec 3) :
    (x0 ++ 0#2).extractLsb' 2 3 = x0 :=
  (extract_hi _ 0#2 0 3).trans ((extract_all x0))

/-! ### The round trip -/

/-- The word of `i`, when it has one and is well formed, decodes to `i`. -/
def RoundTrip.Statement (i : Instr) : Prop := i.isWord = true → i.wellFormed = true → decodeWord (encode i) = .ok i

theorem RoundTrip.trap (a : XReg) : RoundTrip.Statement (.trap a) := by
  intro _ h
  refine decodeWord_of ((decodeFields_00 (fMajor_packR ..)).trans ?_) h
  unfold dec00
  simp only [fD_packR, fA_packR, fB_packR, fC_packR, fF_packR]
  rfl
theorem RoundTrip.sysc : RoundTrip.Statement (.sysc) := by
  intro _ h
  refine decodeWord_of ((decodeFields_00 (fMajor_packR ..)).trans ?_) h
  unfold dec00
  simp only [fD_packR, fA_packR, fB_packR, fC_packR, fF_packR]
  rfl
theorem RoundTrip.kret : RoundTrip.Statement (.kret) := by
  intro _ h
  refine decodeWord_of ((decodeFields_00 (fMajor_packR ..)).trans ?_) h
  unfold dec00
  simp only [fD_packR, fA_packR, fB_packR, fC_packR, fF_packR]
  rfl
theorem RoundTrip.brk (n : BitVec 10) : RoundTrip.Statement (.brk n) := by
  intro _ h
  refine decodeWord_of ((decodeFields_00 (fMajor_packR ..)).trans ?_) h
  unfold dec00
  simp only [fD_packR, fA_packR, fB_packR, fC_packR, fF_packR, extract_join n 0 5 5, extract_all]
  rfl
theorem RoundTrip.nap (a : XReg) : RoundTrip.Statement (.nap a) := by
  intro _ h
  refine decodeWord_of ((decodeFields_00 (fMajor_packR ..)).trans ?_) h
  unfold dec00
  simp only [fD_packR, fA_packR, fB_packR, fC_packR, fF_packR]
  rfl
theorem RoundTrip.done : RoundTrip.Statement (.done) := by
  intro _ h
  refine decodeWord_of ((decodeFields_00 (fMajor_packR ..)).trans ?_) h
  unfold dec00
  simp only [fD_packR, fA_packR, fB_packR, fC_packR, fF_packR]
  rfl
theorem RoundTrip.yield : RoundTrip.Statement (.yield) := by
  intro _ h
  refine decodeWord_of ((decodeFields_00 (fMajor_packR ..)).trans ?_) h
  unfold dec00
  simp only [fD_packR, fA_packR, fB_packR, fC_packR, fF_packR]
  rfl
theorem RoundTrip.fencei : RoundTrip.Statement (.fencei) := by
  intro _ h
  refine decodeWord_of ((decodeFields_00 (fMajor_packR ..)).trans ?_) h
  unfold dec00
  simp only [fD_packR, fA_packR, fB_packR, fC_packR, fF_packR]
  rfl
theorem RoundTrip.tlbinv (a : XReg) (b : XReg) (s : Scope) : RoundTrip.Statement (.tlbinv a b s) := by
  intro _ h
  refine decodeWord_of ((decodeFields_00 (fMajor_packR ..)).trans ?_) h
  unfold dec00
  simp only [fD_packR, fA_packR, fB_packR, fC_packR, fF_packR, sub0, sub1]
  cases s <;> rfl
theorem RoundTrip.sethue (h : BitVec 3) : RoundTrip.Statement (.sethue h) := by
  intro _ h
  refine decodeWord_of ((decodeFields_00 (fMajor_packR ..)).trans ?_) h
  unfold dec00
  simp only [fD_packR, fA_packR, fB_packR, fC_packR, fF_packR, sub1, sub0]
  rfl
theorem RoundTrip.halt (a : XReg) : RoundTrip.Statement (.halt a) := by
  intro _ h
  refine decodeWord_of ((decodeFields_00 (fMajor_packR ..)).trans ?_) h
  unfold dec00
  simp only [fD_packR, fA_packR, fB_packR, fC_packR, fF_packR]
  rfl
theorem RoundTrip.pwrh (a : XReg) : RoundTrip.Statement (.pwrh a) := by
  intro _ h
  refine decodeWord_of ((decodeFields_00 (fMajor_packR ..)).trans ?_) h
  unfold dec00
  simp only [fD_packR, fA_packR, fB_packR, fC_packR, fF_packR]
  rfl
theorem RoundTrip.add (d : XReg) (a : XReg) (b : XReg) : RoundTrip.Statement (.add d a b) := by
  intro _ h
  refine decodeWord_of ((decodeFields_01 (fMajor_packR ..)).trans ?_) h
  unfold dec01
  simp only [fD_packR, fA_packR, fB_packR, fC_packR, fF_packR]
  rfl
theorem RoundTrip.sub (d : XReg) (a : XReg) (b : XReg) : RoundTrip.Statement (.sub d a b) := by
  intro _ h
  refine decodeWord_of ((decodeFields_01 (fMajor_packR ..)).trans ?_) h
  unfold dec01
  simp only [fD_packR, fA_packR, fB_packR, fC_packR, fF_packR]
  rfl
theorem RoundTrip.and (d : XReg) (a : XReg) (b : XReg) : RoundTrip.Statement (.and d a b) := by
  intro _ h
  refine decodeWord_of ((decodeFields_01 (fMajor_packR ..)).trans ?_) h
  unfold dec01
  simp only [fD_packR, fA_packR, fB_packR, fC_packR, fF_packR]
  rfl
theorem RoundTrip.or (d : XReg) (a : XReg) (b : XReg) : RoundTrip.Statement (.or d a b) := by
  intro _ h
  refine decodeWord_of ((decodeFields_01 (fMajor_packR ..)).trans ?_) h
  unfold dec01
  simp only [fD_packR, fA_packR, fB_packR, fC_packR, fF_packR]
  rfl
theorem RoundTrip.xor (d : XReg) (a : XReg) (b : XReg) : RoundTrip.Statement (.xor d a b) := by
  intro _ h
  refine decodeWord_of ((decodeFields_01 (fMajor_packR ..)).trans ?_) h
  unfold dec01
  simp only [fD_packR, fA_packR, fB_packR, fC_packR, fF_packR]
  rfl
theorem RoundTrip.andn (d : XReg) (a : XReg) (b : XReg) : RoundTrip.Statement (.andn d a b) := by
  intro _ h
  refine decodeWord_of ((decodeFields_01 (fMajor_packR ..)).trans ?_) h
  unfold dec01
  simp only [fD_packR, fA_packR, fB_packR, fC_packR, fF_packR]
  rfl
theorem RoundTrip.sll (d : XReg) (a : XReg) (b : XReg) : RoundTrip.Statement (.sll d a b) := by
  intro _ h
  refine decodeWord_of ((decodeFields_01 (fMajor_packR ..)).trans ?_) h
  unfold dec01
  simp only [fD_packR, fA_packR, fB_packR, fC_packR, fF_packR]
  rfl
theorem RoundTrip.srl (d : XReg) (a : XReg) (b : XReg) : RoundTrip.Statement (.srl d a b) := by
  intro _ h
  refine decodeWord_of ((decodeFields_01 (fMajor_packR ..)).trans ?_) h
  unfold dec01
  simp only [fD_packR, fA_packR, fB_packR, fC_packR, fF_packR]
  rfl
theorem RoundTrip.sra (d : XReg) (a : XReg) (b : XReg) : RoundTrip.Statement (.sra d a b) := by
  intro _ h
  refine decodeWord_of ((decodeFields_01 (fMajor_packR ..)).trans ?_) h
  unfold dec01
  simp only [fD_packR, fA_packR, fB_packR, fC_packR, fF_packR]
  rfl
theorem RoundTrip.rol (d : XReg) (a : XReg) (b : XReg) : RoundTrip.Statement (.rol d a b) := by
  intro _ h
  refine decodeWord_of ((decodeFields_01 (fMajor_packR ..)).trans ?_) h
  unfold dec01
  simp only [fD_packR, fA_packR, fB_packR, fC_packR, fF_packR]
  rfl
theorem RoundTrip.slt (d : XReg) (a : XReg) (b : XReg) : RoundTrip.Statement (.slt d a b) := by
  intro _ h
  refine decodeWord_of ((decodeFields_01 (fMajor_packR ..)).trans ?_) h
  unfold dec01
  simp only [fD_packR, fA_packR, fB_packR, fC_packR, fF_packR]
  rfl
theorem RoundTrip.sltu (d : XReg) (a : XReg) (b : XReg) : RoundTrip.Statement (.sltu d a b) := by
  intro _ h
  refine decodeWord_of ((decodeFields_01 (fMajor_packR ..)).trans ?_) h
  unfold dec01
  simp only [fD_packR, fA_packR, fB_packR, fC_packR, fF_packR]
  rfl
theorem RoundTrip.min (d : XReg) (a : XReg) (b : XReg) : RoundTrip.Statement (.min d a b) := by
  intro _ h
  refine decodeWord_of ((decodeFields_01 (fMajor_packR ..)).trans ?_) h
  unfold dec01
  simp only [fD_packR, fA_packR, fB_packR, fC_packR, fF_packR]
  rfl
theorem RoundTrip.max (d : XReg) (a : XReg) (b : XReg) : RoundTrip.Statement (.max d a b) := by
  intro _ h
  refine decodeWord_of ((decodeFields_01 (fMajor_packR ..)).trans ?_) h
  unfold dec01
  simp only [fD_packR, fA_packR, fB_packR, fC_packR, fF_packR]
  rfl
theorem RoundTrip.minu (d : XReg) (a : XReg) (b : XReg) : RoundTrip.Statement (.minu d a b) := by
  intro _ h
  refine decodeWord_of ((decodeFields_01 (fMajor_packR ..)).trans ?_) h
  unfold dec01
  simp only [fD_packR, fA_packR, fB_packR, fC_packR, fF_packR]
  rfl
theorem RoundTrip.maxu (d : XReg) (a : XReg) (b : XReg) : RoundTrip.Statement (.maxu d a b) := by
  intro _ h
  refine decodeWord_of ((decodeFields_01 (fMajor_packR ..)).trans ?_) h
  unfold dec01
  simp only [fD_packR, fA_packR, fB_packR, fC_packR, fF_packR]
  rfl
theorem RoundTrip.clz (d : XReg) (a : XReg) : RoundTrip.Statement (.clz d a) := by
  intro _ h
  refine decodeWord_of ((decodeFields_01 (fMajor_packR ..)).trans ?_) h
  unfold dec01
  simp only [fD_packR, fA_packR, fB_packR, fC_packR, fF_packR]
  rfl
theorem RoundTrip.ctz (d : XReg) (a : XReg) : RoundTrip.Statement (.ctz d a) := by
  intro _ h
  refine decodeWord_of ((decodeFields_01 (fMajor_packR ..)).trans ?_) h
  unfold dec01
  simp only [fD_packR, fA_packR, fB_packR, fC_packR, fF_packR]
  rfl
theorem RoundTrip.popc (d : XReg) (a : XReg) : RoundTrip.Statement (.popc d a) := by
  intro _ h
  refine decodeWord_of ((decodeFields_01 (fMajor_packR ..)).trans ?_) h
  unfold dec01
  simp only [fD_packR, fA_packR, fB_packR, fC_packR, fF_packR]
  rfl
theorem RoundTrip.brev (d : XReg) (a : XReg) : RoundTrip.Statement (.brev d a) := by
  intro _ h
  refine decodeWord_of ((decodeFields_01 (fMajor_packR ..)).trans ?_) h
  unfold dec01
  simp only [fD_packR, fA_packR, fB_packR, fC_packR, fF_packR]
  rfl
theorem RoundTrip.bswap (d : XReg) (a : XReg) : RoundTrip.Statement (.bswap d a) := by
  intro _ h
  refine decodeWord_of ((decodeFields_01 (fMajor_packR ..)).trans ?_) h
  unfold dec01
  simp only [fD_packR, fA_packR, fB_packR, fC_packR, fF_packR]
  rfl
theorem RoundTrip.ilv (d : XReg) (a : XReg) (b : XReg) : RoundTrip.Statement (.ilv d a b) := by
  intro _ h
  refine decodeWord_of ((decodeFields_01 (fMajor_packR ..)).trans ?_) h
  unfold dec01
  simp only [fD_packR, fA_packR, fB_packR, fC_packR, fF_packR]
  rfl
theorem RoundTrip.ilv3 (d : XReg) (a : XReg) (b : XReg) (c : XReg) : RoundTrip.Statement (.ilv3 d a b c) := by
  intro _ h
  refine decodeWord_of ((decodeFields_01 (fMajor_packR ..)).trans ?_) h
  unfold dec01
  simp only [fD_packR, fA_packR, fB_packR, fC_packR, fF_packR]
  rfl
theorem RoundTrip.dilv (d : XReg) (a : XReg) : RoundTrip.Statement (.dilv d a) := by
  intro _ h
  refine decodeWord_of ((decodeFields_01 (fMajor_packR ..)).trans ?_) h
  unfold dec01
  simp only [fD_packR, fA_packR, fB_packR, fC_packR, fF_packR]
  rfl
theorem RoundTrip.dilv3 (d : XReg) (a : XReg) : RoundTrip.Statement (.dilv3 d a) := by
  intro _ h
  refine decodeWord_of ((decodeFields_01 (fMajor_packR ..)).trans ?_) h
  unfold dec01
  simp only [fD_packR, fA_packR, fB_packR, fC_packR, fF_packR]
  rfl
theorem RoundTrip.sel (d : XReg) (a : XReg) (b : XReg) (c : XReg) : RoundTrip.Statement (.sel d a b c) := by
  intro _ h
  refine decodeWord_of ((decodeFields_01 (fMajor_packR ..)).trans ?_) h
  unfold dec01
  simp only [fD_packR, fA_packR, fB_packR, fC_packR, fF_packR]
  rfl
theorem RoundTrip.addw (d : XReg) (a : XReg) (b : XReg) : RoundTrip.Statement (.addw d a b) := by
  intro _ h
  refine decodeWord_of ((decodeFields_01 (fMajor_packR ..)).trans ?_) h
  unfold dec01
  simp only [fD_packR, fA_packR, fB_packR, fC_packR, fF_packR]
  rfl
theorem RoundTrip.subw (d : XReg) (a : XReg) (b : XReg) : RoundTrip.Statement (.subw d a b) := by
  intro _ h
  refine decodeWord_of ((decodeFields_01 (fMajor_packR ..)).trans ?_) h
  unfold dec01
  simp only [fD_packR, fA_packR, fB_packR, fC_packR, fF_packR]
  rfl
theorem RoundTrip.mul (d : XReg) (a : XReg) (b : XReg) : RoundTrip.Statement (.mul d a b) := by
  intro _ h
  refine decodeWord_of ((decodeFields_02 (fMajor_packR ..)).trans ?_) h
  unfold dec02
  simp only [fD_packR, fA_packR, fB_packR, fC_packR, fF_packR]
  rfl
theorem RoundTrip.mulh (d : XReg) (a : XReg) (b : XReg) : RoundTrip.Statement (.mulh d a b) := by
  intro _ h
  refine decodeWord_of ((decodeFields_02 (fMajor_packR ..)).trans ?_) h
  unfold dec02
  simp only [fD_packR, fA_packR, fB_packR, fC_packR, fF_packR]
  rfl
theorem RoundTrip.mulhu (d : XReg) (a : XReg) (b : XReg) : RoundTrip.Statement (.mulhu d a b) := by
  intro _ h
  refine decodeWord_of ((decodeFields_02 (fMajor_packR ..)).trans ?_) h
  unfold dec02
  simp only [fD_packR, fA_packR, fB_packR, fC_packR, fF_packR]
  rfl
theorem RoundTrip.mulw (d : XReg) (a : XReg) (b : XReg) : RoundTrip.Statement (.mulw d a b) := by
  intro _ h
  refine decodeWord_of ((decodeFields_02 (fMajor_packR ..)).trans ?_) h
  unfold dec02
  simp only [fD_packR, fA_packR, fB_packR, fC_packR, fF_packR]
  rfl
theorem RoundTrip.div (d : XReg) (a : XReg) (b : XReg) : RoundTrip.Statement (.div d a b) := by
  intro _ h
  refine decodeWord_of ((decodeFields_02 (fMajor_packR ..)).trans ?_) h
  unfold dec02
  simp only [fD_packR, fA_packR, fB_packR, fC_packR, fF_packR]
  rfl
theorem RoundTrip.divu (d : XReg) (a : XReg) (b : XReg) : RoundTrip.Statement (.divu d a b) := by
  intro _ h
  refine decodeWord_of ((decodeFields_02 (fMajor_packR ..)).trans ?_) h
  unfold dec02
  simp only [fD_packR, fA_packR, fB_packR, fC_packR, fF_packR]
  rfl
theorem RoundTrip.rem (d : XReg) (a : XReg) (b : XReg) : RoundTrip.Statement (.rem d a b) := by
  intro _ h
  refine decodeWord_of ((decodeFields_02 (fMajor_packR ..)).trans ?_) h
  unfold dec02
  simp only [fD_packR, fA_packR, fB_packR, fC_packR, fF_packR]
  rfl
theorem RoundTrip.remu (d : XReg) (a : XReg) (b : XReg) : RoundTrip.Statement (.remu d a b) := by
  intro _ h
  refine decodeWord_of ((decodeFields_02 (fMajor_packR ..)).trans ?_) h
  unfold dec02
  simp only [fD_packR, fA_packR, fB_packR, fC_packR, fF_packR]
  rfl
theorem RoundTrip.madd (d : XReg) (a : XReg) (b : XReg) (c : XReg) : RoundTrip.Statement (.madd d a b c) := by
  intro _ h
  refine decodeWord_of ((decodeFields_02 (fMajor_packR ..)).trans ?_) h
  unfold dec02
  simp only [fD_packR, fA_packR, fB_packR, fC_packR, fF_packR]
  rfl
theorem RoundTrip.extr (d : XReg) (a : XReg) (p : BitVec 6) (l : BitVec 6) (s : Bool) : RoundTrip.Statement (.extr d a p l s) := by
  intro _ h
  refine decodeWord_of ((decodeFields_03 (fMajor_packI ..)).trans ?_) h
  unfold dec03
  simp only [fD_packI, fA_packI, fI_packI, sub2, sub3, sub4, sub5]
  cases s <;> rfl
theorem RoundTrip.insf (d : XReg) (a : XReg) (p : BitVec 6) (l : BitVec 6) : RoundTrip.Statement (.insf d a p l) := by
  intro _ h
  refine decodeWord_of ((decodeFields_04 (fMajor_packI ..)).trans ?_) h
  unfold dec04
  simp only [fD_packI, fA_packI, fI_packI, sub6, sub7, sub8]
  rfl
theorem RoundTrip.csrr (d : XReg) (c : BitVec 12) : RoundTrip.Statement (.csrr d c) := by
  intro _ h
  refine decodeWord_of ((decodeFields_07 (fMajor_packI ..)).trans ?_) h
  unfold dec07
  simp only [fD_packI, fA_packI, fI_packI, sub9, sub10, sub11]
  rfl
theorem RoundTrip.csrw (d : XReg) (a : XReg) (c : BitVec 12) : RoundTrip.Statement (.csrw d a c) := by
  intro _ h
  refine decodeWord_of ((decodeFields_07 (fMajor_packI ..)).trans ?_) h
  unfold dec07
  simp only [fD_packI, fA_packI, fI_packI, sub12, sub13, sub14]
  rfl
theorem RoundTrip.csrs (d : XReg) (a : XReg) (c : BitVec 12) : RoundTrip.Statement (.csrs d a c) := by
  intro _ h
  refine decodeWord_of ((decodeFields_07 (fMajor_packI ..)).trans ?_) h
  unfold dec07
  simp only [fD_packI, fA_packI, fI_packI, sub15, sub16, sub17]
  rfl
theorem RoundTrip.csrc (d : XReg) (a : XReg) (c : BitVec 12) : RoundTrip.Statement (.csrc d a c) := by
  intro _ h
  refine decodeWord_of ((decodeFields_07 (fMajor_packI ..)).trans ?_) h
  unfold dec07
  simp only [fD_packI, fA_packI, fI_packI, sub18, sub19, sub20]
  rfl
theorem RoundTrip.addi (d : XReg) (a : XReg) (i : BitVec 16) : RoundTrip.Statement (.addi d a i) := by
  intro _ h
  refine decodeWord_of ((decodeFields_08 (fMajor_packI ..)).trans ?_) h
  unfold dec08
  simp only [fD_packI, fA_packI, fI_packI]
theorem RoundTrip.andi (d : XReg) (a : XReg) (i : BitVec 16) : RoundTrip.Statement (.andi d a i) := by
  intro _ h
  refine decodeWord_of ((decodeFields_09 (fMajor_packI ..)).trans ?_) h
  unfold dec09
  simp only [fD_packI, fA_packI, fI_packI]
theorem RoundTrip.ori (d : XReg) (a : XReg) (i : BitVec 16) : RoundTrip.Statement (.ori d a i) := by
  intro _ h
  refine decodeWord_of ((decodeFields_0a (fMajor_packI ..)).trans ?_) h
  unfold dec0A
  simp only [fD_packI, fA_packI, fI_packI]
theorem RoundTrip.xori (d : XReg) (a : XReg) (i : BitVec 16) : RoundTrip.Statement (.xori d a i) := by
  intro _ h
  refine decodeWord_of ((decodeFields_0b (fMajor_packI ..)).trans ?_) h
  unfold dec0B
  simp only [fD_packI, fA_packI, fI_packI]
theorem RoundTrip.slli (d : XReg) (a : XReg) (n : BitVec 6) : RoundTrip.Statement (.slli d a n) := by
  intro _ h
  refine decodeWord_of ((decodeFields_0c (fMajor_packI ..)).trans ?_) h
  unfold dec0C
  simp only [fD_packI, fA_packI, fI_packI, fZ_packI, sub21, sub22, sub23]
  rfl
theorem RoundTrip.srli (d : XReg) (a : XReg) (n : BitVec 6) : RoundTrip.Statement (.srli d a n) := by
  intro _ h
  refine decodeWord_of ((decodeFields_0c (fMajor_packI ..)).trans ?_) h
  unfold dec0C
  simp only [fD_packI, fA_packI, fI_packI, fZ_packI, sub24, sub25, sub26]
  rfl
theorem RoundTrip.srai (d : XReg) (a : XReg) (n : BitVec 6) : RoundTrip.Statement (.srai d a n) := by
  intro _ h
  refine decodeWord_of ((decodeFields_0c (fMajor_packI ..)).trans ?_) h
  unfold dec0C
  simp only [fD_packI, fA_packI, fI_packI, fZ_packI, sub27, sub28, sub29]
  rfl
theorem RoundTrip.roli (d : XReg) (a : XReg) (n : BitVec 6) : RoundTrip.Statement (.roli d a n) := by
  intro _ h
  refine decodeWord_of ((decodeFields_0c (fMajor_packI ..)).trans ?_) h
  unfold dec0C
  simp only [fD_packI, fA_packI, fI_packI, fZ_packI, sub30, sub31, sub32]
  rfl
theorem RoundTrip.slti (d : XReg) (a : XReg) (i : BitVec 16) : RoundTrip.Statement (.slti d a i) := by
  intro _ h
  refine decodeWord_of ((decodeFields_0d (fMajor_packI ..)).trans ?_) h
  unfold dec0D
  simp only [fD_packI, fA_packI, fI_packI]
theorem RoundTrip.sltiu (d : XReg) (a : XReg) (i : BitVec 16) : RoundTrip.Statement (.sltiu d a i) := by
  intro _ h
  refine decodeWord_of ((decodeFields_0e (fMajor_packI ..)).trans ?_) h
  unfold dec0E
  simp only [fD_packI, fA_packI, fI_packI]
theorem RoundTrip.lhi (d : XReg) (i : BitVec 16) : RoundTrip.Statement (.lhi d i) := by
  intro _ h
  refine decodeWord_of ((decodeFields_0f (fMajor_packI ..)).trans ?_) h
  unfold dec0F
  simp only [fD_packI, fA_packI, fI_packI]
  rfl
theorem RoundTrip.addpc (d : XReg) (o : BitVec 16) : RoundTrip.Statement (.addpc d o) := by
  intro _ h
  refine decodeWord_of ((decodeFields_10 (fMajor_packI ..)).trans ?_) h
  unfold dec10
  simp only [fD_packI, fA_packI, fI_packI]
  rfl
theorem RoundTrip.beq (b : XReg) (a : XReg) (o : BitVec 16) : RoundTrip.Statement (.beq b a o) := by
  intro _ h
  refine decodeWord_of ((decodeFields_11 (fMajor_packI ..)).trans ?_) h
  unfold dec11
  simp only [fD_packI, fA_packI, fI_packI]
theorem RoundTrip.bne (b : XReg) (a : XReg) (o : BitVec 16) : RoundTrip.Statement (.bne b a o) := by
  intro _ h
  refine decodeWord_of ((decodeFields_12 (fMajor_packI ..)).trans ?_) h
  unfold dec12
  simp only [fD_packI, fA_packI, fI_packI]
theorem RoundTrip.blt (b : XReg) (a : XReg) (o : BitVec 16) : RoundTrip.Statement (.blt b a o) := by
  intro _ h
  refine decodeWord_of ((decodeFields_13 (fMajor_packI ..)).trans ?_) h
  unfold dec13
  simp only [fD_packI, fA_packI, fI_packI]
theorem RoundTrip.bge (b : XReg) (a : XReg) (o : BitVec 16) : RoundTrip.Statement (.bge b a o) := by
  intro _ h
  refine decodeWord_of ((decodeFields_14 (fMajor_packI ..)).trans ?_) h
  unfold dec14
  simp only [fD_packI, fA_packI, fI_packI]
theorem RoundTrip.bltu (b : XReg) (a : XReg) (o : BitVec 16) : RoundTrip.Statement (.bltu b a o) := by
  intro _ h
  refine decodeWord_of ((decodeFields_15 (fMajor_packI ..)).trans ?_) h
  unfold dec15
  simp only [fD_packI, fA_packI, fI_packI]
theorem RoundTrip.bgeu (b : XReg) (a : XReg) (o : BitVec 16) : RoundTrip.Statement (.bgeu b a o) := by
  intro _ h
  refine decodeWord_of ((decodeFields_16 (fMajor_packI ..)).trans ?_) h
  unfold dec16
  simp only [fD_packI, fA_packI, fI_packI]
theorem RoundTrip.jmp (o : BitVec 26) : RoundTrip.Statement (.jmp o) := by
  intro _ h
  refine decodeWord_of ((decodeFields_17 (fMajor_packJ ..)).trans ?_) h
  unfold dec17
  simp only [fO_packJ]
theorem RoundTrip.jal (o : BitVec 26) : RoundTrip.Statement (.jal o) := by
  intro _ h
  refine decodeWord_of ((decodeFields_18 (fMajor_packJ ..)).trans ?_) h
  unfold dec18
  simp only [fO_packJ]
theorem RoundTrip.jalr (d : XReg) (a : XReg) (i : BitVec 16) : RoundTrip.Statement (.jalr d a i) := by
  intro _ h
  refine decodeWord_of ((decodeFields_19 (fMajor_packI ..)).trans ?_) h
  unfold dec19
  simp only [fD_packI, fA_packI, fI_packI]
theorem RoundTrip.loop (a : XReg) (l : BitVec 5) : RoundTrip.Statement (.loop a l) := by
  intro _ h
  refine decodeWord_of ((decodeFields_1a (fMajor_packI ..)).trans ?_) h
  unfold dec1A
  simp only [fD_packI, fA_packI, fI_packI, sub33, sub34]
  rfl
theorem RoundTrip.xrd (d : XReg) (a : XReg) : RoundTrip.Statement (.xrd d a) := by
  intro _ h
  refine decodeWord_of ((decodeFields_1b (fMajor_packR ..)).trans ?_) h
  unfold dec1B
  simp only [fD_packR, fA_packR, fB_packR, fC_packR, fF_packR]
  rfl
theorem RoundTrip.xwr (a : XReg) (b : XReg) : RoundTrip.Statement (.xwr a b) := by
  intro _ h
  refine decodeWord_of ((decodeFields_1b (fMajor_packR ..)).trans ?_) h
  unfold dec1B
  simp only [fD_packR, fA_packR, fB_packR, fC_packR, fF_packR]
  rfl
theorem RoundTrip.fadd (d : XReg) (a : XReg) (b : XReg) (p : Prec) : RoundTrip.Statement (.fadd d a b p) := by
  intro _ h
  refine decodeWord_of ((decodeFields_1c (fMajor_packR ..)).trans ?_) h
  unfold dec1C
  simp only [fD_packR, fA_packR, fB_packR, fC_packR, fF_packR, fF5_packR, sub35, sub36]
  cases p <;> rfl
theorem RoundTrip.fsub (d : XReg) (a : XReg) (b : XReg) (p : Prec) : RoundTrip.Statement (.fsub d a b p) := by
  intro _ h
  refine decodeWord_of ((decodeFields_1c (fMajor_packR ..)).trans ?_) h
  unfold dec1C
  simp only [fD_packR, fA_packR, fB_packR, fC_packR, fF_packR, fF5_packR, sub37, sub38]
  cases p <;> rfl
theorem RoundTrip.fmul (d : XReg) (a : XReg) (b : XReg) (p : Prec) : RoundTrip.Statement (.fmul d a b p) := by
  intro _ h
  refine decodeWord_of ((decodeFields_1c (fMajor_packR ..)).trans ?_) h
  unfold dec1C
  simp only [fD_packR, fA_packR, fB_packR, fC_packR, fF_packR, fF5_packR, sub39, sub40]
  cases p <;> rfl
theorem RoundTrip.fdiv (d : XReg) (a : XReg) (b : XReg) (p : Prec) : RoundTrip.Statement (.fdiv d a b p) := by
  intro _ h
  refine decodeWord_of ((decodeFields_1c (fMajor_packR ..)).trans ?_) h
  unfold dec1C
  simp only [fD_packR, fA_packR, fB_packR, fC_packR, fF_packR, fF5_packR, sub41, sub42]
  cases p <;> rfl
theorem RoundTrip.fsqrt (d : XReg) (a : XReg) (p : Prec) : RoundTrip.Statement (.fsqrt d a p) := by
  intro _ h
  refine decodeWord_of ((decodeFields_1c (fMajor_packR ..)).trans ?_) h
  unfold dec1C
  simp only [fD_packR, fA_packR, fB_packR, fC_packR, fF_packR, fF5_packR, sub43, sub44]
  cases p <;> rfl
theorem RoundTrip.fmin (d : XReg) (a : XReg) (b : XReg) (p : Prec) : RoundTrip.Statement (.fmin d a b p) := by
  intro _ h
  refine decodeWord_of ((decodeFields_1c (fMajor_packR ..)).trans ?_) h
  unfold dec1C
  simp only [fD_packR, fA_packR, fB_packR, fC_packR, fF_packR, fF5_packR, sub45, sub46]
  cases p <;> rfl
theorem RoundTrip.fmax (d : XReg) (a : XReg) (b : XReg) (p : Prec) : RoundTrip.Statement (.fmax d a b p) := by
  intro _ h
  refine decodeWord_of ((decodeFields_1c (fMajor_packR ..)).trans ?_) h
  unfold dec1C
  simp only [fD_packR, fA_packR, fB_packR, fC_packR, fF_packR, fF5_packR, sub47, sub48]
  cases p <;> rfl
theorem RoundTrip.feq (d : XReg) (a : XReg) (b : XReg) (p : Prec) : RoundTrip.Statement (.feq d a b p) := by
  intro _ h
  refine decodeWord_of ((decodeFields_1c (fMajor_packR ..)).trans ?_) h
  unfold dec1C
  simp only [fD_packR, fA_packR, fB_packR, fC_packR, fF_packR, fF5_packR, sub49, sub50]
  cases p <;> rfl
theorem RoundTrip.flt (d : XReg) (a : XReg) (b : XReg) (p : Prec) : RoundTrip.Statement (.flt d a b p) := by
  intro _ h
  refine decodeWord_of ((decodeFields_1c (fMajor_packR ..)).trans ?_) h
  unfold dec1C
  simp only [fD_packR, fA_packR, fB_packR, fC_packR, fF_packR, fF5_packR, sub51, sub52]
  cases p <;> rfl
theorem RoundTrip.fle (d : XReg) (a : XReg) (b : XReg) (p : Prec) : RoundTrip.Statement (.fle d a b p) := by
  intro _ h
  refine decodeWord_of ((decodeFields_1c (fMajor_packR ..)).trans ?_) h
  unfold dec1C
  simp only [fD_packR, fA_packR, fB_packR, fC_packR, fF_packR, fF5_packR, sub53, sub54]
  cases p <;> rfl
theorem RoundTrip.fclass (d : XReg) (a : XReg) (p : Prec) : RoundTrip.Statement (.fclass d a p) := by
  intro _ h
  refine decodeWord_of ((decodeFields_1c (fMajor_packR ..)).trans ?_) h
  unfold dec1C
  simp only [fD_packR, fA_packR, fB_packR, fC_packR, fF_packR, fF5_packR, sub55, sub56]
  cases p <;> rfl
theorem RoundTrip.fsgn (d : XReg) (a : XReg) (b : XReg) (v : SgnVariant) (p : Prec) : RoundTrip.Statement (.fsgn d a b v p) := by
  intro _ h
  refine decodeWord_of ((decodeFields_1c (fMajor_packR ..)).trans ?_) h
  unfold dec1C
  simp only [fD_packR, fA_packR, fB_packR, fC_packR, fF_packR, fF5_packR, sub57, sub58, sub59, sub60]
  cases v <;> cases p <;> rfl
theorem RoundTrip.fcvti (d : XReg) (a : XReg) (v : IntVariant) (p : Prec) : RoundTrip.Statement (.fcvti d a v p) := by
  intro _ h
  refine decodeWord_of ((decodeFields_1c (fMajor_packR ..)).trans ?_) h
  unfold dec1C
  simp only [fD_packR, fA_packR, fB_packR, fC_packR, fF_packR, fF5_packR, sub61, sub58, sub62, sub60]
  cases v <;> cases p <;> rfl
theorem RoundTrip.fcvtf (d : XReg) (a : XReg) (v : IntVariant) (p : Prec) : RoundTrip.Statement (.fcvtf d a v p) := by
  intro _ h
  refine decodeWord_of ((decodeFields_1c (fMajor_packR ..)).trans ?_) h
  unfold dec1C
  simp only [fD_packR, fA_packR, fB_packR, fC_packR, fF_packR, fF5_packR, sub63, sub58, sub64, sub60]
  cases v <;> cases p <;> rfl
theorem RoundTrip.fcvtp (d : XReg) (a : XReg) (v : FmtVariant) (p : Prec) : RoundTrip.Statement (.fcvtp d a v p) := by
  intro _ h
  refine decodeWord_of ((decodeFields_1c (fMajor_packR ..)).trans ?_) h
  unfold dec1C
  simp only [fD_packR, fA_packR, fB_packR, fC_packR, fF_packR, fF5_packR, sub65, sub58, sub66, sub60]
  cases v <;> cases p <;> rfl
theorem RoundTrip.fma (d : XReg) (a : XReg) (b : XReg) (c : XReg) (p : Prec) : RoundTrip.Statement (.fma d a b c p) := by
  intro _ h
  refine decodeWord_of ((decodeFields_1d (fMajor_packR ..)).trans ?_) h
  unfold dec1D
  simp only [fD_packR, fA_packR, fB_packR, fC_packR, fF_packR, fF5_packR, sub35, sub36]
  cases p <;> rfl
theorem RoundTrip.fms (d : XReg) (a : XReg) (b : XReg) (c : XReg) (p : Prec) : RoundTrip.Statement (.fms d a b c p) := by
  intro _ h
  refine decodeWord_of ((decodeFields_1d (fMajor_packR ..)).trans ?_) h
  unfold dec1D
  simp only [fD_packR, fA_packR, fB_packR, fC_packR, fF_packR, fF5_packR, sub37, sub38]
  cases p <;> rfl
theorem RoundTrip.fnma (d : XReg) (a : XReg) (b : XReg) (c : XReg) (p : Prec) : RoundTrip.Statement (.fnma d a b c p) := by
  intro _ h
  refine decodeWord_of ((decodeFields_1d (fMajor_packR ..)).trans ?_) h
  unfold dec1D
  simp only [fD_packR, fA_packR, fB_packR, fC_packR, fF_packR, fF5_packR, sub39, sub40]
  cases p <;> rfl
theorem RoundTrip.fnms (d : XReg) (a : XReg) (b : XReg) (c : XReg) (p : Prec) : RoundTrip.Statement (.fnms d a b c p) := by
  intro _ h
  refine decodeWord_of ((decodeFields_1d (fMajor_packR ..)).trans ?_) h
  unfold dec1D
  simp only [fD_packR, fA_packR, fB_packR, fC_packR, fF_packR, fF5_packR, sub41, sub42]
  cases p <;> rfl
theorem RoundTrip.ld (d : XReg) (a : XReg) (wd : LdWidth) (i : Bool) (o : BitVec 12) : RoundTrip.Statement (.ld d a wd i o) := by
  intro _ h
  refine decodeWord_of ((decodeFields_20 (fMajor_packM ..)).trans ?_) h
  unfold dec20
  simp only [fD_packM, fA_packM, fW_packM, fPI_packM, fI12_packM]
  cases wd <;> cases i <;> rfl
theorem RoundTrip.st (s : XReg) (a : XReg) (wd : StWidth) (i : Bool) (o : BitVec 12) : RoundTrip.Statement (.st s a wd i o) := by
  intro _ h
  refine decodeWord_of ((decodeFields_21 (fMajor_packM ..)).trans ?_) h
  unfold dec21
  simp only [fD_packM, fA_packM, fW_packM, fPI_packM, fI12_packM]
  cases wd <;> cases i <;> rfl
theorem RoundTrip.ldx (d : XReg) (a : XReg) (b : XReg) (wd : LdWidth) : RoundTrip.Statement (.ldx d a b wd) := by
  intro _ h
  refine decodeWord_of ((decodeFields_22 (fMajor_packR ..)).trans ?_) h
  unfold dec22
  simp only [fD_packR, fA_packR, fB_packR, fC_packR, fF_packR, sub0, sub1]
  cases wd <;> rfl
theorem RoundTrip.stx (s : XReg) (a : XReg) (b : XReg) (wd : StWidth) : RoundTrip.Statement (.stx s a b wd) := by
  intro _ h
  refine decodeWord_of ((decodeFields_23 (fMajor_packR ..)).trans ?_) h
  unfold dec23
  simp only [fD_packR, fA_packR, fB_packR, fC_packR, fF_packR, sub0, sub1]
  cases wd <;> rfl
theorem RoundTrip.vld (d : VReg) (a : XReg) (i : Bool) (o : BitVec 12) : RoundTrip.Statement (.vld d a i o) := by
  intro _ h
  refine decodeWord_of ((decodeFields_24 (fMajor_packM ..)).trans ?_) h
  unfold dec24
  simp only [fD_packM, fA_packM, fW_packM, fPI_packM, fI12_packM]
  cases i <;> rfl
theorem RoundTrip.vst (s : VReg) (a : XReg) (i : Bool) (o : BitVec 12) : RoundTrip.Statement (.vst s a i o) := by
  intro _ h
  refine decodeWord_of ((decodeFields_25 (fMajor_packM ..)).trans ?_) h
  unfold dec25
  simp only [fD_packM, fA_packM, fW_packM, fPI_packM, fI12_packM]
  cases i <;> rfl
theorem RoundTrip.vlds (d : VReg) (a : XReg) (b : XReg) : RoundTrip.Statement (.vlds d a b) := by
  intro _ h
  refine decodeWord_of ((decodeFields_26 (fMajor_packR ..)).trans ?_) h
  unfold dec26
  simp only [fD_packR, fA_packR, fB_packR, fC_packR, fF_packR]
  rfl
theorem RoundTrip.vsts (s : VReg) (a : XReg) (b : XReg) : RoundTrip.Statement (.vsts s a b) := by
  intro _ h
  refine decodeWord_of ((decodeFields_27 (fMajor_packR ..)).trans ?_) h
  unfold dec27
  simp only [fD_packR, fA_packR, fB_packR, fC_packR, fF_packR]
  rfl
theorem RoundTrip.vldg (d : VReg) (a : XReg) (b : VReg) : RoundTrip.Statement (.vldg d a b) := by
  intro _ h
  refine decodeWord_of ((decodeFields_28 (fMajor_packR ..)).trans ?_) h
  unfold dec28
  simp only [fD_packR, fA_packR, fB_packR, fC_packR, fF_packR]
  rfl
theorem RoundTrip.vstg (s : VReg) (a : XReg) (b : VReg) : RoundTrip.Statement (.vstg s a b) := by
  intro _ h
  refine decodeWord_of ((decodeFields_29 (fMajor_packR ..)).trans ?_) h
  unfold dec29
  simp only [fD_packR, fA_packR, fB_packR, fC_packR, fF_packR]
  rfl
theorem RoundTrip.dld (d : DReg) (a : XReg) (i : Bool) (o : BitVec 12) : RoundTrip.Statement (.dld d a i o) := by
  intro _ h
  refine decodeWord_of ((decodeFields_2a (fMajor_packM ..)).trans ?_) h
  unfold dec2A
  simp only [fD_packM, fA_packM, fW_packM, fPI_packM, fI12_packM, sub67, sub68]
  cases i <;> rfl
theorem RoundTrip.dst (d : DReg) (a : XReg) (i : Bool) (o : BitVec 12) : RoundTrip.Statement (.dst d a i o) := by
  intro _ h
  refine decodeWord_of ((decodeFields_2b (fMajor_packM ..)).trans ?_) h
  unfold dec2B
  simp only [fD_packM, fA_packM, fW_packM, fPI_packM, fI12_packM, sub67, sub68]
  cases i <;> rfl
theorem RoundTrip.amoadd (d : XReg) (a : XReg) (b : XReg) (k : OrdKind) (s : Scope) (wd : AmoWidth) : RoundTrip.Statement (.amoadd d a b k s wd) := by
  intro _ h
  refine decodeWord_of ((decodeFields_2c (fMajor_packR ..)).trans ?_) h
  unfold dec2C
  simp only [fD_packR, fA_packR, fB_packR, fC_packR, fF_packR, sub69, sub70, sub71, sub72, sub73]
  cases k <;> cases s <;> cases wd <;> rfl
theorem RoundTrip.amoand (d : XReg) (a : XReg) (b : XReg) (k : OrdKind) (s : Scope) (wd : AmoWidth) : RoundTrip.Statement (.amoand d a b k s wd) := by
  intro _ h
  refine decodeWord_of ((decodeFields_2c (fMajor_packR ..)).trans ?_) h
  unfold dec2C
  simp only [fD_packR, fA_packR, fB_packR, fC_packR, fF_packR, sub69, sub70, sub74, sub75, sub76]
  cases k <;> cases s <;> cases wd <;> rfl
theorem RoundTrip.amoor (d : XReg) (a : XReg) (b : XReg) (k : OrdKind) (s : Scope) (wd : AmoWidth) : RoundTrip.Statement (.amoor d a b k s wd) := by
  intro _ h
  refine decodeWord_of ((decodeFields_2c (fMajor_packR ..)).trans ?_) h
  unfold dec2C
  simp only [fD_packR, fA_packR, fB_packR, fC_packR, fF_packR, sub69, sub70, sub77, sub78, sub79]
  cases k <;> cases s <;> cases wd <;> rfl
theorem RoundTrip.amoxor (d : XReg) (a : XReg) (b : XReg) (k : OrdKind) (s : Scope) (wd : AmoWidth) : RoundTrip.Statement (.amoxor d a b k s wd) := by
  intro _ h
  refine decodeWord_of ((decodeFields_2c (fMajor_packR ..)).trans ?_) h
  unfold dec2C
  simp only [fD_packR, fA_packR, fB_packR, fC_packR, fF_packR, sub69, sub70, sub80, sub81, sub82]
  cases k <;> cases s <;> cases wd <;> rfl
theorem RoundTrip.amomin (d : XReg) (a : XReg) (b : XReg) (k : OrdKind) (s : Scope) (wd : AmoWidth) : RoundTrip.Statement (.amomin d a b k s wd) := by
  intro _ h
  refine decodeWord_of ((decodeFields_2c (fMajor_packR ..)).trans ?_) h
  unfold dec2C
  simp only [fD_packR, fA_packR, fB_packR, fC_packR, fF_packR, sub69, sub70, sub83, sub84, sub85]
  cases k <;> cases s <;> cases wd <;> rfl
theorem RoundTrip.amomax (d : XReg) (a : XReg) (b : XReg) (k : OrdKind) (s : Scope) (wd : AmoWidth) : RoundTrip.Statement (.amomax d a b k s wd) := by
  intro _ h
  refine decodeWord_of ((decodeFields_2c (fMajor_packR ..)).trans ?_) h
  unfold dec2C
  simp only [fD_packR, fA_packR, fB_packR, fC_packR, fF_packR, sub69, sub70, sub86, sub87, sub88]
  cases k <;> cases s <;> cases wd <;> rfl
theorem RoundTrip.amominu (d : XReg) (a : XReg) (b : XReg) (k : OrdKind) (s : Scope) (wd : AmoWidth) : RoundTrip.Statement (.amominu d a b k s wd) := by
  intro _ h
  refine decodeWord_of ((decodeFields_2c (fMajor_packR ..)).trans ?_) h
  unfold dec2C
  simp only [fD_packR, fA_packR, fB_packR, fC_packR, fF_packR, sub69, sub70, sub89, sub90, sub91]
  cases k <;> cases s <;> cases wd <;> rfl
theorem RoundTrip.amomaxu (d : XReg) (a : XReg) (b : XReg) (k : OrdKind) (s : Scope) (wd : AmoWidth) : RoundTrip.Statement (.amomaxu d a b k s wd) := by
  intro _ h
  refine decodeWord_of ((decodeFields_2c (fMajor_packR ..)).trans ?_) h
  unfold dec2C
  simp only [fD_packR, fA_packR, fB_packR, fC_packR, fF_packR, sub69, sub70, sub92, sub93, sub94]
  cases k <;> cases s <;> cases wd <;> rfl
theorem RoundTrip.amoswap (d : XReg) (a : XReg) (b : XReg) (k : OrdKind) (s : Scope) (wd : AmoWidth) : RoundTrip.Statement (.amoswap d a b k s wd) := by
  intro _ h
  refine decodeWord_of ((decodeFields_2c (fMajor_packR ..)).trans ?_) h
  unfold dec2C
  simp only [fD_packR, fA_packR, fB_packR, fC_packR, fF_packR, sub69, sub70, sub95, sub96, sub97]
  cases k <;> cases s <;> cases wd <;> rfl
theorem RoundTrip.amofadd (d : XReg) (a : XReg) (b : XReg) (k : OrdKind) (s : Scope) (wd : AmoWidth) : RoundTrip.Statement (.amofadd d a b k s wd) := by
  intro _ h
  refine decodeWord_of ((decodeFields_2c (fMajor_packR ..)).trans ?_) h
  unfold dec2C
  simp only [fD_packR, fA_packR, fB_packR, fC_packR, fF_packR, sub69, sub70, sub98, sub99, sub100]
  cases k <;> cases s <;> cases wd <;> rfl
theorem RoundTrip.cas (d : XReg) (a : XReg) (b : XReg) (c : XReg) (wd : AmoWidth) (k : OrdKind) (s : Scope) : RoundTrip.Statement (.cas d a b c wd k s) := by
  intro _ h
  refine decodeWord_of ((decodeFields_2d (fMajor_packR ..)).trans ?_) h
  unfold dec2D
  simp only [fD_packR, fA_packR, fB_packR, fC_packR, fF_packR, sub101, sub102, sub103]
  cases wd <;> cases k <;> cases s <;> rfl
theorem RoundTrip.fence (k : FenceKind) (s : Scope) (m : BitVec 8) : RoundTrip.Statement (.fence k s m) := by
  intro _ h
  refine decodeWord_of ((decodeFields_2e (fMajor_packI ..)).trans ?_) h
  unfold dec2E
  simp only [fD_packI, fA_packI, fI_packI, sub104, sub105, sub106, sub107]
  cases k <;> cases s <;> rfl
theorem RoundTrip.waitw (a : XReg) (b : XReg) : RoundTrip.Statement (.waitw a b) := by
  intro _ h
  refine decodeWord_of ((decodeFields_2f (fMajor_packR ..)).trans ?_) h
  unfold dec2F
  simp only [fD_packR, fA_packR, fB_packR, fC_packR, fF_packR]
  rfl
theorem RoundTrip.waitc (c : CReg) (t : BitVec 8) : RoundTrip.Statement (.waitc c t) := by
  intro _ h
  refine decodeWord_of ((decodeFields_2f (fMajor_packE ..)).trans ?_) h
  unfold dec2F
  simp only [fD_packE, fA_packE, fB_packE, fP_packE, fZ_packE, fF_packE, sub1, sub0, extract_join t 0 5 3, extract_all]
  rfl
theorem RoundTrip.vadd (d : VReg) (a : VReg) (b : VReg) (p : PReg) (t : VType) : RoundTrip.Statement (.vadd d a b p t) := by
  intro _ h
  refine decodeWord_of ((decodeFields_30 (fMajor_packV ..)).trans ?_) h
  unfold dec30
  simp only [fD_packV, fA_packV, fB_packV, fP_packV, fT_packV, fF5_packV]
  cases t <;> rfl
theorem RoundTrip.vsub (d : VReg) (a : VReg) (b : VReg) (p : PReg) (t : VType) : RoundTrip.Statement (.vsub d a b p t) := by
  intro _ h
  refine decodeWord_of ((decodeFields_30 (fMajor_packV ..)).trans ?_) h
  unfold dec30
  simp only [fD_packV, fA_packV, fB_packV, fP_packV, fT_packV, fF5_packV]
  cases t <;> rfl
theorem RoundTrip.vmul (d : VReg) (a : VReg) (b : VReg) (p : PReg) (t : VType) : RoundTrip.Statement (.vmul d a b p t) := by
  intro _ h
  refine decodeWord_of ((decodeFields_30 (fMajor_packV ..)).trans ?_) h
  unfold dec30
  simp only [fD_packV, fA_packV, fB_packV, fP_packV, fT_packV, fF5_packV]
  cases t <;> rfl
theorem RoundTrip.vma (d : VReg) (a : VReg) (b : VReg) (p : PReg) (t : VType) : RoundTrip.Statement (.vma d a b p t) := by
  intro _ h
  refine decodeWord_of ((decodeFields_30 (fMajor_packV ..)).trans ?_) h
  unfold dec30
  simp only [fD_packV, fA_packV, fB_packV, fP_packV, fT_packV, fF5_packV]
  cases t <;> rfl
theorem RoundTrip.vmin (d : VReg) (a : VReg) (b : VReg) (p : PReg) (t : VType) : RoundTrip.Statement (.vmin d a b p t) := by
  intro _ h
  refine decodeWord_of ((decodeFields_30 (fMajor_packV ..)).trans ?_) h
  unfold dec30
  simp only [fD_packV, fA_packV, fB_packV, fP_packV, fT_packV, fF5_packV]
  cases t <;> rfl
theorem RoundTrip.vmax (d : VReg) (a : VReg) (b : VReg) (p : PReg) (t : VType) : RoundTrip.Statement (.vmax d a b p t) := by
  intro _ h
  refine decodeWord_of ((decodeFields_30 (fMajor_packV ..)).trans ?_) h
  unfold dec30
  simp only [fD_packV, fA_packV, fB_packV, fP_packV, fT_packV, fF5_packV]
  cases t <;> rfl
theorem RoundTrip.vand (d : VReg) (a : VReg) (b : VReg) (p : PReg) (t : VType) : RoundTrip.Statement (.vand d a b p t) := by
  intro _ h
  refine decodeWord_of ((decodeFields_30 (fMajor_packV ..)).trans ?_) h
  unfold dec30
  simp only [fD_packV, fA_packV, fB_packV, fP_packV, fT_packV, fF5_packV]
  cases t <;> rfl
theorem RoundTrip.vor (d : VReg) (a : VReg) (b : VReg) (p : PReg) (t : VType) : RoundTrip.Statement (.vor d a b p t) := by
  intro _ h
  refine decodeWord_of ((decodeFields_30 (fMajor_packV ..)).trans ?_) h
  unfold dec30
  simp only [fD_packV, fA_packV, fB_packV, fP_packV, fT_packV, fF5_packV]
  cases t <;> rfl
theorem RoundTrip.vxor (d : VReg) (a : VReg) (b : VReg) (p : PReg) (t : VType) : RoundTrip.Statement (.vxor d a b p t) := by
  intro _ h
  refine decodeWord_of ((decodeFields_30 (fMajor_packV ..)).trans ?_) h
  unfold dec30
  simp only [fD_packV, fA_packV, fB_packV, fP_packV, fT_packV, fF5_packV]
  cases t <;> rfl
theorem RoundTrip.vandn (d : VReg) (a : VReg) (b : VReg) (p : PReg) (t : VType) : RoundTrip.Statement (.vandn d a b p t) := by
  intro _ h
  refine decodeWord_of ((decodeFields_30 (fMajor_packV ..)).trans ?_) h
  unfold dec30
  simp only [fD_packV, fA_packV, fB_packV, fP_packV, fT_packV, fF5_packV]
  cases t <;> rfl
theorem RoundTrip.vshl (d : VReg) (a : VReg) (b : VReg) (p : PReg) (t : VType) : RoundTrip.Statement (.vshl d a b p t) := by
  intro _ h
  refine decodeWord_of ((decodeFields_30 (fMajor_packV ..)).trans ?_) h
  unfold dec30
  simp only [fD_packV, fA_packV, fB_packV, fP_packV, fT_packV, fF5_packV]
  cases t <;> rfl
theorem RoundTrip.vshr (d : VReg) (a : VReg) (b : VReg) (p : PReg) (t : VType) : RoundTrip.Statement (.vshr d a b p t) := by
  intro _ h
  refine decodeWord_of ((decodeFields_30 (fMajor_packV ..)).trans ?_) h
  unfold dec30
  simp only [fD_packV, fA_packV, fB_packV, fP_packV, fT_packV, fF5_packV]
  cases t <;> rfl
theorem RoundTrip.vabs (d : VReg) (a : VReg) (p : PReg) (t : VType) : RoundTrip.Statement (.vabs d a p t) := by
  intro _ h
  refine decodeWord_of ((decodeFields_30 (fMajor_packV ..)).trans ?_) h
  unfold dec30
  simp only [fD_packV, fA_packV, fB_packV, fP_packV, fT_packV, fF5_packV]
  cases t <;> rfl
theorem RoundTrip.vneg (d : VReg) (a : VReg) (p : PReg) (t : VType) : RoundTrip.Statement (.vneg d a p t) := by
  intro _ h
  refine decodeWord_of ((decodeFields_30 (fMajor_packV ..)).trans ?_) h
  unfold dec30
  simp only [fD_packV, fA_packV, fB_packV, fP_packV, fT_packV, fF5_packV]
  cases t <;> rfl
theorem RoundTrip.vsel (d : VReg) (a : VReg) (b : VReg) (p : PReg) (t : VType) : RoundTrip.Statement (.vsel d a b p t) := by
  intro _ h
  refine decodeWord_of ((decodeFields_30 (fMajor_packV ..)).trans ?_) h
  unfold dec30
  simp only [fD_packV, fA_packV, fB_packV, fP_packV, fT_packV, fF5_packV]
  cases t <;> rfl
theorem RoundTrip.vaddsat (d : VReg) (a : VReg) (b : VReg) (p : PReg) (t : VType) : RoundTrip.Statement (.vaddsat d a b p t) := by
  intro _ h
  refine decodeWord_of ((decodeFields_30 (fMajor_packV ..)).trans ?_) h
  unfold dec30
  simp only [fD_packV, fA_packV, fB_packV, fP_packV, fT_packV, fF5_packV]
  cases t <;> rfl
theorem RoundTrip.vsubsat (d : VReg) (a : VReg) (b : VReg) (p : PReg) (t : VType) : RoundTrip.Statement (.vsubsat d a b p t) := by
  intro _ h
  refine decodeWord_of ((decodeFields_30 (fMajor_packV ..)).trans ?_) h
  unfold dec30
  simp only [fD_packV, fA_packV, fB_packV, fP_packV, fT_packV, fF5_packV]
  cases t <;> rfl
theorem RoundTrip.vmulh (d : VReg) (a : VReg) (b : VReg) (p : PReg) (t : VType) : RoundTrip.Statement (.vmulh d a b p t) := by
  intro _ h
  refine decodeWord_of ((decodeFields_30 (fMajor_packV ..)).trans ?_) h
  unfold dec30
  simp only [fD_packV, fA_packV, fB_packV, fP_packV, fT_packV, fF5_packV]
  cases t <;> rfl
theorem RoundTrip.vdot4 (d : VReg) (a : VReg) (b : VReg) (p : PReg) (t : VType) : RoundTrip.Statement (.vdot4 d a b p t) := by
  intro _ h
  refine decodeWord_of ((decodeFields_30 (fMajor_packV ..)).trans ?_) h
  unfold dec30
  simp only [fD_packV, fA_packV, fB_packV, fP_packV, fT_packV, fF5_packV]
  cases t <;> rfl
theorem RoundTrip.vdot2 (d : VReg) (a : VReg) (b : VReg) (p : PReg) (t : VType) : RoundTrip.Statement (.vdot2 d a b p t) := by
  intro _ h
  refine decodeWord_of ((decodeFields_30 (fMajor_packV ..)).trans ?_) h
  unfold dec30
  simp only [fD_packV, fA_packV, fB_packV, fP_packV, fT_packV, fF5_packV]
  cases t <;> rfl
theorem RoundTrip.vbcast (d : VReg) (a : XReg) (p : PReg) (t : VType) : RoundTrip.Statement (.vbcast d a p t) := by
  intro _ h
  refine decodeWord_of ((decodeFields_31 (fMajor_packV ..)).trans ?_) h
  unfold dec31
  simp only [fD_packV, fA_packV, fB_packV, fP_packV, fT_packV, fF5_packV]
  cases t <;> rfl
theorem RoundTrip.vmovx (d : VReg) (a : XReg) (b : XReg) (t : VType) : RoundTrip.Statement (.vmovx d a b t) := by
  intro _ h
  refine decodeWord_of ((decodeFields_31 (fMajor_packV ..)).trans ?_) h
  unfold dec31
  simp only [fD_packV, fA_packV, fB_packV, fP_packV, fT_packV, fF5_packV]
  cases t <;> rfl
theorem RoundTrip.vextx (d : XReg) (a : VReg) (b : XReg) (t : VType) : RoundTrip.Statement (.vextx d a b t) := by
  intro _ h
  refine decodeWord_of ((decodeFields_31 (fMajor_packV ..)).trans ?_) h
  unfold dec31
  simp only [fD_packV, fA_packV, fB_packV, fP_packV, fT_packV, fF5_packV]
  cases t <;> rfl
theorem RoundTrip.vperm (d : VReg) (a : VReg) (b : VReg) (p : PReg) (t : VType) : RoundTrip.Statement (.vperm d a b p t) := by
  intro _ h
  refine decodeWord_of ((decodeFields_31 (fMajor_packV ..)).trans ?_) h
  unfold dec31
  simp only [fD_packV, fA_packV, fB_packV, fP_packV, fT_packV, fF5_packV]
  cases t <;> rfl
theorem RoundTrip.vrot (d : VReg) (a : VReg) (b : XReg) (p : PReg) (t : VType) : RoundTrip.Statement (.vrot d a b p t) := by
  intro _ h
  refine decodeWord_of ((decodeFields_31 (fMajor_packV ..)).trans ?_) h
  unfold dec31
  simp only [fD_packV, fA_packV, fB_packV, fP_packV, fT_packV, fF5_packV]
  cases t <;> rfl
theorem RoundTrip.vredadd (d : XReg) (a : VReg) (p : PReg) (t : VType) : RoundTrip.Statement (.vredadd d a p t) := by
  intro _ h
  refine decodeWord_of ((decodeFields_31 (fMajor_packV ..)).trans ?_) h
  unfold dec31
  simp only [fD_packV, fA_packV, fB_packV, fP_packV, fT_packV, fF5_packV]
  cases t <;> rfl
theorem RoundTrip.vredmin (d : XReg) (a : VReg) (p : PReg) (t : VType) : RoundTrip.Statement (.vredmin d a p t) := by
  intro _ h
  refine decodeWord_of ((decodeFields_31 (fMajor_packV ..)).trans ?_) h
  unfold dec31
  simp only [fD_packV, fA_packV, fB_packV, fP_packV, fT_packV, fF5_packV]
  cases t <;> rfl
theorem RoundTrip.vredmax (d : XReg) (a : VReg) (p : PReg) (t : VType) : RoundTrip.Statement (.vredmax d a p t) := by
  intro _ h
  refine decodeWord_of ((decodeFields_31 (fMajor_packV ..)).trans ?_) h
  unfold dec31
  simp only [fD_packV, fA_packV, fB_packV, fP_packV, fT_packV, fF5_packV]
  cases t <;> rfl
theorem RoundTrip.vcvt (d : VReg) (a : VReg) (f : Bool) (s : BitVec 4) (p : PReg) (t : VType) : RoundTrip.Statement (.vcvt d a f s p t) := by
  intro _ h
  refine decodeWord_of ((decodeFields_31 (fMajor_packV ..)).trans ?_) h
  unfold dec31
  simp only [fD_packV, fA_packV, fB_packV, fP_packV, fT_packV, fF5_packV, sub108, sub109]
  cases f <;> cases t <;> rfl
theorem RoundTrip.vrcp (d : VReg) (a : VReg) (p : PReg) (t : VType) : RoundTrip.Statement (.vrcp d a p t) := by
  intro _ h
  refine decodeWord_of ((decodeFields_31 (fMajor_packV ..)).trans ?_) h
  unfold dec31
  simp only [fD_packV, fA_packV, fB_packV, fP_packV, fT_packV, fF5_packV]
  cases t <;> rfl
theorem RoundTrip.vrsq (d : VReg) (a : VReg) (p : PReg) (t : VType) : RoundTrip.Statement (.vrsq d a p t) := by
  intro _ h
  refine decodeWord_of ((decodeFields_31 (fMajor_packV ..)).trans ?_) h
  unfold dec31
  simp only [fD_packV, fA_packV, fB_packV, fP_packV, fT_packV, fF5_packV]
  cases t <;> rfl
theorem RoundTrip.vexp2 (d : VReg) (a : VReg) (p : PReg) (t : VType) : RoundTrip.Statement (.vexp2 d a p t) := by
  intro _ h
  refine decodeWord_of ((decodeFields_31 (fMajor_packV ..)).trans ?_) h
  unfold dec31
  simp only [fD_packV, fA_packV, fB_packV, fP_packV, fT_packV, fF5_packV]
  cases t <;> rfl
theorem RoundTrip.vlog2 (d : VReg) (a : VReg) (p : PReg) (t : VType) : RoundTrip.Statement (.vlog2 d a p t) := by
  intro _ h
  refine decodeWord_of ((decodeFields_31 (fMajor_packV ..)).trans ?_) h
  unfold dec31
  simp only [fD_packV, fA_packV, fB_packV, fP_packV, fT_packV, fF5_packV]
  cases t <;> rfl
theorem RoundTrip.vsin (d : VReg) (a : VReg) (p : PReg) (t : VType) : RoundTrip.Statement (.vsin d a p t) := by
  intro _ h
  refine decodeWord_of ((decodeFields_31 (fMajor_packV ..)).trans ?_) h
  unfold dec31
  simp only [fD_packV, fA_packV, fB_packV, fP_packV, fT_packV, fF5_packV]
  cases t <;> rfl
theorem RoundTrip.vcos (d : VReg) (a : VReg) (p : PReg) (t : VType) : RoundTrip.Statement (.vcos d a p t) := by
  intro _ h
  refine decodeWord_of ((decodeFields_31 (fMajor_packV ..)).trans ?_) h
  unfold dec31
  simp only [fD_packV, fA_packV, fB_packV, fP_packV, fT_packV, fF5_packV]
  cases t <;> rfl
theorem RoundTrip.venc12 (d : VReg) (a : VReg) (b : VReg) (p : PReg) : RoundTrip.Statement (.venc12 d a b p) := by
  intro _ h
  refine decodeWord_of ((decodeFields_31 (fMajor_packV ..)).trans ?_) h
  unfold dec31
  simp only [fD_packV, fA_packV, fB_packV, fP_packV, fT_packV, fF5_packV]
  rfl
theorem RoundTrip.vpack (d : VReg) (a : VReg) (b : VReg) (t : VType) : RoundTrip.Statement (.vpack d a b t) := by
  intro _ h
  refine decodeWord_of ((decodeFields_31 (fMajor_packV ..)).trans ?_) h
  unfold dec31
  simp only [fD_packV, fA_packV, fB_packV, fP_packV, fT_packV, fF5_packV]
  cases t <;> rfl
theorem RoundTrip.vunpack (d : VReg) (a : VReg) (h : BitVec 1) (t : VType) : RoundTrip.Statement (.vunpack d a h t) := by
  intro _ h
  refine decodeWord_of ((decodeFields_31 (fMajor_packV ..)).trans ?_) h
  unfold dec31
  simp only [fD_packV, fA_packV, fB_packV, fP_packV, fT_packV, fF5_packV, sub110, sub111]
  cases t <;> rfl
theorem RoundTrip.vcmp (d : PReg) (a : VReg) (b : VReg) (p : PReg) (t : VType) (c : Cond) : RoundTrip.Statement (.vcmp d a b p t c) := by
  intro _ h
  refine decodeWord_of ((decodeFields_32 (fMajor_packV ..)).trans ?_) h
  unfold dec32
  simp only [fD_packV, fA_packV, fB_packV, fP_packV, fT_packV, fF5_packV, sub58, sub1, sub60, sub0]
  cases t <;> cases c <;> rfl
theorem RoundTrip.pand (d : PReg) (a : PReg) (b : PReg) : RoundTrip.Statement (.pand d a b) := by
  intro _ h
  refine decodeWord_of ((decodeFields_33 (fMajor_packR ..)).trans ?_) h
  unfold dec33
  simp only [fD_packR, fA_packR, fB_packR, fC_packR, fF_packR, sub1, sub0]
  rfl
theorem RoundTrip.por (d : PReg) (a : PReg) (b : PReg) : RoundTrip.Statement (.por d a b) := by
  intro _ h
  refine decodeWord_of ((decodeFields_33 (fMajor_packR ..)).trans ?_) h
  unfold dec33
  simp only [fD_packR, fA_packR, fB_packR, fC_packR, fF_packR, sub1, sub0]
  rfl
theorem RoundTrip.pxor (d : PReg) (a : PReg) (b : PReg) : RoundTrip.Statement (.pxor d a b) := by
  intro _ h
  refine decodeWord_of ((decodeFields_33 (fMajor_packR ..)).trans ?_) h
  unfold dec33
  simp only [fD_packR, fA_packR, fB_packR, fC_packR, fF_packR, sub1, sub0]
  rfl
theorem RoundTrip.pnot (d : PReg) (a : PReg) : RoundTrip.Statement (.pnot d a) := by
  intro _ h
  refine decodeWord_of ((decodeFields_33 (fMajor_packR ..)).trans ?_) h
  unfold dec33
  simp only [fD_packR, fA_packR, fB_packR, fC_packR, fF_packR, sub1, sub0]
  rfl
theorem RoundTrip.pmov (d : PReg) (a : XReg) : RoundTrip.Statement (.pmov d a) := by
  intro _ h
  refine decodeWord_of ((decodeFields_33 (fMajor_packR ..)).trans ?_) h
  unfold dec33
  simp only [fD_packR, fA_packR, fB_packR, fC_packR, fF_packR, sub1, sub0]
  rfl
theorem RoundTrip.pget (d : XReg) (a : PReg) : RoundTrip.Statement (.pget d a) := by
  intro _ h
  refine decodeWord_of ((decodeFields_33 (fMajor_packR ..)).trans ?_) h
  unfold dec33
  simp only [fD_packR, fA_packR, fB_packR, fC_packR, fF_packR, sub1, sub0]
  rfl
theorem RoundTrip.pcnt (d : XReg) (a : PReg) : RoundTrip.Statement (.pcnt d a) := by
  intro _ h
  refine decodeWord_of ((decodeFields_33 (fMajor_packR ..)).trans ?_) h
  unfold dec33
  simp only [fD_packR, fA_packR, fB_packR, fC_packR, fF_packR, sub1, sub0]
  rfl
theorem RoundTrip.vqma (d : VReg) (a : VReg) (b : VReg) (c : XReg) (na : NFmt) (nb : NFmt) : RoundTrip.Statement (.vqma d a b c na nb) := by
  intro _ h
  refine decodeWord_of ((decodeFields_34 (fMajor_packR ..)).trans ?_) h
  unfold dec34
  simp only [fD_packR, fA_packR, fB_packR, fC_packR, fF_packR, sub112, sub113]
  cases na <;> cases nb <;> rfl
theorem RoundTrip.vqdec (d : VReg) (a : VReg) (n : BitVec 5) (c : XReg) (nf : NFmt) (ff : FFmt) : RoundTrip.Statement (.vqdec d a n c nf ff) := by
  intro _ h
  refine decodeWord_of ((decodeFields_35 (fMajor_packR ..)).trans ?_) h
  unfold dec35
  simp only [fD_packR, fA_packR, fB_packR, fC_packR, fF_packR, sub112, sub113]
  cases nf <;> cases ff <;> rfl
theorem RoundTrip.vqenc (d : VReg) (a : VReg) (n : BitVec 5) (c : XReg) (ff : FFmt) (nf : NFmt) : RoundTrip.Statement (.vqenc d a n c ff nf) := by
  intro _ h
  refine decodeWord_of ((decodeFields_36 (fMajor_packR ..)).trans ?_) h
  unfold dec36
  simp only [fD_packR, fA_packR, fB_packR, fC_packR, fF_packR, sub112, sub113]
  cases ff <;> cases nf <;> rfl
theorem RoundTrip.dnorm (d : DReg) (a : DReg) : RoundTrip.Statement (.dnorm d a) := by
  intro _ h
  refine decodeWord_of ((decodeFields_37 (fMajor_packR ..)).trans ?_) h
  unfold dec37
  simp only [fD_packR, fA_packR, fB_packR, fC_packR, fF_packR, sub67, sub68]
  rfl
theorem RoundTrip.dvec (d : DReg) (a : VReg) : RoundTrip.Statement (.dvec d a) := by
  intro _ h
  refine decodeWord_of ((decodeFields_37 (fMajor_packR ..)).trans ?_) h
  unfold dec37
  simp only [fD_packR, fA_packR, fB_packR, fC_packR, fF_packR, sub67, sub68]
  rfl
theorem RoundTrip.ddot (d : XReg) (a : DReg) (b : DReg) : RoundTrip.Statement (.ddot d a b) := by
  intro _ h
  refine decodeWord_of ((decodeFields_37 (fMajor_packR ..)).trans ?_) h
  unfold dec37
  simp only [fD_packR, fA_packR, fB_packR, fC_packR, fF_packR, sub67, sub68]
  rfl
theorem RoundTrip.dadd (d : DReg) (a : DReg) (b : DReg) : RoundTrip.Statement (.dadd d a b) := by
  intro _ h
  refine decodeWord_of ((decodeFields_37 (fMajor_packR ..)).trans ?_) h
  unfold dec37
  simp only [fD_packR, fA_packR, fB_packR, fC_packR, fF_packR, sub67, sub68]
  rfl
theorem RoundTrip.dsub (d : DReg) (a : DReg) (b : DReg) : RoundTrip.Statement (.dsub d a b) := by
  intro _ h
  refine decodeWord_of ((decodeFields_37 (fMajor_packR ..)).trans ?_) h
  unfold dec37
  simp only [fD_packR, fA_packR, fB_packR, fC_packR, fF_packR, sub67, sub68]
  rfl
theorem RoundTrip.dscl (d : DReg) (a : DReg) (b : XReg) : RoundTrip.Statement (.dscl d a b) := by
  intro _ h
  refine decodeWord_of ((decodeFields_37 (fMajor_packR ..)).trans ?_) h
  unfold dec37
  simp only [fD_packR, fA_packR, fB_packR, fC_packR, fF_packR, sub67, sub68]
  rfl
theorem RoundTrip.dneg (d : DReg) (a : DReg) : RoundTrip.Statement (.dneg d a) := by
  intro _ h
  refine decodeWord_of ((decodeFields_37 (fMajor_packR ..)).trans ?_) h
  unfold dec37
  simp only [fD_packR, fA_packR, fB_packR, fC_packR, fF_packR, sub67, sub68]
  rfl
theorem RoundTrip.drefl (d : DReg) (a : DReg) (b : DReg) : RoundTrip.Statement (.drefl d a b) := by
  intro _ h
  refine decodeWord_of ((decodeFields_37 (fMajor_packR ..)).trans ?_) h
  unfold dec37
  simp only [fD_packR, fA_packR, fB_packR, fC_packR, fF_packR, sub67, sub68]
  rfl
theorem RoundTrip.dcross (d : DReg) (a : DReg) (b : DReg) : RoundTrip.Statement (.dcross d a b) := by
  intro _ h
  refine decodeWord_of ((decodeFields_37 (fMajor_packR ..)).trans ?_) h
  unfold dec37
  simp only [fD_packR, fA_packR, fB_packR, fC_packR, fF_packR, sub67, sub68]
  rfl
theorem RoundTrip.dmix (d : DReg) (a : DReg) (b : DReg) (c : XReg) : RoundTrip.Statement (.dmix d a b c) := by
  intro _ h
  refine decodeWord_of ((decodeFields_37 (fMajor_packR ..)).trans ?_) h
  unfold dec37
  simp only [fD_packR, fA_packR, fB_packR, fC_packR, fF_packR, sub67, sub68]
  rfl
theorem RoundTrip.dmovn (d : XReg) (a : DReg) : RoundTrip.Statement (.dmovn d a) := by
  intro _ h
  refine decodeWord_of ((decodeFields_37 (fMajor_packR ..)).trans ?_) h
  unfold dec37
  simp only [fD_packR, fA_packR, fB_packR, fC_packR, fF_packR, sub67, sub68]
  rfl
theorem RoundTrip.dsetn (d : DReg) (a : DReg) (b : XReg) : RoundTrip.Statement (.dsetn d a b) := by
  intro _ h
  refine decodeWord_of ((decodeFields_37 (fMajor_packR ..)).trans ?_) h
  unfold dec37
  simp only [fD_packR, fA_packR, fB_packR, fC_packR, fF_packR, sub67, sub68]
  rfl
theorem RoundTrip.dtst (d : XReg) (a : DReg) : RoundTrip.Statement (.dtst d a) := by
  intro _ h
  refine decodeWord_of ((decodeFields_37 (fMajor_packR ..)).trans ?_) h
  unfold dec37
  simp only [fD_packR, fA_packR, fB_packR, fC_packR, fF_packR, sub67, sub68]
  rfl
theorem RoundTrip.dmov (d : VReg) (a : DReg) : RoundTrip.Statement (.dmov d a) := by
  intro _ h
  refine decodeWord_of ((decodeFields_37 (fMajor_packR ..)).trans ?_) h
  unfold dec37
  simp only [fD_packR, fA_packR, fB_packR, fC_packR, fF_packR, sub67, sub68]
  rfl
theorem RoundTrip.dproj (d : DReg) (a : DReg) (b : DReg) : RoundTrip.Statement (.dproj d a b) := by
  intro _ h
  refine decodeWord_of ((decodeFields_37 (fMajor_packR ..)).trans ?_) h
  unfold dec37
  simp only [fD_packR, fA_packR, fB_packR, fC_packR, fF_packR, sub67, sub68]
  rfl
theorem RoundTrip.rbox (d : XReg) (a : VReg) (b : DReg) (c : XReg) : RoundTrip.Statement (.rbox d a b c) := by
  intro _ h
  refine decodeWord_of ((decodeFields_38 (fMajor_packR ..)).trans ?_) h
  unfold dec38
  simp only [fD_packR, fA_packR, fB_packR, fC_packR, fF_packR, sub67, sub68]
  rfl
theorem RoundTrip.rtri (d : XReg) (a : VReg) (b : DReg) (c : XReg) : RoundTrip.Statement (.rtri d a b c) := by
  intro _ h
  refine decodeWord_of ((decodeFields_38 (fMajor_packR ..)).trans ?_) h
  unfold dec38
  simp only [fD_packR, fA_packR, fB_packR, fC_packR, fF_packR, sub67, sub68]
  rfl
theorem RoundTrip.tsetup (d : VGroup) (a : XReg) (b : XReg) : RoundTrip.Statement (.tsetup d a b) := by
  intro _ h
  refine decodeWord_of ((decodeFields_39 (fMajor_packR ..)).trans ?_) h
  unfold dec39
  simp only [fD_packR, fA_packR, fB_packR, fC_packR, fF_packR, sub114, sub115]
  rfl
theorem RoundTrip.tcover (d : XReg) (a : VGroup) (b : XReg) : RoundTrip.Statement (.tcover d a b) := by
  intro _ h
  refine decodeWord_of ((decodeFields_39 (fMajor_packR ..)).trans ?_) h
  unfold dec39
  simp only [fD_packR, fA_packR, fB_packR, fC_packR, fF_packR, sub114, sub115]
  rfl
theorem RoundTrip.tinterp (d : VReg) (a : XReg) (b : XReg) : RoundTrip.Statement (.tinterp d a b) := by
  intro _ h
  refine decodeWord_of ((decodeFields_39 (fMajor_packR ..)).trans ?_) h
  unfold dec39
  simp only [fD_packR, fA_packR, fB_packR, fC_packR, fF_packR]
  rfl
theorem RoundTrip.texld (d : VReg) (a : VReg) (b : XReg) : RoundTrip.Statement (.texld d a b) := by
  intro _ h
  refine decodeWord_of ((decodeFields_39 (fMajor_packR ..)).trans ?_) h
  unfold dec39
  simp only [fD_packR, fA_packR, fB_packR, fC_packR, fF_packR]
  rfl
theorem RoundTrip.emit (a : XReg) (b : XReg) (c : XReg) : RoundTrip.Statement (.emit a b c) := by
  intro _ h
  refine decodeWord_of ((decodeFields_39 (fMajor_packR ..)).trans ?_) h
  unfold dec39
  simp only [fD_packR, fA_packR, fB_packR, fC_packR, fF_packR]
  rfl
theorem RoundTrip.emitq (d : XReg) (a : XReg) : RoundTrip.Statement (.emitq d a) := by
  intro _ h
  refine decodeWord_of ((decodeFields_39 (fMajor_packR ..)).trans ?_) h
  unfold dec39
  simp only [fD_packR, fA_packR, fB_packR, fC_packR, fF_packR]
  rfl
theorem RoundTrip.send (d : XReg) (a : XReg) (b : XReg) (m : MBox) (n : Bool) : RoundTrip.Statement (.send d a b m n) := by
  intro _ h
  refine decodeWord_of ((decodeFields_3a (fMajor_packR ..)).trans ?_) h
  unfold dec3A
  simp only [fD_packR, fA_packR, fB_packR, fC_packR, fF_packR, fF5_packR, sub35, sub60, sub58, sub36]
  cases n <;> rfl
theorem RoundTrip.sendv (d : XReg) (a : XReg) (b : VGroup) (m : MBox) (n : Bool) : RoundTrip.Statement (.sendv d a b m n) := by
  intro _ h
  refine decodeWord_of ((decodeFields_3a (fMajor_packR ..)).trans ?_) h
  unfold dec3A
  simp only [fD_packR, fA_packR, fB_packR, fC_packR, fF_packR, fF5_packR, sub37, sub114, sub60, sub115, sub58, sub38]
  cases n <;> rfl
theorem RoundTrip.recv (d : XReg) (b : VGroup) (m : MBox) (n : Bool) : RoundTrip.Statement (.recv d b m n) := by
  intro _ h
  refine decodeWord_of ((decodeFields_3a (fMajor_packR ..)).trans ?_) h
  unfold dec3A
  simp only [fD_packR, fA_packR, fB_packR, fC_packR, fF_packR, fF5_packR, sub39, sub114, sub60, sub115, sub58, sub40]
  cases n <;> rfl
theorem RoundTrip.recvn (d : XReg) (a : XReg) (b : VGroup) (c : XReg) : RoundTrip.Statement (.recvn d a b c) := by
  intro _ h
  refine decodeWord_of ((decodeFields_3a (fMajor_packR ..)).trans ?_) h
  unfold dec3A
  simp only [fD_packR, fA_packR, fB_packR, fC_packR, fF_packR, fF5_packR, sub114, sub115]
  rfl
theorem RoundTrip.mpoll (d : XReg) (m : MBox) : RoundTrip.Statement (.mpoll d m) := by
  intro _ h
  refine decodeWord_of ((decodeFields_3a (fMajor_packR ..)).trans ?_) h
  unfold dec3A
  simp only [fD_packR, fA_packR, fB_packR, fC_packR, fF_packR, fF5_packR, sub60, sub58]
  rfl
theorem RoundTrip.binit (a : XReg) (c : BPoint) : RoundTrip.Statement (.binit a c) := by
  intro _ h
  refine decodeWord_of ((decodeFields_3b (fMajor_packR ..)).trans ?_) h
  unfold dec3B
  simp only [fD_packR, fA_packR, fB_packR, fC_packR, fF_packR]
  rfl
theorem RoundTrip.barr (d : XReg) (c : BPoint) : RoundTrip.Statement (.barr d c) := by
  intro _ h
  refine decodeWord_of ((decodeFields_3b (fMajor_packR ..)).trans ?_) h
  unfold dec3B
  simp only [fD_packR, fA_packR, fB_packR, fC_packR, fF_packR]
  rfl
theorem RoundTrip.bwait (a : XReg) (c : BPoint) : RoundTrip.Statement (.bwait a c) := by
  intro _ h
  refine decodeWord_of ((decodeFields_3b (fMajor_packR ..)).trans ?_) h
  unfold dec3B
  simp only [fD_packR, fA_packR, fB_packR, fC_packR, fF_packR]
  rfl
theorem RoundTrip.kinit (a : XReg) (b : XReg) : RoundTrip.Statement (.kinit a b) := by
  intro _ h
  refine decodeWord_of ((decodeFields_3b (fMajor_packR ..)).trans ?_) h
  unfold dec3B
  simp only [fD_packR, fA_packR, fB_packR, fC_packR, fF_packR]
  rfl
theorem RoundTrip.kenter (d : XReg) (a : XReg) (b : XReg) : RoundTrip.Statement (.kenter d a b) := by
  intro _ h
  refine decodeWord_of ((decodeFields_3b (fMajor_packR ..)).trans ?_) h
  unfold dec3B
  simp only [fD_packR, fA_packR, fB_packR, fC_packR, fF_packR]
  rfl
theorem RoundTrip.kleave (a : XReg) : RoundTrip.Statement (.kleave a) := by
  intro _ h
  refine decodeWord_of ((decodeFields_3b (fMajor_packR ..)).trans ?_) h
  unfold dec3B
  simp only [fD_packR, fA_packR, fB_packR, fC_packR, fF_packR]
  rfl
theorem RoundTrip.kskip (a : XReg) (b : XReg) : RoundTrip.Statement (.kskip a b) := by
  intro _ h
  refine decodeWord_of ((decodeFields_3b (fMajor_packR ..)).trans ?_) h
  unfold dec3B
  simp only [fD_packR, fA_packR, fB_packR, fC_packR, fF_packR]
  rfl
theorem RoundTrip.kfree (a : XReg) : RoundTrip.Statement (.kfree a) := by
  intro _ h
  refine decodeWord_of ((decodeFields_3b (fMajor_packR ..)).trans ?_) h
  unfold dec3B
  simp only [fD_packR, fA_packR, fB_packR, fC_packR, fF_packR]
  rfl
theorem RoundTrip.qpop (d : XReg) (a : XReg) (n : Bool) : RoundTrip.Statement (.qpop d a n) := by
  intro _ h
  refine decodeWord_of ((decodeFields_3c (fMajor_packR ..)).trans ?_) h
  unfold dec3C
  simp only [fD_packR, fA_packR, fB_packR, fC_packR, fF_packR, fF5_packR, sub35, sub36]
  cases n <;> rfl
theorem RoundTrip.qpush (d : XReg) (a : XReg) (b : XReg) (n : Bool) : RoundTrip.Statement (.qpush d a b n) := by
  intro _ h
  refine decodeWord_of ((decodeFields_3c (fMajor_packR ..)).trans ?_) h
  unfold dec3C
  simp only [fD_packR, fA_packR, fB_packR, fC_packR, fF_packR, fF5_packR, sub37, sub38]
  cases n <;> rfl
theorem RoundTrip.spawn (d : XReg) (a : XReg) (b : XReg) : RoundTrip.Statement (.spawn d a b) := by
  intro _ h
  refine decodeWord_of ((decodeFields_3c (fMajor_packR ..)).trans ?_) h
  unfold dec3C
  simp only [fD_packR, fA_packR, fB_packR, fC_packR, fF_packR, fF5_packR]
  rfl
theorem RoundTrip.qclose (a : XReg) : RoundTrip.Statement (.qclose a) := by
  intro _ h
  refine decodeWord_of ((decodeFields_3c (fMajor_packR ..)).trans ?_) h
  unfold dec3C
  simp only [fD_packR, fA_packR, fB_packR, fC_packR, fF_packR, fF5_packR]
  rfl
theorem RoundTrip.ewr (d : EReg) (a : XReg) : RoundTrip.Statement (.ewr d a) := by
  intro _ h
  refine decodeWord_of ((decodeFields_3d (fMajor_packE ..)).trans ?_) h
  unfold dec3D
  simp only [fD_packE, fA_packE, fB_packE, fP_packE, fZ_packE, fF_packE]
  rfl
theorem RoundTrip.erd (d : XReg) (a : EReg) : RoundTrip.Statement (.erd d a) := by
  intro _ h
  refine decodeWord_of ((decodeFields_3d (fMajor_packE ..)).trans ?_) h
  unfold dec3D
  simp only [fD_packE, fA_packE, fB_packE, fP_packE, fZ_packE, fF_packE]
  rfl
theorem RoundTrip.copy (d : XReg) (a : XReg) (b : XReg) (c : CReg) : RoundTrip.Statement (.copy d a b c) := by
  intro _ h
  refine decodeWord_of ((decodeFields_3d (fMajor_packE ..)).trans ?_) h
  unfold dec3D
  simp only [fD_packE, fA_packE, fB_packE, fP_packE, fZ_packE, fF_packE]
  rfl
theorem RoundTrip.mgang (t : AccReg) (k : EGroup) (c : CReg) : RoundTrip.Statement (.mgang t k c) := by
  intro _ h
  refine decodeWord_of ((decodeFields_3d (fMajor_packE ..)).trans ?_) h
  unfold dec3D
  simp only [fD_packE, fA_packE, fB_packE, fP_packE, fZ_packE, fF_packE, sub1, sub114, sub0, sub115]
  rfl
theorem RoundTrip.mlut (t : AccReg) (k : EGroup) (c : CReg) : RoundTrip.Statement (.mlut t k c) := by
  intro _ h
  refine decodeWord_of ((decodeFields_3d (fMajor_packE ..)).trans ?_) h
  unfold dec3D
  simp only [fD_packE, fA_packE, fB_packE, fP_packE, fZ_packE, fF_packE, sub1, sub114, sub0, sub115]
  rfl
theorem RoundTrip.acl (t : AccReg) : RoundTrip.Statement (.acl t) := by
  intro _ h
  refine decodeWord_of ((decodeFields_3d (fMajor_packE ..)).trans ?_) h
  unfold dec3D
  simp only [fD_packE, fA_packE, fB_packE, fP_packE, fZ_packE, fF_packE, sub1, sub0]
  rfl
theorem RoundTrip.ast (d : XReg) (t : AccReg) (b : XReg) (c : CReg) : RoundTrip.Statement (.ast d t b c) := by
  intro _ h
  refine decodeWord_of ((decodeFields_3d (fMajor_packE ..)).trans ?_) h
  unfold dec3D
  simp only [fD_packE, fA_packE, fB_packE, fP_packE, fZ_packE, fF_packE, sub1, sub0]
  rfl
theorem RoundTrip.ald (t : AccReg) (a : XReg) (b : XReg) (c : CReg) : RoundTrip.Statement (.ald t a b c) := by
  intro _ h
  refine decodeWord_of ((decodeFields_3d (fMajor_packE ..)).trans ?_) h
  unfold dec3D
  simp only [fD_packE, fA_packE, fB_packE, fP_packE, fZ_packE, fF_packE, sub1, sub0]
  rfl
theorem RoundTrip.boundaryTrapTake (sid : Nat) : RoundTrip.Statement (.boundaryTrapTake sid) := nofun
theorem RoundTrip.controlResume (sid : Nat) (ctx : BitVec 4) : RoundTrip.Statement (.controlResume sid ctx) := nofun
theorem RoundTrip.controlSkip (sid : Nat) (ctx : BitVec 4) : RoundTrip.Statement (.controlSkip sid ctx) := nofun
theorem RoundTrip.controlKill (sid : Nat) (ctx : BitVec 4) : RoundTrip.Statement (.controlKill sid ctx) := nofun
theorem RoundTrip.storeDrain (sid : Nat) (seq : Nat) : RoundTrip.Statement (.storeDrain sid seq) := nofun
theorem RoundTrip.l1LineRemove (core : Nat) (line : Nat) : RoundTrip.Statement (.l1LineRemove core line) := nofun
theorem RoundTrip.icacheFill (sid : Nat) : RoundTrip.Statement (.icacheFill sid) := nofun
theorem RoundTrip.enginePayloadWrite (op : Nat) (unit : Nat) (fresh : Nat) : RoundTrip.Statement (.enginePayloadWrite op unit fresh) := nofun
theorem RoundTrip.copyComplete (op : Nat) : RoundTrip.Statement (.copyComplete op) := nofun
theorem RoundTrip.gangForm (sheaf : Nat) : RoundTrip.Statement (.gangForm sheaf) := nofun
theorem RoundTrip.gangComplete (op : Nat) (freshWords : Nat) : RoundTrip.Statement (.gangComplete op freshWords) := nofun
theorem RoundTrip.gangto (sid : Nat) : RoundTrip.Statement (.gangto sid) := nofun
theorem RoundTrip.astComplete (op : Nat) : RoundTrip.Statement (.astComplete op) := nofun
theorem RoundTrip.aldComplete (op : Nat) (freshWords : Nat) : RoundTrip.Statement (.aldComplete op freshWords) := nofun
theorem RoundTrip.messageDeliver (src : MsgFrom) : RoundTrip.Statement (.messageDeliver src) := nofun
theorem RoundTrip.sendRetry (core : Nat) (idx : Nat) : RoundTrip.Statement (.sendRetry core idx) := nofun
theorem RoundTrip.edgeDeliver (core : Nat) (idx : Nat) : RoundTrip.Statement (.edgeDeliver core idx) := nofun
theorem RoundTrip.barrierArrivalCount (launch : Nat) (point : Nat) (sheaf : Nat) (sid : Nat) : RoundTrip.Statement (.barrierArrivalCount launch point sheaf sid) := nofun
theorem RoundTrip.keyLeaveEffect (sid : Nat) (key : Word) : RoundTrip.Statement (.keyLeaveEffect sid key) := nofun
theorem RoundTrip.keySkipEffect (sid : Nat) (key : Word) (num : BitVec 32) : RoundTrip.Statement (.keySkipEffect sid key num) := nofun
theorem RoundTrip.keyProbe (sid : Nat) : RoundTrip.Statement (.keyProbe sid) := nofun
theorem RoundTrip.stall (sid : Nat) : RoundTrip.Statement (.stall sid) := nofun
theorem RoundTrip.recvnTimeout (sid : Nat) : RoundTrip.Statement (.recvnTimeout sid) := nofun
theorem RoundTrip.napWake (sid : Nat) : RoundTrip.Statement (.napWake sid) := nofun
theorem RoundTrip.queueDoorbell (port : Nat) (tag : BitVec 32) : RoundTrip.Statement (.queueDoorbell port tag) := nofun
theorem RoundTrip.registerWrite (off : Nat) (val : Word) : RoundTrip.Statement (.registerWrite off val) := nofun
theorem RoundTrip.hostBar2Read (addr : Nat) (len : Nat) : RoundTrip.Statement (.hostBar2Read addr len) := nofun
theorem RoundTrip.hostBar2Write (addr : Nat) (bytes : List Byte) : RoundTrip.Statement (.hostBar2Write addr bytes) := nofun
theorem RoundTrip.pcieConfigRequest (msix : Option Bool) : RoundTrip.Statement (.pcieConfigRequest msix) := nofun
theorem RoundTrip.coldReset (b : BringUp) : RoundTrip.Statement (.coldReset b) := nofun
theorem RoundTrip.warmReset (b : BringUp) : RoundTrip.Statement (.warmReset b) := nofun
theorem RoundTrip.fieldReset (b : BringUp) : RoundTrip.Statement (.fieldReset b) := nofun
theorem RoundTrip.calloadWaitTimeout : RoundTrip.Statement (.calloadWaitTimeout) := nofun
theorem RoundTrip.attest : RoundTrip.Statement (.attest) := nofun
theorem RoundTrip.fwstage : RoundTrip.Statement (.fwstage) := nofun
theorem RoundTrip.calload : RoundTrip.Statement (.calload) := nofun
theorem RoundTrip.granset : RoundTrip.Statement (.granset) := nofun
theorem RoundTrip.vtlog : RoundTrip.Statement (.vtlog) := nofun
theorem RoundTrip.endctx : RoundTrip.Statement (.endctx) := nofun
theorem RoundTrip.kvec : RoundTrip.Statement (.kvec) := nofun
theorem RoundTrip.mbUnknownCommand (code : Byte) : RoundTrip.Statement (.mbUnknownCommand code) := nofun
theorem RoundTrip.mbCommandEnd : RoundTrip.Statement (.mbCommandEnd) := nofun
theorem RoundTrip.ftcfgWrite (val : Word) : RoundTrip.Statement (.ftcfgWrite val) := nofun
theorem RoundTrip.ftsyncEdge : RoundTrip.Statement (.ftsyncEdge) := nofun
theorem RoundTrip.ftimeLoad : RoundTrip.Statement (.ftimeLoad) := nofun
theorem RoundTrip.ocCauseClear (val : Word) : RoundTrip.Statement (.ocCauseClear val) := nofun
theorem RoundTrip.linkEnable (port : Nat) : RoundTrip.Statement (.linkEnable port) := nofun
theorem RoundTrip.linkDisable (port : Nat) : RoundTrip.Statement (.linkDisable port) := nofun
theorem RoundTrip.linkHold (port : Nat) : RoundTrip.Statement (.linkHold port) := nofun
theorem RoundTrip.linkHoldRelease (port : Nat) : RoundTrip.Statement (.linkHoldRelease port) := nofun
theorem RoundTrip.linkTrained (port : Nat) (peer : BitVec 4) (lanes : Nat) : RoundTrip.Statement (.linkTrained port peer lanes) := nofun
theorem RoundTrip.linkLaneFail (port : Nat) : RoundTrip.Statement (.linkLaneFail port) := nofun
theorem RoundTrip.linkDown (port : Nat) : RoundTrip.Statement (.linkDown port) := nofun
theorem RoundTrip.flitCrcFail (port : Nat) : RoundTrip.Statement (.flitCrcFail port) := nofun
theorem RoundTrip.freezeAssert : RoundTrip.Statement (.freezeAssert) := nofun
theorem RoundTrip.freezeRelease : RoundTrip.Statement (.freezeRelease) := nofun
theorem RoundTrip.debugFrz (v : Bool) : RoundTrip.Statement (.debugFrz v) := nofun
theorem RoundTrip.debugShsel (v : BitVec 32) : RoundTrip.Statement (.debugShsel v) := nofun
theorem RoundTrip.debugShdata : RoundTrip.Statement (.debugShdata) := nofun
theorem RoundTrip.debugArsel (v : Word) : RoundTrip.Statement (.debugArsel v) := nofun
theorem RoundTrip.debugArdata : RoundTrip.Statement (.debugArdata) := nofun
theorem RoundTrip.ocNAssert : RoundTrip.Statement (.ocNAssert) := nofun
theorem RoundTrip.sensorReading (j : Nat) (raw : Int) : RoundTrip.Statement (.sensorReading j raw) := nofun
theorem RoundTrip.droopDetect (sheaf : Nat) : RoundTrip.Statement (.droopDetect sheaf) := nofun
theorem RoundTrip.droopRecover (sheaf : Nat) : RoundTrip.Statement (.droopRecover sheaf) := nofun
theorem RoundTrip.governorTick (rails : BitVec 6) : RoundTrip.Statement (.governorTick rails) := nofun
theorem RoundTrip.vfTransitionDone (sheaf : Nat) : RoundTrip.Statement (.vfTransitionDone sheaf) := nofun
theorem RoundTrip.tokenStarve (core : Nat) : RoundTrip.Statement (.tokenStarve core) := nofun
theorem RoundTrip.corePowerGate (core : Nat) : RoundTrip.Statement (.corePowerGate core) := nofun
theorem RoundTrip.corePowerOff (core : Nat) : RoundTrip.Statement (.corePowerOff core) := nofun
theorem RoundTrip.coreWakeDone (core : Nat) : RoundTrip.Statement (.coreWakeDone core) := nofun
theorem RoundTrip.launchAccept (queue : Nat) : RoundTrip.Statement (.launchAccept queue) := nofun
theorem RoundTrip.launchChoose : RoundTrip.Statement (.launchChoose) := nofun
theorem RoundTrip.strandHandout : RoundTrip.Statement (.strandHandout) := nofun
theorem RoundTrip.strandStart (sid : Nat) : RoundTrip.Statement (.strandStart sid) := nofun
theorem RoundTrip.launchComplete (launch : Nat) : RoundTrip.Statement (.launchComplete launch) := nofun
theorem RoundTrip.preemptRequest (pinned : Bool) : RoundTrip.Statement (.preemptRequest pinned) := nofun
theorem RoundTrip.huskSave (sid : Nat) : RoundTrip.Statement (.huskSave sid) := nofun
theorem RoundTrip.huskResume : RoundTrip.Statement (.huskResume) := nofun
theorem RoundTrip.meshSlotReserve (launch : Nat) : RoundTrip.Statement (.meshSlotReserve launch) := nofun
theorem RoundTrip.slotAssemble (ctx : Nat) : RoundTrip.Statement (.slotAssemble ctx) := nofun
theorem RoundTrip.trayRecordDeliver (core : Nat) : RoundTrip.Statement (.trayRecordDeliver core) := nofun
theorem RoundTrip.pageFetchComplete (req : Nat) (resp : Option (List Byte)) : RoundTrip.Statement (.pageFetchComplete req resp) := nofun
theorem RoundTrip.emitTransferStart (core : Nat) (freshWords : Nat) : RoundTrip.Statement (.emitTransferStart core freshWords) := nofun
theorem RoundTrip.emitArrival (core : Nat) : RoundTrip.Statement (.emitArrival core) := nofun
theorem RoundTrip.emitSwap (tile : Nat) (group : Nat) : RoundTrip.Statement (.emitSwap tile group) := nofun
theorem RoundTrip.scrubPass (corrected : List Nat) (bad : List Nat) : RoundTrip.Statement (.scrubPass corrected bad) := nofun
theorem RoundTrip.verticalTestVisit (core : Nat) (aborted : Bool) (mismatches : Nat) : RoundTrip.Statement (.verticalTestVisit core aborted mismatches) := nofun
theorem RoundTrip.alwaysOnPowerLoss : RoundTrip.Statement (.alwaysOnPowerLoss) := nofun

end Sys2Proof.Laws
end

