-- ==== Sys2Proof/Tests/Slice0.lean ====
section
/-! SUPPORT. The package's own tests: words of every form, one step of every kind of instruction, and for every statement with
hypotheses the states and operands that meet them. -/

set_option Elab.async false

namespace Sys2Proof.Tests
open Sys2Proof Sys2Proof.Machine

def reads (p : BitVec 32 × Instr) : Bool := match decodeWord p.1 with
  | .ok j => j == p.2
  | .error _ => false

theorem test_decode_00 : [
    (0x000E0001#32, (.trap 14)),
    (0x00000002#32, .sysc),
    (0x00000003#32, .kret),
    (0x0000A944#32, (.brk 677)),
    (0x000E0005#32, (.nap 14)),
    (0x00000006#32, .done),
    (0x00000007#32, .yield),
    (0x00000008#32, .fencei),
    (0x000E5909#32, (.tlbinv 14 11 .system)),
    (0x0000280A#32, (.sethue 5)),
    (0x000E000B#32, (.halt 14)),
    (0x000E000C#32, (.pwrh 14))].all reads = true := by decide

theorem test_decode_01 : [
    (0x06AE5800#32, (.add 21 14 11)),
    (0x06AE5801#32, (.sub 21 14 11)),
    (0x06AE5802#32, (.and 21 14 11)),
    (0x06AE5803#32, (.or 21 14 11)),
    (0x06AE5804#32, (.xor 21 14 11)),
    (0x06AE5805#32, (.andn 21 14 11)),
    (0x06AE5806#32, (.sll 21 14 11)),
    (0x06AE5807#32, (.srl 21 14 11)),
    (0x06AE5808#32, (.sra 21 14 11)),
    (0x06AE5809#32, (.rol 21 14 11)),
    (0x06AE580A#32, (.slt 21 14 11)),
    (0x06AE580B#32, (.sltu 21 14 11)),
    (0x06AE580C#32, (.min 21 14 11)),
    (0x06AE580D#32, (.max 21 14 11)),
    (0x06AE580E#32, (.minu 21 14 11)),
    (0x06AE580F#32, (.maxu 21 14 11)),
    (0x06AE0010#32, (.clz 21 14)),
    (0x06AE0011#32, (.ctz 21 14)),
    (0x06AE0012#32, (.popc 21 14)),
    (0x06AE0013#32, (.brev 21 14)),
    (0x06AE0014#32, (.bswap 21 14)),
    (0x06AE5815#32, (.ilv 21 14 11)),
    (0x06AE5E96#32, (.ilv3 21 14 11 26)),
    (0x06AE0017#32, (.dilv 21 14)),
    (0x06AE0018#32, (.dilv3 21 14)),
    (0x06AE5E99#32, (.sel 21 14 11 26)),
    (0x06AE581A#32, (.addw 21 14 11)),
    (0x06AE581B#32, (.subw 21 14 11))].all reads = true := by decide

theorem test_decode_02 : [
    (0x0AAE5800#32, (.mul 21 14 11)),
    (0x0AAE5801#32, (.mulh 21 14 11)),
    (0x0AAE5802#32, (.mulhu 21 14 11)),
    (0x0AAE5803#32, (.mulw 21 14 11)),
    (0x0AAE5804#32, (.div 21 14 11)),
    (0x0AAE5805#32, (.divu 21 14 11)),
    (0x0AAE5806#32, (.rem 21 14 11)),
    (0x0AAE5807#32, (.remu 21 14 11)),
    (0x0AAE5E88#32, (.madd 21 14 11 26))].all reads = true := by decide

theorem test_decode_03 : [
    (0x0EAE9560#32, (.extr 21 14 37 22 false))].all reads = true := by decide

theorem test_decode_04 : [
    (0x12AE9560#32, (.insf 21 14 37 22))].all reads = true := by decide

theorem test_decode_07 : [
    (0x1EA003A7#32, (.csrr 21 0x3a7)),
    (0x1EAE13A7#32, (.csrw 21 14 0x3a7)),
    (0x1EAE23A7#32, (.csrs 21 14 0x3a7)),
    (0x1EAE33A7#32, (.csrc 21 14 0x3a7))].all reads = true := by decide

theorem test_decode_08 : [
    (0x22AE9C35#32, (.addi 21 14 0x9c35))].all reads = true := by decide

theorem test_decode_09 : [
    (0x26AE9C35#32, (.andi 21 14 0x9c35))].all reads = true := by decide

theorem test_decode_0a : [
    (0x2AAE9C35#32, (.ori 21 14 0x9c35))].all reads = true := by decide

theorem test_decode_0b : [
    (0x2EAE9C35#32, (.xori 21 14 0x9c35))].all reads = true := by decide

theorem test_decode_0c : [
    (0x32AE002B#32, (.slli 21 14 43)),
    (0x32AE006B#32, (.srli 21 14 43)),
    (0x32AE00AB#32, (.srai 21 14 43)),
    (0x32AE00EB#32, (.roli 21 14 43))].all reads = true := by decide

theorem test_decode_0d : [
    (0x36AE9C35#32, (.slti 21 14 0x9c35))].all reads = true := by decide

theorem test_decode_0e : [
    (0x3AAE9C35#32, (.sltiu 21 14 0x9c35))].all reads = true := by decide

theorem test_decode_0f : [
    (0x3EA09C35#32, (.lhi 21 0x9c35))].all reads = true := by decide

theorem test_decode_10 : [
    (0x42A09C35#32, (.addpc 21 0x9c35))].all reads = true := by decide

theorem test_decode_11 : [
    (0x456E9C35#32, (.beq 11 14 0x9c35))].all reads = true := by decide

theorem test_decode_12 : [
    (0x496E9C35#32, (.bne 11 14 0x9c35))].all reads = true := by decide

theorem test_decode_13 : [
    (0x4D6E9C35#32, (.blt 11 14 0x9c35))].all reads = true := by decide

theorem test_decode_14 : [
    (0x516E9C35#32, (.bge 11 14 0x9c35))].all reads = true := by decide

theorem test_decode_15 : [
    (0x556E9C35#32, (.bltu 11 14 0x9c35))].all reads = true := by decide

theorem test_decode_16 : [
    (0x596E9C35#32, (.bgeu 11 14 0x9c35))].all reads = true := by decide

theorem test_decode_17 : [
    (0x5EABCDE5#32, (.jmp 0x2abcde5))].all reads = true := by decide

theorem test_decode_18 : [
    (0x62ABCDE5#32, (.jal 0x2abcde5))].all reads = true := by decide

theorem test_decode_19 : [
    (0x66AE9C35#32, (.jalr 21 14 0x9c35))].all reads = true := by decide

theorem test_decode_1a : [
    (0x680E000D#32, (.loop 14 13))].all reads = true := by decide

theorem test_decode_1b : [
    (0x6EAE0000#32, (.xrd 21 14)),
    (0x6C0E5801#32, (.xwr 14 11))].all reads = true := by decide

theorem test_decode_1c : [
    (0x72AE5800#32, (.fadd 21 14 11 .single)),
    (0x72AE5821#32, (.fsub 21 14 11 .double)),
    (0x72AE5802#32, (.fmul 21 14 11 .single)),
    (0x72AE5823#32, (.fdiv 21 14 11 .double)),
    (0x72AE0004#32, (.fsqrt 21 14 .single)),
    (0x72AE5825#32, (.fmin 21 14 11 .double)),
    (0x72AE5806#32, (.fmax 21 14 11 .single)),
    (0x72AE5827#32, (.feq 21 14 11 .double)),
    (0x72AE5808#32, (.flt 21 14 11 .single)),
    (0x72AE5829#32, (.fle 21 14 11 .double)),
    (0x72AE000A#32, (.fclass 21 14 .single)),
    (0x72AE58AB#32, (.fsgn 21 14 11 .xor .double)),
    (0x72AE000C#32, (.fcvti 21 14 .sl .single)),
    (0x72AE00ED#32, (.fcvtf 21 14 .uw .double)),
    (0x72AE000E#32, (.fcvtp 21 14 .other .single))].all reads = true := by decide

theorem test_decode_1d : [
    (0x76AE5EA0#32, (.fma 21 14 11 26 .double)),
    (0x76AE5E81#32, (.fms 21 14 11 26 .single)),
    (0x76AE5EA2#32, (.fnma 21 14 11 26 .double)),
    (0x76AE5E83#32, (.fnms 21 14 11 26 .single))].all reads = true := by decide

theorem test_decode_20 : [
    (0x82AE7A53#32, (.ld 21 14 .d true 0xa53))].all reads = true := by decide

theorem test_decode_21 : [
    (0x866E0A53#32, (.st 19 14 .b false 0xa53))].all reads = true := by decide

theorem test_decode_22 : [
    (0x8AAE58C0#32, (.ldx 21 14 11 .d))].all reads = true := by decide

theorem test_decode_23 : [
    (0x8E6E5880#32, (.stx 19 14 11 .w))].all reads = true := by decide

theorem test_decode_24 : [
    (0x92AE1A53#32, (.vld 21 14 true 0xa53))].all reads = true := by decide

theorem test_decode_25 : [
    (0x972E0A53#32, (.vst 25 14 false 0xa53))].all reads = true := by decide

theorem test_decode_26 : [
    (0x9AAE5800#32, (.vlds 21 14 11))].all reads = true := by decide

theorem test_decode_27 : [
    (0x9F2E5800#32, (.vsts 25 14 11))].all reads = true := by decide

theorem test_decode_28 : [
    (0xA2AE9800#32, (.vldg 21 14 19))].all reads = true := by decide

theorem test_decode_29 : [
    (0xA72E9800#32, (.vstg 25 14 19))].all reads = true := by decide

theorem test_decode_2a : [
    (0xA92E1A53#32, (.dld 9 14 true 0xa53))].all reads = true := by decide

theorem test_decode_2b : [
    (0xAD2E0A53#32, (.dst 9 14 false 0xa53))].all reads = true := by decide

theorem test_decode_2c : [
    (0xB2AE5AD0#32, (.amoadd 21 14 11 .acq .field .d)),
    (0xB2AE5801#32, (.amoand 21 14 11 .none .strand .w)),
    (0xB2AE5E92#32, (.amoor 21 14 11 .acqrel .sheaf .d)),
    (0xB2AE5D03#32, (.amoxor 21 14 11 .rel .system .w)),
    (0xB2AE5A54#32, (.amomin 21 14 11 .acq .core .d)),
    (0xB2AE58C5#32, (.amomax 21 14 11 .none .field .w)),
    (0xB2AE5E16#32, (.amominu 21 14 11 .acqrel .strand .d)),
    (0xB2AE5C87#32, (.amomaxu 21 14 11 .rel .sheaf .w)),
    (0xB2AE5B18#32, (.amoswap 21 14 11 .acq .system .d)),
    (0xB2AE5849#32, (.amofadd 21 14 11 .none .core .w))].all reads = true := by decide

theorem test_decode_2d : [
    (0xB6AE5EBB#32, (.cas 21 14 11 26 .d .acqrel .field))].all reads = true := by decide

theorem test_decode_2e : [
    (0xB8001000#32, (.fence .acq .strand 0))].all reads = true := by decide

theorem test_decode_2f : [
    (0xBC0E5800#32, (.waitw 14 11)),
    (0xBCA0C901#32, (.waitc 5 201))].all reads = true := by decide

theorem test_decode_30 : [
    (0xC2AA9AE0#32, (.vadd 21 10 19 2 .f32)),
    (0xC2AA9AC1#32, (.vsub 21 10 19 2 .f16)),
    (0xC2AA9AA2#32, (.vmul 21 10 19 2 .zw)),
    (0xC2AA9A83#32, (.vma 21 10 19 2 .zh)),
    (0xC2AA9A64#32, (.vmin 21 10 19 2 .zb)),
    (0xC2AA9A45#32, (.vmax 21 10 19 2 .iw)),
    (0xC2AA9A86#32, (.vand 21 10 19 2 .zh)),
    (0xC2AA9AA7#32, (.vor 21 10 19 2 .zw)),
    (0xC2AA9A08#32, (.vxor 21 10 19 2 .ib)),
    (0xC2AA9A29#32, (.vandn 21 10 19 2 .ih)),
    (0xC2AA9A4A#32, (.vshl 21 10 19 2 .iw)),
    (0xC2AA9A6B#32, (.vshr 21 10 19 2 .zb)),
    (0xC2AA024C#32, (.vabs 21 10 2 .iw)),
    (0xC2AA02CD#32, (.vneg 21 10 2 .f16)),
    (0xC2AA9A2E#32, (.vsel 21 10 19 2 .ih)),
    (0xC2AA9A2F#32, (.vaddsat 21 10 19 2 .ih)),
    (0xC2AA9A50#32, (.vsubsat 21 10 19 2 .iw)),
    (0xC2AA9A71#32, (.vmulh 21 10 19 2 .zb)),
    (0xC2AA9A72#32, (.vdot4 21 10 19 2 .zb)),
    (0xC2AA9A93#32, (.vdot2 21 10 19 2 .zh))].all reads = true := by decide

theorem test_decode_31 : [
    (0xC6AE0260#32, (.vbcast 21 14 2 .zb)),
    (0xC6AE5841#32, (.vmovx 21 14 11 .iw)),
    (0xC6AA5822#32, (.vextx 21 10 11 .ih)),
    (0xC6AA9A03#32, (.vperm 21 10 19 2 .ib)),
    (0xC6AA5AE4#32, (.vrot 21 10 11 2 .f32)),
    (0xC6AA02C5#32, (.vredadd 21 10 2 .f16)),
    (0xC6AA02A6#32, (.vredmin 21 10 2 .zw)),
    (0xC6AA0287#32, (.vredmax 21 10 2 .zh)),
    (0xC6AAC2C8#32, (.vcvt 21 10 true 8 2 .f16)),
    (0xC6AA02E9#32, (.vrcp 21 10 2 .f32)),
    (0xC6AA02CA#32, (.vrsq 21 10 2 .f16)),
    (0xC6AA02EB#32, (.vexp2 21 10 2 .f32)),
    (0xC6AA02EC#32, (.vlog2 21 10 2 .f32)),
    (0xC6AA02CD#32, (.vsin 21 10 2 .f16)),
    (0xC6AA02EE#32, (.vcos 21 10 2 .f32)),
    (0xC6AA9ACF#32, (.venc12 21 10 19 2)),
    (0xC6AA9890#32, (.vpack 21 10 19 .zh)),
    (0xC6AA08B1#32, (.vunpack 21 10 1 .zw))].all reads = true := by decide

theorem test_decode_32 : [
    (0xC8AA9A21#32, (.vcmp 5 10 19 2 .ih .ne))].all reads = true := by decide

theorem test_decode_33 : [
    (0xCCA33000#32, (.pand 5 3 6)),
    (0xCCA33001#32, (.por 5 3 6)),
    (0xCCA33002#32, (.pxor 5 3 6)),
    (0xCCA30003#32, (.pnot 5 3)),
    (0xCCAE0004#32, (.pmov 5 14)),
    (0xCEA30005#32, (.pget 21 3)),
    (0xCEA30006#32, (.pcnt 21 3))].all reads = true := by decide

theorem test_decode_34 : [
    (0xD2AA9E8A#32, (.vqma 21 10 19 26 .t6 .t4))].all reads = true := by decide

theorem test_decode_35 : [
    (0xD6AA4E87#32, (.vqdec 21 10 9 26 .t8 .f32))].all reads = true := by decide

theorem test_decode_36 : [
    (0xDAAA3EB0#32, (.vqenc 21 10 7 26 .f16 .t8))].all reads = true := by decide

theorem test_decode_37 : [
    (0xDD260000#32, (.dnorm 9 6)),
    (0xDD2A0001#32, (.dvec 9 10)),
    (0xDEA66802#32, (.ddot 21 6 13)),
    (0xDD266803#32, (.dadd 9 6 13)),
    (0xDD266804#32, (.dsub 9 6 13)),
    (0xDD265805#32, (.dscl 9 6 11)),
    (0xDD260006#32, (.dneg 9 6)),
    (0xDD266807#32, (.drefl 9 6 13)),
    (0xDD266808#32, (.dcross 9 6 13)),
    (0xDD266E89#32, (.dmix 9 6 13 26)),
    (0xDEA6000A#32, (.dmovn 21 6)),
    (0xDD26580B#32, (.dsetn 9 6 11)),
    (0xDEA6000C#32, (.dtst 21 6)),
    (0xDEA6000D#32, (.dmov 21 6)),
    (0xDD26680E#32, (.dproj 9 6 13))].all reads = true := by decide

theorem test_decode_38 : [
    (0xE2AA6E80#32, (.rbox 21 10 13 26)),
    (0xE2AA6E81#32, (.rtri 21 10 13 26))].all reads = true := by decide

theorem test_decode_39 : [
    (0xE68E5800#32, (.tsetup 5 14 11)),
    (0xE6AC5801#32, (.tcover 21 3 11)),
    (0xE6AE5802#32, (.tinterp 21 14 11)),
    (0xE6AA5803#32, (.texld 21 10 11)),
    (0xE40E5E84#32, (.emit 14 11 26)),
    (0xE6AE0005#32, (.emitq 21 14))].all reads = true := by decide

theorem test_decode_3a : [
    (0xEAAE58A0#32, (.send 21 14 11 2 true)),
    (0xEAAEC081#32, (.sendv 21 14 6 2 false)),
    (0xEAA0C0A2#32, (.recv 21 6 2 true)),
    (0xEAAEC683#32, (.recvn 21 14 6 26)),
    (0xEAA00084#32, (.mpoll 21 2))].all reads = true := by decide

theorem test_decode_3b : [
    (0xEC0E04C0#32, (.binit 14 19)),
    (0xEEA004C1#32, (.barr 21 19)),
    (0xEC0E04C2#32, (.bwait 14 19)),
    (0xEC0E5803#32, (.kinit 14 11)),
    (0xEEAE5804#32, (.kenter 21 14 11)),
    (0xEC0E0005#32, (.kleave 14)),
    (0xEC0E5806#32, (.kskip 14 11)),
    (0xEC0E0007#32, (.kfree 14))].all reads = true := by decide

theorem test_decode_3c : [
    (0xF2AE0000#32, (.qpop 21 14 false)),
    (0xF2AE5821#32, (.qpush 21 14 11 true)),
    (0xF2AE5802#32, (.spawn 21 14 11)),
    (0xF00E0003#32, (.qclose 14))].all reads = true := by decide

theorem test_decode_3d : [
    (0xF6CE0000#32, (.ewr 22 14)),
    (0xF6B60001#32, (.erd 21 22)),
    (0xF6AE5D02#32, (.copy 21 14 11 5)),
    (0xF4D40503#32, (.mgang 6 5 5)),
    (0xF4D40504#32, (.mlut 6 5 5)),
    (0xF4C00005#32, (.acl 6)),
    (0xF6A65D06#32, (.ast 21 6 11 5)),
    (0xF4CE5D07#32, (.ald 6 14 11 5))].all reads = true := by decide

/-! ### Words and fields that are no instructions (06, R127-R135) -/

/-- An instruction that fails each check of `Instr.wellFormed`: POS + LEN, an unmapped CSR, `fsgn.abs` with a B, a loop
length, `acq` with a mask, types that a form does not take, p0 as a destination, FIRST past the register, a barrier point. -/
theorem test_ill_formed : [Instr.extr 1 2 60 10 false, .insf 1 2 63 1, .csrr 1 0x0FF, .csrw 1 2 0x203, .csrs 1 2 0x20A, .csrc 1 2 0x106,
    .fsgn 1 2 3 .abs .double, .loop 1 0, .loop 1 17, .fence .acq .field 4, .vand 1 2 3 0 .f16, .vor 1 2 3 0 .f32,
    .vxor 1 2 3 0 .f16, .vandn 1 2 3 0 .f16, .vshl 1 2 3 0 .f16, .vshr 1 2 3 0 .f16, .vaddsat 1 2 3 0 .f32,
    .vsubsat 1 2 3 0 .f16, .vmulh 1 2 3 0 .f16, .vpack 1 2 3 .f16, .vunpack 1 2 0 .f16, .vabs 1 2 0 .zb, .vneg 1 2 0 .zw,
    .vdot4 1 2 3 0 .ih, .vdot2 1 2 3 0 .ib, .vrcp 1 2 0 .iw, .vrsq 1 2 0 .iw, .vexp2 1 2 0 .iw, .vlog2 1 2 0 .ib,
    .vsin 1 2 0 .ih, .vcos 1 2 0 .zb, .vcvt 1 2 false 9 0 .iw, .vcvt 1 2 true 0 0 .f32, .vcmp 0 2 3 0 .iw .eq, .pand 0 1 2,
    .por 0 1 2, .pxor 0 1 2, .pnot 0 1, .pmov 0 1, .vqdec 1 2 9 3 .t8 .f16, .vqenc 1 2 13 3 .f32 .t6, .binit 1 24, .barr 1 24,
    .bwait 1 31].all (fun i => !i.wellFormed) = true := by decide

/-- The fences of R321's table: three that are words and three that are not; and words of R133, R134, R227 and R335 with a
field out of its range. -/
theorem test_fence_words : [(0xB8000B04#32, Instr.fence .rel .field 4), (0xB8000A06#32, .fence .rel .sheaf 6),
    (0xB8001300#32, .fence .acq .field 0), (0xB8001BFF#32, .fence .full .field 0xFF)].all reads = true := by decide
theorem test_word_refused_each : [0xB8000304#32, 0xB8001304#32, 0xB8000D04#32, 0xDE419002#32, 0xFC000000#32, 0xC0000014#32,
    0xD4000000#32, 0xCC000000#32].any (fun w => (decodeWord w).isOk) = false := by decide

/-- The words worked in 09 and 10. -/
theorem test_worked_words : [(0xC83EF822#32, Instr.vcmp 1 30 31 0 .ih .lt), (0xC7F10020#32, .vbcast 31 17 0 .ih),
    (0xC12A5812#32, .vdot4 9 10 11 0 .ib), (0xC4A638CF#32, .venc12 5 6 7 0), (0xCC411800#32, .pand 2 1 3),
    (0xD0811400#32, .vqma 4 1 2 16 .t8 .t8), (0xD4684416#32, .vqdec 3 8 8 16 .t4 .f16), (0xDC240001#32, .dvec 1 4),
    (0xDE411002#32, .ddot 18 1 2), (0xDC619805#32, .dscl 3 1 19)].all reads = true := by decide

/-! ### One instruction on a small state -/

/-- A live strand of context 1 with pc 0x100 and the given x registers; the machine that holds it in slot 0; and what it is
after `i`. -/
def base : Strand := { Strand.blank with stat := .live, uid := 1, ctx := 1, pc := 0x100 }
def regs (xs : List (Nat × Word)) (t : Strand) : Strand := { t with x := xs.foldl (fun v e => v.set! e.1 e.2) t.x }
def vregs (vs : List (Nat × V128)) (t : Strand) : Strand := { t with v := vs.foldl (fun v e => v.set! e.1 e.2) t.v }
def at0 (t : Strand) : State := { State.reset with strands := [(0, t)] }
def after (i : Instr) (s : State) : State := match exec i s with
  | .next s' => s'
  | _ => State.reset
def run (i : Instr) (t : Strand) : Strand := (after i (at0 t)).me
def xs (i : Instr) (x y : Word) (r : Word) : Bool := (run i (regs [(6, x), (7, y), (8, 3)] base)).xr 5 == r

/-- R149's table, and products at the edges. -/
theorem test_divisions : xs (.div 5 6 7) 7 (-2) (-3) && xs (.rem 5 6 7) 7 (-2) 1 && xs (.rem 5 6 7) (-7) 2 (-1) &&
    xs (.divu 5 6 7) 5 0 0xFFFFFFFFFFFFFFFF && xs (.remu 5 6 7) 5 0 5 &&
    xs (.div 5 6 7) 0x8000000000000000 (-1) 0x8000000000000000 && xs (.rem 5 6 7) 0x8000000000000000 (-1) 0 = true := by decide
theorem test_products : xs (.mul 5 6 7) 0x8000000000000001 2 2 && xs (.mulh 5 6 7) (-1) (-1) 0 &&
    xs (.mulhu 5 6 7) (-1) (-1) 0xFFFFFFFFFFFFFFFE && xs (.mulw 5 6 7) 0x10000 0x8000 0xFFFFFFFF80000000 &&
    xs (.madd 5 6 7 8) (-1) 2 1 = true := by decide
theorem test_sums : xs (.add 5 6 7) (-1) 2 1 && xs (.sub 5 6 7) 1 2 (-1) && xs (.addw 5 6 7) 0x7FFFFFFF 1 0xFFFFFFFF80000000 &&
    xs (.subw 5 6 7) 0x80000000 1 0x7FFFFFFF && xs (.andn 5 6 7) 0xFF 0x0F 0xF0 && xs (.and 5 6 7) 12 10 8 &&
    xs (.or 5 6 7) 12 10 14 && xs (.xor 5 6 7) 12 10 6 = true := by decide
theorem test_shifts : xs (.sll 5 6 7) 1 65 2 && xs (.srl 5 6 7) 0x8000000000000000 63 1 && xs (.sra 5 6 7) 0x8000000000000000 63 (-1) &&
    xs (.rol 5 6 7) 0x8000000000000001 1 3 && xs (.slli 5 6 4) 3 0 48 && xs (.srli 5 6 4) 48 0 3 &&
    xs (.srai 5 6 1) (-1) 0 (-1) && xs (.roli 5 6 63) 2 0 1 = true := by decide
theorem test_compares : xs (.slt 5 6 7) (-1) 0 1 && xs (.sltu 5 6 7) (-1) 0 0 && xs (.slti 5 6 0xFFFF) (-2) 0 1 &&
    xs (.sltiu 5 6 0xFFFF) 5 0 1 && xs (.sltiu 5 6 0xFFFF) (-1) 0 0 && xs (.min 5 6 7) (-1) 1 (-1) && xs (.max 5 6 7) (-1) 1 1 &&
    xs (.minu 5 6 7) (-1) 1 1 && xs (.maxu 5 6 7) (-1) 1 (-1) && xs (.sel 5 6 7 8) 4 9 4 = true := by decide
theorem test_bits : xs (.clz 5 6) 1 0 63 && xs (.clz 5 6) 0 0 64 && xs (.ctz 5 6) 8 0 3 && xs (.popc 5 6) 0xF0F0 0 8 &&
    xs (.brev 5 6) 1 0 0x8000000000000000 && xs (.bswap 5 6) 0x0102030405060708 0 0x0807060504030201 = true := by decide
theorem test_interleaves : xs (.ilv 5 6 7) 3 0 5 && xs (.ilv 5 6 7) 0 3 10 && xs (.ilv3 5 6 7 8) 1 0 0x25 &&
    xs (.dilv 5 6) 0xA 0 0x300000000 && xs (.dilv3 5 6) 0x25 0 0xC0000000001 = true := by decide
theorem test_immediates : xs (.addi 5 6 0xFFFF) 0 0 (-1) && xs (.andi 5 6 0x8000) (-1) 0 0x8000 && xs (.ori 5 6 0x8000) 0 0 0x8000 &&
    xs (.xori 5 6 1) 1 0 0 && xs (.lhi 5 0x8000) 0 0 0xFFFFFFFF80000000 && xs (.addpc 5 0xFFFF) 0 0 0xFC = true := by decide
theorem test_fields : xs (.extr 5 6 8 7 false) 0x80FF00 0 0xFF && xs (.extr 5 6 16 7 true) 0x80FF00 0 (-128) &&
    xs (.extr 5 6 63 0 true) 0x8000000000000000 0 (-1) && xs (.insf 5 6 8 7) 0x1AB 0 0xAB00 = true := by decide
theorem test_x0_discards : (run (.add 0 6 7) (regs [(6, 1), (7, 2)] base)).x[0] = 0 := by decide

theorem test_branches : (run (.beq 6 7 3) base).pc = 0x10C ∧ (run (.bne 6 7 3) base).pc = 0x104 ∧
    (run (.blt 6 7 0xFFFF) (regs [(7, 1), (6, 2)] base)).pc = 0xFC ∧ (run (.bge 6 7 4) (regs [(7, 1), (6, 2)] base)).pc = 0x104 ∧
    (run (.bltu 6 7 4) (regs [(7, -1), (6, 2)] base)).pc = 0x104 ∧ (run (.bgeu 6 7 4) (regs [(7, -1), (6, 2)] base)).pc = 0x110 := by decide
theorem test_jumps : (run (.jmp 0x3FFFFFF) base).pc = 0xFC ∧ (run (.jal 2) base).pc = 0x108 ∧ (run (.jal 2) base).x[1] = 0x104 ∧
    (run (.jalr 1 1 4) (regs [(1, 0x200)] base)).pc = 0x204 ∧ (run (.jalr 1 1 4) (regs [(1, 0x200)] base)).x[1] = 0x104 := by decide
theorem test_loop : (run (.loop 6 2) base).pc = 0x10C ∧ (run (.loop 6 2) (regs [(6, 100)] base)).lpc = 100 ∧
    (run (.loop 6 2) (regs [(6, 100)] base)).lpend = 0x10C := by decide
/-- The last instruction of a body of two goes back, and the last trip leaves the loop (R154). -/
theorem test_loop_step : (run (.addi 5 5 1) { base with lpc := 2, lpstart := 0xFC, lpend := 0x104 }).pc = 0xFC ∧
    (run (.addi 5 5 1) { base with lpc := 1, lpstart := 0xFC, lpend := 0x104 }).pc = 0x104 ∧
    (run (.addi 5 5 1) { base with lpc := 1, lpstart := 0xFC, lpend := 0x104 }).lpc = 0 := by decide

/-- A strand with a handler. -/
def handled : Strand := { base with tvec := 0x2000 }
theorem test_window : (run (.xrd 5 6) (regs [(6, -1)] handled)).tval = 0xFFFFFFFFFFFFFFFF ∧
    (run (.xrd 5 6) (regs [(6, 1), (11, 77)] { base with xwin := 10 + 32 * 2 })).x[5] = 77 ∧
    (run (.xwr 6 7) (regs [(6, 1), (7, 9)] { base with xwin := 10 + 32 * 2 })).x[11] = 9 := by decide
theorem test_traps : (run .sysc handled).pc = 0x2000 ∧ (run .sysc handled).epc = 0x104 ∧ (run .sysc handled).mode = 1 ∧
    (run (.trap 6) (regs [(6, 42)] handled)).tval = 42 ∧ (run (.brk 5) handled).tval = 5 ∧ (run .sysc handled).entry = true := by decide
theorem test_kret : (run .kret { base with mode := 1, epc := 0x300, elpc := 4, elpstart := 0x2F0, elpend := 0x304 }).pc = 0x300 ∧
    (run .kret { base with mode := 1, epc := 0x300, elpc := 4, elpstart := 0x2F0, elpend := 0x304 }).lpc = 4 ∧
    (run .kret { base with mode := 1, epc := 0x300 }).mode = 0 := by decide
theorem test_user_mode : (run .kret handled).cause.toNat = Cause.priv.code ∧ (run (.halt 6) handled).tval = 0x0006000B ∧
    (run (.csrr 5 0x101) handled).cause.toNat = Cause.priv.code ∧ (run (.csrw 5 6 0x009) handled).cause.toNat = Cause.illegal.code := by decide
theorem test_halt_and_done : (after (.halt 6) (at0 { base with mode := 1 })).host.ctxend = 2 ∧
    ((after .done (at0 base)).strand 0).stat = .free := by decide
theorem test_strand_control : (run (.sethue 5) base).hue = 5 ∧ (run (.pwrh 6) (regs [(6, 11)] base)).pwrreq = 11 ∧
    (run .yield base).yielded = true ∧ (run .fencei { base with fbuf := [{ addr := 0, res := .word 0 }] }).fbuf = [] ∧
    (run (.nap 6) (regs [(6, 5)] base)).wait = some (.nap 5) ∧ (run (.tlbinv 6 7 .core) { base with mode := 1 }).pc = 0x104 := by decide
theorem test_csrs : (run (.csrw 5 6 0x003) (regs [(6, 5)] base)).frm = 0 ∧ (run (.csrs 5 6 0x002) (regs [(6, 3)] { base with fen := 4 })).fen = 7 ∧
    (run (.csrc 5 6 0x002) (regs [(6, 3)] { base with fen := 6 })).fen = 4 ∧ (run (.csrr 5 0x040) base).x[5] = 0x04000000 := by decide

/-- Scalar floating point: 1 + 2, 1/3 to nearest, 1/0 raises DZ, a NaN to an integer, R159's classes. -/
theorem test_fp_arithmetic : xs (.fadd 5 6 7 .single) 0x3F800000 0x40000000 0x40400000 && xs (.fdiv 5 6 7 .single) 0x3F800000 0x40400000 0x3EAAAAAB &&
    xs (.fsub 5 6 7 .single) 0x40000000 0x3F800000 0x3F800000 && xs (.fmul 5 6 7 .single) 0x40000000 0x40400000 0x40C00000 &&
    xs (.fsqrt 5 6 .single) 0x40800000 0 0x40000000 && xs (.fmin 5 6 7 .single) 0x7FC00000 0x3F800000 0x3F800000 &&
    xs (.fmax 5 6 7 .single) 0x80000000 0 0 && xs (.fma 5 6 7 6 .single) 0x40000000 0x40400000 0x41000000 &&
    xs (.fms 5 6 7 6 .single) 0x40000000 0x40400000 0x40800000 && xs (.fnma 5 6 7 6 .single) 0x40000000 0x40400000 0xC1000000 &&
    xs (.fnms 5 6 7 6 .single) 0x40000000 0x40400000 0xC0800000 = true := by decide +kernel
theorem test_fp_events : (run (.fdiv 5 6 7 .single) (regs [(6, 0x3F800000)] base)).fflags = 2 ∧
    (run (.fdiv 5 6 7 .single) (regs [(6, 0x3F800000)] { handled with fen := 2 })).cause.toNat = Cause.fpxLocal.code := by decide
theorem test_fp_compares : xs (.feq 5 6 7 .single) 0 0x80000000 1 && xs (.flt 5 6 7 .single) 0xBF800000 0 1 &&
    xs (.fle 5 6 7 .single) 0x7FC00000 0 0 && xs (.fclass 5 6 .single) 0x80000000 0 0x101 && xs (.fclass 5 6 .single) 0x7F800000 0 8 &&
    xs (.fclass 5 6 .single) 0x80000001 0 0x102 && xs (.fsgn 5 6 7 .inv .single) 0x3F800000 0 0xBF800000 = true := by decide
theorem test_fp_conversions : xs (.fcvti 5 6 .sw .single) 0x7FC00000 0 0x7FFFFFFF && xs (.fcvti 5 6 .ul .single) 0xBF800000 0 0 &&
    xs (.fcvtf 5 6 .sl .single) (-1) 0 0xBF800000 && xs (.fcvtp 5 6 .toh .single) 0x3F800000 0 0x3C00 &&
    xs (.fcvtp 5 6 .other .double) 0x3F800000 0 0x3FF0000000000000 = true := by decide

/-! ### Memory -/

def withMem (cells : List Host.Cell) (s : State) : State := { s with mem := s.mem.putAll cells }
/-- TCM of core 0 holds 0x80, 0xFF, 1, 2 … at 0x4000. -/
def filled (t : Strand) : State := withMem (cellsAt (tcmLoc 0 0x4000) ([0x80, 0xFF] ++ (List.range 62).map fun i => BitVec.ofNat 8 (i + 1))) (at0 t)
def ptr : Strand := regs [(6, 0x4000), (7, 4)] base
theorem test_loads : ((after (.ld 5 6 .b false 0) (filled ptr)).me.xr 5) = (-128) ∧ ((after (.ld 5 6 .hz false 0) (filled ptr)).me.xr 5) = 0xFF80 ∧
    ((after (.ld 5 6 .w true 4) (filled ptr)).me.xr 6) = 0x4004 ∧ ((after (.ldx 5 6 7 .w) (filled ptr)).me.xr 5) = 0x06050403 := by decide
theorem test_vector_loads : vElem 1 2 ((after (.vld 5 6 false 16) (filled ptr)).me.vr 5) = 17 ∧
    vElem 4 1 ((after (.vlds 5 6 7) (filled ptr)).me.vr 5) = 0x06050403 ∧ vElem 4 3 ((after (.vldg 5 6 0) (filled ptr)).me.vr 5) = 0x0201FF80 ∧
    ((after (.dld 5 6 false 0) (filled ptr)).me.dr 5).norm = 0x0E0D := by decide
theorem test_stores : ((after (.st 7 6 .w false 0) (filled ptr)).me.buf.map fun e => e.cells.length) = [4] ∧
    (after (.st 7 6 .w false 0) (filled ptr)).mem = (filled ptr).mem ∧ ((after (.stx 7 6 7 .h) (filled ptr)).me.buf.map fun e => e.vas) = [[0x4004]] ∧
    ((after (.vst 7 6 true 16) (filled ptr)).me.xr 6) = 0x4010 ∧ ((after (.dst 7 6 false 0) (filled ptr)).me.buf.map fun e => e.cells.length) = [16] := by decide
theorem test_element_stores : ((after (.vsts 7 6 7) (filled ptr)).me.buf.map fun e => e.cells.length) = [16] ∧
    ((after (.vstg 7 6 0) (filled ptr)).me.buf.map fun e => e.cells.length) = [16] := by decide
/-- A store drains, and a load before that takes its bytes from the buffer (R314, R315). -/
theorem test_drain : (after (.storeDrain 0 0) (after (.st 7 6 .w false 0) (filled ptr))).mem.bytes (tcmLoc 0 0x4000) 5 = [4, 0, 0, 0, 3] ∧
    ((after (.ld 5 6 .w false 0) (after (.st 7 6 .w false 0) (filled ptr))).me.xr 5) = 4 := by decide
def amo (i : Instr) (m : Nat) (old : Word) : Bool :=
  let s := after i (withMem (cellsAt (tcmLoc 0 0x4000) (leBytes 0xFFFFFFFE 4)) (at0 (regs [(6, 0x4000), (7, 5), (8, 0xFFFFFFFE)] base)))
  leNat (s.mem.bytes (tcmLoc 0 0x4000) 4) == m && s.me.xr 5 == old
theorem test_atomics : amo (.amoadd 5 6 7 .none .core .w) 3 (-2) && amo (.amomin 5 6 7 .none .core .w) 0xFFFFFFFE (-2) &&
    amo (.amomaxu 5 6 7 .none .core .w) 0xFFFFFFFE (-2) && amo (.amominu 5 6 7 .none .core .w) 5 (-2) && amo (.amomax 5 6 7 .none .core .w) 5 (-2) &&
    amo (.amoand 5 6 7 .none .core .w) 4 (-2) && amo (.amoor 5 6 7 .none .core .w) 0xFFFFFFFF (-2) &&
    amo (.amoxor 5 6 7 .none .core .w) 0xFFFFFFFB (-2) && amo (.amoswap 5 6 7 .acq .core .w) 5 (-2) &&
    amo (.cas 5 6 7 8 .w .none .core) 5 (-2) = true := by decide
theorem test_amofadd : amo (.amofadd 5 6 7 .none .core .w) 0x7FC00000 0xFFFFFFFE = true := by decide
theorem test_misaligned : (run (.ld 5 6 .w false 2) (regs [(6, 0x4000)] handled)).tval = 0x4002 ∧
    (run (.ld 5 6 .w false 2) (regs [(6, 0x4000)] handled)).cause.toNat = Cause.align.code := by decide
theorem test_fence : (run (.fence .rel .field 0xFF) base).pc = 0x104 ∧ (run (.fence .rel .field 1) { base with buf := [{ seq := 7, hue := 0, vas := [0], cells := [], owed := 0 }] }).wait =
    some (.fence [7] none) ∧ (run (.fence .full .core 2) { base with buf := [{ seq := 7, hue := 0, vas := [0], cells := [], owed := 0 }] }).pc = 0x104 := by decide
theorem test_waits : (run (.waitc 2 1) { base with c := base.c.set 2 1 }).pc = 0x104 ∧
    (run (.waitc 2 1) { base with c := base.c.set 2 2 }).wait = some (.counter 2 1) := by decide

/-! ### Vectors, narrow formats, directions -/

def vs (i : Instr) (a b d r : V128) : Bool := (run i (vregs [(1, a), (2, b), (3, d)] (regs [(6, 0x7E0007F000)] base))).vr 3 == r
theorem test_vector_integers : vs (.vadd 3 1 2 0 .ib) 0xFF 0x02 0 0x01 && vs (.vsub 3 1 2 0 .ih) 0 1 0 0xFFFF && vs (.vmul 3 1 2 0 .zw) 0x10000 0x10001 0 0x10000 &&
    vs (.vma 3 1 2 0 .iw) 3 4 5 17 && vs (.vmin 3 1 2 0 .ib) 0xFF 1 0 0xFF && vs (.vmax 3 1 2 0 .zb) 0xFF 1 0 0xFF &&
    vs (.vaddsat 3 1 2 0 .ib) 0x7F 1 0 0x7F && vs (.vsubsat 3 1 2 0 .zb) 0 1 0 0 && vs (.vmulh 3 1 2 0 .ih) 0x4000 4 0 1 &&
    vs (.vdot4 3 1 2 0 .ib) 0x02020202 0xFF010101 10 14 && vs (.vdot2 3 1 2 0 .ih) 0x00020003 0x00040005 1 24 = true := by decide
theorem test_vector_bits : vs (.vand 3 1 2 0 .ib) 12 10 0 8 && vs (.vor 3 1 2 0 .ib) 12 10 0 14 && vs (.vxor 3 1 2 0 .ib) 12 10 0 6 &&
    vs (.vandn 3 1 2 0 .ib) 12 10 0 4 && vs (.vshl 3 1 2 0 .ib) 3 9 0 6 && vs (.vshr 3 1 2 0 .ib) 0x80 7 0 0xFF &&
    vs (.vabs 3 1 0 .ib) 0x80 0 0 0x80 && vs (.vneg 3 1 0 .ih) 1 0 0 0xFFFF && vs (.vsel 3 1 2 0 .iw) 7 9 0 7 = true := by decide
theorem test_vector_floats : vs (.vadd 3 1 2 0 .f16) 0x3C00 0x4000 0 0x4200 && vs (.vrcp 3 1 0 .f32) 0x40000000400000004000000040000000 0 0 0x3F0000003F0000003F0000003F000000 &&
    vs (.vcvt 3 1 false 2 0 .f32) 3 0 0 0x40400000 && vs (.vdot2 3 1 2 0 .f16) 0x3C003C00 0x40004000 0 0x40800000 = true := by decide
theorem test_vector_moves : vs (.vbcast 3 6 0 .ih) 0 0 0 0xF000F000F000F000F000F000F000F000 && vs (.vmovx 3 6 6 .iw) 0 0 0 0x0007F000 &&
    vs (.vperm 3 1 2 0 .iw) 0x00000002000000010000000000000009 0x00000000000000000000000000000002 0 0x00000009000000090000000900000001 &&
    vs (.vrot 3 1 6 0 .iw) 5 0 0 5 && vs (.vpack 3 1 2 .ih) 0x0080 0 0 0x7F && vs (.vunpack 3 1 0 .ih) 0xFF 0 0 0xFFFF = true := by decide
theorem test_reductions : (run (.vredadd 5 1 0 .ib) (vregs [(1, 0xFF01)] base)).xr 5 = 0 ∧ (run (.vredmin 5 1 0 .ib) (vregs [(1, 0xFF01)] base)).xr 5 = (-1) ∧
    (run (.vredmax 5 1 0 .zb) (vregs [(1, 0xFF01)] base)).xr 5 = 255 ∧ (run (.vextx 5 1 6 .ib) (vregs [(1, 0xFF)] base)).xr 5 = (-1) := by decide
/-- A sum of zeros rounded down is −0 (R200). -/
theorem test_reduction_of_zeros : (run (.vredadd 5 1 0 .f32) { base with frm := 3 }).xr 5 = 0x80000000 ∧
    (run (.vredadd 5 1 0 .f32) base).xr 5 = 0 := by decide +kernel
def prun (i : Instr) : Strand := run i (vregs [(1, 0x0001), (2, 0x0002)] (regs [(6, 0x1F0F0)] { base with p := (base.p.set 2 0xFF00).set 3 0x0FF0 }))
theorem test_predicates : (prun (.vcmp 1 1 2 0 .ih .lt)).pr 1 = 3 ∧ (prun (.pand 1 2 3)).pr 1 = 0x0F00 ∧ (prun (.por 1 2 3)).pr 1 = 0xFFF0 ∧
    (prun (.pxor 1 2 3)).pr 1 = 0xF0F0 ∧ (prun (.pnot 1 2)).pr 1 = 0x00FF ∧ (prun (.pmov 1 6)).pr 1 = 0xF0F0 ∧ (prun (.pget 5 3)).xr 5 = 0x0FF0 ∧
    (prun (.pcnt 5 2)).xr 5 = 8 := by decide
/-- The worked `vqma.t8t4` of R208. -/
theorem test_vqma : (after (.vqma 4 1 2 16 .t8 .t4) { at0 (vregs [(1, 0x01010101010101010101010101010101), (2, 0xCCCCCCCCCCCCCCCCEEEEEEEEEEEEEEEE),
      (4, 0x003FF000000000000000000000000000)] (regs [(16, 0x7E0007F000)] base)) with
    cores := [(0, { Core.blank with qbase4 := 240, qtab := [(1, 0x1FC00), (252, 0x1F800), (254, 0x1FC00)] })] }).me.vr 4 =
    0x00401400000000000040200000000000 := by decide +kernel
theorem test_vqdec : (after (.vqdec 4 1 0 16 .t8 .f16) { at0 (vregs [(1, 1)] (regs [(16, 0x7F000)] base)) with
    cores := [(0, { Core.blank with qtab := [(1, 0x1FC00)] })] }).me.vr 4 = 0x3C00 := by decide +kernel
def drun (i : Instr) : Strand := run i (vregs [(1, 0x3C00)] (regs [(6, 0x100)] { base with
  d := (base.d.set 1 { lanes := #v[0x4000, 0, 0, 0, 0, 0, 0], norm := 0 }).set 2 { lanes := #v[0, 0x4000, 0, 0, 0, 0, 0], norm := 0 } }))
theorem test_directions : ((drun (.dcross 3 1 2)).dr 3).lanes[2] = 0x4000 ∧ ((drun (.dneg 3 1)).dr 3).lanes[0] = 0xC000 ∧ (drun (.ddot 5 1 2)).xr 5 = 0 ∧
    ((drun (.dscl 3 1 6)).dr 3).norm = 0x100 ∧ (drun (.dtst 5 0)).xr 5 = 1 ∧ (drun (.dmov 3 1)).vr 3 = 0x3C00 ∧ ((drun (.dvec 3 1)).dr 3).lanes[0] = 0x4000 := by decide +kernel

/-! ### Launch records (04: the frame launch, byte by byte) and the ramp of 05 -/

def frameRecord : List Byte := [0x00, 0x00, 0x40, 0x00, 0x00, 0x7F, 0x00, 0x00, 0x00, 0x02, 0x00, 0x00, 0x03, 0x14, 0x02, 0x0D,
  0x00, 0x24, 0x00, 0x24, 0, 0, 0, 0, 0, 0, 0, 0, 0, 0, 0, 0, 0x00, 0x00, 0x00, 0x10, 0x00, 0x7F, 0x00, 0x00, 0x10, 0x00, 0x00, 0x20, 0x00, 0x7F, 0x00, 0x00,
  0xE9, 0x03, 0x00, 0x00, 0xC0, 0x5D, 0x00, 0x04, 0x00, 0xCA, 0x9A, 0x3B, 0, 0, 0, 0, 0x08, 0x00, 0x00, 0x20, 0x00, 0x7F, 0x00, 0x00, 0xE9, 0x03] ++ List.replicate 54 0
theorem test_record : recCode frameRecord = 0x00007F0000400000 ∧ recEntry frameRecord = 0x200 ∧ recCtx frameRecord = 3 ∧ recPrio frameRecord = 20 ∧
    recTotal frameRecord = 18432 ∧ recStk frameRecord = 4 ∧ recPower frameRecord = 24000 ∧ recStart frameRecord = 1000000000 ∧
    recDone frameRecord = 0x00007F0020000010 ∧ recDoneVal frameRecord = 1001 ∧ recPinned frameRecord = true := by decide
theorem test_completion_word : (Launch.new frameRecord (.port 0 0) 1).word = 0x3E9 ∧
    ({ Launch.new frameRecord (.port 0 0) 1 with darkSkip := true } : Launch).word = 0x20000000000003E9 := by decide
theorem test_pinned_draw : pinnedDraw frameRecord = 960 := by decide
/-- The launch chosen at 999,962,400 ns is planned for 1,000,000 and ramps from 999,970; chosen at 999,975,500 it is refused. -/
theorem test_ramp : (Table.get? (State.planRamp { State.reset with gov := { Governor.blank with plim := 1040 } } 999963
      (0, Launch.new frameRecord (.port 0 7) 1)).launches 0).map (fun la => (la.rampFrom, la.runTick)) = some (999970, some 1000000) ∧
    ((State.planRamp State.reset 999976 (0, Launch.new frameRecord (.port 0 7) 1)).port 0).why = 0x15 := by decide

/-- XXH64 of the empty string, as its specification gives it; the low four bytes are the checksum of an empty frame (13, R307). -/
theorem test_xxh64 : xxh64 [] = 0xEF46DB3751D8E999 := by decide
/-- A withdrawn wait takes away the entry that stood for it alone, and no other (R9, R358). -/
theorem test_unwaitKeys :
    let e : KeyEntry := { KeyEntry.new 0 8 0 with made := true }
    (State.unwaitKeys { State.reset with keys := [{ e with waiters := [(1, 5)] }, { e with key := 9, ctxSkips := [4] }] } 1).keys.map (·.key) = [9] := by
  decide

/-! ### States that meet the hypotheses of the statements -/

def goes (o : Out) : Bool := match o with
  | .next _ => true
  | _ => false
/-- In K mode, and in a loop body at its last word. -/
def kern : Strand := { base with mode := 1, tvec := 0x2000 }
def looped : Strand := { base with lpc := 2, lpstart := 0xFC, lpend := 0x104 }
def s0 : State := at0 handled
/-- One word at the fetch address, and the turn that runs it. -/
def w0 : State := State.reset.withFetchWord 32 0x20A50001

theorem witness_faults : handled.waitsAlone ∧ handled.tvec ≠ 0 ∧ handled.entry = false ∧ base.waitsAlone ∧ base.tvec = 0 ∧
    ({ handled with entry := true } : Strand).entry = true := by
  refine ⟨⟨?_, ?_⟩, by decide, by decide, ⟨?_, ?_⟩, by decide, by decide⟩ <;> intros <;> simp [handled, base, Strand.blank]
theorem witness_decodeInvertsEncode : (Instr.addi 5 5 1).isWord = true ∧ (Instr.addi 5 5 1).wellFormed = true ∧
    (Instr.fence .acq .field 0).wellFormed = true ∧ (Instr.vqenc 1 2 8 3 .f16 .t6).wellFormed = true := by decide
theorem witness_encodeInvertsDecode : decodeWord 0x20A50001#32 = .ok (.addi 5 5 1) := by decide
theorem witness_stepRunsDecoded :
    let d := w0.drawn.countWaits 0
    let s0 := (coreSlots 0).foldl (fun s i => (s.pauseStop i).prefetch i) d
    let n := 2 + s0.issueTokens 0 + s0.sliceTokens 0
    let s1 := (s0.account 0 (s0.readySlots 0) (some 0)).clocked 0 n (s0.charge 0 n)
    let s2 := State.startAcquire (s1.setCore 0 { s1.core 0 with last := 0 }) 0
    let s3 := State.fetch { s2 with cur := 0 } 0
    w0.nextTurn.2 = .issue 0 ∧ w0.drawn.dbg.frozen = false ∧ 0 < Config.cores ∧ (d.core 0).power.up = true ∧
      (d.core 0).starved = false ∧ s0.choose 0 (s0.readySlots 0) = some 0 ∧ ¬ (s0.core 0).tokens < s0.charge 0 n ∧
      (s2.strand 0).pend = [] ∧ s3.2 = some (.word 0x20A50001) ∧ decodeWord 0x20A50001#32 = .ok (.addi 5 5 1) := by decide +kernel
/-- Eight bytes of TCM of core 0, as a part of a read. -/
def nearPart (a : Nat) (got : Option (List Byte)) : Machine.Part :=
  { va := a, place := { locs := (List.range 8).map (tcmLoc 0 a + ·), direct := true }, home := false, got := got }
/-- Strand 0 with 8 bytes of a `vld` to take, and a turn that takes them. -/
def halfway : State :=
  { at0 { regs [(6, 0x4000)] base with
      mid := some { no := 0, done := [], ordered := false, bits := [], until' := none, parts := [nearPart 0x4000 (some (List.replicate 8 7)), nearPart 0x4008 none] },
      word := encode (.vld 5 6 false 0) } with agenda := [(Choice.plain, .part 0)] }
theorem witness_stepTakesPartsAndActs :
    let acting : State := { State.reset with agenda := [(Choice.plain, .act (.corePowerGate 0))] }
    halfway.nextTurn.2 = .part 0 ∧ halfway.drawn.dbg.frozen = false ∧ (halfway.drawn.strand 0).stat = .live ∧
      (halfway.drawn.strand 0).mid ≠ none ∧ decodeWord (halfway.drawn.strand 0).word = .ok (.vld 5 6 false 0) ∧
      acting.nextTurn.2 = .act (.corePowerGate 0) ∧ (Instr.corePowerGate 0).isWord = false ∧ acting.drawn.dbg.frozen = false := by
  decide +kernel
theorem witness_stepKeepsCanonical : w0.canonical = true ∧ goes (step w0) = true := by decide +kernel
theorem witness_arrayReadOutStaysFrozen :
    let s : State := { w0 with dbg := { Debug.blank with frozen := true, arrayRead := true } }
    s.dbg.frozen = true ∧ s.dbg.arrayRead = true ∧ goes (step s) = true := by decide +kernel
theorem witness_divisions : (5 : Word) ≠ 0 ∧ ¬ ((7 : Word) = 0x8000000000000000#64 ∧ (5 : Word) = BitVec.allOnes 64) ∧
    (BitVec.allOnes 64) ≠ 0 ∧ (0 : Int) ≤ (7 : Word).toInt ∧ (-7 : Word).toInt ≤ 0 := by decide
theorem witness_bitFields : (63#6).toNat + (0#6).toNat + 1 ≤ 64 ∧ (0#6).toNat + (63#6).toNat + 1 ≤ 64 := by decide
theorem witness_branchesAndJumps : base.inLoop = false ∧ looped.inLoop = true ∧ ((at0 looped).me.xr 6 + 8).toNat % 4 = 0 ∧
    ((at0 looped).me.xr 6 + 6).toNat % 4 ≠ 0 := by decide
theorem witness_loops : base.inLoop = false ∧ looped.inLoop = true ∧ base.xr 6 = 0 ∧ (regs [(6, 9)] base).xr 6 ≠ 0 ∧
    (∀ n ∈ [1, 16], let t : Strand := { base with lpc := 3, lpstart := 0x100, lpend := 0x100 + 4 * BitVec.ofNat 64 n }
      1 ≤ n ∧ n ≤ 16 ∧ t.lpc ≠ 0 ∧ t.pc = t.lpstart ∧ t.lpend = t.lpstart + 4 * BitVec.ofNat 64 n) := by decide
/-- BASE 10, LEN 22: indices 0, LEN − 1, LEN and −1. -/
theorem witness_window :
    let t (i : Word) : Strand := regs [(6, i)] { base with xwin := 10 + 32 * 22 }
    let len := (t 0).xwin.toNat / 32
    (∀ e ∈ [(0, 10), (21, 31)], 0 ≤ ((t e.1).xr 6).toInt ∧ ((t e.1).xr 6).toInt < len ∧
      e.2 = (t e.1).xwin.toNat % 32 + ((t e.1).xr 6).toNat) ∧
      ((t (-1)).xr 6).toInt < 0 ∧ len ≤ ((t 22).xr 6).toInt := by decide
theorem witness_kernelReturn : (at0 kern).me.mode ≠ 0 ∧ kern.inLoop = false ∧ kern.epc.toNat % 4 = 0 ∧
    ({ kern with epc := 2 } : Strand).epc.toNat % 4 ≠ 0 ∧ ({ looped with mode := 2 } : Strand).mode ≠ 0 ∧ looped.inLoop = true ∧
    s0.me.mode = 0 ∧ s0.me.tvec ≠ 0 ∧ s0.me.pc.toNat % 4 = 0 ∧ s0.me.lpstart.toNat % 4 = 0 ∧ s0.me.lpend.toNat % 4 = 0 ∧
    (s0.me.advance.lpc = 0) := by decide
theorem witness_userModeIsConfined : s0.me.mode = 0 ∧ s0.poison = [] ∧ s0.choice.flaws = [] ∧ s0.me.stat = .live ∧ (Instr.sysc).isWord = true ∧
    goes (exec .sysc s0) = true ∧ ((after .sysc s0).strand s0.cur).uid = s0.me.uid ∧
    ((after .sysc s0).strand s0.cur).stat = .live ∧
    (0x100#12).toNat = 0x100 ∧ (0x10A#12).toNat = 0x10A ∧ (0x200#12).toNat = 0x200 ∧ (∀ c ∈ [0x040#12, 0x044], 0x040 ≤ c.toNat ∧ c.toNat ≤ 0x044) ∧
    (5 : XReg) ≠ 0 := by decide
theorem witness_strandControl : (s0.me.xr 6).toNat ≤ s0.ftime ∧ s0.ftime < ((at0 (regs [(6, 9)] base)).me.xr 6).toNat ∧
    s0.me.wait = none ∧ s0.me.stat = .live ∧ (at0 kern).me.mode ≠ 0 ∧ (at0 kern).me.wait = none ∧ (at0 kern).early = [] ∧
    (16 : Word).getLsbD 4 = true ∧ (15 : Word).getLsbD 4 = false ∧ (at0 kern).tlbUsers .core 0 0 16 = ([], [], []) ∧
    ((at0 { kern with buf := [{ seq := 7, hue := 0, vas := [0x1000000], cells := [], owed := 0 }] }).tlbUsers .core 0 0x1000000 1).1 = [7] ∧
    (let u := after (.nap 6) (at0 (regs [(6, 9)] base))
     u.strand u.cur = u.me ∧ u.ftime < 9 ∧ 9 ≤ ({ u with ftime := 9 } : State).ftime) := by decide

theorem mem_of_get? {α : Type} : ∀ {t : Table α} {k : Nat} {a : α}, Table.get? t k = some a → (k, a) ∈ t
  | [], _, _, h => by simp [Table.get?] at h
  | (j, b) :: t, k, a, h => by
    unfold Table.get? at h
    split at h
    · simp_all
    · split at h
      · cases h
      · exact List.mem_cons_of_mem _ (mem_of_get? h)

/-- A state with memory canonical, no ownership map, no superstep, no write and no read under way and no wait is quiet everywhere but
in the mailbox and tray blocks. -/
theorem quiet_of (s : State) (locs : List Nat) (hc : s.canonical = true)
    (hl : (s.launches.all fun e => !recSstep e.2.bytes) = true) (ho : s.host.ownmap = none)
    (hm : mboxTouched (locs.map fun l => (l, 0)) = []) (ht : trayTouched (locs.map fun l => (l, 0)) = []) (hq : s.closes = [])
    (he : s.early = []) (hw : (s.strands.all fun e => e.2.wait.isNone && e.2.mid.isNone) = true) : s.quiet locs := by
  have idle := fun e he => Bool.and_eq_true_iff.mp (List.all_eq_true.mp hw e he)
  refine ⟨hc, ?_, ?_, hm, ht, hq, he, ?_, ?_⟩
  · intro k la h
    have := List.all_eq_true.mp hl _ (mem_of_get? h)
    simpa using this
  · intro l _
    simp [State.inOwnMap, ho]
  · intro e he u h
    exact absurd (idle e he).2 (by simp [h])
  · intro e he ls v h
    exact absurd (idle e he).1 (by simp [h])

/-- A packable record of context `c`, of one strand, and a running launch of it; a strand of the launch in slot 0. -/
def recOf (c : Byte) : List Byte := List.replicate 12 0 ++ [c, 20, 1, 0, 2, 0] ++ List.replicate 110 0
def launchOf (c : Byte) : Launch := { Launch.new (recOf c) (.port 0 0) 1 with state := .running }
def inLaunch (t : Strand) : State := { at0 t with launches := [(0, launchOf 1), (1, launchOf 2)] }
/-- The same in SSTEP mode. -/
def stepped (t : Strand) : State :=
  { at0 t with launches := [(0, { launchOf 1 with bytes := (recOf 1).set 15 2 })] }
/-- Two entries, the younger over a byte of the older. -/
def two : List BufEntry := [{ seq := 1, hue := 0, vas := [0], cells := [(5, 1), (6, 1)], owed := 0 }, { seq := 2, hue := 1, vas := [0], cells := [(6, 2)], owed := 0 }]
def keyOf (u : Nat) : KeyEntry := { KeyEntry.new 0 8 3 with holder := some (u, 3) }

theorem witness_endingStrandsAndContexts : (at0 kern).me.mode ≠ 0 ∧ (inLaunch kern).early = [] ∧ (inLaunch base).early = [] ∧ (inLaunch kern).me.ctx = 1 ∧
    Table.get? (inLaunch kern).launches 0 = some (launchOf 1) ∧ recCtx (launchOf 1).bytes = 1 ∧ (launchOf 1).over = false ∧ ((inLaunch kern).strands.all fun e => e.2.wait.isNone) = true ∧
    ({ launchOf 1 with retired := 2 } : Launch).over = true ∧
    Table.get? (inLaunch kern).launches 1 = some (launchOf 2) ∧ recCtx (launchOf 2).bytes ≠ 1 ∧
    (inLaunch base).heldKey 1 = none ∧ Table.get? (inLaunch base).launches (inLaunch base).me.launch = some (launchOf 1) ∧
    base.buf = [] ∧ ({ base with buf := two } : Strand).buf ≠ [] ∧
    ({ inLaunch base with keys := [keyOf 1] } : State).heldKey (inLaunch base).me.uid = some 8 := by decide
theorem witness_csrAccesses : [0x001#12, 0x102, 0x200, 0x206, 0x300].all csrMapped = true ∧ (at0 kern).me.mode ≠ 0 ∧ (csrRights 0x001).uRead = true ∧ (csrRights 0x102).kWrite = true ∧
    (csrRights 0x001).kWrite = true ∧ (csrRights 0x001).uWrite = true ∧ (csrRights 0x206).kWrite = true := by decide
theorem witness_csrSetsAndClears :
    let s : State := at0 (regs [(6, 3), (7, 7), (8, 4)] { base with fen := 4 })
    let k : State := { at0 (regs [(6, 1), (7, 1)] kern) with cores := [(0, { Core.blank with late := true })] }
    (6 : XReg) ≠ 0 ∧ csrMapped 0x002 = true ∧ csrMapped 0x201 = true ∧ (csrRights 0x002).kWrite = true ∧ (csrRights 0x002).uRead = true ∧ (csrRights 0x002).uWrite = true ∧
      s.me.xr 7 = s.csrRead s.cur 2 ||| s.me.xr 6 ∧ s.me.xr 8 = s.csrRead s.cur 2 &&& ~~~(s.me.xr 6) ∧ k.me.mode ≠ 0 ∧
      k.csrRead k.cur 0x201 = 0x10000 ∧
      k.me.xr 7 = ((k.csrRead k.cur 0x201 ||| k.me.xr 6) &&& ~~~0x10000) ||| (k.me.xr 6 &&& 0x10000) ∧
      k.me.xr 8 = k.csrRead k.cur 0x201 &&& ~~~(k.me.xr 6) &&& ~~~0x10000 := by decide
/-- 1, the greatest single, and the number halfway to the next; and each kind of bits a value can have. -/
theorem witness_rounding : (1 : Nat) ≠ 0 ∧ (fmtS.round .rne false 1 0 false).2 &&& evOF = 0 ∧
    (fmtS.round .rne false (2 ^ 24 - 1) 104 false).2 &&& evOF = 0 ∧ (fmtS.round .rtz true (2 ^ 25 + 1) 0 false).2 &&& evOF = 0 ∧
    (fmtS.round .rne false 1 (-150) false).2 &&& evOF = 0 ∧ (fmtS.round .rne false 1 128 false).2 &&& evOF ≠ 0 ∧
    0x3F800000 < 2 * fmtS.signBit ∧ (fmtS.decode 0x3F800000).isNan = false ∧ (fmtS.decode 0x3F800000).isInf = false ∧
    0x00000001 < 2 * fmtS.signBit ∧ (fmtS.decode 0x80000000).isNan = false := by decide +kernel
theorem witness_arithmeticRoundsOnce :
    let a := Fv.fin false 1 0
    let b := Fv.fin true 3 (-1)
    a.isNan = false ∧ b.isNan = false ∧ a.isInf = false ∧ b.isInf = false ∧ a.rat + b.rat ≠ 0 ∧ a.rat - b.rat ≠ 0 ∧
      a.rat * b.rat ≠ 0 ∧ a.rat * b.rat + a.rat ≠ 0 ∧ (Fv.nan true).isNan = true ∧ (Fv.inf false).isInf = true ∧
      (Fv.fin false 0 0).isZero = true := by
  refine ⟨rfl, rfl, rfl, rfl, ?_, ?_, ?_, ?_, rfl, rfl, rfl⟩ <;> norm_num [Fv.rat]
theorem witness_eventsPass : (at0 base).eventsPass 31 ∧ ({ at0 base with strands := [(0, { base with fen := 2 })] } : State).eventsPass 29 ∧
    (at0 { base with fen := 2, fenMask := 2 }).eventsPass 2 := ⟨rfl, rfl, rfl⟩
theorem witness_scalarFpForms : (fmtS.decode 0x7FC00000).isNan = true ∧ (1 : Int) ≠ 0 := by decide
/-- Numbers, zeros of either sign and a NaN, as operands of quotients, roots, conversions, `pick` and comparisons. -/
theorem witness_conversionsAndQuotients :
    let nan := fmtS.decode 0x7FC00000
    let one := fmtS.decode 0x3F800000
    (-128 : Int) ≤ 127 ∧ (3 : Nat) ≠ 0 ∧ one.isNan = false ∧ one.isInf = false ∧ nan.isNan = true ∧ (fmtS.decode 0).isZero = true ∧
      (fmtS.decode 0x80000000).isZero = true ∧ (fmtS.decode 0).neg? ≠ (fmtS.decode 0x80000000).neg? := by decide +kernel
theorem witness_conversionsOfNumbers : (Fv.fin true 3 (-1)).rat ≠ 0 ∧ (Fv.fin true 0 5).rat = 0 := by norm_num [Fv.rat]
theorem witness_enabledEventTraps : ¬ (at0 { base with fen := 2 }).eventsPass 2 ∧ (at0 base).eventsPass 2 ∧
    base.fpxsup.getLsbD 31 = false ∧ ({ base with fpxsup := 0x80000005 } : Strand).fpxsup.getLsbD 31 = true ∧
    (at0 base).destOk (0x80000005 &&& 0x7FFFF) = true ∧ (at0 base).destOk (0x80002405 &&& 0x7FFFF) = false ∧
    (8#5).toNat + FFmt.f16.elems ≤ NFmt.t8.elems ∧ ((at0 base).core 0).sendQ.length < 8 ∧
    8 ≤ (List.replicate 8 (0 : Nat)).length := by
  refine ⟨?_, rfl, ?_⟩
  · unfold State.eventsPass; decide
  · decide

/-- The bytes at 0x4000 are taken by loads of every width and shape, and stores go there. -/
theorem witness_loadForms :
    let s := filled ptr
    s.me.mid = none ∧ s.choice.cut = 0 ∧ s.early = [] ∧ (∀ n ∈ [1, 2, 4, 8, 16], (s.takes 0x4000 n).isSome = true ∧ (s.takes (s.me.xr 6 + 16) n).isSome = true) ∧
      (s.takes (s.me.xr 6 + s.me.xr 7) 4).isSome = true ∧ (s.takesEach 4 [0x4000, 0x4004, 0x4008, 0x400C]).isSome = true ∧
      (6 : XReg) ≠ 5 ∧ (0x4000#64).toNat % 8 = 0 ∧ (0x4000#64).toNat < 0x1000000 ∧
      (nearLocs s.myCore s.me.skew 0x4000 8).isSome = true ∧
      ∀ l ∈ (nearLocs s.myCore s.me.skew 0x4000 8).getD [], s.poisoned l = false := by decide
/-- One part of each kind of load may be taken alone, and then the rest. -/
theorem witness_partialLoads :
    let s : State := { filled ptr with choice := { Choice.plain with cut := 1 } }
    s.me.mid = none ∧ s.early = [] ∧
      ([(false, [(0x4000, 16)]), (true, [(0x4000, 4), (0x4004, 4), (0x4008, 4), (0x400C, 4)])].all fun q =>
        match s.partsOf ReadKind.plain [] q.2 with
        | some (s1, ps) =>
          let u : Underway := { no := s1.seqNo, done := [], parts := ps, ordered := q.1, bits := [], until' := none }
          let full : State := { s1 with choice := Choice.plain }
          s.picks u 0 && !s.picks u 1 && match State.loadParts { s1 with seqNo := s1.seqNo + 1 } s.cur (s.picks u) [] 0 ps with
          | (_, .ok ps') => (ps'.any fun p => p.got.isNone) && match full.loadParts s.cur (full.picks u) [] 0 ps' with
            | (_, .ok all) => (all.filterMap (·.got)).flatten.length == 16
            | _ => false
          | _ => false
        | none => false) = true ∧ (halfway.me.mid.map (·.done)) = some [] ∧ halfway.choice.cut = 0 := by decide +kernel
theorem witness_storeForms :
    let s := filled ptr
    s.me.buf.length < 16 ∧ s.early = [] ∧ (∀ n ∈ [1, 2, 4, 8, 16], (s.goesTo 0x4000 n).isSome = true) ∧
      (s.goesToEach [] [0x4000, 0x4004, 0x4008, 0x400C]).isSome = true := by decide
theorem witness_storeOrder :
    let s := filled ptr
    let t : State := at0 { base with buf := two }
    s.me.mid = none ∧ s.choice.cut = 0 ∧ s.early = [] ∧ s.me.buf.length < 16 ∧ (s.me.mAddr 6 false 8).toNat % 8 = 0 ∧ (s.me.mAddr 6 false 8).toNat < 0x1000000 ∧
      (∃ ls, nearLocs s.myCore s.me.skew 0x4008 8 = some ls ∧ ls.Nodup) ∧ s.meshMay s.me 0x4008 8 = true ∧
      (t.strand 0).buf.find? (fun e => e.seq == 2) = two[1]? ∧ heldBack (t.strand 0).buf (two[1]) = true ∧
      (t.strand 0).buf.find? (fun e => e.seq == 1) = two[0]? ∧ heldBack (t.strand 0).buf (two[0]) = false ∧ t.quiet [5, 6] := by
  refine ⟨by decide, by decide, by decide, by decide, by decide, by decide, ⟨(List.range 8).map (tcmLoc 0 0x4008 + ·), by decide +kernel, by decide +kernel⟩,
    by decide, by decide, by decide, by decide, by decide, quiet_of _ _ ?_ ?_ ?_ ?_ ?_ ?_ ?_ ?_⟩ <;> decide
/-- Virtual page 0x100 of context 1 has the given leaf; and the mesh ring of context 1 covers 0x4000 to 0x41FF. -/
def tabled (leaf : Nat) : State :=
  withMem (cellsAt 0x10 (leBytes 0x10001 8) ++ cellsAt 0x10000 (leBytes 0x20001 8) ++ cellsAt 0x20000 (leBytes 0x30001 8) ++
    cellsAt 0x30800 (leBytes leaf 8)) (at0 (regs [(6, 0x1000000)] base))
def ringed : State :=
  let s := filled ptr
  withMem (cellsAt 0x1020 (leBytes 0x4000 8 ++ [4]) ++ [(0x103C, 1)]) { s with host := { s.host with meshtab := 0x1000 } }
def turned (s : State) (n : Nat) (k : Acc) (as : List Word) : Option (Cause × Word) := (s.turnedAway n k as).map (·.2)
theorem witness_accessFaults :
    let s := filled ptr
    s.me.mid = none ∧ s.early = [] ∧ (0x4001#64).toNat % 2 ≠ 0 ∧ (0x4007#64).toNat % 8 ≠ 0 ∧ (0x400F#64).toNat % 16 ≠ 0 ∧
      s.me.buf.length < 16 ∧ (s.me.xr 6 + s.me.xr 7).toNat % 8 ≠ 0 ∧ s.sstep = false ∧
      (∀ k ∈ [Acc.read, .write, .both], turned s 8 k [0x4004] = some (.align, 0x4004) ∧ turned s 8 k [0x8000] = some (.access, 0x8000) ∧
        turned s 8 k [0x1000000000000] = some (.access, 0x1000000000000) ∧ turned s 8 k [0x1000000] = some (.page, 0x1000000) ∧
        turned (tabled 0x4001F) 8 k [0x1000000] = some (.prot, 0x1000000) ∧
        turned (tabled 0x20000005F) 8 k [0x1000000] = none ∧
        turned (tabled 0x20000000005F) 8 k [0x1000000] = some (.access, 0x1000000) ∧
        turned s 4 k [0x4000, 0x4004, 0x8000, 0x4008] = some (.access, 0x8000)) ∧
      turned (tabled 0x40053) 8 .read [0x1000000] = none ∧ turned (tabled 0x40053) 8 .both [0x1000000] = some (.prot, 0x1000000) ∧
      turned ringed 4 .write [0x3000, 0x41FC] = some (.meshbound, 0x41FC) ∧ turned ringed 4 .write [0x4200] = none := by decide +kernel
/-- An address of each kind, and the leaf that the tables of `tabled` hold for one. -/
theorem witness_accessChecks :
    let s := tabled 0x4005F
    nearLocs 0 0 0x8000 8 = none ∧ (0x8000#64).toNat < 0x1000000 ∧ 2 ^ 48 ≤ (0x1000000000000#64).toNat ∧
      s.poison = [] ∧ s.choice.flaws = [] ∧ s.early = [] ∧ (s.core 0).utlb = [] ∧ (s.sheaf 0).tlb = [] ∧ Table.getD s.walks (walkSlice 0x1000000) [] = [] ∧
      s.tableLeaf 1 0x1010000 = none ∧
      (s.tableLeaf 1 0x1000000 = some { ctx := 1, big := false, vpn := 0x100, pte := 0x4005F }) ∧
      ((tabled 0x400DF).tableLeaf 1 0x1000000).map (fun e => e.pte.getLsbD 7) = some true ∧
      (s.leafOf 0 1 0x1000000).2.toOption = s.tableLeaf 1 0x1000000 ∧ s.physOk 0x40000 = true ∧
      (tabled 0x20000000005F).physOk 0x200000000000 = false := by decide +kernel
/-- Global memory is read at its home, from a line of the L1, and through an NC page. -/
theorem witness_globalLoads :
    let lined : State := { tabled 0x4005F with cores := [(0, { Core.blank with l1 := [{ line := 0x1000, bytes := List.replicate 64 9 }] })] }
    ([tabled 0x4005F, lined, tabled 0x4007F].all fun s =>
      match s.access s.cur 0x1000000 8 .read with
      | (_, .ok p) => p.locs == locsFrom 0x40000 8 && s.early.isEmpty && p.locs.all fun l => !(s.poisoned l)
      | _ => false) = true ∧
    ((lined.core 0).l1.find? fun e => e.line == 0x40000 / 64).isSome = true ∧
    (((tabled 0x4007F).access 0 0x1000000 8 .read).2.toOption.map (·.direct)) = some true ∧ 0x1000000 ≤ (0x1000000#64).toNat := by
  decide +kernel
theorem witness_atomics :
    let s := filled ptr
    let t := stepped (regs [(6, 0x1000000)] base)
    let ls := (nearLocs 0 0 0x4000 8).getD []
    s.sstep = false ∧ (s.access s.cur 0x4000 8 .both).2.toOption.map Place.locs = some ls ∧ ls.Nodup ∧ s.quiet ls ∧
      s.me.wait = none ∧ s.me.inTile 0x4000 = false ∧ (∀ l ∈ ls, s.poisoned l = false) ∧ s.meshMay s.me 0x4000 8 = true ∧
      s.me.buf = [] ∧ s.me.covering ls = [] ∧ t.sstep = true ∧ 0x1000000 ≤ (t.me.xr 6).toNat := by
  refine ⟨by decide, by decide, by decide, quiet_of _ _ ?_ ?_ ?_ ?_ ?_ ?_ ?_ ?_, by decide, by decide, by decide, by decide,
    by decide, by decide, by decide, by decide⟩ <;> decide +kernel
theorem witness_fencesAndWaits :
    let s := filled ptr
    let t : State := at0 { base with buf := two, c := base.c.set 2 9 }
    (t.me.buf.filter fun e => (4#8).getLsbD e.hue.toNat).map (·.seq) = [] ∧
      (t.me.buf.filter fun e => (2#8).getLsbD e.hue.toNat).map (·.seq) = [2] ∧ t.early = [] ∧ s.early = [] ∧ t.me.wait = none ∧
      (∀ set ∈ [[2], [9]],
        let f : State := at0 { base with buf := two, wait := some (.fence set (some .field)) }
        f.strands = [(0, f.strand 0)] ∧ (f.strand 0).stat = .live ∧ (f.strand 0).wait = some (.fence set (some .field)) ∧
          f.drained set = decide (set = [9])) ∧
      (s.access s.cur 0x4000 8 .read).2.toOption.map Place.locs = nearLocs 0 0 0x4000 8 ∧ s.me.inTile 0x4000 = false ∧
      (∀ l ∈ (nearLocs 0 0 0x4000 8).getD [], s.poisoned l = false) ∧
      leNat (((nearLocs 0 0 0x4000 8).getD []).map s.mem.byte) = (0x060504030201FF80#64).toNat ∧
      leNat (((nearLocs 0 0 0x4000 8).getD []).map s.mem.byte) ≠ (s.me.xr 6).toNat ∧
      (t.me.cr 2).toNat ≤ 9 ∧ 8 < (t.me.cr 2).toNat := by decide +kernel
theorem witness_vectorForms : VType.ib.isFloat = false ∧ VType.ib.width = 1 ∧ VType.ih.width = 2 ∧ VType.ih.isFloat = false ∧
    VType.f16.isFloat = true ∧ VType.f32.isFloat = true ∧ (0 : Nat) < 1 := by decide
/-- Terms of sums: numbers, zeros of one and of both signs, infinities, NaNs. -/
theorem witness_sums :
    let ok (ts : List Fv) : Prop := ∀ x ∈ ts, x.isNan = false ∧ x.isInf = false
    ok [.fin false 1 0, .fin true 3 1] ∧ ok [.fin true 0 0] ∧ ok [.fin false 1 0, .fin true 1 0] ∧
      (∀ x ∈ [Fv.fin true 0 0], x.isZero = true ∧ x.neg? = true) ∧ (Fv.fin false 1 0).isZero = false ∧
      (∀ x ∈ [Fv.inf false, .inf true], x.isNan = false) ∧ (Fv.nan true).isSnan = true ∧ (Fv.nan false).isSnan = false := by decide
theorem witness_sumsOfNumbers : ([Fv.fin false 1 0, .fin true 3 1].map Fv.rat).sum ≠ 0 ∧ ([Fv.fin false 1 0, .fin true 1 0].map Fv.rat).sum = 0 := by
  norm_num [Fv.rat]
/-- Elements and conditions of every kind; scales of every exponent; and a table whose t4 codes rise. -/
def rising : Core := { Core.blank with qbase4 := 240, qtab := (List.range 16).map fun i => (240 + i, BitVec.ofNat 19 ((127 + i) * 1024)) }
theorem witness_narrowForms :
    let nan := fmtS.decode 0x7FC00000
    (0x7F800001 : Nat) < 2 ^ (8 * VType.f32.width) ∧ (fmtS.decode 0x7F800001).isSnan = true ∧ nan.isNan = true ∧ nan.isSnan = false ∧
      (0xFF : Nat) < 2 ^ (8 * VType.ib.width) ∧ VType.ib.isFloat = false ∧ VType.f32.isFloat = true ∧
      (0xFF000 : Nat) % 2 ^ 20 / 4096 = 255 ∧ (0x7F001 : Nat) % 2 ^ 20 / 4096 = 127 ∧ (0xFFF : Nat) % 2 ^ 20 / 4096 = 0 ∧
      (Fv.inf true).isInf = true ∧ (Fv.fin false 0 0).isZero = true ∧ (0 : Int) < (Dy.mk 1 0).n ∧
      ((List.range 16).all fun c => !(rising.qt.val .t4 c).isNan && !(rising.qt.val .t4 c).isInf &&
        rising.qt.val .t4 c == .fin false (2 ^ 10) ((c : Int) - 10)) = true := by decide +kernel
/-- Active elements and none; and the ends of FIRST for each narrow format. -/
theorem witness_movesAndNarrow : (at0 base).me.pr 0 = 0xFFFF ∧ (at0 base).me.pr 1 = 0 ∧ (8#5).toNat + 8 ≤ 16 ∧ 16 < (9#5).toNat + 8 ∧
    (24#5).toNat + 8 ≤ 32 ∧ 32 < (25#5).toNat + 8 ∧ (31#5).toNat + 4 > 32 ∧
    (∀ x ∈ [Fv.fin false 1 0, .fin false 1 0, .fin true 3 1], x.isNan = false ∧ x.isInf = false) := by decide
theorem witness_blockPartial : ([Fv.fin true 3 1].map Fv.rat).sum * (Fv.fin false 1 0).rat * (Fv.fin false 1 0).rat ≠ 0 := by
  norm_num [Fv.rat]
/-- Directions VOID, ZERO and ordinary; dimensions 3 and not; lanes that are and are not finite. -/
theorem witness_directionForms :
    let u : DirReg := { lanes := #v[0x4000, 0, 0, 0, 0, 0, 0], norm := 0 }
    let nan := fmtS.decode 0x7FC00000
    DirReg.void.isVoid = true ∧ u.isVoid = false ∧ DirReg.zero.isVoid = false ∧ DirReg.zero.isZero = true ∧ u.isZero = false ∧
      u.ordinary = true ∧ DirReg.zero.ordinary = false ∧ base.dim = 3 ∧ ({ base with ddim := 2 } : Strand).dim ≠ 3 ∧ nan.isNan = true ∧
      (fmtS.decode 0).isNan = false ∧ (fmtS.decode 0).isInf = false ∧ (fmtH.decode 0x7C00).isInf = true ∧
      (∀ i, i < 3 → (fmtH.decode (vElem 2 i 0)).isNan = false ∧ (fmtH.decode (vElem 2 i 0)).isInf = false) ∧
      (∀ i, i < 3 → DirReg.zero.lane i = 0) ∧ u.lane 0 ≠ 0 ∧ (32766 : Int) < u.norm.toInt + (0x7FFF#16).toInt ∧
      u.norm.toInt + (0x7FFE#16).toInt ≤ 32766 := by decide +kernel
theorem witness_renormalisedBound : (2 : Nat) ≤ 2 ∧ (7 : Nat) ≤ 7 ∧
    ∀ x ∈ [Dy.mk 0 (-500), Dy.mk 3 5, Dy.mk (-1) 300], -500 ≤ x.e ∧ x.n.natAbs * 2 ^ (x.e + 500).toNat ≤ 2 ^ 800 := by decide +kernel

/-- A texture of one texel in TCM: its descriptor at 0x4000 and its residency bit at 0x4100. -/
def textured (res : Byte) : State := withMem (cellsAt (tcmLoc 0 0x4000) [0x00, 0x01, 0, 0, 0, 0, 0, 0, 0x00, 0x41]
  ++ [(tcmLoc 0 0x4100, res)]) (at0 ptr)
theorem witness_rayRasterAndTexelForms :
    let s := filled ptr
    let w : Word := 0x4000
    let far : Strand := { base with bvhlo := 0x8000, bvhhi := 0x9000 }
    s.me.mid = none ∧ s.choice.cut = 0 ∧ s.early = [] ∧ s.me.bvhhi = 0 ∧ far.bvhhi ≠ 0 ∧ ¬ (far.bvhlo.toNat ≤ w.toNat ∧ w.toNat + 64 ≤ far.bvhhi.toNat) ∧
      (far.bvhlo.toNat ≤ 0x8FC0 ∧ 0x8FC0 + 64 ≤ far.bvhhi.toNat) ∧ w.toNat % 64 = 0 ∧ (0x4010#64).toNat % 64 ≠ 0 ∧
      (let at' (n : Nat) : List (Word × Nat) := (List.range n).map fun i => (w + BitVec.ofNat 64 (16 * i), 16)
       let fields : ReadKind := { ReadKind.plain with size := 4 }
       (s.takesBy fields (at' 4)).isSome = true ∧ (s.takesBy fields (at' 3)).isSome = true ∧ (s.takesBy fields (at' 6)).isSome = true ∧
        (s.takesBy fields (((List.range 6).map fun i => (w + 16 + BitVec.ofNat 64 (16 * i), 16)) ++ [(w, 4)])).isSome = true) ∧
      (2 : Nat) ^ 27 ≤ 0x8000000 ∧ (0x7FFFFFF : Nat) < 2 ^ 27 ∧
      ([1, 0].all fun r =>
        let s := textured r
        match s.takesEach 16 [w, w + 16] with
        | some (s1, bs) =>
          let x := texDesc bs
          let ts := x.texels (texArg (fmtS.decode 0)) (texArg (fmtS.decode 0)) 0
          (match s1.takesBy { ReadKind.plain with home := true } [(BitVec.ofNat 64 x.resmap, 1)] with
           | some (s2, rs) => texOk bs && x.resmap == 0x4100 && x.nlev == 1 && x.stream == 0 &&
              (ts.map fun t => t.off / 65536).dedup == [0] && rs == [r] &&
              (s2.takesEach x.bpt (ts.map fun t => BitVec.ofNat 64 (x.base + t.off))).isSome
           | none => false)
        | none => false) = true ∧
      texOk (List.replicate 32 0) = false ∧ s.me.tvec = 0 ∧ handled.tvec ≠ 0 := by decide +kernel

/-- A ray from (0, 0, −1) along z with tmax 2; a child's box and the corners of a triangle that it meets at t = 1. -/
def beam : Ray :=
  { org := fun i => if i = 2 then fmtS.decode 0xBF800000 else fmtS.decode 0, tmax := fmtS.decode 0x40000000,
    dir := { lanes := #v[0, 0, 0x4000, 0, 0, 0, 0], norm := 0 } }
def words (ws : List Nat) : List Byte := ws.flatMap fun w => leBytes w 4
def one32 : Nat := 0x3F800000
def boxRec : List Byte := words [0, 0, 0, one32, one32, one32, 0, 0, 0, one32, one32, one32, 1, 0, 1, 0]
def triRec : List Byte := words [0, 0, 0, one32, 0, 0, 0, one32, 0, 0, 0, 0]
theorem rat_zero : (fmtS.decode 0).rat = 0 := by rw [show fmtS.decode 0 = .fin false 0 (-149) by decide]; norm_num [Fv.rat]
theorem rat_one : (fmtS.decode 0x3F800000).rat = 1 := by
  rw [show fmtS.decode 0x3F800000 = .fin false (2 ^ 23) (-23) by decide]; norm_num [Fv.rat]
theorem rat_minus : (fmtS.decode 0xBF800000).rat = -1 := by
  rw [show fmtS.decode 0xBF800000 = .fin true (2 ^ 23) (-23) by decide]; norm_num [Fv.rat]
theorem rat_two : (fmtS.decode 0x40000000).rat = 2 := by
  rw [show fmtS.decode 0x40000000 = .fin false (2 ^ 23) (-22) by decide]; norm_num [Fv.rat]
theorem org_beam : (beam.org 0).rat = 0 ∧ (beam.org 1).rat = 0 ∧ (beam.org 2).rat = -1 ∧ beam.tmax.rat = 2 :=
  ⟨rat_zero, rat_zero, rat_minus, rat_two⟩
theorem along_beam : beam.along 0 = 0 ∧ beam.along 1 = 0 ∧ beam.along 2 = 1 := by
  have h : beam.dir.lane 0 = 0 ∧ beam.dir.lane 1 = 0 ∧ beam.dir.lane 2 = 2 ^ 14 := by decide
  simp only [Ray.along, h.1, h.2.1, h.2.2]
  norm_num
theorem witness_rayMeets : (∀ i, i < 3 → (beam.org i).isNan = false ∧ (beam.org i).isInf = false) ∧ beam.tmax.isNan = false ∧
    beam.tmax.isInf = false ∧ (∀ i, i < 12 → (f32At boxRec (4 * i)).isNan = false ∧ (f32At boxRec (4 * i)).isInf = false) ∧
    (∀ i, i < 9 → (f32At triRec (4 * i)).isNan = false ∧ (f32At triRec (4 * i)).isInf = false) ∧
    (0x40000000 : Nat) < fmtS.infBits ∧ beam.tmax = fmtS.decode 0x40000000 := by
  refine ⟨by decide, by decide, by decide, by decide, by decide, by decide, rfl⟩
theorem witness_inBox : beam.inBox boxRec 0 0x30 1 := by
  have z : ∀ o ∈ [0, 4, 8], f32At boxRec o = fmtS.decode 0 := by decide
  have u : ∀ o ∈ [12, 16, 20], f32At boxRec o = fmtS.decode 0x3F800000 := by decide
  obtain ⟨a0, a1, a2⟩ := along_beam
  obtain ⟨o0, o1, o2, ot⟩ := org_beam
  refine ⟨by decide, by norm_num, by rw [ot]; norm_num, fun i hi => ?_⟩
  match i, hi with
  | 0, _ => norm_num [z 0 (by decide), u 12 (by decide), a0, o0, rat_zero, rat_one]
  | 1, _ => norm_num [z 4 (by decide), u 16 (by decide), a1, o1, rat_zero, rat_one]
  | 2, _ => norm_num [z 8 (by decide), u 20 (by decide), a2, o2, rat_zero, rat_one]
theorem triRec_at : (∀ o ∈ [0, 4, 8, 16, 20, 24, 32], f32At triRec o = fmtS.decode 0) ∧
    ∀ o ∈ [12, 28], f32At triRec o = fmtS.decode 0x3F800000 := by decide
theorem witness_meetsTri : beam.meetsTri triRec 1 := by
  obtain ⟨z, u⟩ := triRec_at
  obtain ⟨a0, a1, a2⟩ := along_beam
  obtain ⟨o0, o1, o2, ot⟩ := org_beam
  have f : beam.facing triRec = 1 := by
    simp [Ray.facing, triNormal, List.range, List.range.loop, z 0 (by decide), z 4 (by decide), z 8 (by decide),
      u 12 (by decide), z 16 (by decide), z 20 (by decide), z 24 (by decide), u 28 (by decide), z 32 (by decide), a0, a1, a2, rat_zero, rat_one]
  refine ⟨by rw [f]; norm_num, by norm_num, by rw [ot]; norm_num, 0, 0, by norm_num, by norm_num, by norm_num, fun i hi => ?_⟩
  match i, hi with
  | 0, _ => norm_num [z 0 (by decide), a0, o0, rat_zero]
  | 1, _ => norm_num [z 4 (by decide), a1, o1, rat_zero]
  | 2, _ => norm_num [z 8 (by decide), a2, o2, rat_zero]
/-- Vertices (0, 0), (1, 0), (0, 1) of a raster record, 1/w `w`; and three at one point. -/
def vertsOf (xs : List (Nat × Nat)) (w : Nat) : List Byte := xs.flatMap fun v => words [v.1, v.2, 0, w, one32, 0, 0, 0]
def corners : List (Nat × Nat) := [(0, 0), (one32, 0), (0, one32)]
theorem witness_snapped : Snapped (vertsOf corners one32) (fun i => if i = 1 then 256 else 0) (fun i => if i = 2 then 256 else 0) := by
  have z : ∀ o ∈ [0, 4, 36, 64], f32At (vertsOf corners one32) o = fmtS.decode 0 := by decide
  have u : ∀ o ∈ [32, 68], f32At (vertsOf corners one32) o = fmtS.decode 0x3F800000 := by decide
  intro i hi
  match i, hi with
  | 0, _ => refine ⟨by unfold finiteAt; decide, by unfold finiteAt; decide, ?_, ?_, by norm_num, by norm_num⟩ <;>
      norm_num [IntRounding, z 0 (by decide), z 4 (by decide), rat_zero]
  | 1, _ => refine ⟨by unfold finiteAt; decide, by unfold finiteAt; decide, ?_, ?_, by norm_num, by norm_num⟩ <;>
      norm_num [IntRounding, u 32 (by decide), z 36 (by decide), rat_zero, rat_one]
  | 2, _ => refine ⟨by unfold finiteAt; decide, by unfold finiteAt; decide, ?_, ?_, by norm_num, by norm_num⟩ <;>
      norm_num [IntRounding, z 64 (by decide), u 68 (by decide), rat_zero, rat_one]
theorem witness_triangles :
    let nan := vertsOf [(0x7FC00000, 0), (one32, 0), (0, one32)] one32
    (snapTri (vertsOf corners one32)).isSome = true ∧ (snapTri nan).isNone = true ∧ (f32At nan 0).isNan = true ∧
      (0x12345 : Nat) < 2 ^ 32 ∧ (∀ i, i < 3 → ∀ f, f < 8 → (f32At (vertsOf corners one32) (32 * i + 4 * f)).isNan = false ∧
        (f32At (vertsOf corners one32) (32 * i + 4 * f)).isInf = false) ∧
      (256 : Int) * 256 - 0 * 0 ≠ 0 ∧ (f32At (vertsOf corners 0) 12) = .fin false 0 (-149) := by
  decide +kernel
theorem witness_texResult :
    let x : TexDesc := { base := 0, logw := 1, logh := 1, nlev := 1, half := true, clampU := true, clampV := false, resmap := 0, stream := 0, dict := 0 }
    let ts := x.texels (Dy.mk 1 (-1)) (Dy.mk 1 (-1)) 0
    ts.length = 4 ∧ ts.length = (List.replicate 4 (List.replicate 8 (0 : Byte))).length ∧ (∀ y ∈ ts, 0 < y.weight.n) ∧
      (fmtH.decode (fieldAt (List.replicate 8 0) 0 2)).isNan = false ∧ (fmtH.decode 0x7E00).isNan = true := by decide +kernel

/-- A full send queue, a message in mailbox 1 and one in an edge mailbox. -/
def mail : Msg := { dest := 1, ext := none, mbox := 1, ctx := 1, dev := 0, src := 0, len := 8, data := List.replicate 64 7, rel := [], launch := 0 }
def hdr : Header := { ctx := 1, dev := 0, src := 4, len := 8, scope := .sheaf }
def boxed (head : Nat) (edges : List (Header × List Byte)) (q : List SendEntry) : State :=
  { withMem (cellsAt (mboxLoc 0 1) (leBytes 0x100000 4 ++ [2, 0, 1, 0] ++ leBytes head 4)) (at0 base) with
    cores := [(0, { Core.blank with sendQ := q, edge := [(1, edges)], hdr := [(64, hdr)] })],
    host := { HostRegs.blank with ownmap := some 0x3000 } }
theorem witness_messages :
    let full := boxed 0 [] (List.replicate 8 { msg := mail, refused := false, onLink := false })
    let one := boxed 1 [(hdr, List.replicate 64 0)] []
    (at0 base).destOk 0x2400 = false ∧ (at0 base).destOk 1 = true ∧ (full.core 0).sendQ.length ≥ 8 ∧ (one.core 0).sendQ.length < 8 ∧
      full.mboxCount 0 1 = 0 ∧ one.mboxCount 0 1 = 1 ∧ one.ringBad 0 1 = none ∧ full.poisoned (mboxLoc 0 1) = false ∧ full.poisoned (mboxLoc 0 1 + 8) = false ∧ (one.takeRing 0 1 1).isSome = true ∧
      one.canonical = true ∧ (one.strands.all fun e => e.2.wait.isNone) = true ∧ one.early = [] ∧
      one.host.ownmap = some 0x3000 ∧ (∀ i ∈ List.range 4, one.inOwnMap (mboxLoc 0 1 + 12 + i) = false) ∧
      (∀ i ∈ List.range 8, one.poisoned (localLoc 0 (8 * i)) = false) ∧ (Table.get? (one.core 0).hdr 64).isSome = true ∧
      neighbour 0 0 = none ∧ neighbour 0 1 = some 1 ∧ Table.getD (one.core 0).edge 1 [] = [(hdr, List.replicate 64 0)] ∧
      Table.getD (full.core 0).edge 1 [] = [] ∧ (full.me.xr 7) = 0 ∧ (at0 ptr).me.xr 7 ≠ 0 := by decide +kernel

/-- Point 2 of the sheaf with the given count and arrivals. -/
def pointed (count : Option Nat) (arr : List Arrival) : Launch :=
  { launchOf 1 with points := [(2, { init := true, count := count, phase := 5, arrivals := arr })] }
def arrived (u : Nat) : Arrival := { uid := u, phase := 5, rel := [], counted := true }
theorem witness_barriers :
    let s := inLaunch (regs [(6, 65), (7, 3), (8, 4)] base)
    Table.get? s.launches s.me.launch = some (launchOf 1) ∧ s.early = [] ∧ (64 : Nat) < (s.me.xr 6).toNat ∧ (s.me.xr 7).toNat ≤ 64 ∧
      (0x9000 : Nat) ≤ 36864 ∧ ((launchOf 1).point (pointKey 0 2)).init = false ∧
      (∀ la ∈ [pointed (some 3) [], pointed (some 3) [arrived 9, arrived 1], pointed none [arrived 9]],
        let p := la.point (pointKey 0 2)
        p.init = true ∧ recSstep la.bytes = false ∧ (∀ e ∈ s.strands, e.2.wait = none) ∧
          (p.count = none → ∀ x ∈ p.arrivals, x.phase = p.phase → x.uid ≠ s.me.uid)) ∧
      (let p := (pointed none [arrived 9, arrived 1]).point (pointKey 0 2)
       p.init = true ∧ p.count = none ∧ ∃ x ∈ p.arrivals, x.phase = p.phase ∧ x.uid = s.me.uid) ∧
      (let p := (pointed (some 3) []).point (pointKey 0 2)
       p.count = some (s.me.xr 7).toNat ∧ p.count ≠ some (s.me.xr 8).toNat ∧ p.entered p.phase = 0 ∧ p.entered p.phase + 1 < 3 ∧
         (p.phase - BitVec.ofNat 32 (s.me.xr 8).toNat).toNat = 1 ∧ (p.phase - 5).toNat = 0 ∧ 2 ^ 31 ≤ (p.phase - 6).toNat) ∧
      (let p := (pointed (some 3) [arrived 9, arrived 8]).point (pointKey 0 2)
       p.entered p.phase ≠ 0 ∧ p.count ≠ some (s.me.xr 8).toNat ∧ p.entered p.phase + 1 = 3 ∧ s.me.buf = [] ∧
         ∀ x ∈ p.arrivals, x.phase = p.phase ∧ x.counted = true) := by decide +kernel

/-- Key 8 of core 0's home slice: free at 3, held by strand 1, awaited, skipped; and a full table. -/
def keyed (e : KeyEntry) : State := { at0 (regs [(6, 8), (7, 3)] base) with keys := [e] }
def freeKey : KeyEntry := { KeyEntry.new 0 8 3 with holder := none }
def crowd (n : Nat) : List KeyEntry := (List.range n).map fun i => KeyEntry.new 0 (BitVec.ofNat 64 (2 ^ 63 + 16 + i)) 0
theorem witness_keys :
    let s := keyed freeKey
    let h := keyed (keyOf 1)
    let o := keyed { keyOf 9 with holder := some (9, 2), next := 2, waiters := [(8, 4)] }
    let low : State := { keyed freeKey with keys := crowd 8 }
    (at0 base).keyIdx 0 8 = none ∧ (at0 base).keyRoom 0 8 = true ∧ low.keyRoom 0 (2 ^ 63 + 99) = false ∧ low.keyIdx 0 (2 ^ 63 + 99) = none ∧
      (at0 base).heldCount 1 < 4 ∧
      (let a := at0 (regs [(6, 8), (7, 3)] base)
       a.keyIdx a.myCore (a.me.xr 6) = none ∧ a.keyRoom a.myCore (a.me.xr 6) = true ∧ BitVec.ofNat 32 (a.me.xr 7).toNat ≠ 0 ∧
         (BitVec.ofNat 32 (a.me.xr 7).toNat).toNat < 2 ^ 31 ∧ a.heldCount a.me.uid < 4 ∧ a.waiterRoom a.myCore (a.me.xr 6) = true) ∧
      s.keyIdx 0 8 = some 0 ∧ s.keys[0]? = some freeKey ∧ freeKey.holder = none ∧ freeKey.waiters = [] ∧
      freeKey.behind 3 = false ∧ freeKey.next = 3 ∧ freeKey.next ≠ 4 ∧ freeKey.behind 2 = true ∧ freeKey.skips = [] ∧ freeKey.ctxSkips = [] ∧
      freeKey.skipping = [] ∧ freeKey.leaving = none ∧ (3#32) ∉ freeKey.skips ∧ s.waiterRoom 0 8 = true ∧ s.heldCount 1 < 4 ∧
      h.keys[0]? = some (keyOf 1) ∧ (keyOf 1).holder = some (h.me.uid, 3) ∧ (keyOf 1).leaving = none ∧ h.me.buf = [] ∧
      o.keys[0]? = some { keyOf 9 with holder := some (9, 2), next := 2, waiters := [(8, 4)] } ∧ o.me.uid = 1 := by decide +kernel

/-- Virtual page 0x100 of context 1 is physical page 2: the level-2 pointer stands in the walk cache, the leaf in memory. -/
def paged (s : State) : State :=
  { withMem (cellsAt 0x10800 (leBytes 0x2005F 8)) s with
    walks := [(256, [{ ctx := 1, level := 2, path := 0, pte := 0x10001 }])] }
/-- Work queue 64 of context 1: table at 0x1000, one full slot of four at 0x2000; closed; empty; and a record in TCM. -/
def queued (flags : Byte) (slots : Table QSlot) : State :=
  let s := withMem (cellsAt 0x1000 (leBytes 0x2000 8 ++ [4, 0, 0, 0, 1, 0, flags, 0])) (at0 (regs [(6, 64), (7, 0x4000)] base))
  { s with host := { s.host with wqtab := 0x1000 }, wq := [(64, slots)] }
/-- A queue whose slots lie in the page of `paged`. -/
def roomy : State := withMem (cellsAt 0x1000 (leBytes 0x1000000 8)) (paged (queued 1 []))
theorem witness_queues :
    let s := queued 1 [(1, .full 4)]
    let e := queued 1 []
    let c := queued 3 []
    let f := queued 1 [(0, .full 1), (1, .full 2), (2, .taken 9), (3, .full 3)]
    let la := launchOf 1
    let o : State := { inLaunch base with cores := [(0, { Core.blank with near := some (1, 0) })] }
    s.workBad 64 = none ∧ roomy.workBad 64 = none ∧ s.workOk 64 = true ∧ s.workOk 65 = false ∧ s.workOk 1024 = false ∧ (s.freeTaken [s.me.uid]).wqOldest 64 = some 1 ∧ s.me.wait = none ∧
      (e.freeTaken [e.me.uid]).wqOldest 64 = none ∧ e.wqClosed 64 = false ∧ c.wqClosed 64 = true ∧ s.me.buf = [] ∧
      (s.me.xr 7).toNat % 128 = 0 ∧ (0x4040#64).toNat % 128 ≠ 0 ∧
      (s.takesEach 16 ((List.range 8).map fun i => s.me.xr 7 + BitVec.ofNat 64 (16 * i))).isSome = true ∧
      s.me.mid = none ∧ s.choice.cut = 0 ∧ roomy.workOk 64 = true ∧ roomy.wqClosed 64 = false ∧ roomy.wqFree 64 = some 0 ∧
      roomy.unitPhys (roomy.wqCtx 64) (roomy.wqBase 64) leafAny = some 0x20000 ∧
      (∀ l ∈ locsFrom 0x20000 128, l < roomy.wqEntry 64 ∨ roomy.wqEntry 64 + 32 ≤ l) ∧
      (roomy.takesEach 16 ((List.range 8).map fun i => 0x1000000 + BitVec.ofNat 64 (16 * i))).isSome = true ∧
      (0x90000 ≤ (0x1000000#64).toNat) ∧ (inLaunch base).imageBad (launchOf 1) 1 false = none ∧
      s.queueFull 3 = false ∧ e.wqFree 64 = some 0 ∧ s.wqFree 64 = some 0 ∧ f.wqFree 64 = none ∧ (0x102#64).toNat % 4 ≠ 0 ∧
      Table.get? o.launches o.me.launch = some la ∧ o.spawnSlot la = some 1 ∧
      (inLaunch base).spawnSlot la = some 4 ∧
      ({ o with cores := (List.range 16).map fun c => (c, { Core.blank with failed := true }) } : State).spawnSlot la = none ∧ o.me.stat = .live ∧ o.me.wait = none := by decide +kernel
/-- Full queues of both kinds; a `qpush` that waits; entries that its release covers. -/
theorem witness_queueFull :
    let f := queued 1 [(0, .full 1), (1, .full 2), (2, .taken 9), (3, .full 3)]
    let l : State := { queued 1 [] with queues := [(3, List.replicate Config.queueDepth { bytes := recOf 1, origin := .port 3 9, ctx := 1 })] }
    let b : State := at0 { base with buf := two }
    let p (set : List Nat) : State := at0 { base with buf := two, wait := some (.push 3 (recOf 1) 0x4000 set) }
    f.workBad 64 = none ∧ f.workBad 3 = none ∧ f.workOk 64 = true ∧ f.wqClosed 64 = false ∧ f.wqFree 64 = none ∧ l.queueFull 3 = true ∧ f.early = [] ∧ b.me.buf ≠ [] ∧
      (p [1]).me.wait = some (.push 3 (recOf 1) 0x4000 [1]) ∧ (p [1]).drained [1] = false ∧ (p []).drained [] = true ∧
      (p [9]).drained [9] = true ∧ (p []).queueFull 3 = false ∧ (keyed (keyOf 1)).early = [] := by decide +kernel
theorem witness_queuePop : (queued 1 [(1, .full 4)]).quiet ((List.range 8).map fun j => (queued 1 [(1, .full 4)]).wqEntry 64 + 24 + j) := by
  apply quiet_of <;> decide +kernel
theorem witness_queuePush : roomy.quiet (locsFrom 0x20000 128 ++ locsFrom (roomy.wqEntry 64 + 16) 8) := by
  apply quiet_of <;> decide +kernel
theorem witness_queueClose : (queued 1 []).quiet [(queued 1 []).wqEntry 64 + 14, (queued 1 []).wqEntry 64 + 15] ∧
    ((queued 1 []).strands.all fun e => e.2.wait.isNone) = true := ⟨by apply quiet_of <;> decide +kernel, by decide +kernel⟩
theorem witness_queueWaits : ∀ p r src set, (queued 1 []).me.wait ≠ some (.push p r src set) := by
  intro p r src set h
  have : (queued 1 []).me.wait = none := by decide +kernel
  rw [this] at h; cases h

/-- Core 0 owns tile 0 and adopted tile 3; a group of tile 3 is still going out. -/
def owning (emits : List Emission) : State :=
  { withMem (cellsAt 0x3000 [0, 0x80, 0, 0, 0, 0, 0, 0xC0]) (at0 base) with
    host := { HostRegs.blank with ownmap := some 0x3000 }, cores := [(0, { Core.blank with emits := emits })] }
def going : Emission :=
  { tile := 3, mask := 2, base := 0x100000, time := 0, pol := false, rel := [], uid := 1, launch := 0, ctx := 1,
    ready := none, snap := [], snapBad := [], since := 0, behind := none, stage := 0, read := [], dark := [], swapAt := 0 }
theorem witness_emissionForms :
    let s := owning [going]
    s.owner 3 = some s.myCore ∧ s.owner 1 = none ∧ s.mapBad 3 = none ∧ s.mapBad 1 = none ∧ (0x100020#64).toNat % 32 = 0 ∧ (0x100010#64).toNat % 32 ≠ 0 ∧
      (0x100000 ≤ 0x11B800 ∧ 0x11B800 + 18432 ≤ 0x120000) ∧ ¬ (0x11B820 + 18432 ≤ 0x120000) ∧
      (0x30003 : Nat) < 2 ^ 30 ∧ bitsAt 0x30003 8 8 = 0 ∧ bitsAt 0x30003 16 14 = 3 ∧ bitsAt 0x30103 8 8 ≠ 0 ∧
      (BitVec.ofNat 8 0x30000) = 0 ∧ (BitVec.ofNat 8 0x30003) ≠ 0 ∧ (∃ e ∈ (s.core 0).emits, e.tile = 3 ∧ e.mask &&& 3 ≠ 0) ∧
      ¬ (∃ e ∈ (s.core 0).emits, e.tile = 3 ∧ e.mask &&& 1 ≠ 0) := by decide +kernel

/-- The leader of a sheaf with gang descriptors: of itself alone, and of a pair. -/
def ganged (mask : Word) : Strand := { base with ed := base.ed.set 0 (mask <<< 32) }
theorem witness_engineForms :
    let s := filled ptr
    let busy : State := { s with cores := [], strands := [(0, { ptr with c := ptr.c.set 0 255 })] }
    let op : EngOp :=
      { id := 0, work := .ast 0 0 0 [], uid := 1, core := 0, launch := 0, ctx := 1, rel := [], started := false, vas := [],
        flag := none, snap := [], snapBad := [], seen := [], tileOld := [], written := [], stop := false, counters := [] }
    s.me.cr 0 ≠ 255 ∧ busy.me.cr 0 = 255 ∧ s.copiesIn 0 < 16 ∧ s.sliceCount 0 < 4 ∧
      ((s.reach .read [] [(0x4000, 20)]).bind fun r => (r.1.reach .write [] [(0x4100, 20)]).bind fun r =>
        (r.1.reach .write [] [(0x4118, 8)]).map fun r => (r.1.meshMay r.1.me 0x4100 20, r.1.meshMay r.1.me 0x4118 8)) = some (true, true) ∧
      bitsAt 0x300000 20 2 = 3 ∧ bitsAt 0x40 20 2 = 0 ∧ bitsAt 0x40 23 9 = 0 ∧ bitsAt 0x800000 23 9 ≠ 0 ∧ 0x4000 % 8 = 0 ∧ 0x40 % 8 = 0 ∧
      0x4004 % 8 ≠ 0 ∧ (∃ o ∈ ({ s with ops := [op] } : State).ops, o.stop = false ∧ o.names 0 0 = true) ∧
      ([(1 : Word), 3].all fun m =>
        let g := (ganged m).gangDesc 0
        g.badReg false == none && g.badReg true == none && g.mask.getLsbD 0 && srcSheaf 0 g.srcb == some 0 && g.badOff false == none) = true ∧
      ((ganged 0x100001).gangDesc 0).badReg false = some 0 ∧ ((ganged 2).gangDesc 0).mask.getLsbD 0 = false ∧
      srcSheaf 0 ((ganged 0x10001).gangDesc 0).srcb = none ∧
      (∃ x ∈ [GangGroup.mk 3 []], x.mask &&& 1 ≠ 0 ∧ x.mask ≠ 1) ∧
      (let one : GangArrival := { sid := 4, uid := 2, tile := 0, cn := 0, lut := false, grp := 0 }
       let two : State := { s with sheafs := [(0, { Sheaf.blank with waiting := [{ mask := 3, arrivals := [one] }] })] }
       let seven : State := { s with sheafs := [(0, { Sheaf.blank with waiting := [{ mask := 7, arrivals := [one] }] })] }
       ((two.sheaf 0).waiting.find? (fun g => g.mask == 3)).map (fun g => g.arrivals.length + 1) = some (maskCount 3) ∧
         ((seven.sheaf 0).waiting.find? (fun g => g.mask == 7)).map (fun g => g.arrivals.length + 1) = some 2 ∧ 2 ≠ maskCount 7) ∧ maskCount 1 = 1 ∧ maskCount 3 ≠ 1 ∧ (s.sheaf 0).waiting = [] := by
  decide +kernel

/-- Ranges of which one fails a check, and one whose store the mesh ring forbids; locations of each scope. -/
theorem witness_engineRanges :
    let s := filled ptr
    ((s.reachFails [(.read, 0x4000, 20), (.write, 0x7FFF, 8)]).map (·.2)) = some 0x8000 ∧ s.early = [] ∧
      ([(0x41FC, 4)].findSome? fun (r : Nat × Nat) => ringed.meshBad ringed.me r.1 r.2) = some 0x41FC ∧ ringed.meshDark ringed.me 0x41FC 4 = none ∧ (9215 : Nat) < 9216 ∧
      forkScope 9215 [tcmLoc 9215 0, localLoc 9215 0x1FFFF] = 1 ∧ isPad (padLoc 575 0) = true ∧ isNear (padLoc 575 0) = true ∧
      forkScope 9215 [padLoc 575 0] = 2 ∧ isNear 0x40000 = false := by decide +kernel

/-- Ranges of TCM are reached with nothing changed: the 64 elements of a tile at 0x4000 with pitch 64. -/
theorem range_near (s : State) (c : Nat) (t : Strand) (a n : Nat) (k : Acc) (ha : a < 0x1000000) (hn : 0 < n) (hp : a % 65536 + n ≤ 65536)
    (h : (locsFrom a n).find? (fun b => (nearByte c t.skew b).isNone) = none) : ∃ l, s.range c t a n k = (s, .ok l) := by
  have h1 : min n (65536 - a % 65536) = n := by omega
  unfold State.range
  obtain ⟨f, hf⟩ : ∃ f, n / 65536 + 2 = f + 2 := ⟨_, rfl⟩
  rw [hf]
  simp [State.rangeLocs, State.pageLocs, ha, h1, h, Nat.pos_iff_ne_zero.mp hn]
theorem reach_same (s : State) (k : Acc) : ∀ (rs : List (Nat × Nat)) (ls : List (List Nat)),
    (∀ r ∈ rs, ∃ l, s.range s.myCore s.me r.1 r.2 k = (s, .ok l)) → (s.reach k ls rs).isSome = true
  | [], _, _ => rfl
  | r :: t, ls, h => by
    obtain ⟨l, hl⟩ := h r (by simp)
    simp only [State.reach, hl]
    exact reach_same s k t _ fun r hr => h r (by simp [hr])
theorem witness_tileRanges (k : Acc) :
    ((filled ptr).reach k [] ((List.range 64).map fun i => (0x4000 + i / 8 * 64 + i % 8 * 8, 8))).isSome = true := by
  apply reach_same
  intro r hr
  obtain ⟨i, hi, rfl⟩ := List.mem_map.mp hr
  have : ∀ i ∈ List.range 64, 0x4000 + i / 8 * 64 + i % 8 * 8 < 0x1000000 ∧ (0x4000 + i / 8 * 64 + i % 8 * 8) % 65536 + 8 ≤ 65536 ∧
      (locsFrom (0x4000 + i / 8 * 64 + i % 8 * 8) 8).find? (fun b => (nearByte (filled ptr).myCore (filled ptr).me.skew b).isNone) = none := by
    decide +kernel
  exact range_near _ _ _ _ _ _ (this i hi).1 (Nat.succ_pos 7) (this i hi).2.1 (this i hi).2.2

def waits (w : Wait) (t : Strand) : Strand := { t with wait := some w, stallto := 100, waited := 100 }
theorem witness_strandUnitSteps :
    let t : Strand := { handled with pend := [(0x0D, 5)] }
    let f : Strand := { base with fetchWait := some 0x40000, pc := 0x1000000 }
    let r := (paged (at0 { f with fetchWait := none })).translate 0 f.ctx (f.mode == 0) (64 * 0x40000) .exec
    let arr : GangArrival := { sid := 4, uid := 2, tile := 0, cn := 0, lut := false, grp := 0 }
    let gang : State := { at0 { waits (.gang 3 false) base with gangto := 100 } with
      sheafs := [(0, { Sheaf.blank with waiting := [{ mask := 3, arrivals := [arr] }] })] }
    t.pend = (0x0D, 5) :: [] ∧ t.stat = .live ∧ t.saving = false ∧ t.wait = none ∧ t.tvec ≠ 0 ∧ t.entry = false ∧ base.pend = [] ∧
      f.fetchWait = some 0x40000 ∧ r.2.toOption = some (0x20000, false) ∧ r.1.poisoned 0x20000 = false ∧
      (waits (.counter 1 1) base).watched = some .stall ∧ (waits (.keyRoom 1) base).watched = some .keyfull ∧
      (waits (.recvn 0 99 1 1) base).watched = none ∧ base.watched = none ∧
      (99 : Nat) ≤ (waits (.recvn 0 99 1 1) base).waited ∧ 99 ≤ (waits (.recvn 0 99 1 1) base).stallto.toNat ∧
      (gang.strand 0).wait = some (.gang 3 false) ∧ (gang.strand 0).gangto ≠ 0 ∧ (gang.strand 0).gangto.toNat ≤ (gang.strand 0).waited ∧
      ((gang.sheaf (sheafOf (coreOf 0))).waiting.find? (fun g => g.mask == 3)).isSome = true := by decide +kernel
/-- Strands 0 and 1 each wait for the key that the other holds; and strand 0 alone waits. -/
def knot (cyc : Bool) : State :=
  let t (u : Nat) (k : Word) (at' : Nat) : Strand := { base with uid := u, wait := some (.key k 5 1), waitAt := at', probed := 70000 }
  { State.reset with
    strands := [(0, t 1 8 3), (1, t 2 9 4)],
    keys := [{ KeyEntry.new 0 8 3 with holder := some (2, 3) }, { KeyEntry.new 0 9 3 with holder := some (if cyc then 1 else 7, 3) }] }
theorem witness_keyProbe : ((knot true).strand 0).wait = some (.key 8 5 1) ∧ ((knot true).strand 0).stat = .live ∧
    ((knot true).strand 0).kprobe ≠ 0 ∧ ((knot true).strand 0).kprobe.toNat ≤ ((knot true).strand 0).probed ∧
    (knot false).probe 0 0 8 [0] 64 = none ∧ (knot true).probe 0 0 8 [0] 64 = some [0, 1] ∧
    ((knot true).strand ((knot true).closer [0, 1])).wait = some (.key 9 5 1) := by decide +kernel

/-- A parked strand in slot 4 and, in core 0's send queue, its control message of operation `op`. -/
def controlled (op : Nat) : State :=
  let msg : Msg := { mail with mbox := 2, data := leBytes (15 * 2 ^ 60 + op * 2 ^ 58) 8 ++ List.replicate 56 0 }
  { State.reset with
    strands := [(4, { base with parked := some 2 })],
    cores := [(0, { Core.blank with sendQ := [{ msg := msg, refused := false, onLink := false }] })] }
/-- Mailbox 1 of core 1 with `n` slots, and one entry for mailbox `m` in core 0's queue. -/
def sent (n : Byte) (m : BitVec 2) : State :=
  { withMem (cellsAt (mboxLoc 1 1) (leBytes 0x100000 4 ++ [n, 0, 1, 0])) (at0 base) with
    cores := [(0, { Core.blank with sendQ := [{ msg := { mail with mbox := m }, refused := false, onLink := false }] })],
    links := [(2, { Link.blank with up := true })], host := { HostRegs.blank with ownmap := some 0x3000 } }
/-- A ring is open in a state with an ownership map, whatever core is asked for. -/
theorem witness_ringOpen : (sent 1 1).RingOpen 1 1 := by
  refine ⟨by decide, by decide +kernel, by decide +kernel, by decide +kernel, by decide +kernel, by decide +kernel, ?_, ?_, ?_, ?_⟩
  · intro k
    simp only [sent, withMem, State.core, Table.getD, Table.get?]
    by_cases h : (0 : Nat) = k
    · simp [h]; subst h; rfl
    · simp [h, Core.blank]
  · intro k la h
    simp [sent, withMem, at0, State.reset, Table.get?] at h
  · decide +kernel
  · decide +kernel
theorem witness_deliverySteps :
    let e : SendEntry := { msg := mail, refused := false, onLink := false }
    let p : PeerMsg := { dev := 2, src := 0, ctx := 1, core := 1, mbox := 1, len := 16, data := List.replicate 16 1 }
    ([1, 2, 3].all fun op => (controlled op).controlEntry 4 op 1 == some (0, 0)) = true ∧
      ((controlled 1).strand 4).parked = some 2 ∧ ((controlled 1).strand 4).stat = .live ∧
      ((controlled 1).strand 4).ctx = 1 ∧ ((controlled 1).strand 4).wait = none ∧
      ((controlled 1).strands.all fun e => e.2.wait.isNone) = true ∧ ((controlled 1).cores.all fun c => c.2.fpx.isEmpty) = true ∧
      (sent 1 1).blockBad e.msg = none ∧ (sent 1 1).blockBad (peerMsg p) = none ∧
      (sent 1 1).deliverable 0 0 = some e ∧ e.msg.ext = none ∧ e.msg.edge 0 = none ∧
      (let s0 := ((sent 1 1).spend 0 e.msg.meshTokens).spend 1 e.msg.meshTokens
       ((s0.arrive e.msg (pairScope 0 1 false)).map fun s => ((s.spend 1 e.msg.slotTokens).core 0).sendQ.findIdx? fun x => x == e) =
         some (some 0)) ∧
      (let s0 := ((sent 0 1).spend 0 e.msg.meshTokens).spend 1 e.msg.meshTokens
       (s0.arrive e.msg (pairScope 0 1 false)).isNone = true) ∧ e.msg.isControl = false ∧ e.msg.data.length = 64 ∧
      ((sent 1 1).link 2).up = true ∧ ((sent 1 1).core 1).failed = false ∧
      ((sent 1 1).arrive (peerMsg p) .system).isSome = true ∧ (peerMsg p).isControl = false ∧ p.core.toNat = 1 ∧ p.mbox.toNat = 1 ∧
      ((sent 1 3).deliverable 0 0).map (fun e => e.msg.edge 0) = some (some 0) ∧
      ((sent 1 3).strands.all fun e => e.2.wait.isNone) = true ∧ ((sent 1 3).cores.all fun c => c.2.fpx.isEmpty) = true ∧
      (Table.getD ((sent 1 3).core 1).edge 0 []).length < 8 ∧
      (sent 1 1).mboxOk 1 1 = true ∧ (sent 1 1).mboxCount 1 1 < (sent 1 1).mboxSlots 1 1 ∧ (sent 1 1).canonical = true ∧
      (sent 1 1).launches = [] := by decide +kernel

/-- Strand 0 has entry 7 in its buffers; its arrival and its key effects wait for the entries of `set`. -/
def held (e : KeyEntry) (arr : List Arrival) : State :=
  { at0 { base with buf := [{ seq := 7, hue := 0, vas := [0], cells := [], owed := 0 }] } with keys := [e], launches := [(0, pointed (some 2) arr)] }
theorem witness_releasesTakeEffect :
    let leave (set : List Nat) : KeyEntry := { keyOf 1 with leaving := some set }
    let skip (set : List Nat) : KeyEntry := { freeKey with skipping := [(1, 4, set)] }
    let wait7 : Arrival := { uid := 1, phase := 5, rel := [7], counted := false }
    let s := held freeKey [arrived 9, arrived 1]
    let p := (pointed (some 2) [arrived 9, arrived 1]).point 2
    Table.get? s.launches 0 = some (pointed (some 2) [arrived 9, arrived 1]) ∧ p.count = some 2 ∧ p.init = true ∧
      ((pointed (some 2) [wait7]).point 2).entered 5 < 2 ∧ p.arrivals.length = 2 ∧ recSstep (pointed none []).bytes = false ∧
      (∀ x ∈ s.strands, x.2.wait = none) ∧ (∀ x ∈ p.arrivals, x.phase = p.phase ∧ x.counted = true) ∧
      s.drained [7] = false ∧ s.drained [6] = true ∧
      (held (leave [7]) []).keyIdx (coreOf 0) 8 = some 0 ∧ (held (leave [7]) []).keys[0]? = some (leave [7]) ∧
      (leave [6]).skips = [] ∧ (leave [6]).ctxSkips = [] ∧ (leave [6]).waiters = [] ∧
      (held (skip [7]) []).keys[0]? = some (skip [7]) ∧ (skip [7]).skipping.find? (fun k => k.2.1 == 4) = some (1, 4, [7]) ∧
      (skip [6]).skipping.find? (fun k => k.2.1 == 4) = some (1, 4, [6]) ∧ (skip [6]).next ≠ 4 := by decide +kernel

/-- An operation that has started. -/
def opOf (w : OpWork) (done : List Nat) : EngOp :=
  { id := 0, work := w, uid := 1, core := 0, launch := 0, ctx := 1, rel := [], started := true, vas := [], flag := none,
    snap := [], snapBad := [], seen := [], tileOld := [], written := done, stop := false, counters := [(1, 0)] }
def gangOf (mode : Word) : EngOp :=
  let desc : GangDesc := { shape := 1 <<< 32 ||| mode <<< 20 ||| 31, a := 0, b := 0, x := 0 }
  let arr : GangArrival := { sid := 0, uid := 1, tile := 0, cn := 0, lut := false, grp := 0 }
  opOf (.gang 1 [{ arr := arr, desc := desc, ctx := 1, launch := 0, core := 0, qtab := [], qbase6 := 0, qbase4 := 0 }]) []
theorem witness_engineSteps :
    let copy := opOf (.copy [4, 5] [8, 9]) []
    let ast := opOf (.ast 0 0 0 (List.replicate 64 [8])) []
    let ald := opOf (.ald 0 0 [[8, 9, 10, 11, 12, 13, 14, 15]]) []
    let s (o : EngOp) : State := { at0 base with ops := [o] }
    let g : GangGroup := { mask := 1, arrivals := [{ sid := 0, uid := 1, tile := 0, cn := 0, lut := false, grp := 0 }] }
    let c : State := { at0 (waits (.gang 1 true) base) with sheafs := [(0, { Sheaf.blank with committed := [g] })] }
    (s copy).ops.find? (fun o => o.id == 0) = some copy ∧ copy.started = true ∧ copy.stop = false ∧ 0 < copy.units ∧ 0 ∉ copy.written ∧
      (∀ i, i < 2 → (s copy).srcBad copy 0 ([4, 5].getD i 0) = false) ∧
      (let bad : EngOp := { copy with snapBad := [0], seen := [{ cells := [(9, 1)], bad := [], seq := none }] }
       (List.range 2).find? (fun i => (s bad).srcBad bad 0 ([4, 5].getD i 0)) = some 0) ∧
      (let twice : EngOp := { copy with seen := [{ cells := [(4, 1), (4, 2)], bad := [], seq := none }] }
       twice.seen[0]? = some { cells := [(4, 1)] ++ (4, 2) :: [], bad := [], seq := none } ∧ ∀ x ∈ twice.seen.take 1, ∀ c ∈ x.cells, c.1 ≠ 5) ∧
      (∀ l ∈ [8], (s ast).poisoned l = false) ∧ 0 < ast.units ∧ ast.mayWrite 0 = true ∧ ast.mayWrite 1 = false ∧
      (opOf (.copy [4, 5] [8, 9]) [0]).written.length = copy.units ∧ (List.range 64).length = ast.units ∧
      copy.written.length ≠ copy.units ∧ ald.started = true ∧ (∀ l ∈ [8, 15], (s ald).srcBad ald 0 l = false) ∧
      c.early = [] ∧ bitsAt (0 : Word).toNat 22 2 < 3 ∧ (c.sheaf 0).committed = [g] ∧ g.arrivals ≠ [] ∧ (∀ a ∈ g.arrivals, c.slotOf a.uid ≠ none) ∧ c.slotOf 1 = some 0 ∧
      (c.strand 0).wait = some (.gang g.mask true) ∧ ((at0 base).sheaf 0).committed = [] := by decide +kernel
theorem witness_gangComplete :
    (match (gangOf 0).work with
     | .gang m ms => m == 1 && (ms.find? fun m => m.core == 0).isSome && (ms.all fun g => g.formed g) && ms.all fun g =>
        let mem : GangMem := { op := gangOf 0, fresh := 0, home := 0 }
        ((at0 base).gangPoison mem (mem.reads g.desc false 0 ms)).isNone && (metaBad mem g.desc ms).isNone
     | _ => false) = true ∧
    (match (gangOf 1).work with
     | .gang _ ms => ms.all fun g =>
        let mem : GangMem := { op := gangOf 1, fresh := 0, home := 0 }
        ((at0 base).gangPoison mem (mem.reads g.desc false 0 ms)).isNone && metaBad mem g.desc ms == some 0
     | _ => false) = true ∧ (gangOf 0).started = true ∧ (gangOf 0).stop = false ∧ (at0 base).slotOf 1 = some 0 := by
  decide +kernel

/-- A mesh launch of context 1 with a ring of four slots at 0x5000; the oldest reserved slot has retired. -/
def meshed (ring : List MeshSlot) : State :=
  { withMem (cellsAt (512 * 8 + 32 + 8) [4] ++ cellsAt (512 * 8 + 32 + 0x1C) [1]) (at0 base) with
    host := { HostRegs.blank with meshtab := 0x1000 }, rings := [(1, { next := 1, slots := ring })],
    launches := [(0, { launchOf 1 with bytes := (recOf 1).set 15 4 })] }
def slotOf0 (r : Bool) : MeshSlot := { slot := 0, launch := 0, ordinal := 0, retired := r, empty := false }
/-- Core 0's tray: EN, COMPAT and FULL as given, HEAD 0, 1 or 4, TAIL 0 of four slots. -/
def trayed (cfg : Byte) (head : Nat) : State :=
  { withMem (cellsAt (trayLoc 0 + 8) ([4, 0, 0, 0] ++ [cfg])) (at0 base) with
    cores := [(0, { Core.blank with trayHead := head, trayQ := [{ ctx := 1, bytes := List.replicate 128 0 }] })] }
theorem witness_meshAndPageSteps :
    let s := meshed [slotOf0 true]
    let la : Launch := { launchOf 1 with bytes := (recOf 1).set 15 4 }
    let held (s : State) : Nat := ((s.core 0).trayHead + 2 ^ 64 - s.trayField 0 0x18 8) % 2 ^ 64
    let q : PageReq := { id := 3, ctx := 1, entryLoc := 0x100, pageLoc := 0x20000, resLoc := 0x200, resBit := 1, host := 0, clen := 2, dict := none }
    Table.get? s.rings 1 = some { next := 1, slots := [slotOf0 true] } ∧ s.slotDone (slotOf0 true) = true ∧ s.tree = none ∧ (s.slotMeets 1 (slotOf0 true)).met = s.met ∧
      (({ s with poison := [unitBase (512 * 8 + 32)] } : State).slotMeets 1 (slotOf0 true)).met.length ≠ s.met.length ∧
      (meshed [slotOf0 false]).slotDone (slotOf0 false) = false ∧
      (trayed 0 1).trayField 0 0x0C 4 % 2 = 0 ∧ (trayed 1 1).trayField 0 0x0C 4 = 1 ∧ held (trayed 1 1) < (trayed 1 1).trayField 0 8 4 ∧
      held (trayed 1 4) = (trayed 1 4).trayField 0 8 4 ∧ (trayed 17 4).trayField 0 0x0C 4 = 17 ∧ (trayed 3 4).trayField 0 0x0C 4 = 3 ∧
      (trayed 19 0).trayField 0 0x18 8 = ((trayed 19 0).core 0).trayHead ∧ (trayed 19 4).trayField 0 0x18 8 ≠ ((trayed 19 4).core 0).trayHead ∧
      (trayed 1 1).trayBad 0 = none ∧ (∀ l ∈ locsFrom (s.meshEntry 1) 32, s.poisoned l = false) ∧ s.poisoned q.resLoc = false ∧
      ((trayed 1 1).core 0).trayQ = [{ ctx := 1, bytes := List.replicate 128 0 }] ∧
      ({ s with pages := [q] } : State).pages.find? (fun q => q.id == 3) = some q ∧ [1#8, 2].length = q.clen ∧
      (match q.decode none with | .error c => c | .ok _ => 0) = 7 ∧
      (let a : Assembly := { ctx := 1, prim := 0, disc := 0, cull := 0, left := [(0, { ctx := 1, bytes := [] })] }
       ({ s with tree := some a } : State).tree = some a ∧ a.ctx.toNat = 1 ∧ a.ctx.toNat ≠ 2) ∧
      Table.get? s.launches 0 = some la ∧ la.state = .running ∧ s.usesRing la = true ∧ la.meshSlots < recTotal la.bytes ∧
      s.earlierMesh la = false ∧ (s.ring (recCtx la.bytes)).slots.length < s.meshNslot (recCtx la.bytes) := by decide +kernel

/-- A tray with room, at 0x100000, whose control block nothing else watches. -/
def based : State :=
  withMem (cellsAt (trayLoc 0) (leBytes 0x100000 8)) (trayed 1 1)
theorem witness_trayWrites : (trayed 0 1).quiet (locsFrom (trayLoc 0 + 0x24) 4) ∧
    based.quiet (locsFrom (localLoc 0 128) 128 ++ locsFrom (trayLoc 0 + 0x10) 8) :=
  ⟨by apply quiet_of <;> decide +kernel, by apply quiet_of <;> decide +kernel⟩
theorem witness_trayRoom : based.trayField 0 0 8 + 128 * 1 = 0x100080 ∧ based.trayField 0 0x0C 4 = 1 ∧ based.trayField 0 8 4 = 4 ∧
    (based.core 0).trayHead = 1 ∧ (0x100000 : Nat) ≤ 0x100080 ∧ 0x100080 + 128 ≤ 0x11FFC0 := by decide +kernel

/-- A frame of one RLE block decodes to a page of one byte value. -/
theorem witness_pageDecodes :
    framePage none [0x28, 0xB5, 0x2F, 0xFD, 0, 0x30, 0x03, 0, 0x08, 7] = .ok (List.replicate 65536 7) := by
  have h : frameBlocks 65536 0 65536 Entropy.start [] 0 [0x03, 0, 0x08, 7] 10 = .ok (List.replicate 65536 7, 65536, []) := by
    unfold frameBlocks
    dsimp only
    rw [if_neg (by decide), if_neg (by decide), if_pos (by decide)]
    dsimp only
    rw [if_pos (by decide), List.append_nil]
    rfl
  unfold framePage
  dsimp only
  rw [if_neg (by decide), if_neg (by decide), if_neg (by decide), if_pos (by decide)]
  dsimp only
  split
  · next e => cases e.symm.trans h
  · next back len rest e =>
    cases e.symm.trans h
    rw [if_neg (by decide), if_neg (by decide), if_neg (by decide)]
    simp only [List.take_replicate, List.reverse_replicate, Nat.min_self]

/-- Emissions of core 0 that wait for the unit, are on their way, and are due at 0. -/
def emitting (e : Emission) : State := { at0 base with cores := [(0, { Core.blank with emits := [e] })] }
theorem witness_emissionAndScrubSteps :
    let ready : Emission := { going with ready := some 4 }
    let out : Emission := { going with ready := some 4, stage := 1, read := List.replicate 2304 0, time := 100 }
    let half : Emission := { out with read := List.replicate 1152 0 }
    let done : Emission := { going with stage := 2, swapAt := 0 }
    let due (e : Emission) : Bool := e.tile == 3 && e.mask.getLsbD 1 && e.stage == 2 && decide (e.swapAt ≤ 0)
    ((emitting going).core 0).nextEmission = none ∧ ((emitting ready).core 0).nextEmission = some ready ∧ (∀ o, (emitting ready).poisoned o = false) ∧ ready.snapBad = [] ∧
      ready.read = [] ∧ ready.dark = [] ∧ (emitting ready).choice.cut = 0 ∧ (emitting half).dbg.frozen = false ∧
      ((emitting half).core 0).reading = some half ∧ half.left ≠ [] ∧ ((emitting half).core 0).arriving = some half ∧
      ((emitting out).core 0).arriving = some out ∧ out.left = [] ∧ out.codes.map Prod.fst = [1] ∧ out.read.length = 2304 * 1 ∧ out.dark = [] ∧
      ((emitting ready).core 0).arriving = none ∧
      ((emitting out).ftime : Int) < out.from' (emitting out).gov ∧
      out.from' (emitting out).gov ≤ (({ emitting out with ftime := 100000 } : State).ftime : Int) ∧
      out.mask.getLsbD 1 = true ∧ out.mask.getLsbD 0 = false ∧
      (0 : Nat) < out.time ∧ out.time ≠ 0 ∧ out.time ≤ ({ emitting out with ftime := 200 } : State).ftime ∧ (0 : Nat) < 208333 ∧
      (emitting going).cores.findSome? (fun c => (c.2.emits.find? due).map fun e => (c.1, e)) = none ∧
      (emitting done).cores.findSome? (fun c => (c.2.emits.find? due).map fun e => (c.1, e)) = some (0, done) ∧
      (((at0 base).core 0).visitFrom ≤ (at0 base).ftime) ∧
      (at0 base).ftime < (({ at0 base with cores := [(0, { Core.blank with visitFrom := 100000 })] } : State).core 0).visitFrom ∧
      isNear (tcmLoc 0 0) = true ∧ (at0 base).physOk 0 = true := by
  refine ⟨by decide +kernel, by decide +kernel, fun o => rfl, ?_⟩
  decide +kernel

/-- A device whose queue ports answer; port 3 as `p`, with `n` records in its queue. -/
def answering (p : Port) (n : Nat) : State :=
  { State.reset with
    tch := { Tchimen.blank with pcieUp := true }, ports := [(3, p)],
    queues := [(3, List.replicate n { bytes := recOf 1, origin := .port 3 9, ctx := 1 })],
    host := { HostRegs.blank with msixEn := true, msixMask := [] } }
def icy (s : State) : State := { s with dbg := { s.dbg with frozen := true } }
/-- A code object at virtual page 0x100 of context 1: 16 bytes of text. -/
def coded : State :=
  let s := paged (answering { Port.blank with en := true, ctx := 1 } 1)
  { s with mem := s.mem.putAll (cellsAt 0x20000 ([0x43, 0x4F, 0x47, 0x4C, 1, 0, 0, 0, 64, 0, 0, 0, 16])),
           checked := [(1, 0x1000000, [])] }
def goodRec : List Byte := [0, 0, 0, 1] ++ (recOf 1).drop 4
theorem witness_submission :
    let p : Port := { Port.blank with en := true, ctx := 1, note := true }
    let s := answering p 0
    let m (r : List Byte) : Submitted := { bytes := r, origin := .port 3 9, ctx := 1 }
    let sub : Submitted := { bytes := recOf 1, origin := .strand 0 1 1 0 0x4000, ctx := 1 }
    (3 : Nat) < 64 ∧ s.barsUp = true ∧ (icy s).dbg.frozen = true ∧ (icy s).barsUp = true ∧ s.dbg.frozen = false ∧ p.en = true ∧
      (s.queue 3).length < Config.queueDepth ∧ Config.queueDepth ≤ ((answering p 256).queue 3).length ∧
      (answering { p with en := false } 0).port 3 = { p with en := false } ∧ p.note = true ∧ s.host.msixEn = true ∧
      s.host.msixMask.contains p.vec.toNat = false ∧ (answering p 1).queue 3 = [m (recOf 1)] ∧ (answering p 1).freeEntry = some 0 ∧
      (coded.wellRecord goodRec (m goodRec).check).2 = true ∧ (coded.wellRecord (recOf 1) (m (recOf 1)).check).2 = false ∧
      (coded.wellRecord (recOf 1) sub.check).2 = false ∧ recDeps goodRec = [] := by decide +kernel

/-- A pinned launch of two strands from tile `t`, READY or RUNNING, beside the ownership map of `owning`. -/
def pinned (st : LState) (t : Byte) : State :=
  let r := ((recOf 1).set 15 9).set 0x78 t
  { owning [] with strands := [], launches := [(0, { Launch.new r (.port 0 0) 1 with state := st })] }
def ready (s : State) : Option (Nat × Launch) :=
  s.firstLaunch fun a => a.state == LState.ready && a.chosenAt.isNone && a.total != 0
theorem witness_launchesRun :
    let pack : State := { State.reset with launches := [(0, { launchOf 1 with state := .ready })] }
    let bound : Strand := { base with stat := .bound, launch := 0 }
    let s (t : Strand) : State := { inLaunch t with strands := [(0, t)] }
    ready State.reset = none ∧ (ready (pinned .ready 0)).isSome = true ∧ (ready pack).map Prod.fst = some 0 ∧
      (ready (pinned .ready 0)).map (fun e => recPinned e.2.bytes) = some true ∧ (ready pack).map (fun e => recPinned e.2.bytes) = some false ∧
      (pinned .running 0).nextCand = some (.strand 0 0 (some 0) 0) ∧ (pinned .running 0).freeSlot 0 = some 0 ∧
      (pinned .running 1).nextCand = some (.dark 0 0) ∧
      (∀ w ∈ (pinned .running 0).mapWaits false, (pinned .running 0).mapBad w.1 = none) ∧
      (∀ w ∈ (pinned .running 1).mapWaits false, (pinned .running 1).mapBad w.1 = none) ∧
      (let s : State := { pinned .running 0 with poison := [0x3000] }
       ¬ ∀ w ∈ s.mapWaits false, s.mapBad w.1 = none) ∧
      (Table.get? (s bound).launches bound.launch) = some (launchOf 1) ∧ ((s bound).core 0).power.up = true ∧
      recStart (launchOf 1).bytes ≤ (s bound).ftime ∧ ({ bound with fresh := true } : Strand).fresh = true ∧ bound.fresh = false ∧
      ((s bound).core 0).injected = false ∧
      (({ s bound with cores := [(0, { Core.blank with injected := true })] } : State).core 0).injected = true ∧
      (pinned .running 0).imageBad (launchOf 1) 0 false = none ∧
      (s bound).usesRing (launchOf 1) = false ∧ recSstep (launchOf 1).bytes = false ∧
      ({ launchOf 1 with retired := 2 } : Launch).over = true ∧ (launchOf 1).over = false ∧
      (pinned .running 0).launchQuiet 0 (launchOf 1) = true ∧ recDone (launchOf 1).bytes = 0 ∧
      recDone ((recOf 1).set 0x2B 1) ≠ 0 ∧ (paged (at0 base)).unitPhys 1 (recDone ((recOf 1).set 0x2B 1)).toNat leafWrites = some 0x20000 := by
  decide +kernel
theorem witness_launchComplete : (paged (at0 base)).quiet (locsFrom 0x20000 8) := by apply quiet_of <;> decide +kernel

/-- Core 0 full with strands of priority 3 and one of 2; husks on; and launches that wait. -/
def crowded : State :=
  let t (u pr : Nat) : Strand := { base with uid := u, prio := pr, launch := 7 }
  { pinned .running 0 with strands := [(0, t 1 3), (1, t 2 2), (2, t 3 3), (3, t 4 3)],
                           host := { HostRegs.blank with ownmap := some 0x3000, huskbase := 0x40001 } }
def husked : State :=
  let h : Husk := { sid := 0, uid := 9, strand := { base with launch := 0, prio := 20 }, since := 0, kept := none }
  { inLaunch base with strands := [], husks := [h], launches := [(0, { launchOf 1 with state := .drainingOut })],
                       host := { HostRegs.blank with huskbase := 0x40001 } }
/-- (In `pack` a mesh launch of a higher priority waits for its ring, and claims the slots that are free.) -/
theorem witness_preemption :
    let mesh : Launch := { launchOf 1 with bytes := ((recOf 1).set 13 21).set 15 4, runNo := 1 }
    let pack : State := { meshed [] with
      strands := crowded.strands, launches := [(0, launchOf 1), (1, mesh)], ftime := 100000,
      host := { crowded.host with meshtab := 0x1000 } }
    (at0 base).huskEn = false ∧ crowded.huskEn = true ∧ crowded.pinnedVictim 0 20 = some 1 ∧ crowded.packVictim 20 = some 1 ∧
      firstVictim (crowded.pinnedWaits.map fun w => (w.1, w.2.1, crowded.pinnedVictim w.2.2 w.1)) = some 1 ∧
      firstVictim (pack.packWaits.map fun w => (w.1, w.2, pack.packVictim w.1)) = some 1 ∧ (crowded.strand 1).wait = none ∧
      (crowded.strand 1).mid = none ∧ crowded.freeSlot 0 = none ∧ base.mid = none ∧ husked.imageBad (launchOf 1) 0 true = none ∧
      (crowded.strand 1).stat = .live ∧ ({ base with parked := some 1 } : Strand).parked.isSome = true ∧
      ({ base with saving := true } : Strand).saving = true ∧ base.buf = [] ∧ crowded.ops = [] ∧ fullMasks.length = 12 ∧ base.pauseMasks = none ∧
      base.pc &&& 3 = 0 ∧ base.asStored = base ∧
      (∀ s ∈ [crowded, pack, husked, at0 base], ∀ w ∈ s.mapWaits false, s.mapBad w.1 = none) ∧
      (let s : State := { crowded with poison := [0x3000] }
       s.huskEn = true ∧ ¬ ∀ w ∈ s.mapWaits false, s.mapBad w.1 = none) ∧
      ((husked.husks[0]?).map fun h => (h.kept, husked.huskBad h, husked.huskBad { h with kept := some [] })) = some (none, none, none) ∧
      husked.early = [] ∧ husked.nextCand = some (.husk 0 0) ∧ husked.husks[0]?.isSome = true ∧ husked.freeSlot 0 = some 0 ∧
      (husked.husks[0]?.bind fun h => husked.launchOfStrand h.strand).isSome = true ∧ (at0 base).nextCand = none := by decide +kernel
theorem witness_huskSave : ({ at0 { base with saving := true } with host := { HostRegs.blank with huskbase := 0x40001 } } : State).quiet
    (locsFrom 0x40000 2048) := by apply quiet_of <;> decide +kernel

/-- Core 0 in the given power state, with the given tokens and debt. -/
def powered (p : Power) (tok owed : Nat) : State :=
  { State.reset with cores := [(0, { Core.blank with power := p, tokens := tok, owed := owed, waking := decide (owed = 1) })] }
theorem witness_powerSteps :
    let s : State := { State.reset with ftime := 1000 }
    let w : State := { s with gov := { s.gov with writes := [(0, 5)] } }
    let idle : State := { powered .clockGated 0 0 with ftime := 20000 }
    let long : State := { powered .powerGated 0 0 with ftime := 10000000 }
    let vf : State := { State.reset with sheafs := [(0, { Sheaf.blank with target := some 3 })] }
    State.reset.ftime < 1000 * (State.reset.gov.tick + 1) ∧ 1000 * (s.gov.tick + 1) ≤ s.ftime ∧ s.gov.writes = [] ∧ w.gov.writes = [(0, 5)] ∧
      ((powered .awake 0 5).core 0).power.up = true ∧ ((powered .awake 0 5).core 0).starved = false ∧
      ((powered .awake 0 5).core 0).tokens < ((powered .awake 0 5).core 0).owed ∧ ¬ ((powered .awake 5 0).core 0).tokens < ((powered .awake 5 0).core 0).owed ∧
      (idle.core 0).power.up = true ∧ (0 : Nat) < 9216 ∧ (idle.core 0).chaff = 0 ∧ (∀ t ∈ idle.onCore 0, t.stat ≠ .live) ∧
      (idle.core 0).idleSince + 1000 * idle.gov.gateDly ≤ idle.ftime ∧
      (long.core 0).power = .powerGated ∧ (long.core 0).waking = false ∧ long.adopter 0 = false ∧
      (∀ t ∈ coreNear 0, long.mapBad t = none) ∧
      (let s : State := { long with poison := [0x3000], host := { HostRegs.blank with ownmap := some 0x3000 } }
       ¬ ∀ t ∈ coreNear 0, s.mapBad t = none) ∧
      (long.core 0).gatedSince + 1000 * long.gov.offDly ≤ long.ftime ∧ long.canonical = true ∧
      ((powered .off 0 1).core 0).waking = true ∧ (powered .off 0 1).adopter 0 = false ∧ ((powered .off 0 1).core 0).near = none ∧
      (({ s with cores := [(0, { Core.blank with waking := true, near := some (1, 0) })] } : State).core 0).near ≠ none ∧
      (vf.sheaf 0).target = some 3 ∧ (State.reset.sheaf 0).target = none := by decide +kernel
theorem witness_tokens : ∀ c, (State.reset.core c).tokens ≤ tokenCap := by
  intro c
  simp [State.core, State.reset, Table.getD, Table.get?, Core.blank]
theorem witness_alarmsAndSensors :
    let s : State := { State.reset with sheafs := [(0, { Sheaf.blank with stretched := true, point := 13 })] }
    let m : State := { State.reset with host := { HostRegs.blank with msixEn := true, msixMask := [] } }
    (s.sheaf 0).stretched = true ∧ (State.reset.sheaf 575).stretched = false ∧ (575 : Nat) < Config.sheaves ∧
      Table.get? s.sheafs 0 = some (s.sheaf 0) ∧ s.gov.pbase < (s.sheaf 0).point ∧ m.host.msixEn = true ∧ m.host.msixMask.contains 1 = false ∧
      m.gov.thermTrip = false ∧ (287 : Nat) < 288 ∧ (-641 : Int) < -640 ∧ (2400 : Int) < 2401 ∧
      (match exec (.sensorReading 287 2000) s with | .next t => !(t.sensor 287).failed && t.tripped | _ => false) = true ∧
      16 * (s.gov.tshut : Int) ≤ 2000 ∧
      (match exec (.sensorReading 287 1999) s with | .next t => !t.tripped | _ => false) = true := by decide +kernel

/-- The device as the host sees it: READY, with the link up; in recovery; before the link is up. -/
def hosted : State := { answering { Port.blank with en := true, ctx := 1 } 0 with
  tch := { Tchimen.blank with pcieUp := true, ready := true, stage := 7 }, dbg := Debug.blank }
def recovering : State := { hosted with tch := { Tchimen.blank with pcieUp := true, fwrecov := true, stage := 1 } }
theorem witness_hostAccesses :
    State.reset.tch.pcieUp = false ∧ hosted.tch.pcieUp = true ∧ hosted.tch.fwrecov = false ∧ recovering.tch.fwrecov = true ∧
      hosted.dbg.frozen = false ∧ hosted.tch.buf.wf = true ∧ (0xFF8 : Nat) + 8 ≤ 0x1000 ∧ (0x78 : Nat) + 8 ≤ 0x80 ∧
      (hosted.port 63).staging.length = 128 ∧ (63 : Nat) < 64 ∧ State.reset.barsUp = false ∧ hosted.barsUp = true ∧
      (icy hosted).barsUp = true ∧ (icy hosted).dbg.frozen = true ∧ Config.hbmEnd - 8 + 8 ≤ Config.hbmEnd ∧
      (∀ i, i < 8 → hosted.poisoned (unitBase (Config.hbmEnd - 8 + i)) = false) ∧ Config.hbmEnd < Config.hbmEnd - 7 + 8 := by
  decide +kernel
theorem witness_hostWrite : hosted.quiet (locsFrom (Config.hbmEnd - 8) 8) := by apply quiet_of <;> decide +kernel

def brought (fw1 fw2 : Bool) : BringUp := { fw1 := fw1, fw2 := fw2, failed := [5], page := Config.granaryBase }
theorem witness_resets :
    let six : State := { hosted with tch := { Tchimen.blank with stage := 6, pcieUp := true } }
    let asked : State := { hosted with host := { hosted.host with freset := true } }
    let loading (arm src : Bool) (due : Option (Nat × Bool)) : HostRegs := { HostRegs.blank with ftArm := arm, ftSrc := src, ftDue := due }
    hosted.powerOn.pageOk (brought true true).page = true ∧ hosted.tch.staged = [] ∧ (brought true true).fw1 = true ∧
      (brought true true).fw2 = true ∧ (brought false true).fw1 = false ∧ (brought true false).fw2 = false ∧
      six.tch.stage = 6 ∧ six.tch.fwrecov = false ∧ hosted.host.freset = false ∧ asked.host.freset = true ∧ asked.tch.fwrecov = false ∧
      asked.fieldBase.pageOk (brought true true).page = true ∧ asked.canonical = true ∧
      hosted.physOk 0 = true ∧ 0 < (brought true true).page ∧
      hosted.barsUp = true ∧ hosted.early = [] ∧ hosted.host.ftArm = false ∧ (loading true true none).ftSrc = true ∧
      (loading true false none).ftArm = true ∧ (loading true false none).ftSrc = false ∧ (loading true false none).ftDue = none ∧
      (loading true false (some (100, false))).ftDue = some (100, false) ∧ (99 : Nat) < 100 ∧ (100 : Nat) ≤ 100 ∧
      (loading false false (some (100, false))).ftArm = false ∧ (loading true true (some (100, false))).ftSrc ≠ false := by decide +kernel

/-- The argument bytes of a command, when MBBUF has not been written since it began. -/
theorem mbNum_of (s : State) (h : s.tch.buf = s.tch.args) (o n : Nat) :
    s.mbNum o n = leNat ((List.range n).map fun i => s.tch.args.byte (o + i)) := by
  simp [State.mbNum, State.mbArgs, State.mbArg, h]
def commanded (code : Byte) (args : Memory) : State :=
  { hosted with tch := { hosted.tch with busy := true, running := some code, buf := args, args := args } }
/-- (Which of the two cases of a firmware or calibration check holds rests on the opaque algorithms of log 10.) -/
theorem witness_mailbox : hosted.tch.pcieUp = true ∧ (commanded 2 []).early = [] ∧ (commanded 1 []).tch.busy = true ∧ hosted.tch.busy = false ∧
    recovering.tch.fwrecov = true ∧ recovering.tch.busy = false ∧ hosted.tch.fwrecov = false ∧ hosted.tch.running = none ∧
    (commanded 2 []).badUnits 0 (1 <<< 26) = [] ∧
    (∀ i, i < 7 → (commanded (BitVec.ofNat 8 (i + 1)) []).tch.running = some (BitVec.ofNat 8 (i + 1))) ∧
    1 < (commanded 2 [(12, 2)]).mbNum 12 1 ∧ 1 < (commanded 2 [(13, 2)]).mbNum 13 1 ∧ 0x4000000 < (commanded 2 [(8, 1), (11, 4)]).mbNum 8 4 ∧
    (commanded 2 [(12, 1), (14, 1)]).mbNum 12 1 ≤ 1 ∧ (commanded 2 [(12, 1), (14, 1)]).mbNum 13 1 = 0 ∧
    (commanded 2 [(12, 1), (14, 1)]).mbNum 14 1 ≤ 1 ∧ (commanded 2 [(11, 4)]).mbNum 8 4 ≤ 0x4000000 ∧
    (commanded 2 []).mbNum 0 8 + (commanded 2 []).mbNum 8 4 ≤ Config.hbmEnd ∧ (commanded 3 []).mbNum 0 8 + calBytes ≤ Config.hbmEnd ∧
    (commanded 4 [(0, 128)]).mbNum 0 2 = 128 ∧ (commanded 4 [(0, 127)]).mbNum 0 2 = 127 ∧ (commanded 6 [(0, 15)]).mbNum 0 1 = 15 ∧
    (commanded 6 [(0, 16)]).mbNum 0 1 = 16 ∧ (commanded 7 [(0, 1), (8, 4)]).mbNum 8 8 = 4 ∧
    ({ hosted with tch := { hosted.tch with stage := 6 } } : State).tch.stage = 6 := by
  simp only [mbNum_of _ (rfl : (commanded _ _).tch.buf = (commanded _ _).tch.args)]
  decide +kernel

def linked (l : Link) : State := { hosted with links := [(3, l)] }
theorem witness_linksAndDebug :
    let sel (c chain : Nat) : State := { icy (at0 base) with dbg := { Debug.blank with frozen := true, shsel := BitVec.ofNat 32 (c + 65536 * chain) } }
    (3 : Nat) < 4 ∧ (linked { Link.blank with hold := true }).link 3 = { Link.blank with hold := true } ∧ Link.blank.hold = false ∧
      Link.blank.en = true ∧ Link.blank.up = false ∧ ({ Link.blank with en := false } : Link).en = false ∧
      (16 : Nat) = (if Link.blank.badLanes then 8 else 16) ∧ (8 : Nat) = (if ({ Link.blank with badLanes := true } : Link).badLanes then 8 else 16) ∧
      ((linked { Link.blank with up := true }).link 3).up = true ∧
      ({ Debug.blank with frozen := true, arrayRead := true } : Debug).arrayRead = true ∧ hosted.dbg.arrayRead = false ∧ hosted.dbg.frozen = false ∧
      (icy hosted).dbg.frozen = true ∧ bitsAt (sel 0 0).dbg.shsel.toNat 0 14 < 9216 ∧ bitsAt (sel 0 0).dbg.shsel.toNat 16 3 < 4 ∧
      bitsAt (sel 9215 3).dbg.shsel.toNat 0 14 = 9215 ∧ bitsAt (sel 9215 3).dbg.shsel.toNat 16 3 = 3 ∧ ((sel 0 0).strand 0).stat = .live ∧
      hosted.barsUp = true ∧ (icy hosted).barsUp = true ∧ recovering.barsUp = false ∧ State.reset.barsUp = false ∧
      (hosted.arrayLoc 0 0 0).isSome = true ∧ (hosted.arrayLoc 0 0 0x7FF8).isSome = true ∧
      (hosted.arrayLoc 575 3 0x7FFF8).isSome = true := by
  decide +kernel
theorem witness_bypass : ∃ ir : BitVec 8, ir ≠ 0 ∧ 0x24 < ir.toNat ∧ ir ≠ Config.irSample ∧ ir ≠ Config.irIdcode := by
  by_cases a : (0x30#8) = Config.irSample ∨ (0x30#8) = Config.irIdcode
  · by_cases b : (0x31#8) = Config.irSample ∨ (0x31#8) = Config.irIdcode
    · refine ⟨0x32, by decide, by decide, ?_, ?_⟩ <;>
        · intro h
          rcases a with a | a <;> rcases b with b | b <;>
            first
            | exact absurd (a.trans b.symm) (by decide)
            | exact absurd (h.trans a.symm) (by decide)
            | exact absurd (h.trans b.symm) (by decide)
    · exact ⟨0x31, by decide, by decide, fun h => b (.inl h), fun h => b (.inr h)⟩
  · exact ⟨0x30, by decide, by decide, fun h => a (.inl h), fun h => a (.inr h)⟩

end Sys2Proof.Tests
end

section
/-! SUPPORT. The strand's scalar instructions (07): how a faulting cause leaves the strand, jumps, the values of the integer
forms, and the majors of their words; with the statements on division, immediates, branches and jumps. -/

namespace Sys2Proof.Proofs

open Sys2Proof Sys2Proof.Machine Sys2Proof.Laws

/-! ### Frames -/

theorem cur_of_onlyMe {s t : State} (h : OnlyMe s t) : t.cur = s.cur := by rw [h.rest]

theorem onlyMe_refl (s : State) : OnlyMe s s := ⟨fun _ => rfl, fun _ _ => rfl, fun _ => rfl, fun _ => rfl, rfl⟩

theorem onlyMe_trans {s t u : State} (h : OnlyMe s t) (k : OnlyMe t u) : OnlyMe s u where
  mem l := (k.mem l).trans (h.mem l)
  strand i hi := (k.strand i (by rwa [cur_of_onlyMe h])).trans (h.strand i hi)
  core c := (k.core c).trans (h.core c)
  sheaf i := (k.sheaf i).trans (h.sheaf i)
  rest := by rw [k.rest, h.rest]

/-! ### A faulting cause (19, R369, R370, R372) -/

/-- `t` with its wait withdrawn, and the counts of a wait at `n` and `m`. -/
def unwaited (t : Strand) (n m : Nat) : Strand := { t with wait := none, waited := n, probed := m }

theorem withdraw_of_none {s : State} (h : s.me.wait = none) : s.withdraw s.cur = s := by
  have hw : (s.strand s.cur).wait = none := h
  simp only [State.withdraw, hw]

/-- A key wait and a gang arrival stand elsewhere too; any other wait is the strand's alone. -/
theorem withdraw_of_some {s : State} {w : Wait} (halone : s.me.waitsAlone) (h : s.me.wait = some w) :
    s.withdraw s.cur = s.setMe (unwaited s.me 0 0) := by
  obtain ⟨hkey, hgang⟩ := halone
  have hw : (s.strand s.cur).wait = some w := h
  simp only [State.withdraw, hw]
  cases w with
  | key k n d => exact absurd h (hkey k n d)
  | gang m c => exact absurd h (hgang m c)
  | _ => rfl

theorem withdraw_onlyMe {s : State} (halone : s.me.waitsAlone) :
    OnlyMe s (s.withdraw s.cur) ∧ ∃ n m, (s.withdraw s.cur).me = unwaited s.me n m := by
  cases hw : s.me.wait with
  | none =>
    rw [withdraw_of_none hw]
    exact ⟨onlyMe_refl s, s.me.waited, s.me.probed, by rw [unwaited, ← hw]⟩
  | some w =>
    rw [withdraw_of_some halone hw]
    exact ⟨onlyMe_setMe s _, 0, 0, me_setMe s _⟩

theorem enter_entered (t : Strand) (c : Cause) (value epc : Word) (n m : Nat) :
    Strand.Entered c.code value epc t ((unwaited t n m).enter c.code value false epc) := by
  have hcode : BitVec.ofNat 9 (c.code % 256) = BitVec.ofNat 9 c.code := by cases c <;> rfl
  have hmode : t.mode.toNat < 1 ↔ t.mode = 0 := by
    rw [Nat.lt_one_iff]
    exact toNat_inj (b := 0)
  simp [Strand.Entered, Strand.enter, unwaited, hmode, hcode]

/-- A meaning that ends in `State.trap` raises the cause, as `Faults` says it. -/
theorem trap_faults (s : State) (c : Cause) (value : Word) : Faults s (s.trap c value) c value := by
  intro halone
  obtain ⟨honly, n, m, hme⟩ := withdraw_onlyMe halone
  have hcur : (s.withdraw s.cur).cur = s.cur := cur_of_onlyMe honly
  have hmine : (s.withdraw s.cur).strand s.cur = unwaited s.me n m := by rw [← hme, State.me, hcur]
  have hset (t : Strand) : (s.withdraw s.cur).setStrand s.cur t = (s.withdraw s.cur).setMe t := by
    rw [State.setMe, hcur]
  simp only [State.trap, State.raiseAt, State.trapEntry, hmine, hset]
  refine ⟨fun hvec hent => ?_, fun hend => ?_⟩
  · rw [if_neg (by simpa [unwaited, hent] using hvec)]
    refine ⟨_, rfl, onlyMe_trans honly (onlyMe_setMe _ _), ?_⟩
    rw [me_setMe]
    exact enter_entered s.me c value s.me.pc n m
  · rw [if_pos (by rcases hend with h | h <;> simp [unwaited, h])]
    rfl

/-! ### Forms that may not stand in a loop body (06, R135), and those that jump -/

theorem wordValue_eq_wordOf (i : Instr) : wordValue i = wordOf i := BitVec.ofNat_toNat ..

theorem offLoop_faults {s : State} (i : Instr) (k : Out) (h : s.me.inLoop = true) :
    Faults s (s.offLoop i k) .loopbody (wordValue i) := by
  rw [wordValue_eq_wordOf, State.offLoop, if_pos h]
  exact trap_faults s .loopbody (wordOf i)

theorem offLoop_of_outside {s : State} (i : Instr) (k : Out) (h : s.me.inLoop = false) : s.offLoop i k = k := by
  simp [State.offLoop, h]

theorem gotX_doneTo (t : Strand) (d : XReg) (w pc : Word) : Strand.GotX d w t ((t.setX d w).doneTo pc) := by
  refine ⟨?_, fun r hr => by simp [hr], ?_⟩
  · by_cases h : d = 0
    · subst h
      rfl
    · rw [xr_doneTo, xr_setX, if_pos ⟨rfl, h⟩, if_neg h]
  · rw [doneTo_x, ← marksOf_setX]
    rfl

theorem finishTo_same (s : State) (pc : Word) : JumpsTo s (s.finishTo s.me pc) pc (Strand.Same s.me) :=
  finishTo_jumps s s.me pc _ rfl rfl rfl

theorem finishTo_gotX (s : State) (d : XReg) (w pc : Word) :
    JumpsTo s (s.finishTo (s.me.setX d w) pc) pc (Strand.GotX d w s.me) :=
  finishTo_jumps s _ pc _ (setX_instret ..) (setX_lpc ..) (gotX_doneTo ..)

/-! ### Immediates and offsets (06, R127) -/

theorem sext_eq_ofInt {n : Nat} (i : BitVec n) : sext i = BitVec.ofInt 64 i.toInt := rfl

theorem zext_eq_ofNat {n : Nat} (i : BitVec n) : zext i = BitVec.ofNat 64 i.toNat := (BitVec.ofNat_toNat ..).symm

theorem toInt_sext {n : Nat} (i : BitVec n) (h : n ≤ 64) : (sext i).toInt = i.toInt :=
  BitVec.toInt_signExtend_of_le h

/-! ### Sums, shifts and comparisons of words as numbers (07, R146) -/

theorem add_ofInt (x : Word) (z : Int) : x + BitVec.ofInt 64 z = BitVec.ofInt 64 (x.toInt + z) := by
  rw [BitVec.ofInt_add, BitVec.ofInt_toInt]

theorem shiftLeft_eq_ofNat (x : Word) (n : Nat) : x <<< n = BitVec.ofNat 64 (x.toNat * 2 ^ n) := by
  rw [← Nat.shiftLeft_eq]
  rfl

theorem ofInt_shiftLeft (z : Int) (n : Nat) : BitVec.ofInt 64 z <<< n = BitVec.ofInt 64 (z * 2 ^ n) := by
  have hpow : BitVec.ofInt 64 (2 ^ n) = BitVec.ofNat 64 (2 ^ n) := by
    rw [← BitVec.ofInt_natCast]
    push_cast
    rfl
  rw [shiftLeft_eq_ofNat, BitVec.ofNat_mul, BitVec.ofNat_toNat, BitVec.setWidth_eq, BitVec.ofInt_mul, hpow]

theorem wordOff_eq_ofInt {n : Nat} (i : BitVec n) : wordOff i = BitVec.ofInt 64 (4 * i.toInt) := by
  rw [mul_comm]
  exact ofInt_shiftLeft i.toInt 2

theorem ushiftRight_eq_ofNat (x : Word) (n : Nat) : x >>> n = BitVec.ofNat 64 (x.toNat / 2 ^ n) := by
  rw [← Nat.shiftRight_eq_div_pow, ← BitVec.toNat_ushiftRight, BitVec.ofNat_toNat, BitVec.setWidth_eq]

theorem sshiftRight_eq_ofInt (x : Word) (n : Nat) : x.sshiftRight n = BitVec.ofInt 64 (x.toInt / 2 ^ n) := by
  rw [BitVec.sshiftRight_eq, Int.shiftRight_eq_div_pow]
  push_cast
  rfl

/-- Bit `k` goes `n` places to the left, round the word's end. -/
theorem getLsbD_rotateLeft_add (x : Word) (n k : Nat) (hk : k < 64) :
    (x.rotateLeft n).getLsbD ((k + n) % 64) = x.getLsbD k := by
  rw [BitVec.getLsbD_rotateLeft]
  by_cases hwrap : (k + n) % 64 < n % 64
  · have hfrom : 64 - n % 64 + (k + n) % 64 = k := by omega
    simp [hwrap, hfrom]
  · have hfrom : (k + n) % 64 - n % 64 = k := by omega
    have hlt : (k + n) % 64 < 64 := Nat.mod_lt _ (by omega)
    simp [hwrap, hfrom, hlt]

theorem bit01_slt (x y : Word) : bit01 (x.slt y) = if x.toInt < y.toInt then 1 else 0 := by
  simp [bit01, BitVec.slt_eq_decide]

theorem bit01_ult (x y : Word) : bit01 (x.ult y) = if x.toNat < y.toNat then 1 else 0 := by
  simp [bit01, BitVec.ult_eq_decide]

/-! ### Division (07, R149) -/

theorem divS_zero (x : Word) : divS x 0 = BitVec.allOnes 64 := rfl
theorem divU_zero (x : Word) : divU x 0 = BitVec.allOnes 64 := rfl
theorem remS_zero (x : Word) : remS x 0 = x := rfl
theorem remU_zero (x : Word) : remU x 0 = x := rfl

theorem divS_mul_add_remS (x y : Word) : divS x y * y + remS x y = x := by
  by_cases h : y = 0
  · subst h
    rw [remS_zero, mul_zero, zero_add]
  · rw [divS, remS, if_neg h, if_neg h]
    calc BitVec.ofInt 64 (x.toInt.tdiv y.toInt) * y + BitVec.ofInt 64 (x.toInt.tmod y.toInt)
      _ = BitVec.ofInt 64 (x.toInt.tdiv y.toInt * y.toInt + x.toInt.tmod y.toInt) := by
        rw [BitVec.ofInt_add, BitVec.ofInt_mul, BitVec.ofInt_toInt]
      _ = x := by rw [Int.tdiv_mul_add_tmod, BitVec.ofInt_toInt]

theorem toNat_divU (x y : Word) (h : y ≠ 0) : (divU x y).toNat = x.toNat / y.toNat := by
  rw [divU, if_neg h, ← BitVec.udiv_def, BitVec.toNat_udiv]

theorem toNat_remU (x y : Word) : (remU x y).toNat = x.toNat % y.toNat := by
  by_cases h : y = 0
  · subst h
    exact (Nat.mod_zero _).symm
  · rw [remU, if_neg h, ← BitVec.umod_def, BitVec.toNat_umod]

theorem divU_mul_add_remU_toNat (x y : Word) (h : y ≠ 0) :
    (divU x y).toNat * y.toNat + (remU x y).toNat = x.toNat := by
  rw [toNat_divU x y h, toNat_remU, Nat.div_add_mod']

theorem divU_mul_add_remU (x y : Word) : divU x y * y + remU x y = x := by
  by_cases h : y = 0
  · subst h
    rw [remU_zero, mul_zero, zero_add]
  · apply BitVec.eq_of_toNat_eq
    rw [BitVec.toNat_add, BitVec.toNat_mul, Nat.mod_add_mod, divU_mul_add_remU_toNat x y h, Nat.mod_eq_of_lt x.isLt]

theorem toInt_remS (x y : Word) : (remS x y).toInt = x.toInt.tmod y.toInt := by
  by_cases h : y = 0
  · subst h
    exact (Int.tmod_zero _).symm
  · rw [remS, if_neg h, ← BitVec.toInt_srem, BitVec.ofInt_toInt]

/-- Away from the one overflow the quotient is the exact one, rounded toward zero. -/
theorem toInt_divS (x y : Word) (h : y ≠ 0) (hover : ¬ (x = 0x8000000000000000#64 ∧ y = BitVec.allOnes 64)) :
    (divS x y).toInt = x.toInt.tdiv y.toInt := by
  have hsdiv : divS x y = x.sdiv y := by
    apply BitVec.eq_of_toInt_eq
    rw [divS, if_neg h, BitVec.toInt_ofInt, BitVec.toInt_sdiv]
  rw [hsdiv]
  exact BitVec.toInt_sdiv_of_ne_or_ne x y (not_and_or.mp hover)

theorem divS_overflow : divS 0x8000000000000000#64 (BitVec.allOnes 64) = 0x8000000000000000#64 ∧
    remS 0x8000000000000000#64 (BitVec.allOnes 64) = 0 := by decide

theorem toNat_remU_lt (x y : Word) (h : y ≠ 0) : (remU x y).toNat < y.toNat := by
  rw [toNat_remU]
  exact Nat.mod_lt _ (Nat.pos_of_ne_zero fun h0 => h (toNat_inj.mp h0))

theorem natAbs_remS_lt (x y : Word) (h : y ≠ 0) : (remS x y).toInt.natAbs < y.toInt.natAbs := by
  rw [toInt_remS, Int.natAbs_tmod]
  exact Nat.mod_lt _ (Int.natAbs_pos.mpr fun h0 => h (BitVec.eq_of_toInt_eq h0))

theorem remS_nonneg (x y : Word) (h : 0 ≤ x.toInt) : 0 ≤ (remS x y).toInt := by
  rw [toInt_remS]
  exact Int.tmod_nonneg _ h

theorem remS_nonpos (x y : Word) (h : x.toInt ≤ 0) : (remS x y).toInt ≤ 0 := by
  have hneg : 0 ≤ (-x.toInt).tmod y.toInt := Int.tmod_nonneg _ (by omega)
  rw [Int.neg_tmod] at hneg
  rw [toInt_remS]
  omega

/-! ### Fields of a word (06, R127) -/

theorem bitsAt_eq_extract (w : BitVec 32) (lo len : Nat) : bitsAt w.toNat lo len = (w.extractLsb' lo len).toNat := by
  rw [BitVec.extractLsb'_toNat, Nat.shiftRight_eq_div_pow]
  rfl

theorem bitsAt_major (w : BitVec 32) : bitsAt w.toNat 26 6 = (fMajor w).toNat := bitsAt_eq_extract w 26 6

theorem bitsAt_imm (w : BitVec 32) : bitsAt w.toNat 0 16 = (fI w).toNat := bitsAt_eq_extract w 0 16

/-- The immediate of a shift: its operation above its count (07, R151). -/
theorem toNat_shiftImm (op : BitVec 10) (n : BitVec 6) : (op ++ n).toNat = 64 * op.toNat + n.toNat := by
  rw [BitVec.toNat_append, ← Nat.shiftLeft_add_eq_or_of_lt n.isLt, Nat.shiftLeft_eq, mul_comm]

/-! ### How the forms complete -/

/-- A form that completes with the value `v` in x[d] gives `w` there when that is `v`. -/
theorem givesX_of_finish {s : State} {o : Out} {d : XReg} {v w : Word} (ho : o = s.finish (s.me.setX d v)) (hv : v = w) :
    GivesX s o d w := by
  subst ho hv
  exact finish_givesX s d v

/-- Outside a loop body a branch goes by its condition `p`. -/
theorem branch_jumpsTo {s : State} {c : Word → Word → Bool} {b a : XReg} {p : Prop} [Decidable p] (i : Instr)
    (o : BitVec 16) (hl : s.me.inLoop = false) (hc : c (s.me.xr a) (s.me.xr b) = true ↔ p) :
    JumpsTo s (branch i c b a o s) (if p then s.me.pc + BitVec.ofInt 64 (4 * o.toInt) else s.me.pc + 4)
      (Strand.Same s.me) := by
  rw [branch, offLoop_of_outside i _ hl, ← wordOff_eq_ofInt, ← if_congr hc rfl rfl]
  exact finishTo_same s _

/-- In a loop body a branch is not looked at: it raises LOOPBODY whether it would be taken or not. -/
theorem branch_faults {s : State} {c : Word → Word → Bool} {b a : XReg} {o : BitVec 16} (i : Instr)
    (hl : s.me.inLoop = true) : Faults s (branch i c b a o s) .loopbody (wordValue i) :=
  offLoop_faults i _ hl

theorem exec_beq (b a : XReg) (o : BitVec 16) (s : State) :
    exec (.beq b a o) s = branch (.beq b a o) (fun x y => x == y) b a o s := rfl
theorem exec_bne (b a : XReg) (o : BitVec 16) (s : State) :
    exec (.bne b a o) s = branch (.bne b a o) (fun x y => x != y) b a o s := rfl
theorem exec_blt (b a : XReg) (o : BitVec 16) (s : State) :
    exec (.blt b a o) s = branch (.blt b a o) (fun x y => x.slt y) b a o s := rfl
theorem exec_bge (b a : XReg) (o : BitVec 16) (s : State) :
    exec (.bge b a o) s = branch (.bge b a o) (fun x y => !(x.slt y)) b a o s := rfl
theorem exec_bltu (b a : XReg) (o : BitVec 16) (s : State) :
    exec (.bltu b a o) s = branch (.bltu b a o) (fun x y => x.ult y) b a o s := rfl
theorem exec_bgeu (b a : XReg) (o : BitVec 16) (s : State) :
    exec (.bgeu b a o) s = branch (.bgeu b a o) (fun x y => !(x.ult y)) b a o s := rfl
theorem exec_jmp (o : BitVec 26) (s : State) :
    exec (.jmp o) s = s.offLoop (.jmp o) (s.finishTo s.me (s.me.pc + wordOff o)) := rfl
theorem exec_jal (o : BitVec 26) (s : State) :
    exec (.jal o) s = s.offLoop (.jal o) (s.finishTo (s.me.setX 1 (s.me.pc + 4)) (s.me.pc + wordOff o)) := rfl
theorem exec_jalr (d a : XReg) (i : BitVec 16) (s : State) :
    exec (.jalr d a i) s = s.offLoop (.jalr d a i)
      (if (s.me.xr a + sext i).toNat % 4 ≠ 0 then s.trap .align (s.me.xr a + sext i)
        else s.finishTo (s.me.setX d (s.me.pc + 4)) (s.me.xr a + sext i)) := rfl

/-! ### What R149, R151, R152 and R153 say -/

/-- Settles O11: each form leaves `divS`, `remS`, `divU` or `remU` of its operands, and these are what R149 says. -/
theorem divisions : Obligations.Divisions := by
  intro d a b s x y
  refine ⟨divS x y, remS x y, divU x y, remU x y, finish_givesX s d _, finish_givesX s d _, finish_givesX s d _,
    finish_givesX s d _, divS_mul_add_remS x y, divU_mul_add_remU x y, ?zero, ?overflow, ?unsigned, ?remainder, ?signed⟩
  case zero =>
    intro h
    rw [h]
    exact ⟨divS_zero x, divU_zero x, remS_zero x, remU_zero x⟩
  case overflow =>
    intro hx hy
    rw [hx, hy]
    exact divS_overflow
  case unsigned => exact fun h => ⟨toNat_remU_lt x y h, divU_mul_add_remU_toNat x y h⟩
  case remainder => exact fun h => ⟨natAbs_remS_lt x y h, remS_nonneg x y, remS_nonpos x y⟩
  case signed =>
    intro h hover
    rw [toInt_divS x y h hover, toInt_remS, Int.tdiv_mul_add_tmod]

/-- Settles O13: the value of each form, read as the number R151 gives, and the fields of its word. -/
theorem immediates : Obligations.Immediates := by
  intro d a i n s x
  refine ⟨?addi, ?andi, ?ori, ?xori, ?slli, ?srli, ?srai, ?roli, ?slti, ?sltiu, ?lhi, ?addpc, ?majors, ?shifts⟩
  case addi => exact givesX_of_finish rfl (add_ofInt x i.toInt)
  case andi => exact givesX_of_finish rfl (congrArg (x &&& ·) (zext_eq_ofNat i))
  case ori => exact givesX_of_finish rfl (congrArg (x ||| ·) (zext_eq_ofNat i))
  case xori => exact givesX_of_finish rfl (congrArg (x ^^^ ·) (zext_eq_ofNat i))
  case slli => exact givesX_of_finish rfl (shiftLeft_eq_ofNat x n.toNat)
  case srli => exact givesX_of_finish rfl (ushiftRight_eq_ofNat x n.toNat)
  case srai => exact givesX_of_finish rfl (sshiftRight_eq_ofInt x n.toNat)
  case roli => exact ⟨_, finish_givesX s d (x.rotateLeft n.toNat), getLsbD_rotateLeft_add x n.toNat⟩
  case slti =>
    refine givesX_of_finish rfl ((bit01_slt x (sext i)).trans ?_)
    rw [toInt_sext i (by decide)]
  case sltiu => exact givesX_of_finish rfl (bit01_ult x (sext i))
  case lhi => exact givesX_of_finish rfl (ofInt_shiftLeft i.toInt 16)
  case addpc =>
    refine givesX_of_finish rfl ?_
    rw [wordOff_eq_ofInt, add_ofInt]
  case majors =>
    change [bitsAt (packI 0x08#6 d a i).toNat 26 6, bitsAt (packI 0x09#6 d a i).toNat 26 6,
      bitsAt (packI 0x0A#6 d a i).toNat 26 6, bitsAt (packI 0x0B#6 d a i).toNat 26 6,
      bitsAt (packI 0x0C#6 d a (0#10 ++ n)).toNat 26 6, bitsAt (packI 0x0C#6 d a (1#10 ++ n)).toNat 26 6,
      bitsAt (packI 0x0C#6 d a (2#10 ++ n)).toNat 26 6, bitsAt (packI 0x0C#6 d a (3#10 ++ n)).toNat 26 6,
      bitsAt (packI 0x0D#6 d a i).toNat 26 6, bitsAt (packI 0x0E#6 d a i).toNat 26 6,
      bitsAt (packI 0x0F#6 d 0#5 i).toNat 26 6, bitsAt (packI 0x10#6 d 0#5 i).toNat 26 6] = _
    simp only [bitsAt_major, fMajor_packI]
    rfl
  case shifts =>
    change [bitsAt (packI 0x0C#6 d a (0#10 ++ n)).toNat 0 16, bitsAt (packI 0x0C#6 d a (1#10 ++ n)).toNat 0 16,
      bitsAt (packI 0x0C#6 d a (2#10 ++ n)).toNat 0 16, bitsAt (packI 0x0C#6 d a (3#10 ++ n)).toNat 0 16] = _
    simp only [bitsAt_imm, fI_packI, toNat_shiftImm]
    simp

/-- Settles O15: outside a loop body each form goes on at its target, inside one it raises LOOPBODY. -/
theorem branchesAndJumps : Obligations.BranchesAndJumps := by
  refine ⟨fun b a o s => ⟨fun hl => ?branches, fun hl => ?branchesInBody, ?branchMajors⟩,
    fun d a i o s => ⟨fun hl => ?jumps, fun hl => ?jumpsInBody, ?jumpMajors⟩⟩
  case branches =>
    simp only [exec_beq, exec_bne, exec_blt, exec_bge, exec_bltu, exec_bgeu]
    exact ⟨branch_jumpsTo _ o hl beq_iff_eq, branch_jumpsTo _ o hl bne_iff_ne,
      branch_jumpsTo _ o hl BitVec.slt_iff_toInt_lt, branch_jumpsTo _ o hl (by simp [BitVec.slt_eq_decide]),
      branch_jumpsTo _ o hl BitVec.ult_iff_toNat_lt, branch_jumpsTo _ o hl (by simp [BitVec.ult_eq_decide])⟩
  case branchesInBody =>
    simp only [exec_beq, exec_bne, exec_blt, exec_bge, exec_bltu, exec_bgeu]
    exact ⟨branch_faults _ hl, branch_faults _ hl, branch_faults _ hl, branch_faults _ hl, branch_faults _ hl,
      branch_faults _ hl⟩
  case branchMajors =>
    change [bitsAt (packI 0x11#6 b a o).toNat 26 6, bitsAt (packI 0x12#6 b a o).toNat 26 6,
      bitsAt (packI 0x13#6 b a o).toNat 26 6, bitsAt (packI 0x14#6 b a o).toNat 26 6,
      bitsAt (packI 0x15#6 b a o).toNat 26 6, bitsAt (packI 0x16#6 b a o).toNat 26 6] = _
    simp only [bitsAt_major, fMajor_packI]
    rfl
  case jumps =>
    simp only [exec_jmp, exec_jal, exec_jalr, offLoop_of_outside _ _ hl, ← wordOff_eq_ofInt, ← sext_eq_ofInt]
    refine ⟨finishTo_same s _, finishTo_gotX s 1 _ _, fun haligned => ?_, fun hmis => ?_⟩
    · rw [if_neg (not_not_intro haligned)]
      exact finishTo_gotX s d _ _
    · rw [if_pos hmis]
      exact trap_faults s .align _
  case jumpsInBody =>
    simp only [exec_jmp, exec_jal, exec_jalr]
    exact ⟨offLoop_faults _ _ hl, offLoop_faults _ _ hl, offLoop_faults _ _ hl⟩
  case jumpMajors =>
    change [bitsAt (packJ 0x17#6 o).toNat 26 6, bitsAt (packJ 0x18#6 o).toNat 26 6,
      bitsAt (packI 0x19#6 d a i).toNat 26 6] = _
    simp only [bitsAt_major, fMajor_packI, fMajor_packJ]
    rfl

end Sys2Proof.Proofs
end

section
/-! SUPPORT. The causes that complete and the return from a handler (19, R369, R375, R376): what `trap`, `sysc` and `brk`
leave, what `kret` leaves, and the two one after the other. -/

namespace Sys2Proof.Proofs

open Sys2Proof Sys2Proof.Machine Sys2Proof.Laws

/-! ### A completing cause (19, R369, R372, R375) -/

theorem unwaited_of_none {t : Strand} (h : t.wait = none) : unwaited t t.waited t.probed = t := by
  rw [unwaited, ← h]

/-- A completed strand stands in no wait, so `trap_entry` withdraws none. -/
theorem enter_done_entered (t : Strand) (c : Cause) (value epc : Word) :
    Strand.Entered c.code value epc t.done (t.done.enter c.code value false epc) := by
  have h := enter_entered t.done c value epc t.done.waited t.done.probed
  rwa [unwaited_of_none (done_wait t)] at h

/-- The completion clears ENTRY, so that the missing handler alone ends the context (19, R372). -/
theorem trapAfter_eq (s : State) (c : Cause) (value : Word) :
    s.trapAfter c value =
      .next (if s.me.tvec = 0 then (s.setMe s.me.done).endContext s.me.ctx c.code
        else s.setMe (s.me.done.enter c.code value false s.me.done.pc)) := by
  have hmine : (s.setMe s.me.done).strand s.cur = s.me.done := me_setMe s s.me.done
  simp only [State.trapAfter, State.trapEntry, hmine, done_tvec, done_entry, done_ctx, Bool.or_false, decide_eq_true_eq]
  rw [← setMe_setMe s s.me.done (s.me.done.enter c.code value false s.me.done.pc)]
  rfl

/-- A meaning that ends in `State.trapAfter` raises the cause once it is complete, as `TrapsAfter` says it. -/
theorem trapAfter_trapsAfter (s : State) (c : Cause) (value : Word) : TrapsAfter s (s.trapAfter c value) c value := by
  rw [trapAfter_eq]
  refine ⟨s.me.done, inLine_done _ _ (sameLine_refl _), done_eq s.me, fun hvec => ?_, fun hvec => ?_⟩
  · rw [if_neg hvec]
    refine ⟨_, rfl, onlyMe_setMe _ _, ?_⟩
    rw [me_setMe]
    exact enter_done_entered s.me c value s.me.done.pc
  · rw [if_pos hvec]

theorem exec_trap (a : XReg) (s : State) : exec (.trap a) s = s.trapAfter .trap (s.me.xr a) := rfl
theorem exec_sysc (s : State) : exec .sysc s = s.trapAfter .sysc 0 := rfl
theorem exec_brk (n : BitVec 10) (s : State) : exec (.brk n) s = s.trapAfter .brk (zext n) := rfl

/-! ### The return from a handler (19, R376) -/

theorem exec_kret (s : State) : exec .kret s = s.inK .kret (s.offLoop .kret
    (if s.me.epc.toNat % 4 ≠ 0 then s.trap .align s.me.epc else s.finishTo s.me.kret s.me.epc)) := rfl

theorem inK_of_privileged {s : State} (i : Instr) (k : Out) (h : s.me.mode ≠ 0) : s.inK i k = k := if_neg h

theorem exec_kret_of_aligned {s : State} (hmode : s.me.mode ≠ 0) (hl : s.me.inLoop = false)
    (haligned : s.me.epc.toNat % 4 = 0) : exec .kret s = s.finishTo s.me.kret s.me.epc := by
  rw [exec_kret, inK_of_privileged _ _ hmode, offLoop_of_outside _ _ hl, if_neg (not_not_intro haligned)]

theorem exec_kret_of_misaligned {s : State} (hmode : s.me.mode ≠ 0) (hl : s.me.inLoop = false)
    (hmis : s.me.epc.toNat % 4 ≠ 0) : exec .kret s = s.trap .align s.me.epc := by
  rw [exec_kret, inK_of_privileged _ _ hmode, offLoop_of_outside _ _ hl, if_pos hmis]

theorem kret_doneTo_eq (t : Strand) (pc : Word) :
    t.kret.doneTo pc = { t.marksOf (t.kret.doneTo pc) with
      lpstart := t.elpstart, lpend := t.elpend, mode := t.pmode, pmode := 0 } := rfl

/-! ### The pc in line stays a multiple of 4 (06, R120) -/

theorem and_three_eq_zero {x : Word} (h : x.toNat % 4 = 0) : x &&& 3 = 0 := by
  apply BitVec.eq_of_toNat_eq
  rw [BitVec.toNat_and]
  exact (Nat.and_two_pow_sub_one_eq_mod x.toNat 2).trans h

theorem advance_pc_aligned {t : Strand} (hpc : t.pc.toNat % 4 = 0) (hstart : t.lpstart.toNat % 4 = 0)
    (hend : t.lpend.toNat % 4 = 0) : t.advance.pc.toNat % 4 = 0 := by
  obtain ⟨hlast, hagain, hnext⟩ := inLine_advance t
  by_cases hbody : t.atBodyEnd
  · by_cases htrip : t.lpc = 1
    · rwa [(hlast ⟨hbody, htrip⟩).1]
    · rwa [(hagain ⟨hbody, htrip⟩).1 (and_three_eq_zero hstart)]
  · rw [(hnext hbody).1, BitVec.toNat_add]
    change (t.pc.toNat + 4) % 2 ^ 64 % 4 = 0
    omega

/-! ### A system call and the return from it (19, R370, R376) -/

/-- `t`, its system call complete, after the entry and a handler that only returns. -/
def calledAndReturned (t : Strand) : Strand := (t.enter Cause.sysc.code 0 false t.pc).kret.doneTo t.pc

@[simp] theorem calledAndReturned_pc (t : Strand) : (calledAndReturned t).pc = t.pc := rfl
@[simp] theorem calledAndReturned_mode (t : Strand) : (calledAndReturned t).mode = t.mode := rfl
@[simp] theorem calledAndReturned_lpstart (t : Strand) : (calledAndReturned t).lpstart = t.lpstart := rfl
@[simp] theorem calledAndReturned_lpend (t : Strand) : (calledAndReturned t).lpend = t.lpend := rfl
theorem calledAndReturned_lpc (t : Strand) : (calledAndReturned t).lpc =
    if t.lpstart.toNat ≤ t.pc.toNat ∧ t.pc.toNat < t.lpend.toNat then t.lpc else 0 := rfl
@[simp] theorem calledAndReturned_x (t : Strand) : (calledAndReturned t).x = t.x := rfl
@[simp] theorem calledAndReturned_v (t : Strand) : (calledAndReturned t).v = t.v := rfl
@[simp] theorem calledAndReturned_p (t : Strand) : (calledAndReturned t).p = t.p := rfl
@[simp] theorem calledAndReturned_d (t : Strand) : (calledAndReturned t).d = t.d := rfl
@[simp] theorem calledAndReturned_hue (t : Strand) : (calledAndReturned t).hue = t.hue := rfl
@[simp] theorem calledAndReturned_buf (t : Strand) : (calledAndReturned t).buf = t.buf := rfl

@[simp] theorem done_pc (t : Strand) : t.done.pc = t.advance.pc := rfl
@[simp] theorem done_lpc (t : Strand) : t.done.lpc = t.advance.lpc := rfl

/-- A strand that stands in its loop, or has no trips due, comes back with the trips it had. -/
theorem calledAndReturned_lpc_same {t : Strand}
    (h : t.lpc = 0 ∨ t.lpstart.toNat ≤ t.pc.toNat ∧ t.pc.toNat < t.lpend.toNat) : (calledAndReturned t).lpc = t.lpc := by
  rw [calledAndReturned_lpc]
  rcases h with hnone | hin
  · rw [hnone, ite_self]
  · rw [if_pos hin]

/-- The handler is outside every loop body: its entry leaves no trips due. -/
theorem enter_inLoop (t : Strand) (code : Nat) (value epc : Word) (async : Bool) :
    (t.enter code value async epc).inLoop = false := rfl

theorem enter_mode_of_user {t : Strand} (code : Nat) (value epc : Word) (async : Bool) (h : t.mode = 0) :
    (t.enter code value async epc).mode = 1 := by
  simp [Strand.enter, h]

theorem exec_sysc_of_handler {s : State} (hvec : s.me.tvec ≠ 0) :
    exec .sysc s = .next (s.setMe (s.me.done.enter Cause.sysc.code 0 false s.me.done.pc)) := by
  rw [exec_sysc, trapAfter_eq, if_neg hvec]

theorem exec_kret_of_entered (s : State) {t : Strand} (hmode : t.mode = 0) (haligned : t.pc.toNat % 4 = 0) :
    exec .kret (s.setMe (t.enter Cause.sysc.code 0 false t.pc)) = .next (s.setMe (calledAndReturned t)) := by
  have hme := me_setMe s (t.enter Cause.sysc.code 0 false t.pc)
  have hkernel : (t.enter Cause.sysc.code 0 false t.pc).mode ≠ 0 := by
    rw [enter_mode_of_user _ _ _ _ hmode]
    decide
  rw [exec_kret_of_aligned (by rwa [hme]) (by rw [hme]; exact enter_inLoop ..) (by rwa [hme]), hme]
  exact congrArg Host.Outcome.next (setMe_setMe s _ _)

/-! ### What R375 and R376 say -/

/-- Settles O18: each form is a completing cause with its own code and value. -/
theorem completingTraps : Obligations.CompletingTraps := by
  intro a n s
  rw [exec_trap, exec_sysc, exec_brk, zext_eq_ofNat]
  exact ⟨trapAfter_trapsAfter s .trap _, trapAfter_trapsAfter s .sysc _, trapAfter_trapsAfter s .brk _⟩

/-- Settles O19: `kret` by its checks in their order, and then after a `sysc`, whose entry saves what it restores. -/
theorem kernelReturn : Obligations.KernelReturn := by
  refine ⟨fun s hmode => ⟨fun hl haligned => ?returns, fun hl hmis => ?misaligned, fun hl => ?inBody⟩,
    fun s hmode hvec hpc hstart hend => ?roundTrip⟩
  case returns =>
    rw [exec_kret_of_aligned hmode hl haligned]
    exact finishTo_leaves s s.me.kret s.me.epc _ rfl ⟨rfl, rfl, rfl, rfl, kret_doneTo_eq s.me s.me.epc⟩
  case misaligned =>
    rw [exec_kret_of_misaligned hmode hl hmis]
    exact trap_faults s .align s.me.epc
  case inBody =>
    rw [exec_kret, inK_of_privileged _ _ hmode]
    exact offLoop_faults _ _ hl
  case roundTrip =>
    have haligned : s.me.done.pc.toNat % 4 = 0 := advance_pc_aligned hpc hstart hend
    have huser : s.me.done.mode = 0 := (done_mode s.me).trans hmode
    refine ⟨_, _, exec_sysc_of_handler hvec, exec_kret_of_entered s huser haligned, ?_⟩
    have htrips := calledAndReturned_lpc_same (t := s.me.done)
    have honly := onlyMe_setMe s (calledAndReturned s.me.done)
    simpa [hmode, honly] using htrips

end Sys2Proof.Proofs
end
